-- ==== Sys2Proof/Word.lean ====
section
/-! DEFINITION. The word types of the machine (spec/00_scope.md R8, spec/20_memory.md R90). -/

namespace Sys2Proof

/-- A 16-bit register, data address or data word (R8, R90). -/
abbrev Word := BitVec 16

/-- One byte of data space (R90, R97). -/
abbrev Byte := BitVec 8

/-- A program-space address: a vector entry is a 24-bit address that becomes the new `pc` (R22, R91). -/
abbrev PAddr := BitVec 24

/-- One 24-bit word of program memory, which occupies two program addresses (R22, R90). -/
abbrev PWord := BitVec 24

end Sys2Proof
end

