-- ==== Sys2Proof/Syntax.lean ====
section
/-! DEFINITION. The instructions: one constructor of `Instr` for each row of spec/opcode_table.json, which is
the event alphabet of spec/30_encoding.md R123, and the operand types the constructors use. -/

namespace Sys2Proof

/-- The special function registers the spec names (R20, R99). IPC numbers 10, 12 and 13 do not exist
(R63): `WellFormed` refuses them. -/
inductive Sfr where
  | sr | corcon | intcon1 | intcon2 | inttreg
  | ifs (i : Fin 5) | iec (i : Fin 5) | ipc (i : Fin 20)
  | disicnt | splim | rcon | osccon
  deriving DecidableEq, Repr

/-- The two accumulators (R38). -/
inductive Acc where
  | a | b
  deriving DecidableEq, Repr

/-- The two power-saving modes of PWRSAV (R148). -/
inductive PowerMode where
  | sleep | idle
  deriving DecidableEq, Repr

/-- The shift count of SFTAC: a literal, or the value in any working register (R174). -/
inductive ShiftCount where
  | lit (n : Int)
  | reg (r : Fin 16)
  deriving DecidableEq, Repr

/-- Access widths of data space (R97, R101). -/
inductive Size where
  | byte | word
  deriving DecidableEq, Repr

/-- What a data access does: it reads, or it stores the value the event carries (R178, R179). -/
inductive DataOp where
  | read
  | write (v : Word)
  deriving DecidableEq, Repr

/-- The two halves of data space as a MAC-class instruction sees it (R98). -/
inductive MacSpace where
  | x | y
  deriving DecidableEq, Repr

/-- How an access through W15 computes its effective address from W15 and leaves W15 (R95, R176):
`[W15]`, `[W15 + k]`, an access at W15 that then adds `d`, an access at `W15 + d` that W15 keeps. -/
inductive StackMode where
  | indirect
  | offset (k : Int)
  | postModify (d : Int)
  | preModify (d : Int)
  deriving DecidableEq, Repr

/-- A software write to DISICNT, or an add to it (R144). -/
inductive CountOp where
  | write (v : BitVec 14)
  | add (d : BitVec 14)
  deriving DecidableEq, Repr

/-- The set of trap conditions an instruction meets (R123 `Other(c)`, R170): the overflow and the
catastrophic overflow of each accumulator, an SFTAC count out of range, a divide by zero, a stack error,
an address error. -/
structure TrapConds where
  ovA : Bool := false
  ovB : Bool := false
  covA : Bool := false
  covB : Bool := false
  shift : Bool := false
  div0 : Bool := false
  stack : Bool := false
  addr : Bool := false
  deriving DecidableEq, Repr

/-- The instructions. Each docstring names the event of R123 and its rule. -/
inductive Instr where
  /-- `Nop` (R147). -/
  | nop
  /-- `Retfie` (R145). -/
  | retfie
  /-- `Return` (R182). -/
  | ret
  /-- `Reset` (R146). -/
  | reset
  /-- `Pwrsav(m)` (R148). -/
  | pwrsav (m : PowerMode)
  /-- `Disi(k)` (R141). -/
  | disi (k : BitVec 14)
  /-- REPEAT, the loop that executes a divide instruction (R185). -/
  | repeatLit (k : BitVec 14)
  /-- `Goto(t)`, both program words: `lo` is `t[15:1]` of word 1, `hi` is `t[22:16]` of word 2 (R125, R183). -/
  | gotoWord1 (lo : BitVec 15) (hi : BitVec 7)
  /-- The second program word of a GOTO reached on its own (R125). -/
  | gotoWord2 (hi : BitVec 7)
  /-- `Bra(t)` with `t = pc + 2 + 2*n` (R125, R184). -/
  | bra (n : BitVec 16)
  /-- `PUSH f`, which is `PushSR` where `f` is the address of SR; the operand is `f[15:1]` (R125, R149). -/
  | pushF (f : BitVec 15)
  /-- `POP f`, which is `PopSR` where `f` is the address of SR; the operand is `f[15:1]` (R125, R154). -/
  | popF (f : BitVec 15)
  /-- `OrSRL(v)` (R155). -/
  | orSrl (v : Byte)
  /-- `Sftac(a, n)` (R174). -/
  | sftac (acc : Acc) (n : ShiftCount)
  /-- `RepeatDiv(divisor)`: a divide instruction executed by a REPEAT loop (R175). -/
  | repeatDiv (divisor : Int)
  /-- `AccOp(a, ov31, ov39)` (R171 to R173). -/
  | accOp (acc : Acc) (ov31 ov39 : Bool)
  /-- MOV.D with a PSV access: an `Other(c)` event (R186). -/
  | movdPsv (c : TrapConds)
  /-- BTSC with a PSV access: an `Other(c)` event, which may skip the next instruction (R186). -/
  | btscPsv (c : TrapConds) (skip : Bool)
  /-- BTSS with a PSV access: an `Other(c)` event, which may skip the next instruction (R186). -/
  | btssPsv (c : TrapConds) (skip : Bool)
  /-- `DataAccess(Bit-indirect, ea)` (R178, R179). -/
  | bitIndirect (ea : Word) (op : DataOp)
  /-- `DataAccess(Byte, ea)` and `DataAccess(Word, ea)` (R178, R179). -/
  | dataAccess (size : Size) (ea : Word) (op : DataOp)
  /-- `DataAccess(MacX, ea)` and `DataAccess(MacY, ea)` (R179). -/
  | macFetch (space : MacSpace) (ea : Word)
  /-- `StackAccess(ea, w)` (R176, R177). -/
  | stackAccess (mode : StackMode) (size : Size) (op : DataOp)
  /-- `SfrWrite(r, v)` (R150). -/
  | sfrWrite (r : Sfr) (v : Word)
  /-- `SfrRead(r)` (R151). -/
  | sfrRead (r : Sfr)
  /-- `SfrBitClear(r, b)` (R152). -/
  | sfrBitClear (r : Sfr) (b : Fin 16)
  /-- `SfrBitSet(r, b)` (R153). -/
  | sfrBitSet (r : Sfr) (b : Fin 16)
  /-- `SfrFieldWrite(r, hi, lo, v)` (R157). -/
  | sfrFieldWrite (r : Sfr) (hi lo : Fin 16) (v : Word)
  /-- `SplimWrite(v)` (R156). -/
  | splimWrite (v : Word)
  /-- `DisicntWrite(v)`, a write or an add (R144). -/
  | disicntWrite (op : CountOp)
  /-- `Other(c)`: any instruction the source does not name (R158). -/
  | other (c : TrapConds)
  deriving DecidableEq, Repr

end Sys2Proof
end

