-- ==== Sys2Proof/WellFormed.lean ====
section
/-! DEFINITION. Which instructions are well formed: the checks an operand type cannot carry by itself. -/

namespace Sys2Proof

/-- An SFR that exists: IPC10, IPC12 and IPC13 do not (R63). -/
def Sfr.wf : Sfr → Bool
  | .ipc i => i.val ≠ 10 && i.val ≠ 12 && i.val ≠ 13
  | _ => true

/-- A byte access stores a byte (R97). -/
def DataOp.wf (size : Size) : DataOp → Bool
  | .read => true
  | .write v => size = .word || v.toNat < 256

/-- A field `hi:lo` lies the right way round and its value fits in it (R157). -/
def fieldWf (hi lo : Fin 16) (v : Word) : Bool :=
  lo.val ≤ hi.val && v.toNat < 2 ^ (hi.val - lo.val + 1)

/-- The well-formed instructions. -/
def Instr.wf : Instr → Bool
  | .dataAccess size _ op => op.wf size
  | .stackAccess _ size op => op.wf size
  | .sfrWrite r _ => r.wf
  | .sfrRead r => r.wf
  | .sfrBitClear r _ => r.wf
  | .sfrBitSet r _ => r.wf
  | .sfrFieldWrite r hi lo v => r.wf && fieldWf hi lo v
  | .nop | .retfie | .ret | .reset | .pwrsav _ | .disi _ | .repeatLit _ | .gotoWord1 _ _
  | .gotoWord2 _ | .bra _ | .pushF _ | .popF _ | .orSrl _ | .sftac _ _ | .repeatDiv _
  | .accOp _ _ _ | .movdPsv _ | .btscPsv _ _ | .btssPsv _ _ | .bitIndirect _ _ | .macFetch _ _
  | .splimWrite _ | .disicntWrite _ | .other _ => true

end Sys2Proof
end

