-- ==== Sys2Proof/Decode.lean ====
section
/-! DEFINITION. Decoding and encoding of the twelve rows of spec/opcode_table.json that have an encoding
(spec/30_encoding.md R125; the encodings are the spec's general knowledge, G4). The other nineteen rows have
none: their events stand in the program map of the state. -/

namespace Sys2Proof

/-- Why a program word is no instruction of the table (R126). -/
inductive Reject where
  /-- There is no word to decode. -/
  | noWord
  /-- GOTO's second word is missing. -/
  | noSecondWord
  /-- The word after a GOTO's first word is no second word of a GOTO: bits 23:7 are not all 0. -/
  | badSecondWord
  /-- No row of the table matches the word. -/
  | unallocated
  deriving DecidableEq, Repr

/-- GOTO's second word: bits 23:7 are 0 and bits 6:0 are `t[22:16]` (R125). -/
def decodeGotoWord2 (w : PWord) : Option (BitVec 7) :=
  if w.extractLsb' 7 17 = 0#17 then some (w.extractLsb' 0 7) else none

/-- The instruction at the head of a list of program words, with the words that follow it. The opcode byte
is bits 23:16 (R125). A word of the NOP row is a NOP also where its bits are those of a GOTO's second word. -/
def decode : List PWord → Except Reject (Instr × List PWord)
  | [] => .error .noWord
  | w :: rest =>
    let op : BitVec 8 := w.extractLsb' 16 8
    let low : BitVec 16 := w.extractLsb' 0 16
    let lit14 : BitVec 14 := w.extractLsb' 0 14
    let bits1514 : BitVec 2 := w.extractLsb' 14 2
    let file : BitVec 15 := w.extractLsb' 1 15
    let bit0 : Bool := w.getLsbD 0
    if op = 0x00#8 then .ok (.nop, rest)
    else if op = 0x06#8 then
      if low = 0x4000#16 then .ok (.retfie, rest)
      else if low = 0x0000#16 then .ok (.ret, rest)
      else .error .unallocated
    else if op = 0xFE#8 then
      if low = 0x0000#16 then .ok (.reset, rest)
      else if low = 0x4000#16 then .ok (.pwrsav .sleep, rest)
      else if low = 0x4001#16 then .ok (.pwrsav .idle, rest)
      else .error .unallocated
    else if op = 0xFC#8 then
      if bits1514 = 0#2 then .ok (.disi lit14, rest) else .error .unallocated
    else if op = 0x09#8 then
      if bits1514 = 0#2 then .ok (.repeatLit lit14, rest) else .error .unallocated
    else if op = 0x04#8 then
      if bit0 then .error .unallocated
      else match rest with
        | [] => .error .noSecondWord
        | w2 :: rest2 =>
          match decodeGotoWord2 w2 with
          | some hi => .ok (.gotoWord1 file hi, rest2)
          | none => .error .badSecondWord
    else if op = 0x37#8 then .ok (.bra low, rest)
    else if op = 0xF8#8 then
      if bit0 then .error .unallocated else .ok (.pushF file, rest)
    else if op = 0xF9#8 then
      if bit0 then .error .unallocated else .ok (.popF file, rest)
    else .error .unallocated

/-- The program words of an instruction, from the encoding table of R125; none for the nineteen rows whose
encoding is "not in source". NOP's don't-care bits are written 0. -/
def encode : Instr → Option (List PWord)
  | .nop => some [0x000000#24]
  | .retfie => some [0x064000#24]
  | .ret => some [0x060000#24]
  | .reset => some [0xFE0000#24]
  | .pwrsav .sleep => some [0xFE4000#24]
  | .pwrsav .idle => some [0xFE4001#24]
  | .disi k => some [0xFC#8 ++ 0#2 ++ k]
  | .repeatLit k => some [0x09#8 ++ 0#2 ++ k]
  | .gotoWord1 lo hi => some [0x04#8 ++ lo ++ 0#1, 0#17 ++ hi]
  | .gotoWord2 hi => some [0#17 ++ hi]
  | .bra n => some [0x37#8 ++ n]
  | .pushF f => some [0xF8#8 ++ f ++ 0#1]
  | .popF f => some [0xF9#8 ++ f ++ 0#1]
  | .orSrl _ | .sftac _ _ | .repeatDiv _ | .accOp _ _ _ | .movdPsv _ | .btscPsv _ _ | .btssPsv _ _
  | .bitIndirect _ _ | .dataAccess _ _ _ | .macFetch _ _ | .stackAccess _ _ _ | .sfrWrite _ _
  | .sfrRead _ | .sfrBitClear _ _ | .sfrBitSet _ _ | .sfrFieldWrite _ _ _ _ | .splimWrite _
  | .disicntWrite _ | .other _ => none

/-- The match and the mask of every row of the encoding table (R125). -/
def encodingRows : List (PWord × PWord) :=
  [(0x000000#24, 0xFF0000#24), (0x064000#24, 0xFFFFFF#24), (0x060000#24, 0xFFFFFF#24),
   (0xFE0000#24, 0xFFFFFF#24), (0xFE4000#24, 0xFFFFFE#24), (0xFC0000#24, 0xFFC000#24),
   (0x090000#24, 0xFFC000#24), (0x040000#24, 0xFF0001#24), (0x000000#24, 0xFFFF80#24),
   (0x370000#24, 0xFF0000#24), (0xF80000#24, 0xFF0001#24), (0xF90000#24, 0xFF0001#24)]

/-- How many program words the instruction at the head of the list takes: a GOTO two, every other one
(R121). -/
def encodedWords : Instr → Nat
  | .gotoWord1 _ _ => 2
  | _ => 1

/-- The two program words of a number that holds the first word in bits 23:0 and the second in bits 47:24,
every bit from `nbits` up being 0. -/
def tableWords (nbits w : Nat) : List PWord :=
  let v := w % 2 ^ nbits
  [BitVec.ofNat 24 v, BitVec.ofNat 24 (v / 2 ^ 24)]

/-- The instruction the decoder reads from the bits `w` of a row of spec/opcode_table.json. -/
def decodeTableWord (nbits w : Nat) : Option Instr :=
  match decode (tableWords nbits w) with
  | .ok (i, _) => some i
  | .error _ => none

end Sys2Proof
end

