-- ==== Sys2Proof/Config.lean ====
section
/-! DEFINITION. What a device fixes (spec/00_scope.md R7) as plain data, and the free values: opaque
constants that stand for every `draw` of the spec, so that a statement about them holds whatever they are. -/

namespace Sys2Proof

/-- A range of addresses, both ends in it. -/
structure AddrRange where
  lo : Nat
  hi : Nat
  deriving DecidableEq, Repr

/-- A bit computed from the numbered bits of an input: how a device's `Frame` is given as data (R7, D2). -/
inductive BitExpr where
  | bit (i : Nat)
  | const (b : Bool)
  | not (a : BitExpr)
  | and (a b : BitExpr)
  | xor (a b : BitExpr)
  deriving DecidableEq, Repr

/-- The parameters of R7 that a device fixes. A state holds one `Device`, and no step changes it. -/
structure Device where
  /-- `Implemented`: bit `n` says that the device has the source of IRQ number `n` (R5, R7, D16). -/
  implemented : BitVec 118
  /-- `ProgImplemented`: the implemented program addresses (D17). -/
  progRanges : List AddrRange
  /-- `DataImplemented`: the implemented data addresses (D17). -/
  dataRanges : List AddrRange
  /-- `XSpace` (D17, R98). -/
  xRanges : List AddrRange
  /-- `YSpace` (D17, R98). -/
  yRanges : List AddrRange
  /-- `SfrAddr`: the data address of each SFR (D6, R99). -/
  sfrAddrs : List (Nat × Sfr)
  /-- `Frame`, any function of PC, SRL and IPL3 to two words (R7, R225, D2): each of the 32 bits of the two words,
  bit 0 of the first word pushed at the head of the list, as it is computed from the 33 bits IPL3 : SRL : PC. -/
  frame : List BitExpr
  /-- `Unframe`, the inverse of `Frame` (R145, D2): each of the 33 bits IPL3 : SRL : PC, bit 0 of PC at the head, as
  it is computed from the two words, the second one above the first. -/
  unframe : List BitExpr
  /-- `SW_SET_TRAP_FLAG_TRAPS` (R29, D10). -/
  swSetTrapFlagTraps : Bool
  deriving DecidableEq, Repr

/-! Free values. Each is a `draw` of the spec, applied to the draw counter of the state. -/

/-- `SoftTrapSkid`, drawn when a soft trap is raised (R209, D14). -/
opaque Config.softSkid : Nat → Bool

/-- What a write of 0 leaves of INTCON1.STKERR where the same instruction raised the stack error (R150, D20). -/
opaque Config.sameStepStkErr : Nat → Bool

/-- Whether the next boundary still uses the old priority of an IRQ: draw counter, then the IRQ (R68, U1). -/
opaque Config.stalePriority : Nat → Nat → Bool

/-- Whether a same-level hard trap resets the device (`true`) or halts it (R214, D15). -/
opaque Config.sameLevelResets : Nat → Bool

/-- INTTREG.VECNUM after a trap entry (R227, D12). -/
opaque Config.trapVecnum : Nat → BitVec 7

/-- Whether an exception entry takes the fifth cycle (R293, D26). -/
opaque Config.entryExtraCycle : Nat → Bool

/-- `pc` after a step at an unimplemented program address (R181). -/
opaque Config.strayPc : Nat → PAddr

/-- What an instruction writes to accumulator A (R140, R171, R174). -/
opaque Config.accA : Nat → BitVec 40

/-- What an instruction writes to accumulator B (R140, R171, R174). -/
opaque Config.accB : Nat → BitVec 40

/-- What an undescribed result leaves in working register `r`: draw counter, then `r` (R140, R175). -/
opaque Config.working : Nat → Nat → Word

/-- SR[15:8] after an `Other` event (R140). -/
opaque Config.statusHigh : Nat → BitVec 8

/-- SR[4:0] after an `Other` event or a divide (R140, R175). -/
opaque Config.statusLow : Nat → BitVec 5

/-- SR[3:0] after `OrSRL`: the flag effects the source does not give, applied to the OR of the bits (R155). -/
opaque Config.orFlags : Nat → BitVec 4 → BitVec 4

/-- What a byte of data memory that nothing has written since the draw reads as: the draw, then the address
(R41, D19, R140). -/
opaque Config.ramByte : Nat → Nat → Byte

/-- The value a misaligned or unimplemented read returns (R97, R178, U9). -/
opaque Config.faultyRead : Nat → Word

/-- How a loaded byte is extended (R188: not in the source). -/
opaque Config.byteExtension : Nat → Byte

/-- What a program word that nothing has programmed reads as, at a vector fetch: its address (R94, R228). -/
opaque Config.programWord : Nat → PWord

/-- The bits of RCON other than TRAPR (R36). -/
opaque Config.rconRest : Nat → Word

/-- The bits of OSCCON other than CF (R37). -/
opaque Config.oscconRest : Nat → Word

/-- RCON.TRAPR after a software write to it (R36). -/
opaque Config.traprWritten : Nat → Bool

/-- OSCCON.CF after a software write to it (R37). -/
opaque Config.cfWritten : Nat → Bool

/-- RCON.TRAPR after a reset that no trap conflict caused (R270, D19). -/
opaque Config.traprReset : Nat → Bool

/-- OSCCON.CF after a device reset (D19). -/
opaque Config.cfReset : Nat → Bool

/-- SPLIM after a device reset (R35, D19). -/
opaque Config.splimReset : Nat → Word

end Sys2Proof
end

