-- ==== Sys2Proof/Machine/Bits.lean ====
section
/-! DEFINITION. Bits and masks of registers, and the sorted lists that hold memories. -/

namespace Sys2Proof.Machine

/-- `w[i] <- b` (R8). -/
def setBit {n : Nat} (w : BitVec n) (i : Nat) (b : Bool) : BitVec n :=
  if b then w ||| (1#n <<< i) else w &&& ~~~(1#n <<< i)

/-- The value a software write of `v` to the bits `sel` leaves in a register that holds `old` (R40):
a bit of `wmask` takes its bit of `v`, a clear-only bit of `cmask` is cleared where its bit of `v` is 0,
every other bit is kept. -/
def accessWrite {n : Nat} (old v sel wmask cmask : BitVec n) : BitVec n :=
  ((old &&& ~~~(wmask &&& sel)) ||| (v &&& (wmask &&& sel))) &&& ~~~(cmask &&& sel &&& ~~~v)

/-- The bit vector whose bit `i` is `f i`. -/
def ofBits (f : Nat → Bool) : (n : Nat) → BitVec n
  | 0 => 0#0
  | n + 1 => BitVec.cons (f n) (ofBits f n)

/-- The bits `hi:lo` of a 16-bit register (R8, R157). -/
def fieldMask (hi lo : Nat) : Word := BitVec.ofNat 16 (2 ^ (hi + 1) - 2 ^ lo)

/-- What a memory holds at an address, if anything was written there. -/
def memFind {α : Type} : List (Nat × α) → Nat → Option α
  | [], _ => none
  | (b, w) :: m, a => if a = b then some w else memFind m a

/-- A write keeps the addresses of a memory strictly rising. -/
def memPut {α : Type} : List (Nat × α) → Nat → α → List (Nat × α)
  | [], a, v => [(a, v)]
  | (b, w) :: m, a, v =>
    if a < b then (a, v) :: (b, w) :: m
    else if a = b then (a, v) :: m
    else (b, w) :: memPut m a v

/-- Nothing stands at `a` any more. -/
def memErase {α : Type} : List (Nat × α) → Nat → List (Nat × α)
  | [], _ => []
  | (b, w) :: m, a => if a = b then memErase m a else (b, w) :: memErase m a

/-- Every address of the list is at least `lo`, and they rise strictly. -/
def risingFrom {α : Type} : Nat → List (Nat × α) → Bool
  | _, [] => true
  | lo, (b, _) :: m => lo ≤ b && risingFrom (b + 1) m

end Sys2Proof.Machine
end

