-- ==== Sys2Proof/Machine/Sources.lean ====
section
/-! DEFINITION. The interrupt sources of the family (spec/11_interrupt_source_registers.md), the masks and
reset values of the IFSx, IECx and IPCx registers, and the lookups over a device's parameters. -/

namespace Sys2Proof.Machine

/-- The SFR addresses of spec/93_implementation_defined.md G3. PRESUMED (general knowledge), log 3. -/
def familySfrAddrs : List (Nat × Sfr) :=
  [(0x0020, .splim), (0x0042, .sr), (0x0044, .corcon), (0x0052, .disicnt),
   (0x0080, .intcon1), (0x0082, .intcon2),
   (0x0084, .ifs 0), (0x0086, .ifs 1), (0x0088, .ifs 2), (0x008A, .ifs 3), (0x008C, .ifs 4),
   (0x0094, .iec 0), (0x0096, .iec 1), (0x0098, .iec 2), (0x009A, .iec 3), (0x009C, .iec 4)] ++
  [(0x00A4, .ipc 0), (0x00A6, .ipc 1), (0x00A8, .ipc 2), (0x00AA, .ipc 3), (0x00AC, .ipc 4),
   (0x00AE, .ipc 5), (0x00B0, .ipc 6), (0x00B2, .ipc 7), (0x00B4, .ipc 8), (0x00B6, .ipc 9),
   (0x00BA, .ipc 11), (0x00C0, .ipc 14), (0x00C2, .ipc 15), (0x00C4, .ipc 16), (0x00C6, .ipc 17),
   (0x00C8, .ipc 18), (0x00CA, .ipc 19),
   (0x00E0, .inttreg), (0x0740, .rcon), (0x0742, .osccon)]

/-- The IRQ numbers of the 55 sources of R64, one bit each (bit `n` for IRQ `n`): the implemented-bit masks
of IFS4 down to IFS0 in R70, joined. -/
def familySources : BitVec 118 := 0xCE7EFE00601FFFDF7FFF#118

/-- The default of `Frame` (R225, D2, G1): PC[15:0] in the first word pushed; SRL, IPL3 and PC[22:16] in the
second. PRESUMED, log 4. -/
def familyFrame : List BitExpr :=
  (List.range 23).map .bit ++ [.bit 32] ++ (List.range 8).map fun i => .bit (24 + i)

/-- The default of `Unframe` (R145, D2, G1): PC[22:0], 0, SRL, IPL3 from the two words of that default. PRESUMED,
log 4. -/
def familyUnframe : List BitExpr :=
  (List.range 23).map .bit ++ [.const false] ++ ((List.range 8).map fun i => .bit (24 + i)) ++ [.bit 23]

/-- The device a state right after reset holds: every source of the family, every address implemented.
DESIGN CHOICE, log 2. -/
def familyDevice : Device where
  implemented := familySources
  progRanges := [⟨0, 0x7FFFFF⟩]
  dataRanges := [⟨0, 0xFFFF⟩]
  xRanges := [⟨0, 0xFFFF⟩]
  yRanges := [⟨0, 0xFFFF⟩]
  sfrAddrs := familySfrAddrs
  frame := familyFrame
  unframe := familyUnframe
  swSetTrapFlagTraps := true

/-- `n` is in `Implemented` (R5, R64): the family has the source and so has the device. -/
def hasSource (d : Device) (n : Nat) : Bool :=
  familySources.getLsbD n && d.implemented.getLsbD n

/-- Implemented bits of IFS`x` and of IEC`x` (R61, R62, R70, D16): bit `b` is that of IRQ `16*x + b`. -/
def flagMask (d : Device) (x : Nat) : Word :=
  (familySources &&& d.implemented).extractLsb' (16 * x) 16

/-- The mask of one priority field: three bits where IRQ `n` exists (R63). -/
def fieldOf (d : Device) (n : Nat) : BitVec 4 := if hasSource d n then 7#4 else 0#4

/-- Implemented bits of IPC`x` (R63, R70, D16): nibble `k` is the field of IRQ `4*x + k`. -/
def prioMask (d : Device) (x : Nat) : Word :=
  fieldOf d (4 * x + 3) ++ fieldOf d (4 * x + 2) ++ fieldOf d (4 * x + 1) ++ fieldOf d (4 * x)

/-- IPC`x` after every reset: 4 in every implemented field (R69). -/
def prioReset (d : Device) (x : Nat) : Word := prioMask d x &&& 0x4444#16

/-- The IRQ numbers of INT0, INT1 and INT2 (R64, R240). -/
def intIrq : Fin 3 → Nat
  | 0 => 0
  | 1 => 20
  | 2 => 29

/-- `a` lies in one of the ranges. -/
def inRanges (rs : List AddrRange) (a : Nat) : Bool := rs.any fun r => r.lo ≤ a && a ≤ r.hi

/-- `ProgImplemented` (R7, R98). -/
def progImplemented (d : Device) (a : PAddr) : Bool := inRanges d.progRanges a.toNat

/-- `DataImplemented` (R7, R98). -/
def dataImplemented (d : Device) (a : Word) : Bool := inRanges d.dataRanges a.toNat

/-- A data address that a MAC-class fetch of the other space may not read (R98, R179). -/
def macCrossing (d : Device) (space : MacSpace) (a : Word) : Bool :=
  match space with
  | .x => inRanges d.yRanges a.toNat && !inRanges d.xRanges a.toNat
  | .y => inRanges d.xRanges a.toNat && !inRanges d.yRanges a.toNat

/-- The SFR whose 16-bit register stands at data address `a` (R99). -/
def sfrAt (d : Device) (a : Nat) : Option Sfr := d.sfrAddrs.lookup a

/-- The constraints of D6 and D17 on a device: SFR addresses are even, below 0x0800 and implemented, no two of them
equal, no SFR at two of them; the reset address and every entry of both vector tables are implemented program memory;
0x0800 is implemented data memory. That of D2 is `FrameLaw`. -/
def deviceWf (d : Device) : Bool :=
  d.sfrAddrs.all (fun p => p.1 % 2 == 0 && decide (p.1 < 0x0800) && inRanges d.dataRanges p.1) &&
  decide ((d.sfrAddrs.map Prod.fst).Nodup) && decide ((d.sfrAddrs.map Prod.snd).Nodup) &&
  inRanges d.progRanges 0x000000 &&
  (List.range 126).all (fun v => inRanges d.progRanges (0x000004 + 2 * v) &&
    inRanges d.progRanges (0x000104 + 2 * v)) &&
  inRanges d.dataRanges 0x0800

end Sys2Proof.Machine
end

