-- ==== Sys2Proof/Machine/State.lean ====
section
/-! DEFINITION. The state of the machine (spec/10_state.md R20) as plain data, its value right after reset,
and the reasons for which a step can stop. -/

namespace Sys2Proof.Machine

/-- Run, Sleep, Idle, and the Halt that a same-level hard trap can leave (R39, R214). -/
inductive Power where
  | run | sleep | idle | halt
  deriving DecidableEq, Repr

/-- The five traps (R201). -/
inductive TrapKind where
  | oscFail | addrErr | stkErr | mathErr | dmaErr
  deriving DecidableEq, Repr

/-- What can be taken at an instruction boundary: a trap, or the interrupt of an IRQ number (R219). -/
inductive Request where
  | trap (k : TrapKind)
  | irq (n : Nat)
  deriving DecidableEq, Repr

/-- Why the device is reset (R270). -/
inductive ResetCause where
  | powerOn | external | software | trapConflict
  deriving DecidableEq, Repr

/-- The events of the environment agents (R216). -/
inductive EnvEvent where
  | periph (n : Nat)
  | pinChange (k : Fin 3) (level : Bool)
  | oscFail
  | dmaCollision
  | externalReset
  deriving DecidableEq, Repr

/-- Which agent moves next: the CPU, or the environment with an event (R216). -/
inductive Turn where
  | cpu
  | env (e : EnvEvent)
  deriving DecidableEq, Repr

/-- An event that the program map places at an address, and how many program words it takes (R123, R140). -/
structure ProgEvent where
  instr : Instr
  words : Nat
  deriving DecidableEq, Repr

/-- The parameter `Cycles` for the instruction at an address (R7, R142), and whether it is of one of the
kinds that can make an exception entry one cycle longer (R293). -/
structure Timing where
  cycles : Nat
  late : Bool
  deriving DecidableEq, Repr

/-- A memory in its canonical form: addresses strictly rising. Nothing is listed where nothing was written,
and an unlisted address reads as no value, so no entry equals what an unlisted address reads as. -/
def Memory.wf {α : Type} (m : List (Nat × α)) : Bool := risingFrom 0 m

/-- The state (R20). -/
structure State where
  /-- The program counter (R22). -/
  pc : PAddr
  /-- Working registers W0 to W14 (R21). -/
  w : Vector Word 15
  /-- W15, the stack pointer (R21). -/
  w15 : Word
  /-- SR[15:8]: OA OB SA SB OAB SAB DA DC (R23). -/
  srh : BitVec 8
  /-- SR[7:5]: IPL[2:0] (R23, R25). -/
  ipl : BitVec 3
  /-- SR[4:0]: RA N OV Z C (R23). -/
  flags : BitVec 5
  /-- CORCON (R26). -/
  corcon : Word
  /-- INTCON1 (R28). -/
  intcon1 : Word
  /-- INTCON2 (R30). -/
  intcon2 : Word
  /-- INTTREG (R32). -/
  inttreg : Word
  /-- IFS0 to IFS4 (R65). -/
  ifs : Vector Word 5
  /-- IEC0 to IEC4 (R66). -/
  iec : Vector Word 5
  /-- IPC0 to IPC19, of which IPC10, IPC12 and IPC13 do not exist and hold 0 (R67). -/
  ipc : Vector Word 20
  /-- DISICNT (R34). -/
  disicnt : BitVec 14
  /-- SPLIM (R35). -/
  splim : Word
  /-- `splim_written` (R35). -/
  splimWritten : Bool
  /-- RCON.TRAPR (R36). -/
  trapr : Bool
  /-- OSCCON.CF (R37). -/
  cf : Bool
  /-- Accumulator A (R38). -/
  accA : BitVec 40
  /-- Accumulator B (R38). -/
  accB : BitVec 40
  /-- Data space but for the SFRs: the bytes written since the last draw of memory (R20, R90). -/
  mem : List Host.Cell
  /-- Program memory: the 24-bit words programmed, each at its even program address (R90, R92). -/
  prog : List (Nat × PWord)
  /-- `power` (R39). -/
  power : Power
  /-- `pin[0..2]` (R39). -/
  pins : Vector Bool 3
  /-- `soft_skid` (R39, R209). -/
  softSkid : Bool
  /-- Parameter of the run: the program map, the events placed at addresses (R42, R123). -/
  events : List (Nat × ProgEvent)
  /-- Parameter of the run: `Cycles` of the instructions, by address (R7, R142). -/
  timing : List (Nat × Timing)
  /-- Parameters of the device (R7). -/
  dev : Device
  /-- The MODEL's own: which agent moves next; empty means the CPU (R216). -/
  turns : List Turn
  /-- The MODEL's own: what the last reading event returned to its instruction (R151, R178). -/
  result : Word
  /-- The MODEL's own: whether the last executed instruction is of a kind of R293. -/
  lateEntry : Bool
  /-- The MODEL's own: trap status flags that software stored and that request nothing (R29). -/
  inert : Word
  /-- The MODEL's own: the draw that unwritten data memory reads from (R270). -/
  memEpoch : Nat
  /-- The MODEL's own: IRQs whose priority was rewritten with interrupts enabled since the last boundary and for
  which the next boundary still uses the old value (R68, U1). -/
  race : List (Nat × BitVec 3)
  /-- The MODEL's own: the last step of the running CPU wrote data space, so that a DMA write can have collided
  with it (R207, R216). -/
  dataWrite : Bool
  /-- The MODEL's own: how many free values have been drawn. -/
  draws : Nat
  deriving DecidableEq, Repr

/-- Why the machine stops with a fault. -/
inductive Fault where
  /-- Raised by `Sys2Proof.Machine.boundary`: no program word and no event stands at `pc`; the address is
  implemented but nothing was ever programmed there, and the spec gives it no contents (R126, U10). Safe:
  nothing is claimed of what the hardware would execute. -/
  | nothingProgrammed
  deriving DecidableEq, Repr

/-- Why the machine refuses to go on. -/
inductive Refusal where
  /-- Answered by `exec`'s arms only, for an instruction that has no meaning yet. Safe. -/
  | notModelled (mnemonic : String)
  /-- Raised by `Sys2Proof.Machine.boundary`: the program word at `pc` is no instruction of the table; the
  spec leaves executing it outside the model (R126, U10). Safe. -/
  | undecodable (why : Reject)
  deriving DecidableEq, Repr

/-- The machine right after a power-on reset (R41, R69, R270). Values the spec does not give are named in
the assumption log: logs 1 and 33 for registers, log 2 for the parameters. -/
def State.reset : State where
  pc := 0x000000
  w := Vector.replicate 15 0
  w15 := 0x0800
  srh := 0
  ipl := 0
  flags := 0
  corcon := 0x0020
  intcon1 := 0x0000
  intcon2 := 0x0000
  inttreg := 0x0000
  ifs := Vector.replicate 5 0
  iec := Vector.replicate 5 0
  ipc := Vector.ofFn fun i => prioReset familyDevice i.val
  disicnt := 0
  splim := 0
  splimWritten := false
  trapr := false
  cf := false
  accA := 0
  accB := 0
  mem := []
  prog := []
  power := .run
  pins := Vector.replicate 3 false
  softSkid := false
  events := []
  timing := []
  dev := familyDevice
  turns := []
  result := 0
  lateEntry := false
  inert := 0
  memEpoch := 0
  race := []
  dataWrite := false
  draws := 1

end Sys2Proof.Machine
end

