-- ==== Sys2Proof/Machine/Ops.lean ====
section
/-! DEFINITION. The named operations over registers and memory: views of the registers, data and program
memory, the SFRs, the DISICNT tick, raising a trap, device reset, the stack, arbitration, TAKING AN EXCEPTION
and the return from one. -/

namespace Sys2Proof.Machine

/-! ## Views of the status and priority registers -/

/-- SR (R23). -/
def State.sr (s : State) : Word := s.srh ++ s.ipl ++ s.flags

/-- SRL, the low byte of SR (R23). -/
def State.srl (s : State) : Byte := s.ipl ++ s.flags

/-- CORCON.IPL3 (R26). -/
def State.ipl3 (s : State) : Bool := s.corcon.getLsbD 3

/-- `cpu_ipl = CORCON.IPL3 : SR.IPL[2:0]`, 0 to 15 (R24). -/
def State.cpuIpl (s : State) : Nat := (if s.ipl3 then 8 else 0) + s.ipl.toNat

/-- INTCON1.NSTDIS (R28). -/
def State.nstdis (s : State) : Bool := s.intcon1.getLsbD 15

/-- INTCON2.ALTIVT (R30). -/
def State.altivt (s : State) : Bool := s.intcon2.getLsbD 15

/-- INTCON2.DISI (R30). -/
def State.disi (s : State) : Bool := s.intcon2.getLsbD 14

/-- `IFS(n)` (R61). -/
def State.ifsBit (s : State) (n : Nat) : Bool := (s.ifs[n / 16]?.getD 0).getLsbD (n % 16)

/-- `IEC(n)` (R62). -/
def State.iecBit (s : State) (n : Nat) : Bool := (s.iec[n / 16]?.getD 0).getLsbD (n % 16)

/-- `IPC(n)` (R63). -/
def State.ipcField (s : State) (n : Nat) : BitVec 3 :=
  (s.ipc[n / 4]?.getD 0).extractLsb' (4 * (n % 4)) 3

/-- The priority of IRQ `n` that the next boundary uses: `IPC(n)`, or the value before a write of it that races
with that boundary (R63, R68, U1). -/
def State.seenField (s : State) (n : Nat) : BitVec 3 := (s.race.lookup n).getD (s.ipcField n)

/-- The value of working register `r` (R21). -/
def State.wreg (s : State) (r : Fin 16) : Word := if r.val = 15 then s.w15 else s.w[r.val]?.getD 0

/-! ## Free values and the DISICNT tick -/

/-- One more free value has been drawn. -/
def State.bump (s : State) : State := { s with draws := s.draws + 1 }

/-- The CPU has written data space (R216). -/
def State.wroteData (s : State) : State := { s with dataWrite := true }

/-- The DISICNT tick of `c` instruction cycles (R142, R143). -/
def State.tick (c : Nat) (s : State) : State :=
  let d := s.disicnt.toNat - c
  { s with
    disicnt := BitVec.ofNat 14 d
    intcon2 := if d = 0 then setBit s.intcon2 14 false else s.intcon2 }

/-- A software write of `v` to DISICNT (R144): a write of 0 ends the DISI period. -/
def State.writeDisicnt (v : BitVec 14) (s : State) : State :=
  { s with
    disicnt := v
    intcon2 := if v = 0 then setBit s.intcon2 14 false else s.intcon2 }

/-! ## The traps -/

/-- The fixed priority of a trap (R201, R202). -/
def TrapKind.priority : TrapKind → Nat
  | .oscFail => 14
  | .addrErr => 13
  | .stkErr => 12
  | .mathErr => 11
  | .dmaErr => 10

/-- The vector number of a trap (R92, R201). -/
def TrapKind.vector : TrapKind → Nat
  | .oscFail => 1
  | .addrErr => 2
  | .stkErr => 3
  | .mathErr => 4
  | .dmaErr => 5

/-- The bit of INTCON1 that is the trap's status flag (R28, R201). -/
def TrapKind.flagBit : TrapKind → Nat
  | .oscFail => 1
  | .addrErr => 3
  | .stkErr => 2
  | .mathErr => 4
  | .dmaErr => 5

/-- A hard trap: priority 13 to 15 (R200). -/
def TrapKind.hard : TrapKind → Bool
  | .oscFail | .addrErr => true
  | .stkErr | .mathErr | .dmaErr => false

/-- A trap is pending exactly while its status flag is 1 (R208), unless software stored the flag on a device
where such a flag requests nothing (R29). -/
def State.trapPending (s : State) (k : TrapKind) : Bool :=
  s.intcon1.getLsbD k.flagBit && !s.inert.getLsbD k.flagBit

/-- The status flag of a trap is set as a request (R203 to R207). -/
def State.setTrapFlag (k : TrapKind) (s : State) : State :=
  { s with
    intcon1 := setBit s.intcon1 k.flagBit true
    inert := setBit s.inert k.flagBit false }

/-- `raise Trap(k)` for a soft trap: the flag is set and `soft_skid` is drawn (R205 to R207, R209). -/
def State.raiseSoft (k : TrapKind) (s : State) : State :=
  { s with
    intcon1 := setBit s.intcon1 k.flagBit true
    inert := setBit s.inert k.flagBit false
    softSkid := Config.softSkid s.draws
    draws := s.draws + 1 }

/-! ## Device reset -/

/-- `DeviceReset(cause)` (R270, R41): registers at their reset values, draws where the spec gives none; the
program, the device, the environment's turns and the pins are not touched. -/
def deviceReset (cause : ResetCause) (s : State) : State :=
  { State.reset with
    w := Vector.ofFn fun i => Config.working s.draws i.val
    ipc := Vector.ofFn fun i => prioReset s.dev i.val
    splim := Config.splimReset s.draws
    trapr := match cause with
      | .trapConflict => true
      | .powerOn | .external | .software => Config.traprReset s.draws
    cf := Config.cfReset s.draws
    accA := Config.accA s.draws
    accB := Config.accB s.draws
    prog := s.prog
    pins := s.pins
    events := s.events
    timing := s.timing
    dev := s.dev
    turns := s.turns
    result := s.result
    memEpoch := s.draws
    draws := s.draws + 1 }

/-! ## What an instruction has done so far, and hard traps -/

/-- An instruction's effect so far. A hard trap condition it met is kept here and settled at its end, since
it may reset the device instead (R212, R214). -/
structure Eff where
  /-- The state so far. -/
  st : State
  /-- An address error condition was met: the instruction's data-space writes are inhibited (R100). -/
  addr : Bool
  /-- Software set INTCON1.ADDRERR as a request (R29). -/
  swAddr : Bool
  /-- Software set INTCON1.OSCFAIL as a request (R29). -/
  swOsc : Bool
  /-- The stack error was raised (R176, R177): a write of 0 to its flag by the same instruction leaves the flag
  free (R150, D20). -/
  stk : Bool

/-- Nothing but the state `s` so far. -/
def State.eff (s : State) : Eff := ⟨s, false, false, false, false⟩

/-- Apply `f` to the state so far. -/
def Eff.map (f : State → State) (e : Eff) : Eff := { e with st := f e.st }

/-- A hard trap of priority 13 now conflicts with the oscillator failure trap: that one is pending,
acknowledged or executing (R212). -/
def State.hardConflict (s : State) : Bool := s.trapPending .oscFail || decide (14 ≤ s.cpuIpl)

/-- The same-level case of a hard trap: the device is reset, or halts (R214). -/
def State.sameLevel (s : State) : State :=
  if Config.sameLevelResets s.draws then deviceReset .trapConflict s.bump
  else { s.bump with power := .halt }

/-- The hard trap conditions of a step are settled against the priority and the flags of the state `pre`
(R203, R204, R210, R212, R214): a conflict resets the device, the same level resets or halts it, otherwise
the flag is set and the trap is pending. -/
def Eff.settle (pre : State) (e : Eff) : State :=
  let addr := e.addr || e.swAddr
  let s1 := if addr then e.st.setTrapFlag .addrErr else e.st
  let s2 := if e.swOsc then s1.setTrapFlag .oscFail else s1
  if addr && pre.hardConflict then deviceReset .trapConflict s2
  else if (addr && pre.cpuIpl == 13) || (e.swOsc && decide (14 ≤ pre.cpuIpl)) then s2.sameLevel
  else s2

/-! ## Data memory and the SFRs -/

/-- The byte of non-SFR data space at address `a`; a free value where nothing was written since the last
draw of memory (R41, R90). -/
def State.byteAt (s : State) (a : Nat) : Byte := (memFind s.mem a).getD (Config.ramByte s.memEpoch a)

/-- A byte is written to non-SFR data space. -/
def State.putByte (a : Nat) (v : Byte) (s : State) : State :=
  { s with mem := memPut s.mem a v, dataWrite := true }

/-- The 16-bit word at an even address, low byte first (R96). -/
def State.wordAt (s : State) (a : Nat) : Word := s.byteAt (a + 1) ++ s.byteAt a

/-- A 16-bit word is written at an even address, low byte first (R96). -/
def State.putWord (a : Nat) (v : Word) (s : State) : State :=
  (s.putByte a (v.extractLsb' 0 8)).putByte (a + 1) (v.extractLsb' 8 8)

/-- The value a read of SFR `r` returns, unimplemented bits as 0 (R99, R151). The bits of RCON and OSCCON
that the spec does not name are free. -/
def State.sfrValue (s : State) : Sfr → Word
  | .sr => s.sr
  | .corcon => s.corcon &&& 0x0FFF#16
  | .intcon1 => s.intcon1 &&& 0xFFFE#16
  | .intcon2 => s.intcon2 &&& 0xC007#16
  | .inttreg => s.inttreg &&& 0x0F7F#16
  | .ifs i => s.ifs[i] &&& flagMask s.dev i.val
  | .iec i => s.iec[i] &&& flagMask s.dev i.val
  | .ipc i => s.ipc[i] &&& prioMask s.dev i.val
  | .disicnt => 0#2 ++ s.disicnt
  | .splim => s.splim
  | .rcon => setBit (Config.rconRest s.draws) 15 s.trapr
  | .osccon => setBit (Config.oscconRest s.draws) 3 s.cf

/-- A software write of the bits `sel` of SR (R25, R40): SA, SB and SAB can only be cleared, OA, OB, OAB, DA
and RA are read-only, IPL[2:0] is read-only while NSTDIS is 1. -/
def State.writeSr (sel v : Word) (s : State) : State :=
  { s with
    srh := accessWrite s.srh (v.extractLsb' 8 8) (sel.extractLsb' 8 8) 0x01#8 0x34#8
    ipl := if s.nstdis then s.ipl
      else accessWrite s.ipl (v.extractLsb' 5 3) (sel.extractLsb' 5 3) 7#3 0#3
    flags := accessWrite s.flags (v.extractLsb' 0 5) (sel.extractLsb' 0 5) 0x0F#5 0#5 }

/-- INTCON1 after a software write of the bits `sel` (R28, R40). -/
def State.intcon1Written (sel v : Word) (s : State) : Word :=
  accessWrite s.intcon1 v sel 0xFFFE#16 0#16

/-- The trap status flags that a software write of the bits `sel` of INTCON1 turns from 0 to 1 (R29). -/
def State.trapFlagsSet (sel v : Word) (s : State) : Word :=
  s.intcon1Written sel v &&& ~~~s.intcon1 &&& 0x003E#16

/-- INTCON1 after a software write of the bits `sel` by an instruction. Where the instruction itself raised the
stack error and writes 0 to STKERR, both orders are possible: the flag is free (R150, D20; log 24). -/
def Eff.intcon1New (sel v : Word) (e : Eff) : Word :=
  let new := e.st.intcon1Written sel v
  if e.stk && !new.getLsbD 2 then setBit new 2 (Config.sameStepStkErr e.st.draws) else new

/-- A software write of the bits `sel` of INTCON1 (R29). Where a software write of 1 requests the trap, a
soft trap draws `soft_skid` and a hard trap is left to `Eff.settle`; where it does not, the flag is stored
as one that requests nothing. DESIGN CHOICE, log 13: both hard traps requested by one write do not conflict with each
other. -/
def Eff.writeIntcon1 (sel v : Word) (e : Eff) : Eff :=
  let s := e.st
  let new := e.intcon1New sel v
  let set := s.trapFlagsSet sel v
  if s.dev.swSetTrapFlagTraps then
    let soft := set &&& 0x0034#16
    { e with
      st := { s with
        intcon1 := new &&& ~~~(set &&& 0x000A#16)
        inert := s.inert &&& new &&& ~~~set
        softSkid := if soft = 0#16 then s.softSkid else Config.softSkid s.draws
        draws := s.draws + 1 }
      swAddr := e.swAddr || set.getLsbD 3
      swOsc := e.swOsc || set.getLsbD 1 }
  else
    { e with st := { s with intcon1 := new, inert := (s.inert &&& new) ||| set, draws := s.draws + 1 } }

/-- A write of the priority field of IRQ `n` from `old` to `new` races with the next boundary: the source is
enabled and interrupts are not disabled, neither by the CPU priority nor, at both values, by DISI (R68, U1). -/
def State.priorityRaces (n : Nat) (old new : BitVec 3) (s : State) : Bool :=
  hasSource s.dev n && s.iecBit n && decide (s.cpuIpl < 7) && !(s.disi && old != 7 && new != 7)

/-- The fields of IPC`i` for which the next boundary uses the value before a write of `new`: of those that race
the ones that a free value picks (R68, U1; log 23). -/
def State.staleFields (i : Nat) (new : Word) (s : State) : List (Nat × BitVec 3) :=
  (List.range 4).filterMap fun k =>
    let n := 4 * i + k
    if s.priorityRaces n (s.ipcField n) (new.extractLsb' (4 * k) 3) && Config.stalePriority s.draws n then
      some (n, s.ipcField n)
    else none

/-- A software write of the bits `sel` of IPC`i` (R40, R67, R70). -/
def State.writeIpc (i : Fin 20) (sel v : Word) (s : State) : State :=
  let new := accessWrite s.ipc[i] v sel (prioMask s.dev i.val) 0#16
  { s with
    ipc := s.ipc.set i new
    race := s.staleFields i.val new ++ s.race
    draws := s.draws + 1 }

/-- What a software write of `v` to the bits `sel` of SFR `r` does to the registers. -/
def Eff.sfrBits (r : Sfr) (sel v : Word) (e : Eff) : Eff :=
  match r with
  | .sr => e.map (State.writeSr sel v)
  | .corcon => e.map fun s => { s with corcon := accessWrite s.corcon v sel 0x08F7#16 0x0008#16 }
  | .intcon1 => e.writeIntcon1 sel v
  | .intcon2 => e.map fun s => { s with intcon2 := accessWrite s.intcon2 v sel 0x8007#16 0#16 }
  | .inttreg => e
  | .ifs i => e.map fun s =>
      { s with ifs := s.ifs.set i (accessWrite s.ifs[i] v sel (flagMask s.dev i.val) 0#16) }
  | .iec i => e.map fun s =>
      { s with iec := s.iec.set i (accessWrite s.iec[i] v sel (flagMask s.dev i.val) 0#16) }
  | .ipc i => e.map (State.writeIpc i sel v)
  | .disicnt => e.map fun s =>
      s.writeDisicnt (accessWrite s.disicnt (v.extractLsb' 0 14) (sel.extractLsb' 0 14) 0x3FFF#14 0#14)
  | .splim => e.map fun s =>
      { s with
        splim := accessWrite s.splim v sel 0xFFFF#16 0#16
        splimWritten := s.splimWritten || sel == 0xFFFF#16 }
  | .rcon => e.map fun s =>
      if sel.getLsbD 15 then { s with trapr := Config.traprWritten s.draws, draws := s.draws + 1 } else s
  | .osccon => e.map fun s =>
      if sel.getLsbD 3 then { s with cf := Config.cfWritten s.draws, draws := s.draws + 1 } else s

/-- A software write of `v` to the bits `sel` of SFR `r` (R40, R70, R150, R152, R153, R157): the rule of each
bit's access applies to the bits in `sel`, the others are kept. -/
def Eff.sfrUpdate (r : Sfr) (sel v : Word) (e : Eff) : Eff := (e.sfrBits r sel v).map State.wroteData

/-- The data address of the word that holds the byte at `ea`. -/
def wordBase (ea : Word) : Nat := ea.toNat - ea.toNat % 2

/-- A word access whose effective address is odd (R97, R178). -/
def misaligned (size : Size) (ea : Word) : Bool := size == .word && ea.getLsbD 0

/-- A read that raises the address error: misaligned, or of unimplemented data space (R97, R98, R179). -/
def State.readFaults (size : Size) (ea : Word) (s : State) : Bool :=
  misaligned size ea || !dataImplemented s.dev ea

/-- What a read without an address error returns (R96, R99): an SFR, or bytes of memory; the extension of a
byte is free (R188). -/
def State.load (size : Size) (ea : Word) (s : State) : Word :=
  match size with
  | .word =>
    match sfrAt s.dev ea.toNat with
    | some r => s.sfrValue r
    | none => s.wordAt ea.toNat
  | .byte =>
    let b : Byte := match sfrAt s.dev (wordBase ea) with
      | some r => if ea.getLsbD 0 then (s.sfrValue r).extractLsb' 8 8 else (s.sfrValue r).extractLsb' 0 8
      | none => s.byteAt ea.toNat
    Config.byteExtension s.draws ++ b

/-- The value a read returns; a free value where it raises the address error (U9). -/
def State.readValue (size : Size) (ea : Word) (s : State) : Word :=
  if s.readFaults size ea then Config.faultyRead s.draws else s.load size ea

/-- `MemRead` as an instruction does it: its value, and the effect (R10, R97, R98). -/
def Eff.read (size : Size) (ea : Word) (e : Eff) : Word × Eff :=
  (e.st.readValue size ea,
   { e with st := e.st.bump, addr := e.addr || e.st.readFaults size ea })

/-- The store of a write that is not inhibited (R96, R99, R179): to unimplemented data space nothing happens. -/
def Eff.store (size : Size) (ea v : Word) (e : Eff) : Eff :=
  if dataImplemented e.st.dev ea then
    match size with
    | .word =>
      match sfrAt e.st.dev ea.toNat with
      | some r => e.sfrUpdate r 0xFFFF#16 v
      | none => e.map (State.putWord ea.toNat v)
    | .byte =>
      match sfrAt e.st.dev (wordBase ea) with
      | some r =>
        if ea.getLsbD 0 then e.sfrUpdate r 0xFF00#16 (v <<< 8) else e.sfrUpdate r 0x00FF#16 v
      | none => e.map (State.putByte ea.toNat (v.extractLsb' 0 8))
  else e

/-- `MemWrite` as an instruction does it (R10, R97, R100): a misaligned word write raises the address error,
and after an address error of the instruction no data-space write takes place. -/
def Eff.write (size : Size) (ea v : Word) (e : Eff) : Eff :=
  if misaligned size ea then { e with addr := true }
  else if e.addr then e
  else e.store size ea v

/-! ## The software stack -/

/-- The stack checks on an access through W15 whose effective address was computed as `exact` (R176, R177). -/
def State.stackFaults (exact : Int) (s : State) : Bool :=
  let ea : Word := BitVec.ofInt 16 exact
  (s.splimWritten && decide (s.splim.toNat < ea.toNat)) || decide (0xFFFF < exact) ||
    decide (ea.toNat < 0x0800)

/-- An access through W15 raises the stack error where a check fails (R176, R177). -/
def Eff.stackCheck (exact : Int) (e : Eff) : Eff :=
  if e.st.stackFaults exact then { e.map (State.raiseSoft .stkErr) with stk := true } else e

/-- A push: a word write at W15, then `W15 + 2` (R95). -/
def Eff.push (v : Word) (e : Eff) : Eff :=
  let ea := e.st.w15
  ((e.stackCheck ea.toNat).write .word ea v).map fun s => { s with w15 := ea + 2 }

/-- A pop: `W15 - 2`, then a word read at W15 (R95). DESIGN CHOICE, log 24: the stack error is raised before the
read. -/
def Eff.pop (e : Eff) : Word × Eff :=
  let ea := e.st.w15 - 2
  ((e.map fun s => { s with w15 := ea }).stackCheck ((e.st.w15.toNat : Int) - 2)).read .word ea

/-! ## Program memory, instruction lengths and cycles -/

/-- `ProgRead24(a)` (R91): a free value where nothing was programmed. -/
def State.progRead24 (s : State) (a : Nat) : PWord := (memFind s.prog a).getD (Config.programWord a)

/-- The even program address of the word at `a` (R22). -/
def wordAddr (a : PAddr) : Nat := a.toNat - a.toNat % 2

/-- How many program words the instruction at `a` takes (R121, R140): as the program map says, two for a GOTO
in program memory, its second word read as `State.fetch` reads it (log 36), else one. DESIGN CHOICE, log 34: one word too where nothing is programmed, and for a word that is
no instruction or a GOTO's first word without a valid second word, to which the spec gives no length (R126); a BTSC or
BTSS that skips passes over so much. -/
def State.wordsAt (s : State) (a : PAddr) : Nat :=
  match memFind s.events (wordAddr a) with
  | some ev => max 1 ev.words
  | none =>
    match memFind s.prog (wordAddr a) with
    | some w =>
      match decode (w :: (memFind s.prog (wordAddr a + 2)).toList) with
      | .ok (i, _) => encodedWords i
      | .error _ => 1
    | none => 1

/-- The address after the instruction at `a`, in program order (R140). -/
def State.after (s : State) (a : PAddr) : PAddr := a + BitVec.ofNat 24 (2 * s.wordsAt a)

/-- `Cycles` of the instruction at `pc`, at least 1 (R7, R142). -/
def State.cycles (s : State) : Nat :=
  match memFind s.timing (wordAddr s.pc) with
  | some t => max 1 t.cycles
  | none => 1

/-- The instruction at `pc` is of a kind of R293. -/
def State.late (s : State) : Bool :=
  match memFind s.timing (wordAddr s.pc) with
  | some t => t.late
  | none => false

/-- The end of every instruction event but DISI (R140, R142): `pc` moves, the tick is applied, and a hard
trap condition is settled against the state `pre` in which the instruction began. -/
def Eff.finish (pre : State) (next : PAddr) (cycles : Nat) (late : Bool) (e : Eff) : State :=
  (e.map fun s => ({ s with pc := next, lateEntry := late } : State).tick cycles).settle pre

/-- The end of an ordinary instruction: on to `next`, with the cycles and the kind the program gives it. -/
def Eff.goTo (pre : State) (next : PAddr) (e : Eff) : State := e.finish pre next pre.cycles pre.late

/-! ## Arbitration -/

/-- `Request(n)` (R215). -/
def State.requests (s : State) (n : Nat) : Bool := hasSource s.dev n && s.ifsBit n && s.iecBit n

/-- The priority of a request (R201, R215). -/
def State.priority (s : State) : Request → Nat
  | .trap k => k.priority
  | .irq n => (s.seenField n).toNat

/-- The vector number of a request (R60, R201). -/
def Request.vector : Request → Nat
  | .trap k => k.vector
  | .irq n => n + 8

/-- A trap that is a candidate: pending, and not a soft trap while `soft_skid` is 1 (R219). -/
def State.trapCandidate (s : State) (k : TrapKind) : Bool :=
  s.trapPending k && (k.hard || !s.softSkid)

/-- An IRQ that is a candidate: requested, and not of priority 1 to 6 while DISI is active (R219, R221). -/
def State.irqCandidate (s : State) (n : Nat) : Bool :=
  s.requests n && !(s.disi && decide (1 ≤ (s.seenField n).toNat) && decide ((s.seenField n).toNat ≤ 6))

/-- The candidates, in the order of their vector numbers (R219). -/
def State.candidates (s : State) : List Request :=
  (([.oscFail, .addrErr, .stkErr, .mathErr, .dmaErr] : List TrapKind).filter s.trapCandidate).map .trap ++
  ((List.range 118).filter s.irqCandidate).map .irq

/-- The first of the requests that no other exceeds in priority. -/
def State.bestOf (s : State) : List Request → Option Request
  | [] => none
  | r :: rest =>
    match s.bestOf rest with
    | none => some r
    | some q => if s.priority r < s.priority q then some q else some r

/-- `Best` (R219): the candidate of the greatest priority, of the smallest vector number among equals. -/
def State.best (s : State) : Option Request := s.bestOf s.candidates

/-- The exception taken at this boundary, if one is (R220): the priority of `Best` must exceed `cpu_ipl`. -/
def State.taken (s : State) : Option Request :=
  match s.best with
  | some r => if s.cpuIpl < s.priority r then some r else none
  | none => none

/-! ## Taking an exception, and the return from one -/

/-- The bit an expression stands for, where `v` are the bits of the input. -/
def bitValue (v : Nat → Bool) : BitExpr → Bool
  | .bit i => v i
  | .const b => b
  | .not a => !bitValue v a
  | .and a b => bitValue v a && bitValue v b
  | .xor a b => bitValue v a ^^ bitValue v b

/-- The `n` bits that a list of expressions computes from the bits of `w`; 0 where the list has none. -/
def evalBits (l : List BitExpr) (n : Nat) {m : Nat} (w : BitVec m) : BitVec n :=
  ofBits (fun j => bitValue w.getLsbD (l[j]?.getD (.const false))) n

/-- `Frame`: the two words that entry pushes, the first one pushed first, as the device computes them (R225, D2). -/
def frame (d : Device) (ret : PAddr) (srl : Byte) (ipl3 : Bool) : Word × Word :=
  let w : BitVec 32 := evalBits d.frame 32 (BitVec.ofBool ipl3 ++ srl ++ ret)
  (w.extractLsb' 0 16, w.extractLsb' 16 16)

/-- `Unframe`: return address, SRL and IPL3 of two frame words, as the device computes them (R145, D2). -/
def unframe (d : Device) (w1 w2 : Word) : PAddr × Byte × Bool :=
  let w : BitVec 33 := evalBits d.unframe 33 (w2 ++ w1)
  (w.extractLsb' 0 24, w.extractLsb' 24 8, w.getLsbD 32)

/-- `Unframe` reads back from a frame what `Frame` put in: the law of D2, for one return address. -/
def FrameKeeps (d : Device) (ret : PAddr) : Prop :=
  ∀ (srl : Byte) (ipl3 : Bool),
    unframe d (frame d ret srl ipl3).1 (frame d ret srl ipl3).2 = (ret, srl, ipl3)

/-- The law of D2 on a device, for every even return address of 23 bits, the PC of G7 (log 4). -/
def FrameLaw (d : Device) : Prop :=
  ∀ ret : PAddr, ret.getLsbD 0 = false → ret.getLsbD 23 = false → FrameKeeps d ret

/-- `VecAddr(v)` (R93). -/
def State.vecAddr (s : State) (v : Nat) : Nat := (if s.altivt then 0x000104 else 0x000004) + 2 * v

/-- INTTREG with its two fields (R32). -/
def inttregOf (ilr : BitVec 4) (vecnum : BitVec 7) : Word := 0#4 ++ ilr ++ 0#1 ++ vecnum

/-- The update of SR.IPL, CORCON.IPL3 and INTTREG at the entry of a request of priority `p` (R226, R227). -/
def State.enterPriority (r : Request) (p : Nat) (s : State) : State :=
  match r with
  | .irq n =>
    { s with
      ipl := if s.nstdis then 7#3 else BitVec.ofNat 3 p
      inttreg := inttregOf (BitVec.ofNat 4 p) (BitVec.ofNat 7 n) }
  | .trap _ =>
    { s with
      ipl := BitVec.ofNat 3 p
      corcon := setBit s.corcon 3 true
      inttreg := inttregOf (BitVec.ofNat 4 p) (Config.trapVecnum s.draws)
      draws := s.draws + 1 }

/-- `Cycles(entry)`: 4, or 4 or 5 after an instruction of a kind of R293 (R224, D26). -/
def State.entryCycles (s : State) : Nat :=
  if s.lateEntry && Config.entryExtraCycle s.draws then 5 else 4

/-- The two pushes of exception entry (R224, R225). -/
def State.pushFrame (s : State) : Eff :=
  let f := frame s.dev s.pc s.srl s.ipl3
  (s.eff.push f.1).push f.2

/-- What follows the pushes at the entry of a request of priority `p` (R224): the priority update, the vector
fetch, Run, the tick of the entry. -/
def State.vectorTo (r : Request) (p cycles : Nat) (s : State) : State :=
  let s1 := s.enterPriority r p
  ({ s1 with
     pc := s1.progRead24 (s1.vecAddr r.vector)
     power := .run
     lateEntry := false } : State).tick cycles

/-- TAKING AN EXCEPTION: the entry sequence, one atomic step (R224 to R230), at the priority that the boundary
used. A hard trap condition of the pushes is settled against the priority that the entry has set (R230). -/
def takeException (r : Request) (s : State) : State :=
  let e := ({ s with race := [] } : State).pushFrame.map fun t =>
    (t.vectorTo r (s.priority r) s.entryCycles).bump
  e.settle e.st

/-- The two pops of RETFIE and RETURN, the second word pushed first (R145, R182): the return address, SRL and
IPL3 of the frame, and the effect. -/
def Eff.popFrame (e : Eff) : (PAddr × Byte × Bool) × Eff :=
  let (w2, e2) := e.pop
  let (w1, e1) := e2.pop
  (unframe e.st.dev w1 w2, e1)

/-- The state against which a hard trap condition of RETFIE's pops is settled: the one before, where a hard trap
is pending or executing in it, else the one with the restored priority, since no code may run at a level that
holds the trap back (R210, R212, R214; log 12). -/
def State.judge (pre post : State) : State :=
  if pre.hardConflict || decide (13 ≤ pre.cpuIpl) then pre else post

/-- THE RETURN FROM AN EXCEPTION (R145, R233): `pc`, SR[7:0] and CORCON.IPL3 from the stack, not blocked by
NSTDIS; 3 cycles (R292). -/
def returnFromException (s : State) : State :=
  let ((pc, srl, ipl3), e) := s.eff.popFrame
  let e := e.map fun t =>
    { t with
      ipl := srl.extractLsb' 5 3
      flags := srl.extractLsb' 0 5
      corcon := setBit t.corcon 3 ipl3 }
  e.finish (s.judge e.st) pc 3 s.late

end Sys2Proof.Machine
end

