-- ==== Sys2Proof/Machine/Operands.lean ====
section
/-! DEFINITION. Every operand form: shift counts, branch and jump targets, file addresses, effective addresses
through W15, SFR fields, DISICNT values. -/

namespace Sys2Proof.Machine

/-- The signed shift count of SFTAC: the literal, or the signed value of the working register (R174). -/
def shiftCount (s : State) : ShiftCount → Int
  | .lit n => n
  | .reg r => (s.wreg r).toInt

/-- A shift count that raises the math error: more than 16 either way (R174). -/
def shiftOutOfRange (n : Int) : Bool := decide (16 < n) || decide (n < -16)

/-- GOTO's target: `t[22:16]` of word 2, `t[15:1]` of word 1, bit 0 clear (R125). -/
def gotoTarget (lo : BitVec 15) (hi : BitVec 7) : PAddr := 0#1 ++ hi ++ lo ++ 0#1

/-- BRA's target: `pc + 2 + 2 * n` with `n` signed (R125, G16). -/
def braTarget (pc : PAddr) (n : BitVec 16) : PAddr := pc + 2 + (n.signExtend 24 <<< 1)

/-- The even data address of a file operand (R125). -/
def fileAddr (f : BitVec 15) : Word := f ++ 0#1

/-- The effective address of an access through W15 before it is cut to 16 bits (R176). -/
def stackExact (w15 : Word) : StackMode → Int
  | .indirect => w15.toNat
  | .offset k => w15.toNat + k
  | .postModify _ => w15.toNat
  | .preModify d => w15.toNat + d

/-- The effective address of an access through W15 (R176). -/
def stackEa (w15 : Word) (mode : StackMode) : Word := BitVec.ofInt 16 (stackExact w15 mode)

/-- W15 after an access through it (R95, R176). -/
def stackPointerAfter (w15 : Word) (mode : StackMode) : Word :=
  match mode with
  | .indirect => w15
  | .offset _ => w15
  | .postModify d => BitVec.ofInt 16 (w15.toNat + d)
  | .preModify d => BitVec.ofInt 16 (w15.toNat + d)

/-- One bit of a register (R152, R153). -/
def bitMask (b : Fin 16) : Word := 1#16 <<< b.val

/-- The value of a software write to DISICNT, an add being a read followed by a write (R144). -/
def countOperand (s : State) : CountOp → BitVec 14
  | .write v => v
  | .add d => s.disicnt + d

/-- A data operation reads; the value goes to the instruction (R178, R179). -/
def Eff.access (size : Size) (ea : Word) (op : DataOp) (e : Eff) : Eff :=
  match op with
  | .read =>
    let (v, e1) := e.read size ea
    e1.map fun s => { s with result := v }
  | .write v => e.write size ea v

end Sys2Proof.Machine
end

