-- ==== Sys2Proof/Machine/Flags.lean ====
section
/-! DEFINITION. Every flag computation: the overflow status bits of the accumulators, the sub-cause flags of
the math error trap, the flags after an OR to SRL, and the trap conditions of an `Other` event. -/

namespace Sys2Proof.Machine

/-- The saturation enable bit of an accumulator, SATA or SATB (G10; PRESUMED, log 6). -/
def State.saturates (s : State) : Acc → Bool
  | .a => s.corcon.getLsbD 7
  | .b => s.corcon.getLsbD 6

/-- An overflow of accumulator `acc` from a carry out of bit 31: none with 31-bit saturation (R171). -/
def State.overflows (s : State) (acc : Acc) (ov31 : Bool) : Bool :=
  ov31 && !(s.saturates acc && !s.corcon.getLsbD 4)

/-- A catastrophic overflow of accumulator `acc` from a carry out of bit 39: none with any saturation (R171). -/
def State.overflowsFar (s : State) (acc : Acc) (ov39 : Bool) : Bool := ov39 && !s.saturates acc

/-- The bit of SR[15:8] that is the accumulator's overflow status, OA or OB (R173). -/
def overflowStatusBit : Acc → Nat
  | .a => 7
  | .b => 6

/-- The overflow trap enable of an accumulator, OVATE or OVBTE (R28). -/
def overflowEnableBit : Acc → Nat
  | .a => 10
  | .b => 9

/-- The overflow trap flag of an accumulator, OVAERR or OVBERR (R28). -/
def overflowErrBit : Acc → Nat
  | .a => 14
  | .b => 13

/-- The catastrophic overflow trap flag of an accumulator, COVAERR or COVBERR (R28). -/
def farOverflowErrBit : Acc → Nat
  | .a => 12
  | .b => 11

/-- A sub-cause flag of INTCON1 is set and the math error trap is raised (R170, R206). -/
def State.raiseMath (bit : Nat) (s : State) : State :=
  ({ s with intcon1 := setBit s.intcon1 bit true } : State).raiseSoft .mathErr

/-- An overflow of an accumulator: a trap where OVATE or OVBTE enables it (R172). -/
def State.raiseOverflow (acc : Acc) (s : State) : State :=
  if s.intcon1.getLsbD (overflowEnableBit acc) then s.raiseMath (overflowErrBit acc) else s

/-- A catastrophic overflow of an accumulator: a trap where COVTE enables it (R172). -/
def State.raiseFarOverflow (acc : Acc) (s : State) : State :=
  if s.intcon1.getLsbD 8 then s.raiseMath (farOverflowErrBit acc) else s

/-- OA or OB after an accumulator operation (R173). -/
def State.setOverflowStatus (acc : Acc) (b : Bool) (s : State) : State :=
  { s with srh := setBit s.srh (overflowStatusBit acc) b }

/-- The instruction's result is written to an accumulator; the source does not describe it (R171, R174). -/
def State.drawAcc (acc : Acc) (s : State) : State :=
  match acc with
  | .a => { s with accA := Config.accA s.draws, draws := s.draws + 1 }
  | .b => { s with accB := Config.accB s.draws, draws := s.draws + 1 }

/-- SRL after the OR of `v` (R155): IPL[2:0] only while NSTDIS is 0, RA unchanged, N OV Z C the OR of the bits
under the flag effects of the instruction, which the source does not give. -/
def State.orSrlFlags (v : Byte) (s : State) : State :=
  { s with
    ipl := if s.nstdis then s.ipl else s.ipl ||| v.extractLsb' 5 3
    flags := s.flags.extractLsb' 4 1 ++
      Config.orFlags s.draws (s.flags.extractLsb' 0 4 ||| v.extractLsb' 0 4)
    dataWrite := true
    draws := s.draws + 1 }

/-- What a divide leaves: its results are in no rule, so W0 to W14 and SR[4:0] are free (R175, D21). -/
def State.drawDivide (s : State) : State :=
  { s with
    w := Vector.ofFn fun i => Config.working s.draws i.val
    flags := Config.statusLow s.draws
    draws := s.draws + 1 }

/-- What an `Other` event may change: SR[15:8], SR[4:0], the working registers, the accumulators and non-SFR
data memory, unless an address error inhibits its writes to memory (R100, R140, R158). -/
def State.drawOther (inhibit : Bool) (s : State) : State :=
  { s with
    w := Vector.ofFn fun i => Config.working s.draws i.val
    w15 := Config.working s.draws 15
    srh := Config.statusHigh s.draws
    flags := Config.statusLow s.draws
    accA := Config.accA s.draws
    accB := Config.accB s.draws
    mem := if inhibit then s.mem else []
    memEpoch := if inhibit then s.memEpoch else s.draws
    dataWrite := s.dataWrite || !inhibit
    draws := s.draws + 1 }

/-- Each condition of the set is raised as the rule of its cause says (R158, R170, R187); a carry that the
enabled saturation rules out is no overflow (R38, R171). -/
def Eff.raiseConds (c : TrapConds) (e : Eff) : Eff :=
  let s := e.st
  let s := if e.st.overflows .a c.ovA then s.raiseOverflow .a else s
  let s := if e.st.overflows .b c.ovB then s.raiseOverflow .b else s
  let s := if e.st.overflowsFar .a c.covA then s.raiseFarOverflow .a else s
  let s := if e.st.overflowsFar .b c.covB then s.raiseFarOverflow .b else s
  let s := if c.shift then s.raiseMath 7 else s
  let s := if c.div0 then s.raiseMath 6 else s
  let s := if c.stack then s.raiseSoft .stkErr else s
  { e with st := s, addr := e.addr || c.addr }

/-- An `Other(c)` event (R158): the draws of R140, the conditions of `c`. -/
def Eff.otherEvent (c : TrapConds) (e : Eff) : Eff := (e.map (State.drawOther c.addr)).raiseConds c

end Sys2Proof.Machine
end

