-- ==== Sys2Proof/Machine/Control.lean ====
section
/-! DEFINITION. Meanings: NOP, RETFIE, RETURN, RESET, PWRSAV, DISI, REPEAT, GOTO, BRA and the divide that a
REPEAT loop executes (spec/40_interrupt_control_instructions.md, spec/41_trap_raising_instructions.md). -/

namespace Sys2Proof.Machine

/-- What an instruction answers. -/
abbrev Result := Host.Outcome State Fault Refusal

/-- NOP (R147): `pc + 2` and the tick. -/
def execNop (s : State) : Result := .next (s.eff.goTo s (s.pc + 2))

/-- RETFIE (R145). -/
def execRetfie (s : State) : Result := .next (returnFromException s)

/-- RETURN (R182): the two pops of RETFIE, of which only the return address is used. -/
def execRet (s : State) : Result :=
  let ((pc, _, _), e) := s.eff.popFrame
  .next (e.goTo s pc)

/-- RESET (R146). -/
def execReset (s : State) : Result := .next (deviceReset .software s)

/-- The wake-up condition (R245, R218): a requested source of priority 1 or more. -/
def State.wakeCondition (s : State) : Bool :=
  (List.range 118).any fun n => s.requests n && decide (1 ≤ (s.ipcField n).toNat)

/-- Sleep and Idle end, Halt does not (R214, R245). -/
def State.wake (s : State) : State :=
  match s.power with
  | .sleep | .idle => { s with power := .run }
  | .run | .halt => s

/-- The wake-up rule (R245): Sleep and Idle end where the condition holds. -/
def State.wakeIfRequested (s : State) : State := if s.wakeCondition then s.wake else s

/-- The `power` value of a PWRSAV operand (R148). -/
def powerOf : PowerMode → Power
  | .sleep => .sleep
  | .idle => .idle

/-- PWRSAV (R148): on to `pc + 2`, asleep, and awake at once where the wake-up condition holds (R245, D22). -/
def execPwrsav (m : PowerMode) (s : State) : Result :=
  .next (({ s.eff.goTo s (s.pc + 2) with power := powerOf m } : State).wakeIfRequested)

/-- DISI (R141): the tick of its own cycle comes before the load. -/
def execDisi (k : BitVec 14) (s : State) : Result :=
  let s1 := ({ s with pc := s.pc + 2, lateEntry := s.late } : State).tick 1
  .next { s1 with
    disicnt := k
    intcon2 := setBit s1.intcon2 14 (decide (k ≠ 0)) }

/-- The effect of a divide instruction that a REPEAT loop executes (R175). -/
def Eff.divide (divisor : Int) (e : Eff) : Eff :=
  let e := e.map State.drawDivide
  if divisor = 0 then e.map (State.raiseMath 6) else e

/-- The divide instruction that stands after the REPEAT at `pc`, if one does (R175, R185). DESIGN CHOICE, logs 19 and
36: it is looked up whether its address, `pc + 2`, is implemented program memory or not, R181 asking about `pc` only,
so a divide event at an unimplemented address runs with no address error. -/
def State.repeatedDivide (s : State) : Option Int :=
  match memFind s.events (wordAddr (s.pc + 2)) with
  | some ev =>
    match ev.instr with
    | .repeatDiv d => some d
    | _ => none
  | none => none

/-- REPEAT (R185). With a divide instruction after it the loop is one event, `RepeatDiv` (D21); what it does
before any other instruction is not in the source, so it is then an instruction the source does not name (R158). -/
def execRepeatLit (_k : BitVec 14) (s : State) : Result :=
  match s.repeatedDivide with
  | some d => .next ((s.eff.divide d).goTo s (s.after (s.pc + 2)))
  | none => .next ((s.eff.otherEvent {}).goTo s (s.pc + 2))

/-- The divide instruction inside a REPEAT loop, as one event (R175, D21): the program map says how many program
words it takes, two where it stands for the REPEAT and the divide. DESIGN CHOICE, log 19: a divide event that is
reached on its own, the REPEAT before it having been jumped over, is the same event. -/
def execRepeatDiv (divisor : Int) (s : State) : Result :=
  .next ((s.eff.divide divisor).goTo s (s.after s.pc))

/-- A jump to a literal program address (R180, R183, R184): the address error where it is unimplemented. -/
def Eff.jump (pre : State) (t : PAddr) (e : Eff) : State :=
  ({ e with addr := e.addr || !progImplemented pre.dev t } : Eff).goTo pre t

/-- GOTO (R183). -/
def execGotoWord1 (lo : BitVec 15) (hi : BitVec 7) (s : State) : Result :=
  .next (s.eff.jump s (gotoTarget lo hi))

/-- GOTO's second word reached on its own: its bits are a NOP's (R125, R147; log 8). -/
def execGotoWord2 (_hi : BitVec 7) (s : State) : Result := .next (s.eff.goTo s (s.pc + 2))

/-- BRA (R184). -/
def execBra (n : BitVec 16) (s : State) : Result := .next (s.eff.jump s (braTarget s.pc n))

end Sys2Proof.Machine
end

