-- ==== Sys2Proof/Machine/Accumulator.lean ====
section
/-! DEFINITION. Meanings: SFTAC and any instruction that writes an accumulator. -/

namespace Sys2Proof.Machine

/-- SFTAC (R174): a count out of range raises the math error and writes no accumulator. -/
def execSftac (acc : Acc) (n : ShiftCount) (s : State) : Result :=
  .next ((s.eff.map fun t =>
    if shiftOutOfRange (shiftCount s n) then t.raiseMath 7 else t.drawAcc acc).goTo s (s.pc + 2))

/-- An accumulator operation (R171 to R173): the result, OA or OB, and the traps that are enabled. -/
def execAccOp (acc : Acc) (ov31 ov39 : Bool) (s : State) : Result :=
  let ov := s.overflows acc ov31
  let far := s.overflowsFar acc ov39
  .next ((s.eff.map fun t =>
    let t := (t.drawAcc acc).setOverflowStatus acc ov
    let t := if ov then t.raiseOverflow acc else t
    if far then t.raiseFarOverflow acc else t).goTo s (s.after s.pc))

end Sys2Proof.Machine
end

