-- ==== Sys2Proof/Machine/DataAccess.lean ====
section
/-! DEFINITION. Meanings: bit-manipulation instructions with indirect addressing, byte and word data accesses,
the data fetches of MAC-class instructions. -/

namespace Sys2Proof.Machine

/-- A bit-manipulation instruction with indirect addressing (R178, R179): it reads the word at `ea`; one that
changes a bit stores the word back, unless the read met an address error (R100). DESIGN CHOICE, log 27: the
access is of a whole 16-bit word, its width not being in the source (R178, R188). -/
def execBitIndirect (ea : Word) (op : DataOp) (s : State) : Result :=
  let e := s.eff.access .word ea .read
  let e := match op with
    | .read => e
    | .write v => e.write .word ea v
  .next (e.goTo s (s.after s.pc))

/-- A byte or word data access (R178, R179). -/
def execDataAccess (size : Size) (ea : Word) (op : DataOp) (s : State) : Result :=
  .next ((s.eff.access size ea op).goTo s (s.after s.pc))

/-- A data fetch of a MAC-class instruction (R98, R179): an address of the other space counts as
unimplemented, so the fetch returns a free value. -/
def execMacFetch (space : MacSpace) (ea : Word) (s : State) : Result :=
  if macCrossing s.dev space ea then
    .next (({ s.eff with
      st := { s with result := Config.faultyRead s.draws, draws := s.draws + 1 }
      addr := true } : Eff).goTo s (s.after s.pc))
  else .next ((s.eff.access .word ea .read).goTo s (s.after s.pc))

end Sys2Proof.Machine
end

