-- ==== Sys2Proof/Machine/Other.lean ====
section
/-! DEFINITION. Meanings: any other instruction, and the three that the source names only for latency (R158,
R186). -/

namespace Sys2Proof.Machine

/-- Where a bit test and skip instruction goes on: past the next instruction where it skips (R122, R140). -/
def State.afterSkip (s : State) (skip : Bool) : PAddr :=
  if skip then s.after (s.after s.pc) else s.after s.pc

/-- MOV.D with a PSV access (R186): an `Other` event of a kind of R293. -/
def execMovdPsv (c : TrapConds) (s : State) : Result :=
  .next ((s.eff.otherEvent c).finish s (s.after s.pc) s.cycles true)

/-- BTSC with a PSV access (R186): an `Other` event of a kind of R293. -/
def execBtscPsv (c : TrapConds) (skip : Bool) (s : State) : Result :=
  .next ((s.eff.otherEvent c).finish s (s.afterSkip skip) s.cycles true)

/-- BTSS with a PSV access (R186): an `Other` event of a kind of R293. -/
def execBtssPsv (c : TrapConds) (skip : Bool) (s : State) : Result :=
  .next ((s.eff.otherEvent c).finish s (s.afterSkip skip) s.cycles true)

/-- `Other(c)` (R158). -/
def execOther (c : TrapConds) (s : State) : Result :=
  .next ((s.eff.otherEvent c).goTo s (s.after s.pc))

end Sys2Proof.Machine
end

