-- ==== Sys2Proof/Machine/SfrAccess.lean ====
section
/-! DEFINITION. Meanings: reads and writes of the special function registers, of SPLIM and of DISICNT. -/

namespace Sys2Proof.Machine

/-- `SfrWrite(r, v)` (R150). -/
def execSfrWrite (r : Sfr) (v : Word) (s : State) : Result :=
  .next ((s.eff.sfrUpdate r 0xFFFF#16 v).goTo s (s.after s.pc))

/-- `SfrRead(r)` (R151): the value goes to the instruction. -/
def execSfrRead (r : Sfr) (s : State) : Result :=
  .next ((s.eff.map fun t => { t with result := t.sfrValue r, draws := t.draws + 1 }).goTo s (s.after s.pc))

/-- `SfrBitClear(r, b)` (R152). -/
def execSfrBitClear (r : Sfr) (b : Fin 16) (s : State) : Result :=
  .next ((s.eff.sfrUpdate r (bitMask b) 0#16).goTo s (s.after s.pc))

/-- `SfrBitSet(r, b)` (R153). -/
def execSfrBitSet (r : Sfr) (b : Fin 16) (s : State) : Result :=
  .next ((s.eff.sfrUpdate r (bitMask b) 0xFFFF#16).goTo s (s.after s.pc))

/-- `SfrFieldWrite(r, hi, lo, v)` (R157). -/
def execSfrFieldWrite (r : Sfr) (hi lo : Fin 16) (v : Word) (s : State) : Result :=
  .next ((s.eff.sfrUpdate r (fieldMask hi.val lo.val) (v <<< lo.val)).goTo s (s.after s.pc))

/-- `SplimWrite(v)` (R156): the stack overflow check is enabled from now on. -/
def execSplimWrite (v : Word) (s : State) : Result :=
  .next ((s.eff.map fun t => { t with splim := v, splimWritten := true, dataWrite := true }).goTo s (s.after s.pc))

/-- `DisicntWrite(v)`, a write or an add (R144). -/
def execDisicntWrite (op : CountOp) (s : State) : Result :=
  .next ((s.eff.map fun t => (t.writeDisicnt (countOperand s op)).wroteData).goTo s (s.after s.pc))

end Sys2Proof.Machine
end

