-- ==== Sys2Proof/Machine/Stack.lean ====
section
/-! DEFINITION. Meanings: PUSH, POP, the OR to SRL, and any access through W15. -/

namespace Sys2Proof.Machine

/-- PUSH f (R149, R176): the word at `f` is read and pushed; with `f` the address of SR it is `PushSR`. DESIGN CHOICE,
log 24: the read at `f` comes before the stack check of the push. -/
def execPushF (f : BitVec 15) (s : State) : Result :=
  let (v, e) := s.eff.read .word (fileAddr f)
  .next ((e.push v).goTo s (s.pc + 2))

/-- POP f (R154, R176): a word is popped and written at `f`; with `f` the address of SR it is `PopSR`, a
software write. -/
def execPopF (f : BitVec 15) (s : State) : Result :=
  let (v, e) := s.eff.pop
  .next ((e.write .word (fileAddr f) v).goTo s (s.pc + 2))

/-- The OR of `v` into SRL (R155). -/
def execOrSrl (v : Byte) (s : State) : Result :=
  .next ((s.eff.map (State.orSrlFlags v)).goTo s (s.pc + 2))

/-- Any access through W15 (R176, R177): the stack checks, the access, W15. DESIGN CHOICE, log 24: the stack error is
raised before the access, so that a read of INTCON1 that raises it returns STKERR as 1. -/
def execStackAccess (mode : StackMode) (size : Size) (op : DataOp) (s : State) : Result :=
  let e := (s.eff.stackCheck (stackExact s.w15 mode)).access size (stackEa s.w15 mode) op
  .next ((e.map fun t => { t with w15 := stackPointerAfter s.w15 mode }).goTo s (s.after s.pc))

end Sys2Proof.Machine
end

