-- ==== Sys2Proof/Machine/Dispatch.lean ====
section
/-! DEFINITION. One arm per instruction: each is a call of its meaning. -/

namespace Sys2Proof.Machine

def exec (i : Instr) (s : State) : Host.Outcome State Fault Refusal :=
  match i with
  | .nop => Sys2Proof.Machine.execNop s
  | .retfie => Sys2Proof.Machine.execRetfie s
  | .ret => Sys2Proof.Machine.execRet s
  | .reset => Sys2Proof.Machine.execReset s
  | .pwrsav m => Sys2Proof.Machine.execPwrsav m s
  | .disi k => Sys2Proof.Machine.execDisi k s
  | .repeatLit k => Sys2Proof.Machine.execRepeatLit k s
  | .gotoWord1 lo hi => Sys2Proof.Machine.execGotoWord1 lo hi s
  | .gotoWord2 hi => Sys2Proof.Machine.execGotoWord2 hi s
  | .bra n => Sys2Proof.Machine.execBra n s
  | .pushF f => Sys2Proof.Machine.execPushF f s
  | .popF f => Sys2Proof.Machine.execPopF f s
  | .orSrl v => Sys2Proof.Machine.execOrSrl v s
  | .sftac acc n => Sys2Proof.Machine.execSftac acc n s
  | .repeatDiv divisor => Sys2Proof.Machine.execRepeatDiv divisor s
  | .accOp acc ov31 ov39 => Sys2Proof.Machine.execAccOp acc ov31 ov39 s
  | .movdPsv c => Sys2Proof.Machine.execMovdPsv c s
  | .btscPsv c skip => Sys2Proof.Machine.execBtscPsv c skip s
  | .btssPsv c skip => Sys2Proof.Machine.execBtssPsv c skip s
  | .bitIndirect ea op => Sys2Proof.Machine.execBitIndirect ea op s
  | .dataAccess size ea op => Sys2Proof.Machine.execDataAccess size ea op s
  | .macFetch space ea => Sys2Proof.Machine.execMacFetch space ea s
  | .stackAccess mode size op => Sys2Proof.Machine.execStackAccess mode size op s
  | .sfrWrite r v => Sys2Proof.Machine.execSfrWrite r v s
  | .sfrRead r => Sys2Proof.Machine.execSfrRead r s
  | .sfrBitClear r b => Sys2Proof.Machine.execSfrBitClear r b s
  | .sfrBitSet r b => Sys2Proof.Machine.execSfrBitSet r b s
  | .sfrFieldWrite r hi lo v => Sys2Proof.Machine.execSfrFieldWrite r hi lo v s
  | .splimWrite v => Sys2Proof.Machine.execSplimWrite v s
  | .disicntWrite op => Sys2Proof.Machine.execDisicntWrite op s
  | .other c => Sys2Proof.Machine.execOther c s

end Sys2Proof.Machine
end

