-- ==== Sys2Proof/Machine/Env.lean ====
section
/-! DEFINITION. The events of the environment agents (spec/60_exceptions.md R216, R240) and the wake-up that
follows them (R245). -/

namespace Sys2Proof.Machine

/-- `IFS(n) <- 1` for an implemented source (R215, R216). -/
def State.setIfs (n : Nat) (s : State) : State :=
  if hasSource s.dev n then
    { s with ifs := s.ifs.setIfInBounds (n / 16) (setBit (s.ifs[n / 16]?.getD 0) (n % 16) true) }
  else s

/-- INTkEP (R30). -/
def State.edgePolarity (s : State) (k : Fin 3) : Bool := s.intcon2.getLsbD k.val

/-- `PinChange(k, level)` (R240): an edge of the chosen polarity sets the flag of INTk. -/
def State.pinChange (k : Fin 3) (level : Bool) (s : State) : State :=
  let old := s.pins[k]
  let s1 : State := { s with pins := s.pins.set k level }
  if (!s.edgePolarity k && !old && level) || (s.edgePolarity k && old && !level) then s1.setIfs (intIrq k)
  else s1

/-- An environment event takes effect (R203, R207, R216); a DMA collision can occur only together with a CPU
data write, and is no event else; a trap raised while asleep wakes the CPU (D30). DESIGN CHOICE, log 35: every cause
of an oscillator failure sets OSCCON.CF, as R203 writes; U18 leaves that open for a loss of PLL lock. -/
def envEvent (ev : EnvEvent) (s : State) : State :=
  match ev with
  | .periph n => (s.setIfs n).wakeIfRequested
  | .pinChange k level => (s.pinChange k level).wakeIfRequested
  | .oscFail => (({ s.eff with st := { s with cf := true }, swOsc := true } : Eff).settle s).wake
  | .dmaCollision => if s.dataWrite then (s.raiseSoft .dmaErr).wake else s
  | .externalReset => deviceReset .external s

end Sys2Proof.Machine
end

