-- ==== Sys2Proof/Machine/Boundary.lean ====
section
/-! DEFINITION. What the CPU agent does at an instruction boundary (spec/40_interrupt_control_instructions.md
R140): fetch, the choice between an exception and an instruction, and one turn of either agent. -/

namespace Sys2Proof.Machine

/-- What stands at a program address: an instruction, nothing, or a word that is no instruction. -/
inductive Fetched where
  | instr (i : Instr)
  | nothing
  | undecodable (why : Reject)
  deriving DecidableEq, Repr

/-- `Program(pc)` (R123, R140): the event that the program map places at `pc`, else the program words there,
decoded. Bit 0 of `pc` takes no part (R22; log 9). DESIGN CHOICE, log 36: GOTO's second word is the word programmed
two addresses on, whether that address is implemented or not (R181) and with no wrap at the top of program space
(R22, N11). -/
def State.fetch (s : State) : Fetched :=
  match memFind s.events (wordAddr s.pc) with
  | some ev => .instr ev.instr
  | none =>
    match memFind s.prog (wordAddr s.pc) with
    | none => .nothing
    | some w =>
      match decode (w :: (memFind s.prog (wordAddr s.pc + 2)).toList) with
      | .ok (i, _) => .instr i
      | .error why => .undecodable why

/-- A step at an unimplemented program address (R181): the address error, and no event is executed. -/
def executeNowhere (s : State) : State :=
  ({ s.bump.eff with addr := true } : Eff).finish s (Config.strayPc s.draws) s.cycles false

/-- The state in which an instruction begins: the boundary before it was the one that a rewritten priority may
race with (U1), and it has not written data space yet (R216). -/
def State.atBoundary (s : State) : State := { s with race := [], dataWrite := false }

/-- `soft_skid` after a step: 0 where it kept soft traps out of the boundary before the step (R209). -/
def State.endSkid (skid : Bool) (s : State) : State := if skid then { s with softSkid := false } else s

/-- What a step answers, with `soft_skid` as `endSkid` leaves it. -/
def endSkidResult (skid : Bool) : Result → Result
  | .next t => .next (t.endSkid skid)
  | .fault f => .fault f
  | .refused r => .refused r

/-- The CPU's step while it runs (R140 b and c, R181, R209, R220): the exception that is taken, or the
instruction at `pc`. `soft_skid` keeps soft traps out of this one boundary and is 0 after the step. -/
def boundary (s : State) : Result :=
  endSkidResult s.softSkid <|
    match s.taken with
    | some r => .next (takeException r { s with dataWrite := false })
    | none =>
      if progImplemented s.dev s.pc then
        match s.fetch with
        | .instr i => exec i s.atBoundary
        | .nothing => .fault .nothingProgrammed
        | .undecodable why => .refused (.undecodable why)
      else .next (executeNowhere s.atBoundary)

/-- One step of the CPU agent (R140): asleep it does nothing but wake where the rule of R245 says so, halted
it does nothing. -/
def cpuStep (s : State) : Result :=
  match s.power with
  | .run => boundary s
  | .sleep | .idle => .next s.wakeIfRequested
  | .halt => .next s

/-- One turn (R216): the agent whose turn it is moves; with no turn left the CPU moves. -/
def turn (s : State) : Result :=
  match s.turns with
  | [] => cpuStep s
  | .cpu :: rest => cpuStep { s with turns := rest }
  | .env ev :: rest => .next (envEvent ev { s with turns := rest })

/-- The program words `ws` stand from program address `a` on, and no event of the program map does. -/
def placeWords : Nat → List PWord → State → State
  | _, [], s => s
  | a, w :: rest, s =>
    placeWords (a + 2) rest { s with prog := memPut s.prog a w, events := memErase s.events a }

end Sys2Proof.Machine
end

