-- ==== Sys2Proof/Machine/Step.lean ====
section
/-! DEFINITION. The step of the machine, and the placing of an instruction where it fetches. -/

namespace Sys2Proof.Machine

/-- One step: one turn of the agent whose turn it is (R140, R216). -/
def step (s : State) : Host.Outcome State Fault Refusal := turn s

/-- `s` with the instruction whose table bits are `w` in program memory at `pc`. -/
def State.withFetchWord (s : State) (nbits w : Nat) : State := placeWords (wordAddr s.pc) (tableWords nbits w) s

end Sys2Proof.Machine
end

