-- ==== Sys2Proof/Safety.lean ====
section
/-! DEFINITION. The terms statements use: the invariant of the machine, what a step leaves unchanged, where an
access through W15 is a plain access to memory. -/

namespace Sys2Proof.Machine

/-! ## The invariant -/

/-- What every step keeps: data memory is in its canonical form; unimplemented register bits are 0 (R40);
INTCON2.DISI is 1 only while DISICNT is not 0 (R143); only flags that are 1 are marked as requesting nothing. -/
structure MachineInv (s : State) : Prop where
  mem : Memory.wf s.mem = true
  corcon : s.corcon &&& 0xF000#16 = 0#16
  intcon1 : s.intcon1 &&& 0x0001#16 = 0#16
  intcon2 : s.intcon2 &&& 0x3FF8#16 = 0#16
  inttreg : s.inttreg &&& 0xF080#16 = 0#16
  ifs : ∀ i : Fin 5, s.ifs[i] &&& ~~~flagMask s.dev i.val = 0#16
  iec : ∀ i : Fin 5, s.iec[i] &&& ~~~flagMask s.dev i.val = 0#16
  ipc : ∀ i : Fin 20, s.ipc[i] &&& ~~~prioMask s.dev i.val = 0#16
  disi : s.disi = true → s.disicnt ≠ 0#14
  inert : s.inert &&& ~~~(s.intcon1 &&& 0x003E#16) = 0#16

/-! ## What a step leaves unchanged -/

/-- Every byte of non-SFR data space reads as before. -/
def SameMemory (s t : State) : Prop := ∀ a, t.byteAt a = s.byteAt a

/-- Every byte of non-SFR data space but the `n` from `a` on reads as before. -/
def SameMemoryBut (a n : Nat) (s t : State) : Prop := ∀ b, (b < a ∨ a + n ≤ b) → t.byteAt b = s.byteAt b

/-- W0 to W14 are unchanged. -/
def SameWorking (s t : State) : Prop := t.w = s.w

/-- All of SR is unchanged. -/
def SameStatus (s t : State) : Prop := t.srh = s.srh ∧ t.ipl = s.ipl ∧ t.flags = s.flags

/-- Both accumulators are unchanged. -/
def SameAccs (s t : State) : Prop := t.accA = s.accA ∧ t.accB = s.accB

/-- CORCON, INTTREG, SPLIM with its hidden bit, RCON.TRAPR and OSCCON.CF are unchanged. -/
def SameSpecial (s t : State) : Prop :=
  t.corcon = s.corcon ∧ t.inttreg = s.inttreg ∧ t.splim = s.splim ∧ t.splimWritten = s.splimWritten ∧
  t.trapr = s.trapr ∧ t.cf = s.cf

/-- INTCON1, the skid of soft traps and the marks on its flags are unchanged: no trap was raised. -/
def SameTraps (s t : State) : Prop :=
  t.intcon1 = s.intcon1 ∧ t.inert = s.inert ∧ t.softSkid = s.softSkid

/-- The flags, enables and priorities of every interrupt source are unchanged, and so are the priorities that
the next boundary uses (U1). -/
def SameSources (s t : State) : Prop := t.ifs = s.ifs ∧ t.iec = s.iec ∧ t.ipc = s.ipc ∧ t.race = s.race

/-- The power mode and the pins are unchanged. -/
def SamePower (s t : State) : Prop := t.power = s.power ∧ t.pins = s.pins

/-- Sleep and Idle have ended where a source requests with priority 1 or more in `t`, else `power` is as it was;
Run and Halt are kept (R214, R218, R245). -/
def WokenByRequest (s t : State) : Prop :=
  ((∃ n, n < 118 ∧ t.requests n = true ∧ t.ipcField n ≠ 0) → s.power = .sleep ∨ s.power = .idle →
    t.power = .run) ∧
  ((∀ n, n < 118 → t.requests n = true → t.ipcField n = 0) → t.power = s.power) ∧
  (s.power = .run ∨ s.power = .halt → t.power = s.power)

/-- The device was reset by a trap conflict (R41, R212, R270). -/
def ConflictReset (s t : State) : Prop :=
  t.trapr = true ∧ t.pc = 0 ∧ t.w15 = 0x0800 ∧ t.sr = 0 ∧ t.corcon = 0x0020 ∧ t.intcon1 = 0 ∧ t.intcon2 = 0 ∧
  t.power = .run ∧ t.prog = s.prog ∧ t.events = s.events ∧ t.timing = s.timing ∧ t.dev = s.dev

/-- The registers that the entry of `r` raises: SR.IPL, IPL3 and INTTREG. SR.IPL is the priority of the interrupt
that the boundary used, or 7 while NSTDIS is 1, with the rest of CORCON kept; or IPL3 and SR.IPL make up the priority
of the trap, whose VECNUM is free (R226, R227). -/
def Entered (r : Request) (s t : State) : Prop :=
  (∀ n, r = .irq n →
    t.ipl = (if s.nstdis then 7 else s.seenField n) ∧ t.corcon = s.corcon ∧
    t.inttreg.extractLsb' 8 4 = 0#1 ++ s.seenField n ∧ t.inttreg.extractLsb' 0 7 = BitVec.ofNat 7 n) ∧
  (∀ k, r = .trap k →
    t.cpuIpl = k.priority ∧ t.ipl3 = true ∧ (∀ j, j ≠ 3 → t.corcon.getLsbD j = s.corcon.getLsbD j) ∧
    t.inttreg.extractLsb' 8 4 = BitVec.ofNat 4 k.priority)

/-- The parameters of the run and of the device, and program memory, are unchanged. -/
def SameParameters (s t : State) : Prop :=
  t.prog = s.prog ∧ t.events = s.events ∧ t.timing = s.timing ∧ t.dev = s.dev

/-- DISICNT counted down by `c`, not below 0; INTCON2 is unchanged but for DISI, which is 0 once the count
is (R142, R143). -/
def Ticked (c : Nat) (s t : State) : Prop :=
  t.disicnt.toNat = s.disicnt.toNat - c ∧
  (∀ j, j ≠ 14 → t.intcon2.getLsbD j = s.intcon2.getLsbD j) ∧
  (t.disi = true ↔ s.disi = true ∧ c < s.disicnt.toNat)

/-- Nothing but memory, W15, `pc` and the tick changed, and no trap was raised. -/
def QuietButMemory (c : Nat) (s t : State) : Prop :=
  SameWorking s t ∧ SameStatus s t ∧ SameAccs s t ∧ SameSpecial s t ∧ SameTraps s t ∧ SameSources s t ∧
  SamePower s t ∧ SameParameters s t ∧ Ticked c s t

/-- Nothing but memory, W15, `pc`, the tick and the trap flags of INTCON1 changed. -/
def QuietButTraps (c : Nat) (s t : State) : Prop :=
  SameWorking s t ∧ SameStatus s t ∧ SameAccs s t ∧ SameSpecial s t ∧ SameSources s t ∧ SamePower s t ∧
  SameParameters s t ∧ Ticked c s t

/-- Nothing but `pc` and the tick changed. -/
def Quiet (c : Nat) (s t : State) : Prop := QuietButMemory c s t ∧ t.w15 = s.w15 ∧ SameMemory s t

/-- No exception state changed but by the tick: what an instruction keeps that only moves data. -/
def SameExceptionState (s t : State) : Prop :=
  SameSpecial s t ∧ SameTraps s t ∧ SameSources s t ∧ SamePower s t ∧ SameParameters s t

/-- The trap status flag of `k` is set and pending, the other bits of INTCON1 but those in `alsoSet` are
unchanged, those in `alsoSet` are 1. -/
def TrapRaised (k : TrapKind) (alsoSet : List Nat) (s t : State) : Prop :=
  t.trapPending k = true ∧
  ∀ j, j ≠ k.flagBit → t.intcon1.getLsbD j = (decide (j ∈ alsoSet) || s.intcon1.getLsbD j)

/-! ## The access of each register bit, bit by bit as the register tables print it -/

/-- The legend of the register tables (R9): readable and writable, read-only, clearable only,
unimplemented. -/
inductive Access where
  | rw | ro | clearOnly | unimplemented
  deriving DecidableEq, Repr

/-- A bit after a software write of `new` to it (R9, R40). -/
def Access.written (a : Access) (old new : Bool) : Bool :=
  match a with
  | .rw => new
  | .ro => old
  | .clearOnly => old && new
  | .unimplemented => false

/-- SR (R23), where NSTDIS is `n` (R25). -/
def srAccess (n : Bool) : Nat → Access
  | 15 | 14 | 11 | 9 | 4 => .ro
  | 13 | 12 | 10 => .clearOnly
  | 7 | 6 | 5 => if n then .ro else .rw
  | 8 | 3 | 2 | 1 | 0 => .rw
  | _ => .unimplemented

/-- CORCON (R26). -/
def corconAccess : Nat → Access
  | 11 | 7 | 6 | 5 | 4 | 2 | 1 | 0 => .rw
  | 10 | 9 | 8 => .ro
  | 3 => .clearOnly
  | _ => .unimplemented

/-- INTCON2 (R30). -/
def intcon2Access : Nat → Access
  | 15 | 2 | 1 | 0 => .rw
  | 14 => .ro
  | _ => .unimplemented

/-- INTTREG (R32). -/
def inttregAccess : Nat → Access
  | 11 | 10 | 9 | 8 | 6 | 5 | 4 | 3 | 2 | 1 | 0 => .ro
  | _ => .unimplemented

/-- IFSx and IECx: the bit of an implemented source is R/W (R61, R62, R65, R66). -/
def flagAccess (d : Device) (x b : Nat) : Access := if hasSource d (16 * x + b) then .rw else .unimplemented

/-- IPCx: bits 2:0 of nibble `k` are the field of IRQ `4*x + k`, bit 3 of a nibble is unimplemented (R63,
R67). -/
def prioAccess (d : Device) (x b : Nat) : Access :=
  if b % 4 ≠ 3 && hasSource d (4 * x + b / 4) then .rw else .unimplemented

/-- The registers whose software write has no effect but on their own bits. -/
def tableAccess (s : State) : Sfr → Option (Nat → Access)
  | .sr => some (srAccess s.nstdis)
  | .corcon => some corconAccess
  | .intcon2 => some intcon2Access
  | .inttreg => some inttregAccess
  | .ifs i => some (flagAccess s.dev i.val)
  | .iec i => some (flagAccess s.dev i.val)
  | .ipc i => some (prioAccess s.dev i.val)
  | .intcon1 | .disicnt | .splim | .rcon | .osccon => none

/-- Every register but `r` and INTCON1 is unchanged, its hidden bits too, but for the tick of `c` cycles on DISICNT
and INTCON2.DISI; the next boundary uses every priority as before unless `r` is a priority register. `r` is none of
INTCON1, DISICNT, SPLIM, RCON and OSCCON. -/
def OtherSfrsSameButTraps (c : Nat) (r : Sfr) (s t : State) : Prop :=
  (∀ q, q ≠ r → q ≠ .intcon1 → q ≠ .intcon2 → q ≠ .disicnt → q ≠ .rcon → q ≠ .osccon →
    t.sfrValue q = s.sfrValue q) ∧
  (r ≠ .intcon2 → ∀ j, j ≠ 14 → t.intcon2.getLsbD j = s.intcon2.getLsbD j) ∧
  t.disicnt.toNat = s.disicnt.toNat - c ∧ (t.disi = true ↔ s.disi = true ∧ c < s.disicnt.toNat) ∧
  t.splimWritten = s.splimWritten ∧ t.trapr = s.trapr ∧ t.cf = s.cf ∧
  ((∀ i, r ≠ .ipc i) → t.race = s.race)

/-- The same, and INTCON1 and all that hangs on it unchanged too. -/
def OtherSfrsSame (c : Nat) (r : Sfr) (s t : State) : Prop := OtherSfrsSameButTraps c r s t ∧ SameTraps s t

/-- After a software write the next boundary uses the priority of every source as it is now. Where the source is
enabled, interrupts are not disabled by the CPU priority and the source is not masked by DISI at both values, it
may use the priority before the write instead (R68, U1). -/
def PrioritiesSeen (s t : State) : Prop :=
  s.race = [] → ∀ n, t.seenField n = t.ipcField n ∨
    (t.seenField n = s.ipcField n ∧ hasSource s.dev n = true ∧ s.iecBit n = true ∧ s.cpuIpl < 7 ∧
      (s.disi = true → s.ipcField n = 7 ∨ t.ipcField n = 7))

/-! ## Where an access is a plain access to memory -/

/-- `a` is an implemented data address that no SFR stands at. -/
def PlainRam (s : State) (a : Word) : Prop :=
  dataImplemented s.dev a = true ∧ sfrAt s.dev a.toNat = none

/-- A word access through W15 at `a` that meets no check: even, plain memory, at least 0x0800 and not above
SPLIM once SPLIM was written (R97, R176, R177). -/
def StackOk (s : State) (a : Word) : Prop :=
  a.getLsbD 0 = false ∧ PlainRam s a ∧ 0x0800 ≤ a.toNat ∧ (s.splimWritten = true → a.toNat ≤ s.splim.toNat)

/-- `a` lies outside the stack: below 0x0800, or above SPLIM once SPLIM was written (R176, R177). -/
def OutsideStack (s : State) (a : Word) : Prop :=
  a.toNat < 0x0800 ∨ (s.splimWritten = true ∧ s.splim.toNat < a.toNat)

/-- The SFR `q` stands at the implemented data address `a` (R99). -/
def StandsAt (s : State) (a : Word) (q : Sfr) : Prop :=
  dataImplemented s.dev a = true ∧ sfrAt s.dev a.toNat = some q

/-- What a pop at `a` reads in an instruction that raises the stack error: the word of memory, or the value of the
register that stands there. INTCON1 is read with STKERR set where `a` itself lies outside the stack (log 24), and
nothing is said of it elsewhere; RCON and OSCCON, most bits of which are free, are left out. -/
def PopReads (s : State) (a v : Word) : Prop :=
  (PlainRam s a ∧ v = s.wordAt a.toNat) ∨
  (StandsAt s a .intcon1 ∧ OutsideStack s a ∧ v = s.sfrValue .intcon1 ||| 0x0004) ∨
  (∃ q, StandsAt s a q ∧ q ≠ .intcon1 ∧ q ≠ .rcon ∧ q ≠ .osccon ∧ v = s.sfrValue q)

/-- The bits `hi:lo` of an SFR that an access of this width at `ea` reaches (R96, R99; the byte order is log 29). -/
def ReachesBits (size : Size) (ea : Word) (hi lo : Fin 16) : Prop :=
  (size = .word ∧ ea.getLsbD 0 = false ∧ hi = 15 ∧ lo = 0) ∨
  (size = .byte ∧ ea.getLsbD 0 = true ∧ hi = 15 ∧ lo = 8) ∨
  (size = .byte ∧ ea.getLsbD 0 = false ∧ hi = 7 ∧ lo = 0)

/-- A write of `v` to INTCON1 sets none of the two hard trap flags, OSCFAIL and ADDRERR (R29). -/
def SetsNoHardFlag (s : State) (v : Word) : Prop :=
  ∀ j, j = 1 ∨ j = 3 → v.getLsbD j = true → s.intcon1.getLsbD j = true

/-- The bits of a register that the entry of an exception or its tick writes itself: SR.IPL, IPL3, INTTREG and
INTCON2.DISI (R142, R226, R227). -/
def EntryWrites (q : Sfr) (j : Nat) : Prop :=
  (q = .sr ∧ 5 ≤ j ∧ j ≤ 7) ∨ (q = .corcon ∧ j = 3) ∨ q = .inttreg ∨ (q = .intcon2 ∧ j = 14)

/-- A word read at `a` raises the address error: `a` is odd or unimplemented data space (R97, R98, R179). -/
def BadRead (s : State) (a : Word) : Prop := a.getLsbD 0 = true ∨ dataImplemented s.dev a = false

/-- The instruction `i` meets an address error in `s`: a word access at an odd address (R97), a read of unimplemented
data space or by a MAC-class fetch of the other space (R98, R179), a bit instruction at either (R178; of a word,
log 27), a push or a pop that is such an access (R159), a GOTO or BRA to an unimplemented address (R180), an `Other`
event with that condition (R158). -/
def MeetsAddressError (s : State) : Instr → Prop
  | .dataAccess size ea op =>
    (size = .word ∧ ea.getLsbD 0 = true) ∨ (op = .read ∧ dataImplemented s.dev ea = false)
  | .stackAccess mode size op =>
    (size = .word ∧ (stackEa s.w15 mode).getLsbD 0 = true) ∨
      (op = .read ∧ dataImplemented s.dev (stackEa s.w15 mode) = false)
  | .bitIndirect ea _ => BadRead s ea
  | .macFetch space ea => macCrossing s.dev space ea = true ∨ BadRead s ea
  | .pushF f => s.w15.getLsbD 0 = true ∨ dataImplemented s.dev (f ++ 0#1) = false
  | .popF _ => BadRead s (s.w15 - 2)
  | .ret | .retfie => BadRead s (s.w15 - 2) ∨ BadRead s (s.w15 - 4)
  | .gotoWord1 lo hi => progImplemented s.dev (0#1 ++ hi ++ lo ++ 0#1) = false
  | .bra n => progImplemented s.dev (s.pc + 2 + BitVec.ofInt 24 (2 * n.toInt)) = false
  | .other c | .movdPsv c | .btscPsv c _ | .btssPsv c _ => c.addr = true
  | .nop | .reset | .pwrsav _ | .disi _ | .repeatLit _ | .gotoWord2 _ | .orSrl _ | .sftac _ _ | .repeatDiv _
  | .accOp _ _ _ | .sfrWrite _ _ | .sfrRead _ | .sfrBitClear _ _ | .sfrBitSet _ _ | .sfrFieldWrite _ _ _ _
  | .splimWrite _ | .disicntWrite _ => False

/-- The instructions that can meet an address error and no other trap condition. -/
def OnlyAddressError : Instr → Bool
  | .dataAccess _ _ _ | .bitIndirect _ _ | .macFetch _ _ | .gotoWord1 _ _ | .bra _ => true
  | .nop | .retfie | .ret | .reset | .pwrsav _ | .disi _ | .repeatLit _ | .gotoWord2 _ | .pushF _ | .popF _
  | .orSrl _ | .sftac _ _ | .repeatDiv _ | .accOp _ _ _ | .movdPsv _ | .btscPsv _ _ | .btssPsv _ _
  | .stackAccess _ _ _ | .sfrWrite _ _ | .sfrRead _ | .sfrBitClear _ _ | .sfrBitSet _ _
  | .sfrFieldWrite _ _ _ _ | .splimWrite _ | .disicntWrite _ | .other _ => false

/-- MOV.D, BTSC and BTSS with a PSV access (R186). -/
def PsvAccess : Instr → Bool
  | .movdPsv _ | .btscPsv _ _ | .btssPsv _ _ => true
  | .nop | .retfie | .ret | .reset | .pwrsav _ | .disi _ | .repeatLit _ | .gotoWord1 _ _ | .gotoWord2 _ | .bra _
  | .pushF _ | .popF _ | .orSrl _ | .sftac _ _ | .repeatDiv _ | .accOp _ _ _ | .bitIndirect _ _
  | .dataAccess _ _ _ | .macFetch _ _ | .stackAccess _ _ _ | .sfrWrite _ _ | .sfrRead _ | .sfrBitClear _ _
  | .sfrBitSet _ _ | .sfrFieldWrite _ _ _ _ | .splimWrite _ | .disicntWrite _ | .other _ => false

/-- A hard trap condition raised now only sets its flag: the oscillator failure trap is not pending and the
priority is below that of the address error trap (R210, R212, R214). -/
def HardTrapPends (s : State) : Prop := s.trapPending .oscFail = false ∧ s.cpuIpl < 13

/-- It is the turn of the CPU, and `left` are the turns after it: none is left at all, which leaves the turn to the
CPU, or the first one is the CPU's (R216; log 16). -/
def CpuTurn (s : State) (left : List Turn) : Prop := (s.turns = [] ∧ left = []) ∨ s.turns = .cpu :: left

/-- The CPU runs, no exception is taken, and `pc` is implemented: a turn of the CPU is an instruction (R140 c). -/
def AtInstruction (s : State) : Prop :=
  s.power = .run ∧ s.taken = none ∧ progImplemented s.dev s.pc = true

end Sys2Proof.Machine
end

