-- ==== Sys2Proof/Certificates/Slice0/Obligations.lean ====
section
/-! DEFINITION. The statements for the provers, each about the machine as the numbered rules of spec/ describe
it. A statement that rests on a choice of the model says so and names the log entry. Wherever a word of data memory is
read or stored, `wordAt` takes it little-endian (log 29), and wherever `pc` moves on, it wraps at 24 bits (logs 5, 9). -/

open Sys2Proof Sys2Proof.Machine

/-! ## Encoding -/

/-- Decoding the words of a well-formed instruction gives it back, with every operand at every value its
encoding admits (R125; the encodings are the spec's general knowledge, G4, log 7). GOTO's second word is left
to `GotoSecondWordIsNop`. -/
def Obligations.DecodeEncodeRoundTrip : Prop :=
  ∀ (i : Instr) (ws rest : List PWord), i.wf = true → (∀ hi, i ≠ .gotoWord2 hi) → encode i = some ws →
    decode (ws ++ rest) = .ok (i, rest)

/-- A list of words that decodes is the encoding of what it decodes to, followed by the rest; only NOP has
don't-care bits, bits 15:0 of its word (R125; log 7). -/
def Obligations.EncodeDecodeExact : Prop :=
  ∀ (ws rest : List PWord) (i : Instr), decode ws = .ok (i, rest) →
    i.wf = true ∧
    ((i = .nop ∧ ∃ w, ws = w :: rest ∧ w.extractLsb' 16 8 = 0#8) ∨
     (i ≠ .nop ∧ ∃ es, encode i = some es ∧ ws = es ++ rest))

/-- The decoder rejects a word as unallocated exactly where it matches no row of the encoding table (R125,
R126: no neighbour's meaning is given to it; log 7). -/
def Obligations.UnallocatedWordsAreRejected : Prop :=
  ∀ (w : PWord) (rest : List PWord),
    decode (w :: rest) = .error .unallocated ↔ ∀ r ∈ encodingRows, w &&& r.2 ≠ r.1

/-- A few words of the encoding table decode to their instructions (R125; log 7). -/
def Obligations.TableWordsDecode : Prop :=
  decodeTableWord 24 0x000000 = some .nop ∧
  decodeTableWord 24 0x064000 = some .retfie ∧
  decodeTableWord 24 0xFE4001 = some (.pwrsav .idle) ∧
  decodeTableWord 24 0xFC3FFF = some (.disi 0x3FFF) ∧
  decodeTableWord 48 0x00007F04FFFE = some (.gotoWord1 0x7FFF 0x7F) ∧
  decodeTableWord 24 0x37FFFE = some (.bra 0xFFFE) ∧
  decodeTableWord 24 0xF80042 = some (.pushF 0x21)

/-- The second word of a GOTO, reached on its own, decodes as a NOP and does what a NOP does: the model's
reading of the two rows of R125 that overlap (log 8). -/
def Obligations.GotoSecondWordIsNop : Prop :=
  ∀ (hi : BitVec 7) (rest : List PWord) (s : State),
    decode ((0#17 ++ hi) :: rest) = .ok (.nop, rest) ∧
    ∃ t, exec (.gotoWord2 hi) s = .next t ∧ exec .nop s = .next t ∧ t.pc = s.pc + 2 ∧ Quiet s.cycles s t

/-! ## The step -/

/-- A turn of the running CPU at which no exception is taken runs the instruction: where the program words at `pc`
decode to one, that instruction; where the program map places an event at `pc`, that event (R123, R140 c). The
environment's turns after it are left (R216). The instruction begins with nothing written yet and no priority to race
with; `soft_skid`, where it was 1 at the boundary, is 0 after the step (R209). Choices of the model: at an odd `pc` the
even address below is fetched (log 9), an event of the program map goes before a program word at its address (log 15),
and GOTO's second word is read two addresses on, implemented or not (log 36). -/
def Obligations.StepRunsDecodedInstruction : Prop :=
  ∀ (s : State) (left : List Turn), CpuTurn s left → AtInstruction s →
    let runs (i : Instr) : Prop := ∃ t, exec i { s with race := [], dataWrite := false, turns := left } = .next t ∧
      t.turns = left ∧ step s = .next (if s.softSkid then { t with softSkid := false } else t)
    (∀ (w : PWord) (rest : List PWord) (i : Instr),
      memFind s.events (wordAddr s.pc) = none → memFind s.prog (wordAddr s.pc) = some w →
      decode (w :: (memFind s.prog (wordAddr s.pc + 2)).toList) = .ok (i, rest) → runs i) ∧
    (∀ ev : ProgEvent, memFind s.events (wordAddr s.pc) = some ev → runs ev.instr)

/-- At a turn of the running CPU an exception that arbitration selects is entered instead of the instruction at `pc`
(R140 b, R220), and the environment's turns after it are left (R216); `soft_skid`, where it was 1 at the boundary, is 0
after the step (R209). -/
def Obligations.StepTakesException : Prop :=
  ∀ (s : State) (r : Request) (left : List Turn), CpuTurn s left → s.power = .run → s.taken = some r →
    let t := takeException r { s with dataWrite := false, turns := left }
    t.turns = left ∧ step s = .next (if s.softSkid then { t with softSkid := false } else t)

/-- At an unimplemented program address no event is executed and the address error is raised (R181); `soft_skid` has
had its one boundary (R209). The address asked about is `pc` itself, bit 0 included (log 9). -/
def Obligations.StepAtUnimplementedAddress : Prop :=
  ∀ (s : State) (left : List Turn), CpuTurn s left → s.power = .run → s.taken = none →
    progImplemented s.dev s.pc = false → HardTrapPends s →
    ∃ t, step s = .next t ∧ TrapRaised .addrErr [] s t ∧ t.w15 = s.w15 ∧ t.softSkid = false ∧ SameMemory s t ∧
      t.turns = left ∧ QuietButTraps s.cycles { s with race := [] } t

/-- Asleep, the CPU does nothing at its turn but wake where a source requests with priority 1 or more; halted, it does
nothing (R140 a, R214, R216, R245). That a trap that was pending when PWRSAV ran, a soft one behind `soft_skid`, does
not wake it is the model's choice (log 26). -/
def Obligations.SleepingCpuOnlyWakes : Prop :=
  ∀ (s : State) (left : List Turn), CpuTurn s left →
    (s.power = .sleep ∨ s.power = .idle →
      ((∃ n, n < 118 ∧ hasSource s.dev n = true ∧ s.ifsBit n = true ∧ s.iecBit n = true ∧ s.ipcField n ≠ 0) →
        step s = .next { s with power := .run, turns := left }) ∧
      ((∀ n, n < 118 → hasSource s.dev n = true → s.ifsBit n = true → s.iecBit n = true → s.ipcField n = 0) →
        step s = .next { s with turns := left })) ∧
    (s.power = .halt → step s = .next { s with turns := left })

/-! ## Arbitration -/

/-- The candidates at a boundary are the pending traps, soft ones only without `soft_skid`, and the requested
sources, those of priority 1 to 6 only while DISI is inactive (R208, R215, R219, R221). The priority is that of the
source's field, unless a write of it races with the boundary (R68, log 23). -/
def Obligations.CandidatesAreTheRequests : Prop :=
  ∀ (s : State),
    (∀ k, Request.trap k ∈ s.candidates ↔ s.trapPending k = true ∧ (k.hard = true ∨ s.softSkid = false)) ∧
    (∀ n, Request.irq n ∈ s.candidates ↔
      n < 118 ∧ hasSource s.dev n = true ∧ s.ifsBit n = true ∧ s.iecBit n = true ∧
      (s.disi = true → s.seenField n = 0 ∨ s.seenField n = 7)) ∧
    (s.race = [] → ∀ n, s.seenField n = s.ipcField n)

/-- The exception taken is the candidate of the greatest priority, of the smallest vector number among equals,
and it is taken exactly when its priority is strictly greater than `cpu_ipl` (R217, R219, R220). The priority of an
interrupt is the one that the boundary uses, where a write of it races with the boundary the old one (R68, log 23). -/
def Obligations.TakenIsBestCandidate : Prop :=
  ∀ (s : State) (r : Request), s.taken = some r ↔
    r ∈ s.candidates ∧ s.cpuIpl < s.priority r ∧
    ∀ q ∈ s.candidates, s.priority q < s.priority r ∨ (s.priority q = s.priority r ∧ r.vector ≤ q.vector)

/-- An interrupt is taken only with IPL3 = 0 and a priority above SR.IPL; none with SR.IPL = 7, none of
priority 0, and while DISI is active only one of priority 7 (R24, R218, R220, R221). The priority is the one that
the boundary uses (R68, log 23). -/
def Obligations.InterruptsNeedHigherPriority : Prop :=
  ∀ (s : State) (n : Nat), s.taken = some (.irq n) →
    s.ipl3 = false ∧ s.ipl.toNat < (s.seenField n).toNat ∧ s.ipl ≠ 7 ∧ s.seenField n ≠ 0 ∧
    (s.disi = true → s.seenField n = 7)

/-- A pending trap interrupts all code that runs at `cpu_ipl` 7 or lower, soft ones once `soft_skid` is 0
(R202, R220). -/
def Obligations.TrapsCannotBeMasked : Prop :=
  ∀ (s : State) (k : TrapKind), s.trapPending k = true → (k.hard = true ∨ s.softSkid = false) →
    s.cpuIpl ≤ 7 → ∃ q, s.taken = some (.trap q) ∧ k.priority ≤ q.priority

/-- At the boundary after a hard trap was raised no instruction runs: a hard trap is taken (R210); with
`soft_skid` = 1 no soft trap is (R209, R219). -/
def Obligations.HardTrapHoldsTheProgram : Prop :=
  ∀ (s : State) (k : TrapKind),
    (k.hard = true → s.trapPending k = true → s.cpuIpl < 13 →
      s.taken = some (.trap .oscFail) ∨ s.taken = some (.trap .addrErr)) ∧
    (s.softSkid = true → s.taken = some (.trap k) → k.hard = true)

/-! ## Entry and return -/

/-- What taking an exception does (R224 to R229): the two frame words on the stack, W15 + 4, the new priority,
INTTREG, `pc` from the vector, Run; nothing else but the tick of the entry, 4 cycles, or 4 or 5 after an instruction
of a kind of R293. The frame is the device's, any function of PC, SRL and IPL3 (R7), by default that of G1 (log 4);
the priority of an interrupt is the one that the boundary used (R68, log 23). -/
def Obligations.EntrySavesAndRaises : Prop :=
  ∀ (s : State) (r : Request), StackOk s s.w15 → StackOk s (s.w15 + 2) →
    let t := takeException r s
    let f := frame s.dev s.pc s.srl s.ipl3
    t.wordAt s.w15.toNat = f.1 ∧ t.wordAt (s.w15.toNat + 2) = f.2 ∧
    (∀ j, j < 32 → (f.2 ++ f.1).getLsbD j =
      bitValue (BitVec.ofBool s.ipl3 ++ s.srl ++ s.pc).getLsbD (s.dev.frame[j]?.getD (.const false))) ∧
    (s.dev.frame = familyFrame →
      f = (s.pc.extractLsb' 0 16, s.srl ++ BitVec.ofBool s.ipl3 ++ s.pc.extractLsb' 16 7)) ∧
    SameMemoryBut s.w15.toNat 4 s t ∧ t.w15 = s.w15 + 4 ∧
    t.pc = s.progRead24 ((if s.altivt then 0x104 else 0x004) + 2 * r.vector) ∧
    t.power = .run ∧ t.lateEntry = false ∧ t.srh = s.srh ∧ t.flags = s.flags ∧ Entered r s t ∧
    SameWorking s t ∧ SameAccs s t ∧ SameTraps s t ∧ SameSources { s with race := [] } t ∧ SameParameters s t ∧
    t.splim = s.splim ∧ t.splimWritten = s.splimWritten ∧ t.trapr = s.trapr ∧ t.cf = s.cf ∧ t.pins = s.pins ∧
    (s.lateEntry = false → Ticked 4 s t) ∧ (Ticked 4 s t ∨ Ticked 5 s t)

/-- Faults of the entry pushes are raised, not taken (R230, D27). A push below 0x0800 or above SPLIM raises the
stack error and is performed (R176, R177); a push to unimplemented data space has no effect (U15, log 27); with an odd
W15 the address error is raised and nothing is stored (R97, R100). The entry completes, with the new priority, INTTREG,
`pc` from the vector and Run, so that the new trap is arbitrated against the new `cpu_ipl` (R226 to R228), but where
the address error meets a hard trap: the one being entered has its level, or the oscillator failure trap is pending
(R212, R214, log 12). A push onto a register is a software write of it, before the entry's own writes: the bits follow
the register's access (R40, R99), and ALTIVT and NSTDIS count as they then are (R93, R226). The frame words are those
of the device (R225), by default those of G1 (log 4); the priority of an interrupt is the one that the boundary used
(R68, log 23). -/
def Obligations.EntryFaultsAreRaised : Prop :=
  ∀ (s : State) (r : Request), s.taken = some r →
    let t := takeException r s
    let f := frame s.dev s.pc s.srl s.ipl3
    let a : Word := s.w15
    let b : Word := s.w15 + 2
    let outside : Prop := OutsideStack s a ∨ OutsideStack s b
    let kept : Prop :=
      SameWorking s t ∧ SameAccs s t ∧ SameParameters s t ∧ t.pins = s.pins ∧ t.lateEntry = false
    let raised : Prop :=
      t.power = .run ∧ t.w15 = s.w15 + 4 ∧
      t.pc = s.progRead24 ((if t.altivt then 0x104 else 0x004) + 2 * r.vector) ∧
      (∀ n, r = .irq n →
        t.cpuIpl = (if t.nstdis then 7 else (s.seenField n).toNat) ∧
        t.inttreg.extractLsb' 8 4 = 0#1 ++ s.seenField n ∧ t.inttreg.extractLsb' 0 7 = BitVec.ofNat 7 n) ∧
      (∀ k, r = .trap k →
        t.cpuIpl = k.priority ∧ t.inttreg.extractLsb' 8 4 = BitVec.ofNat 4 k.priority)
    let entered : Prop :=
      raised ∧ kept ∧ Entered r s t ∧ t.altivt = s.altivt ∧ t.nstdis = s.nstdis ∧ t.srh = s.srh ∧
      t.flags = s.flags ∧ SameSources { s with race := [] } t ∧ t.splim = s.splim ∧
      t.splimWritten = s.splimWritten ∧ t.trapr = s.trapr ∧ t.cf = s.cf ∧ (Ticked 4 s t ∨ Ticked 5 s t)
    (s.w15.getLsbD 0 = false → PlainRam s a ∨ dataImplemented s.dev a = false →
      PlainRam s b ∨ dataImplemented s.dev b = false →
      entered ∧ (outside → TrapRaised .stkErr [] s t) ∧ (¬ outside → SameTraps s t) ∧
      (PlainRam s a → t.wordAt a.toNat = f.1) ∧ (PlainRam s b → t.wordAt b.toNat = f.2) ∧
      (∀ x, (PlainRam s a → x ≠ a.toNat ∧ x ≠ a.toNat + 1) → (PlainRam s b → x ≠ b.toNat ∧ x ≠ b.toNat + 1) →
        t.byteAt x = s.byteAt x)) ∧
    (∀ (d o v w : Word) (q : Sfr), s.w15.getLsbD 0 = false →
      (d = a ∧ o = b ∧ v = f.1 ∧ w = f.2) ∨ (d = b ∧ o = a ∧ v = f.2 ∧ w = f.1) →
      StandsAt s d q → ¬ StandsAt s o q → (q = .intcon1 → SetsNoHardFlag s v) →
      (StandsAt s o .intcon1 → SetsNoHardFlag s w) →
      let hit (p : Sfr) : Prop := StandsAt s a p ∨ StandsAt s b p
      raised ∧ kept ∧
      (∀ acc j, tableAccess s q = some acc → j < 16 → ¬ EntryWrites q j →
        (t.sfrValue q).getLsbD j = (acc j).written ((s.sfrValue q).getLsbD j) (v.getLsbD j)) ∧
      (q = .intcon1 → ∀ j, 1 ≤ j → j < 16 → j ≠ 2 → t.intcon1.getLsbD j = v.getLsbD j) ∧
      (q = .splim → t.splim = v ∧ t.splimWritten = true) ∧
      (q = .disicnt → t.disicnt.toNat = (v.extractLsb' 0 14).toNat - 4 ∨
        t.disicnt.toNat = (v.extractLsb' 0 14).toNat - 5) ∧
      (d.toNat < 0x0800 → ¬ hit .intcon1 → TrapRaised .stkErr [] s t) ∧
      (PlainRam s o → t.wordAt o.toNat = w) ∧
      (∀ x, (PlainRam s o → x ≠ o.toNat ∧ x ≠ o.toNat + 1) → t.byteAt x = s.byteAt x) ∧
      (∀ p, ¬ hit p → ¬ p ∈ ([.sr, .corcon, .inttreg, .intcon1, .intcon2, .disicnt, .rcon, .osccon] : List Sfr) →
        t.sfrValue p = s.sfrValue p) ∧
      (¬ hit .sr → t.srh = s.srh ∧ t.flags = s.flags) ∧
      (¬ hit .corcon → ∀ j, j ≠ 3 → t.corcon.getLsbD j = s.corcon.getLsbD j) ∧
      (¬ hit .intcon2 → ∀ j, j ≠ 14 → t.intcon2.getLsbD j = s.intcon2.getLsbD j) ∧
      (¬ hit .splim → t.splimWritten = s.splimWritten) ∧ (¬ hit .rcon → t.trapr = s.trapr) ∧
      (¬ hit .osccon → t.cf = s.cf) ∧
      (sfrAt s.dev o.toNat = none → PrioritiesSeen { s with race := [] } t)) ∧
    (s.w15.getLsbD 0 = true → s.trapPending .oscFail = false → s.priority r < 13 →
      t.trapPending .addrErr = true ∧ (outside → t.trapPending .stkErr = true) ∧ entered ∧ SameMemory s t) ∧
    (s.w15.getLsbD 0 = true → s.trapPending .oscFail = true → ConflictReset s t) ∧
    (s.w15.getLsbD 0 = true → s.trapPending .oscFail = false → r = .trap .addrErr →
      ConflictReset s t ∨
        (t.power = .halt ∧ t.trapPending .addrErr = true ∧ Entered r s t ∧ t.w15 = s.w15 + 4 ∧ SameMemory s t))

/-- RETFIE restores `pc`, SR[7:0] and IPL3 from the two words on top of the stack, whatever NSTDIS is, takes 3
cycles and changes nothing else (R145, R233, R292); what the two words hold is the device's `Unframe`, by default that
of G1 (log 4). -/
def Obligations.RetfieRestoresFromStack : Prop :=
  ∀ (s : State), StackOk s (s.w15 - 2) → StackOk s (s.w15 - 4) →
    let w1 := s.wordAt (s.w15 - 4).toNat
    let w2 := s.wordAt (s.w15 - 2).toNat
    let f := unframe s.dev w1 w2
    (s.dev.unframe = familyUnframe →
      f = (0#1 ++ w2.extractLsb' 0 7 ++ w1, w2.extractLsb' 8 8, w2.getLsbD 7)) ∧
    ∃ t, exec .retfie s = .next t ∧
      t.pc = f.1 ∧ t.srl = f.2.1 ∧ t.ipl3 = f.2.2 ∧
      t.w15 = s.w15 - 4 ∧ t.srh = s.srh ∧ (∀ j, j ≠ 3 → t.corcon.getLsbD j = s.corcon.getLsbD j) ∧
      t.inttreg = s.inttreg ∧ t.splim = s.splim ∧ t.splimWritten = s.splimWritten ∧
      t.trapr = s.trapr ∧ t.cf = s.cf ∧
      SameWorking s t ∧ SameAccs s t ∧ SameTraps s t ∧ SameSources s t ∧ SamePower s t ∧
      SameParameters s t ∧ SameMemory s t ∧ Ticked 3 s t

/-- Entering an exception and returning from it restores `pc`, SR, IPL3, `cpu_ipl` and W15, for every exception,
every state with room on the stack and every `Frame` from which `Unframe` reads back the `pc`, SRL and IPL3, the law
of D2 (R225, R233; the two functions are log 4). -/
def Obligations.ReturnUndoesEntry : Prop :=
  ∀ (s : State) (r : Request), StackOk s s.w15 → StackOk s (s.w15 + 2) → FrameKeeps s.dev s.pc →
    let t := returnFromException (takeException r s)
    t.pc = s.pc ∧ t.sr = s.sr ∧ t.ipl3 = s.ipl3 ∧ t.cpuIpl = s.cpuIpl ∧ t.w15 = s.w15 ∧
    SameWorking s t ∧ SameAccs s t ∧ SameSources { s with race := [] } t ∧ SameParameters s t ∧
    SameMemoryBut s.w15.toNat 4 s t

/-- RETURN takes `pc` from the two words on top of the stack and restores neither SR nor IPL3 (R182; what the
two words hold is log 4). -/
def Obligations.ReturnTakesPcFromStack : Prop :=
  ∀ (s : State), StackOk s (s.w15 - 2) → StackOk s (s.w15 - 4) →
    let w1 := s.wordAt (s.w15 - 4).toNat
    let w2 := s.wordAt (s.w15 - 2).toNat
    ∃ t, exec .ret s = .next t ∧
      t.pc = (unframe s.dev w1 w2).1 ∧
      (s.dev.unframe = familyUnframe → t.pc = 0#1 ++ w2.extractLsb' 0 7 ++ w1) ∧
      t.w15 = s.w15 - 4 ∧ SameMemory s t ∧ QuietButMemory s.cycles s t

/-- RETFIE and RETURN raise the stack error where one of their two pops reads below 0x0800 or above SPLIM, and are
performed: they go on with what they read, RETFIE with SR[7:0] and IPL3 too (R145, R170, R176, R177, R182). Where a
pop is also at an odd or unimplemented address the address error is raised as well (R97, R98, R187), and RETFIE
restores a priority from what it could read; where no code may run at it, the hard trap conflicts with it (log 12). The
address of a pop wraps at 0x0000, and a read of INTCON1 that raises STKERR sees it set (log 24); what the two words
hold is log 4. -/
def Obligations.ReturnOutsideStackRaisesStackError : Prop :=
  ∀ (s : State), OutsideStack s (s.w15 - 2) ∨ OutsideStack s (s.w15 - 4) →
    (¬ BadRead s (s.w15 - 2) → ¬ BadRead s (s.w15 - 4) →
      (∃ t, exec .retfie s = .next t ∧ TrapRaised .stkErr [] s t ∧ t.w15 = s.w15 - 4 ∧ SameMemory s t ∧
        (∀ w1 w2, PopReads s (s.w15 - 4) w1 → PopReads s (s.w15 - 2) w2 →
          t.pc = (unframe s.dev w1 w2).1 ∧ t.srl = (unframe s.dev w1 w2).2.1 ∧
          t.ipl3 = (unframe s.dev w1 w2).2.2) ∧
        t.srh = s.srh ∧ (∀ j, j ≠ 3 → t.corcon.getLsbD j = s.corcon.getLsbD j) ∧ t.inttreg = s.inttreg ∧
        t.splim = s.splim ∧ t.splimWritten = s.splimWritten ∧ t.trapr = s.trapr ∧ t.cf = s.cf ∧
        SameWorking s t ∧ SameAccs s t ∧ SameSources s t ∧ SamePower s t ∧ SameParameters s t ∧ Ticked 3 s t) ∧
      (∃ t, exec .ret s = .next t ∧ TrapRaised .stkErr [] s t ∧ t.w15 = s.w15 - 4 ∧ SameMemory s t ∧
        (∀ w1 w2, PopReads s (s.w15 - 4) w1 → PopReads s (s.w15 - 2) w2 →
          t.pc = (unframe s.dev w1 w2).1) ∧
        QuietButTraps s.cycles s t)) ∧
    (BadRead s (s.w15 - 2) ∨ BadRead s (s.w15 - 4) → HardTrapPends s →
      let both (t : State) : Prop :=
        TrapRaised .stkErr [3] s t ∧ t.trapPending .addrErr = true ∧ t.w15 = s.w15 - 4 ∧ SameMemory s t
      (∃ t, exec .ret s = .next t ∧ both t ∧ QuietButTraps s.cycles s t) ∧
      (∃ t, exec .retfie s = .next t ∧
        (ConflictReset s t ∨
          (both t ∧ SameWorking s t ∧ SameAccs s t ∧ SameSources s t ∧ SameParameters s t ∧ Ticked 3 s t ∧
            ((t.cpuIpl < 13 ∧ SamePower s t) ∨ (t.cpuIpl = 13 ∧ t.power = .halt))))))

/-! ## Reset -/

/-- Right after a power-on reset the registers hold the values of R41 and R69; the flags, the enables and the
priorities hold the values of R69 after a reset of any kind, on a device with every source. DISICNT = 0 is read from
"registers are cleared" (R34, log 1), `power` and `soft_skid` are R41's own inferences. -/
def Obligations.ResetValues : Prop :=
  let s := State.reset
  let printed (t : State) : Prop :=
    (∀ i : Fin 5, t.ifs[i] = 0 ∧ t.iec[i] = 0) ∧
    t.ipc = #v[0x4444, 0x4444, 0x4444, 0x0444, 0x4444, 0x4404, 0x4444, 0x4444, 0x4444, 0x0004,
               0x0000, 0x0440, 0x0000, 0x0000, 0x4440, 0x4444, 0x4440, 0x0444, 0x4440, 0x4400]
  s.pc = 0 ∧ s.w15 = 0x0800 ∧ s.sr = 0x0000 ∧ s.corcon = 0x0020 ∧ s.cpuIpl = 0 ∧ s.intcon1 = 0x0000 ∧
  s.intcon2 = 0x0000 ∧ s.inttreg = 0x0000 ∧ printed s ∧
  s.disicnt = 0 ∧ s.splimWritten = false ∧ s.power = .run ∧ s.softSkid = false ∧
  ∀ (cause : ResetCause) (u : State), u.dev.implemented = familySources → printed (deviceReset cause u)

/-- The RESET instruction resets the device from every state: the values of R41, an IPCx field of 4 for every
implemented source, and the program and the device as they were (R146, R270). That the sampled pins and the turns
are as they were is the model's choice (log 31). -/
def Obligations.ResetInstructionResets : Prop :=
  ∀ (s : State), ∃ t, exec .reset s = .next t ∧
    t.pc = 0 ∧ t.w15 = 0x0800 ∧ t.sr = 0x0000 ∧ t.corcon = 0x0020 ∧ t.intcon1 = 0x0000 ∧
    t.intcon2 = 0x0000 ∧ t.inttreg = 0x0000 ∧ (∀ i : Fin 5, t.ifs[i] = 0 ∧ t.iec[i] = 0) ∧
    (∀ n, n < 80 → t.ipcField n = if hasSource s.dev n then 4 else 0) ∧
    t.disicnt = 0 ∧ t.splimWritten = false ∧ t.power = .run ∧ t.softSkid = false ∧
    SameParameters s t ∧ t.pins = s.pins ∧ t.turns = s.turns

/-- An address error while the oscillator failure trap is pending or executing resets the device with
RCON.TRAPR = 1 (R212, R270); one inside the address error handler resets it so or halts the CPU, which of the
two is free (R214; log 11). It holds for every cause: bad data addresses, of any instruction, also through W15 (R178,
R179), unimplemented targets (R180), an `Other` event with the condition (R158), and a step at an unimplemented `pc`
(R181). That a RETFIE in these states is judged by the priority before it is log 12. -/
def Obligations.HardTrapConflictResets : Prop :=
  ∀ (s : State),
    let halted (t : State) : Prop :=
      t.power = .halt ∧ SameParameters s t ∧ SameMemory s t ∧ t.trapPending .addrErr = true ∧
      ∀ j, s.intcon1.getLsbD j = true → t.intcon1.getLsbD j = true
    (∀ i : Instr, MeetsAddressError s i →
      (s.trapPending .oscFail = true ∨ 14 ≤ s.cpuIpl → ∃ t, exec i s = .next t ∧ ConflictReset s t) ∧
      (s.trapPending .oscFail = false → s.cpuIpl = 13 →
        ∃ t, exec i s = .next t ∧
          (ConflictReset s t ∨ (halted t ∧ (OnlyAddressError i = true → TrapRaised .addrErr [] s t))))) ∧
    (∀ left, CpuTurn s left → s.power = .run → s.taken = none → progImplemented s.dev s.pc = false →
      (s.trapPending .oscFail = true ∨ 14 ≤ s.cpuIpl →
        ∃ t, step s = .next t ∧ t.turns = left ∧ ConflictReset s t) ∧
      (s.trapPending .oscFail = false → s.cpuIpl = 13 →
        ∃ t, step s = .next t ∧ t.turns = left ∧
          (ConflictReset s t ∨ (halted t ∧ TrapRaised .addrErr [] s t))))

/-! ## Instructions that control interrupts -/

/-- NOP changes `pc` and counts its cycles, and nothing else (R147). -/
def Obligations.NopOnlyAdvances : Prop :=
  ∀ (s : State), ∃ t, exec .nop s = .next t ∧ t.pc = s.pc + 2 ∧ Quiet s.cycles s t

/-- DISI loads DISICNT and sets INTCON2.DISI exactly for a count other than 0; it changes nothing else but `pc`
(R141; the reading of the literal is D13, log 32). -/
def Obligations.DisiLoadsTheCount : Prop :=
  ∀ (s : State) (k : BitVec 14), ∃ t, exec (.disi k) s = .next t ∧
    t.pc = s.pc + 2 ∧ t.disicnt = k ∧ (t.disi = true ↔ k ≠ 0) ∧
    (∀ j, j ≠ 14 → t.intcon2.getLsbD j = s.intcon2.getLsbD j) ∧
    t.w15 = s.w15 ∧ SameMemory s t ∧ SameWorking s t ∧ SameStatus s t ∧ SameAccs s t ∧
    SameExceptionState s t

/-- PWRSAV goes on to `pc + 2` asleep in the chosen mode, or awake at once where an enabled request of
priority 1 or more is there (R148, R245; the second is D22, log 26). -/
def Obligations.PwrsavSleeps : Prop :=
  ∀ (s : State) (m : PowerMode), ∃ t, exec (.pwrsav m) s = .next t ∧
    t.pc = s.pc + 2 ∧
    ((∃ n, n < 118 ∧ s.requests n = true ∧ s.ipcField n ≠ 0) → t.power = .run) ∧
    ((∀ n, n < 118 → s.requests n = true → s.ipcField n = 0) →
      t.power = match m with | .sleep => .sleep | .idle => .idle) ∧
    t.w15 = s.w15 ∧ SameMemory s t ∧ SameWorking s t ∧ SameStatus s t ∧ SameAccs s t ∧ SameSpecial s t ∧
    SameTraps s t ∧ SameSources s t ∧ t.pins = s.pins ∧ SameParameters s t ∧ Ticked s.cycles s t

/-- `DisicntWrite(v)` stores `v`, an add the sum, before the tick of the writing instruction; a value of 0 ends
the DISI period, and no value starts one; a read of DISICNT returns the count (R142, R144). That the count has 14
bits, at which the sum wraps, is log 5. -/
def Obligations.DisicntWriteNeverStartsAPeriod : Prop :=
  ∀ (s : State) (v : BitVec 14), ∃ t u x, exec (.disicntWrite (.write v)) s = .next t ∧
    exec (.disicntWrite (.add v)) s = .next u ∧ exec (.sfrRead .disicnt) s = .next x ∧
    x.result = 0#2 ++ s.disicnt ∧
    t.disicnt.toNat = v.toNat - s.cycles ∧ u.disicnt.toNat = (s.disicnt + v).toNat - s.cycles ∧
    (t.disi = true ↔ s.disi = true ∧ s.cycles < v.toNat) ∧
    (u.disi = true ↔ s.disi = true ∧ s.cycles < (s.disicnt + v).toNat) ∧
    (∀ j, j ≠ 14 → t.intcon2.getLsbD j = s.intcon2.getLsbD j ∧ u.intcon2.getLsbD j = s.intcon2.getLsbD j) ∧
    t.pc = s.after s.pc ∧ t.w15 = s.w15 ∧ SameMemory s t ∧ SameWorking s t ∧ SameStatus s t ∧
    SameAccs s t ∧ SameExceptionState s t ∧
    u.pc = s.after s.pc ∧ u.w15 = s.w15 ∧ SameMemory s u ∧ SameWorking s u ∧ SameStatus s u ∧
    SameAccs s u ∧ SameExceptionState s u

/-- `SplimWrite(v)` stores `v` and enables the overflow check: from then on an access through W15 above `v`
raises the stack error (R35, R156, R176). -/
def Obligations.SplimWriteEnablesTheCheck : Prop :=
  ∀ (s : State) (v : Word), ∃ t, exec (.splimWrite v) s = .next t ∧
    t.splim = v ∧ t.splimWritten = true ∧ t.pc = s.after s.pc ∧ t.w15 = s.w15 ∧ SameMemory s t ∧
    SameWorking s t ∧ SameStatus s t ∧ SameAccs s t ∧ SameTraps s t ∧ SameSources s t ∧ SamePower s t ∧
    SameParameters s t ∧ t.corcon = s.corcon ∧ t.inttreg = s.inttreg ∧ t.trapr = s.trapr ∧ t.cf = s.cf ∧
    Ticked s.cycles s t ∧
    ∀ exact : Int, v.toNat < (BitVec.ofInt 16 exact).toNat → t.stackFaults exact = true

/-- The OR of `v` into SRL (R155): IPL takes the OR of its bits unless NSTDIS is 1, RA is unchanged; N, OV, Z and C
are left open by the source. After `OrSRL(0xE0)` with nesting enabled no interrupt is taken. That SR[15:8] is unchanged
is no rule of the spec, which leaves the instruction's own flag effects open, but the model's choice (log 20). -/
def Obligations.OrSrlRaisesPriority : Prop :=
  ∀ (s : State) (v : Byte), ∃ t, exec (.orSrl v) s = .next t ∧
    t.pc = s.pc + 2 ∧
    t.ipl = (if s.nstdis then s.ipl else s.ipl ||| v.extractLsb' 5 3) ∧
    t.flags.getLsbD 4 = s.flags.getLsbD 4 ∧ t.srh = s.srh ∧
    (v = 0xE0 → s.nstdis = false → 7 ≤ t.cpuIpl ∧ ∀ n, t.taken ≠ some (.irq n)) ∧
    t.w15 = s.w15 ∧ SameMemory s t ∧ SameWorking s t ∧ SameAccs s t ∧ SameExceptionState s t ∧
    Ticked s.cycles s t

/-! ## The stack -/

/-- `PUSH f` with a good stack stores the word at `f` at W15 and adds 2 to W15; with `f` the address of an SFR
it pushes that register, SR among them (R95, R149; the stack's direction is log 4). Where `f` is unimplemented it
raises the address error and stores nothing (R98, R100). Where W15 points to unimplemented data space the store has no
effect and raises nothing, the spec's own reading (U15, log 27). -/
def Obligations.PushStoresAtW15 : Prop :=
  ∀ (s : State) (f : BitVec 15),
    (StackOk s s.w15 → dataImplemented s.dev (f ++ 0#1) = true →
      ∃ t, exec (.pushF f) s = .next t ∧
        t.pc = s.pc + 2 ∧ t.w15 = s.w15 + 2 ∧
        (∀ r, sfrAt s.dev (f ++ 0#1).toNat = some r → t.wordAt s.w15.toNat = s.sfrValue r) ∧
        (sfrAt s.dev (f ++ 0#1).toNat = none → t.wordAt s.w15.toNat = s.wordAt (f ++ 0#1).toNat) ∧
        SameMemoryBut s.w15.toNat 2 s t ∧ QuietButMemory s.cycles s t) ∧
    (StackOk s s.w15 → dataImplemented s.dev (f ++ 0#1) = false → HardTrapPends s →
      ∃ t, exec (.pushF f) s = .next t ∧
        t.pc = s.pc + 2 ∧ t.w15 = s.w15 + 2 ∧ TrapRaised .addrErr [] s t ∧ SameMemory s t ∧
        QuietButTraps s.cycles s t) ∧
    (s.w15.getLsbD 0 = false → dataImplemented s.dev s.w15 = false → ¬ OutsideStack s s.w15 →
      dataImplemented s.dev (f ++ 0#1) = true →
      ∃ t, exec (.pushF f) s = .next t ∧
        t.pc = s.pc + 2 ∧ t.w15 = s.w15 + 2 ∧ SameMemory s t ∧ QuietButMemory s.cycles s t)

/-- `POP f` with a good stack takes the word below W15 and stores it at `f`, a plain address (R95, R154); where `f` is
unimplemented the store has no effect and raises nothing, the spec's own reading of what it leaves open (U15,
log 27). -/
def Obligations.PopStoresAtFile : Prop :=
  ∀ (s : State) (f : BitVec 15), StackOk s (s.w15 - 2) →
    (PlainRam s (f ++ 0#1) →
      ∃ t, exec (.popF f) s = .next t ∧
        t.pc = s.pc + 2 ∧ t.w15 = s.w15 - 2 ∧
        t.wordAt (f ++ 0#1).toNat = s.wordAt (s.w15 - 2).toNat ∧
        SameMemoryBut (f ++ 0#1).toNat 2 s t ∧ QuietButMemory s.cycles s t) ∧
    (dataImplemented s.dev (f ++ 0#1) = false →
      ∃ t, exec (.popF f) s = .next t ∧
        t.pc = s.pc + 2 ∧ t.w15 = s.w15 - 2 ∧ SameMemory s t ∧ QuietButMemory s.cycles s t)

/-- `POP f` with `f` the address of a register is a software write of the popped word to it: bit by bit as the
access of the register says; for SR, IPL only while NSTDIS is 0 (R23, R25, R40, R154). On every register, and where
the instruction at `pc` takes one word, it is the 16-bit write event of the popped word after the pop. A priority that
is rewritten with interrupts enabled may count only after the next boundary (R68; the reading of U1 is log 23). -/
def Obligations.PopSrIsASoftwareWrite : Prop :=
  ∀ (s : State) (f : BitVec 15) (r : Sfr), StackOk s (s.w15 - 2) →
    dataImplemented s.dev (f ++ 0#1) = true → sfrAt s.dev (f ++ 0#1).toNat = some r →
    (∀ acc : Nat → Access, tableAccess s r = some acc →
      ∃ t, exec (.popF f) s = .next t ∧
        t.pc = s.pc + 2 ∧ t.w15 = s.w15 - 2 ∧ PrioritiesSeen s t ∧
        (∀ b, b < 16 → ¬ (r = .intcon2 ∧ b = 14) →
          (t.sfrValue r).getLsbD b = (acc b).written ((s.sfrValue r).getLsbD b)
            ((s.wordAt (s.w15 - 2).toNat).getLsbD b)) ∧
        OtherSfrsSame s.cycles r s t ∧ SameMemory s t ∧ SameWorking s t ∧ SameAccs s t ∧ SamePower s t ∧
        SameParameters s t) ∧
    (s.wordsAt s.pc = 1 →
      exec (.popF f) s =
        exec (.sfrWrite r (s.wordAt (s.w15 - 2).toNat)) { s with w15 := s.w15 - 2, draws := s.draws + 1 })

/-- An access through W15 that meets no check stores or reads at the effective address its mode computes, and
leaves W15 as its mode says: a word at an even address, a byte at any (R95, R97, R176). That it changes neither SR nor
W0 to W14 is the model's choice (log 18), and so is that an address computed below 0x0000 wraps with no error of its
own (log 24). A store to unimplemented data space has no effect but on W15 and raises nothing, the spec's own reading
(U15, log 27). A register at the address, were one inside the limits of the stack, is written and read as such (R99; the
byte order is log 29). -/
def Obligations.StackAccessCompletes : Prop :=
  ∀ (s : State) (mode : StackMode) (v : Word), stackExact s.w15 mode ≤ 0xFFFF →
    (StackOk s (stackEa s.w15 mode) →
      (∃ t, exec (.stackAccess mode .word (.write v)) s = .next t ∧
        t.pc = s.after s.pc ∧ t.wordAt (stackEa s.w15 mode).toNat = v ∧
        SameMemoryBut (stackEa s.w15 mode).toNat 2 s t ∧ t.w15 = stackPointerAfter s.w15 mode ∧
        QuietButMemory s.cycles s t) ∧
      (∃ t, exec (.stackAccess mode .word .read) s = .next t ∧
        t.pc = s.after s.pc ∧ t.result = s.wordAt (stackEa s.w15 mode).toNat ∧
        SameMemory s t ∧ t.w15 = stackPointerAfter s.w15 mode ∧ QuietButMemory s.cycles s t)) ∧
    (dataImplemented s.dev (stackEa s.w15 mode) = true → 0x0800 ≤ (stackEa s.w15 mode).toNat →
      sfrAt s.dev (wordBase (stackEa s.w15 mode)) = none →
      (s.splimWritten = true → (stackEa s.w15 mode).toNat ≤ s.splim.toNat) →
      (∃ t, exec (.stackAccess mode .byte (.write v)) s = .next t ∧
        t.pc = s.after s.pc ∧ t.byteAt (stackEa s.w15 mode).toNat = v.extractLsb' 0 8 ∧
        SameMemoryBut (stackEa s.w15 mode).toNat 1 s t ∧ t.w15 = stackPointerAfter s.w15 mode ∧
        QuietButMemory s.cycles s t) ∧
      (∃ t, exec (.stackAccess mode .byte .read) s = .next t ∧
        t.pc = s.after s.pc ∧ t.result.extractLsb' 0 8 = s.byteAt (stackEa s.w15 mode).toNat ∧
        SameMemory s t ∧ t.w15 = stackPointerAfter s.w15 mode ∧ QuietButMemory s.cycles s t)) ∧
    (∀ size : Size, dataImplemented s.dev (stackEa s.w15 mode) = false →
      misaligned size (stackEa s.w15 mode) = false → ¬ OutsideStack s (stackEa s.w15 mode) →
      ∃ t, exec (.stackAccess mode size (.write v)) s = .next t ∧ t.pc = s.after s.pc ∧
        SameMemory s t ∧ t.w15 = stackPointerAfter s.w15 mode ∧ QuietButMemory s.cycles s t) ∧
    (∀ (r : Sfr) (size : Size) (hi lo : Fin 16), dataImplemented s.dev (stackEa s.w15 mode) = true →
      sfrAt s.dev (wordBase (stackEa s.w15 mode)) = some r → ReachesBits size (stackEa s.w15 mode) hi lo →
      ¬ OutsideStack s (stackEa s.w15 mode) →
      let u : State := { s with w15 := stackPointerAfter s.w15 mode }
      exec (.stackAccess mode size (.write v)) s = exec (.sfrFieldWrite r hi lo v) u ∧
      (size = .word → exec (.stackAccess mode size .read) s = exec (.sfrRead r) u))

/-- A store or a read through W15, of a word or a byte, above SPLIM once SPLIM was written, past 0xFFFF, or below
0x0800, raises the stack error and is performed; exactly equal to SPLIM raises nothing by itself, which
`StackAccessCompletes` says (R176, R177). A store to unimplemented data space has no effect (U15, log 27); an access
that cannot be made raises the address error as well and stores nothing (R97, R98, R100, R187). At the address of a
register, whichever it is, a store of a word or a byte is the write of those bits, and a read returns them, in the
state with the stack error raised (R96, R99, R150, R157; the byte order is log 29); where the store also writes 0 to
INTCON1.STKERR that flag is free (R150, D20, log 24). A rewritten priority may count only after the next boundary
(R68, log 23). That the access changes neither SR nor W0 to W14 of itself is the model's choice (log 18), and so is that
an address computed below 0x0000 wraps with no error of its own (log 24). -/
def Obligations.StackLimitsRaiseStackError : Prop :=
  ∀ (s : State) (mode : StackMode) (v : Word),
    let ea := stackEa s.w15 mode
    OutsideStack s ea ∨ 0xFFFF < stackExact s.w15 mode →
    let raised : State := State.raiseSoft .stkErr { s with w15 := stackPointerAfter s.w15 mode }
    let moved (t : State) : Prop := t.w15 = stackPointerAfter s.w15 mode ∧ t.pc = s.after s.pc
    let trapped (t : State) : Prop := TrapRaised .stkErr [] s t ∧ moved t ∧ QuietButTraps s.cycles s t
    (ea.getLsbD 0 = false → PlainRam s ea →
      (∃ t, exec (.stackAccess mode .word (.write v)) s = .next t ∧ trapped t ∧ t.wordAt ea.toNat = v ∧
        SameMemoryBut ea.toNat 2 s t) ∧
      (∃ t, exec (.stackAccess mode .word .read) s = .next t ∧ trapped t ∧ t.result = s.wordAt ea.toNat ∧
        SameMemory s t)) ∧
    (dataImplemented s.dev ea = true → sfrAt s.dev (wordBase ea) = none →
      (∃ t, exec (.stackAccess mode .byte (.write v)) s = .next t ∧ trapped t ∧
        t.byteAt ea.toNat = v.extractLsb' 0 8 ∧ SameMemoryBut ea.toNat 1 s t) ∧
      (∃ t, exec (.stackAccess mode .byte .read) s = .next t ∧ trapped t ∧
        t.result.extractLsb' 0 8 = s.byteAt ea.toNat ∧ SameMemory s t)) ∧
    (∀ size : Size, dataImplemented s.dev ea = false → misaligned size ea = false →
      ∃ t, exec (.stackAccess mode size (.write v)) s = .next t ∧ trapped t ∧ SameMemory s t) ∧
    (∀ (size : Size) (op : DataOp),
      (size = .word ∧ ea.getLsbD 0 = true) ∨ (op = .read ∧ dataImplemented s.dev ea = false) → HardTrapPends s →
      ∃ t, exec (.stackAccess mode size op) s = .next t ∧ TrapRaised .stkErr [3] s t ∧
        t.trapPending .addrErr = true ∧ moved t ∧ SameMemory s t ∧ QuietButTraps s.cycles s t) ∧
    (∀ (r : Sfr) (size : Size) (hi lo : Fin 16), dataImplemented s.dev ea = true →
      sfrAt s.dev (wordBase ea) = some r → ReachesBits size ea hi lo →
      let new (q : Sfr) (b : Nat) : Bool :=
        if lo.val ≤ b ∧ b ≤ hi.val then v.getLsbD (b - lo.val) else (s.sfrValue q).getLsbD b
      (∀ acc, tableAccess s r = some acc →
        ∃ t, exec (.stackAccess mode size (.write v)) s = .next t ∧ TrapRaised .stkErr [] s t ∧ moved t ∧
          (∀ b, b < 16 → ¬ (r = .intcon2 ∧ b = 14) →
            (t.sfrValue r).getLsbD b =
              if lo.val ≤ b ∧ b ≤ hi.val then (acc b).written ((s.sfrValue r).getLsbD b) (new r b)
              else (s.sfrValue r).getLsbD b) ∧
          OtherSfrsSameButTraps s.cycles r s t ∧ PrioritiesSeen s t ∧ SameMemory s t ∧ SameWorking s t ∧
          SameAccs s t ∧ SamePower s t ∧ SameParameters s t) ∧
      (r ≠ .intcon1 ∨ 2 < lo.val ∨ v.getLsbD 2 = true →
        exec (.stackAccess mode size (.write v)) s = exec (.sfrFieldWrite r hi lo v) raised) ∧
      (r = .intcon1 → (∀ b, b = 1 ∨ b = 3 → new .intcon1 b = true → s.intcon1.getLsbD b = true) →
        ∃ t, exec (.stackAccess mode size (.write v)) s = .next t ∧ moved t ∧
          (∀ b, 1 ≤ b → b < 16 → b ≠ 2 → t.intcon1.getLsbD b = new .intcon1 b) ∧ SameMemory s t ∧
          QuietButTraps s.cycles s t) ∧
      (∃ t, exec (.stackAccess mode size .read) s = .next t ∧ trapped t ∧ SameMemory s t ∧
        (size = .word → t.result = raised.sfrValue r) ∧
        (size = .byte → t.result.extractLsb' 0 8 = (raised.sfrValue r).extractLsb' lo.val 8) ∧
        (∀ acc, tableAccess s r = some acc → raised.sfrValue r = s.sfrValue r) ∧
        (r = .intcon1 → raised.sfrValue r = s.sfrValue r ||| 0x0004)))

/-- PUSH and POP are accesses through W15 like any other: above SPLIM once SPLIM was written, or below 0x0800, they
raise the stack error and are performed (R159, R176, R177); the address of a pop wraps at 0x0000 (log 24). PUSH stores
the word at `f`, of a register its value (`PushSR`, R149); where W15 points to a register, the store is a software
write of it. POP stores the popped word at `f`, as a software write where a register stands there (`PopSR`, R154):
bit by bit as its access says, and on every register as the 16-bit write event in the state with the stack error
raised. A write of 0 to STKERR by the same instruction leaves that flag free, and a pop from INTCON1 sees it set
(R150, D20, log 24). An access that cannot be made raises the address error as well and stores nothing; a store to
unimplemented data space has no effect (U15, log 27). A rewritten priority may count only after the next boundary
(R68, log 23). -/
def Obligations.PushAndPopCheckTheStack : Prop :=
  ∀ (s : State) (f : BitVec 15),
    let a : Word := f ++ 0#1
    let moved (w : Word) (t : State) : Prop := t.pc = s.pc + 2 ∧ t.w15 = w
    let trapped (w : Word) (t : State) : Prop := TrapRaised .stkErr [] s t ∧ moved w t
    let both (w : Word) (t : State) : Prop :=
      TrapRaised .stkErr [3] s t ∧ t.trapPending .addrErr = true ∧ moved w t ∧ SameMemory s t ∧
      QuietButTraps s.cycles s t
    let inMemory (d v : Word) (t : State) : Prop :=
      t.wordAt d.toNat = v ∧ SameMemoryBut d.toNat 2 s t ∧ QuietButTraps s.cycles s t
    let inRegister (r : Sfr) (v : Word) (t : State) : Prop :=
      (∀ acc b, tableAccess s r = some acc → b < 16 → ¬ (r = .intcon2 ∧ b = 14) →
        (t.sfrValue r).getLsbD b = (acc b).written ((s.sfrValue r).getLsbD b) (v.getLsbD b)) ∧
      OtherSfrsSameButTraps s.cycles r s t ∧ PrioritiesSeen s t ∧ SameMemory s t ∧ SameWorking s t ∧
      SameAccs s t ∧ SamePower s t ∧ SameParameters s t
    let inIntcon1 (v : Word) (t : State) : Prop :=
      (∀ b, 1 ≤ b → b < 16 → b ≠ 2 → t.intcon1.getLsbD b = v.getLsbD b) ∧
      (v.getLsbD 2 = true → t.trapPending .stkErr = true) ∧ SameMemory s t ∧ QuietButTraps s.cycles s t
    let setsNoFlag (v : Word) : Prop :=
      ∀ b, 1 ≤ b → b ≤ 5 → b ≠ 2 → v.getLsbD b = true → s.intcon1.getLsbD b = true
    (OutsideStack s s.w15 →
      (s.w15.getLsbD 0 = false → dataImplemented s.dev a = true →
        let v := match sfrAt s.dev a.toNat with
          | some r => s.sfrValue r
          | none => s.wordAt a.toNat
        (PlainRam s s.w15 → ∃ t, exec (.pushF f) s = .next t ∧ trapped (s.w15 + 2) t ∧ inMemory s.w15 v t) ∧
        (dataImplemented s.dev s.w15 = false →
          ∃ t, exec (.pushF f) s = .next t ∧ trapped (s.w15 + 2) t ∧ SameMemory s t ∧
            QuietButTraps s.cycles s t) ∧
        (∀ q, dataImplemented s.dev s.w15 = true → sfrAt s.dev s.w15.toNat = some q →
          ((∃ acc, tableAccess s q = some acc) →
            ∃ t, exec (.pushF f) s = .next t ∧ trapped (s.w15 + 2) t ∧ inRegister q v t) ∧
          (q = .intcon1 → setsNoFlag v →
            ∃ t, exec (.pushF f) s = .next t ∧ moved (s.w15 + 2) t ∧ inIntcon1 v t) ∧
          (q ≠ .intcon1 ∨ v.getLsbD 2 = true → s.wordsAt s.pc = 1 →
            exec (.pushF f) s = exec (.sfrWrite q v)
              (State.raiseSoft .stkErr { s with w15 := s.w15 + 2, draws := s.draws + 1 })))) ∧
      (s.w15.getLsbD 0 = true ∨ dataImplemented s.dev a = false → HardTrapPends s →
        ∃ t, exec (.pushF f) s = .next t ∧ both (s.w15 + 2) t)) ∧
    (OutsideStack s (s.w15 - 2) →
      (∀ v : Word, s.w15.getLsbD 0 = false → PopReads s (s.w15 - 2) v →
        (PlainRam s a → ∃ t, exec (.popF f) s = .next t ∧ trapped (s.w15 - 2) t ∧ inMemory a v t) ∧
        (dataImplemented s.dev a = false →
          ∃ t, exec (.popF f) s = .next t ∧ trapped (s.w15 - 2) t ∧ SameMemory s t ∧
            QuietButTraps s.cycles s t) ∧
        (∀ r, dataImplemented s.dev a = true → sfrAt s.dev a.toNat = some r →
          ((∃ acc, tableAccess s r = some acc) →
            ∃ t, exec (.popF f) s = .next t ∧ trapped (s.w15 - 2) t ∧ inRegister r v t) ∧
          (r = .intcon1 → setsNoFlag v →
            ∃ t, exec (.popF f) s = .next t ∧ moved (s.w15 - 2) t ∧ inIntcon1 v t) ∧
          (r ≠ .intcon1 ∨ v.getLsbD 2 = true → s.wordsAt s.pc = 1 →
            exec (.popF f) s = exec (.sfrWrite r v)
              (State.raiseSoft .stkErr { s with w15 := s.w15 - 2 }).bump))) ∧
      (BadRead s (s.w15 - 2) → HardTrapPends s →
        ∃ t, exec (.popF f) s = .next t ∧ both (s.w15 - 2) t))

/-- An access through W15 that cannot be made raises the address error, stores nothing and still moves W15: any word
access at an odd address, and a read, of a word or a byte, at an unimplemented one (R97, R98, R100, R179). So do PUSH
at an odd W15, and POP, RETURN and RETFIE whose pop is at an odd or unimplemented address (R159); here inside the
limits of the stack, so that no stack error comes with it. That POP stores nothing at any `f`, SR among them, and that
W15 still moves is the model's reading (log 24), that SR and W0 to W14 are kept its choice (log 18). RETFIE restores a
priority from what it could read; where no code may run at it, the hard trap conflicts with it (log 12). -/
def Obligations.BadStackAddressesTrap : Prop :=
  ∀ (s : State) (f : BitVec 15), HardTrapPends s →
    let trapped (t : State) : Prop := TrapRaised .addrErr [] s t ∧ SameMemory s t
    (∀ (mode : StackMode) (size : Size) (op : DataOp),
      let ea := stackEa s.w15 mode
      (size = .word ∧ ea.getLsbD 0 = true) ∨ (op = .read ∧ dataImplemented s.dev ea = false) →
      ¬ OutsideStack s ea → stackExact s.w15 mode ≤ 0xFFFF →
      ∃ t, exec (.stackAccess mode size op) s = .next t ∧ trapped t ∧ t.pc = s.after s.pc ∧
        t.w15 = stackPointerAfter s.w15 mode ∧ QuietButTraps s.cycles s t) ∧
    (s.w15.getLsbD 0 = true → ¬ OutsideStack s s.w15 →
      ∃ t, exec (.pushF f) s = .next t ∧ trapped t ∧ t.pc = s.pc + 2 ∧ t.w15 = s.w15 + 2 ∧
        QuietButTraps s.cycles s t) ∧
    (BadRead s (s.w15 - 2) → ¬ OutsideStack s (s.w15 - 2) →
      ∃ t, exec (.popF f) s = .next t ∧ trapped t ∧ t.pc = s.pc + 2 ∧ t.w15 = s.w15 - 2 ∧
        QuietButTraps s.cycles s t) ∧
    (BadRead s (s.w15 - 2) ∨ BadRead s (s.w15 - 4) → ¬ OutsideStack s (s.w15 - 2) →
      ¬ OutsideStack s (s.w15 - 4) →
      (∃ t, exec .ret s = .next t ∧ trapped t ∧ t.w15 = s.w15 - 4 ∧ QuietButTraps s.cycles s t) ∧
      (∃ t, exec .retfie s = .next t ∧
        (ConflictReset s t ∨
          (trapped t ∧ t.w15 = s.w15 - 4 ∧ SameWorking s t ∧ SameAccs s t ∧ SameSources s t ∧
            SameParameters s t ∧ Ticked 3 s t ∧
            ((t.cpuIpl < 13 ∧ SamePower s t) ∨ (t.cpuIpl = 13 ∧ t.power = .halt))))))

/-! ## Trap causes -/

/-- SFTAC by -16 to 16 writes its accumulator and raises nothing; by more either way it sets SFTACERR and
MATHERR and writes no accumulator (R174, R206). That SR[4:0], OA, OB and W0 to W14 are kept is the model's choice
(log 18). -/
def Obligations.SftacTrapsBeyondSixteen : Prop :=
  ∀ (s : State) (acc : Acc) (n : ShiftCount),
    (-16 ≤ shiftCount s n → shiftCount s n ≤ 16 →
      ∃ t, exec (.sftac acc n) s = .next t ∧ t.pc = s.pc + 2 ∧
        (acc = .a → t.accB = s.accB) ∧ (acc = .b → t.accA = s.accA) ∧
        t.w15 = s.w15 ∧ SameMemory s t ∧ SameWorking s t ∧ SameStatus s t ∧ SameExceptionState s t ∧
        Ticked s.cycles s t) ∧
    (16 < shiftCount s n ∨ shiftCount s n < -16 →
      ∃ t, exec (.sftac acc n) s = .next t ∧ t.pc = s.pc + 2 ∧ TrapRaised .mathErr [7] s t ∧
        t.w15 = s.w15 ∧ SameMemory s t ∧ QuietButTraps s.cycles s t)

/-- A divide by zero in a REPEAT loop sets DIV0ERR and MATHERR, any other divisor raises nothing (R175, R185). The
event is the divide itself, which goes on past the words that the program map gives it, or a REPEAT with the divide
after it, which goes on past the divide: that the two are the same event, and that W15, memory, SR[15:5] and the
accumulators are unchanged, is the model's choice (log 19). -/
def Obligations.DivideByZeroTraps : Prop :=
  ∀ (s : State) (d : Int),
    let divided (t : State) : Prop :=
      (d = 0 → TrapRaised .mathErr [6] s t) ∧ (d ≠ 0 → SameTraps s t) ∧
      t.srh = s.srh ∧ t.ipl = s.ipl ∧ SameAccs s t ∧ t.w15 = s.w15 ∧ SameMemory s t ∧
      SameSpecial s t ∧ SameSources s t ∧ SamePower s t ∧ SameParameters s t ∧ Ticked s.cycles s t
    (∃ t, exec (.repeatDiv d) s = .next t ∧ t.pc = s.after s.pc ∧ divided t) ∧
    (∀ k : BitVec 14, s.repeatedDivide = some d →
      ∃ t, exec (.repeatLit k) s = .next t ∧ t.pc = s.after (s.pc + 2) ∧ divided t)

/-- An accumulator operation (R171 to R173): OA or OB becomes the overflow; OVAERR or OVBERR is set with the
overflow and its enable, COVAERR or COVBERR with the catastrophic overflow and COVTE, MATHERR with either; the
other accumulator and everything else is unchanged, of which SR[4:0], SAB, OAB and W0 to W14 are the model's choice
(log 18). An overflow is `ov31` but with 31-bit saturation, a catastrophic one `ov39` but with any; which bits of
CORCON enable saturation is the model's presumption (log 6). -/
def Obligations.AccumulatorOverflowTraps : Prop :=
  ∀ (s : State) (acc : Acc) (ov31 ov39 : Bool),
    let sat := match acc with | .a => s.corcon.getLsbD 7 | .b => s.corcon.getLsbD 6
    let ov := ov31 && !(sat && !s.corcon.getLsbD 4)
    let ovf := ov && s.intcon1.getLsbD (overflowEnableBit acc)
    let far := (ov39 && !sat) && s.intcon1.getLsbD 8
    ∃ t, exec (.accOp acc ov31 ov39) s = .next t ∧ t.pc = s.after s.pc ∧
      t.srh.getLsbD (overflowStatusBit acc) = ov ∧
      (∀ j, j ≠ overflowStatusBit acc → t.srh.getLsbD j = s.srh.getLsbD j) ∧
      t.ipl = s.ipl ∧ t.flags = s.flags ∧
      (∀ j, t.intcon1.getLsbD j = (s.intcon1.getLsbD j || (j == overflowErrBit acc && ovf) ||
        (j == farOverflowErrBit acc && far) || (j == 4 && (ovf || far)))) ∧
      ((ovf || far) = true → t.trapPending .mathErr = true) ∧ ((ovf || far) = false → SameTraps s t) ∧
      (acc = .a → t.accB = s.accB) ∧ (acc = .b → t.accA = s.accA) ∧
      t.w15 = s.w15 ∧ SameMemory s t ∧ SameWorking s t ∧ SameSpecial s t ∧ SameSources s t ∧
      SamePower s t ∧ SameParameters s t ∧ Ticked s.cycles s t

/-- GOTO and BRA to an implemented target set `pc` to it and change nothing else (R183, R184); to an
unimplemented one they raise the address error and leave `pc` at the target (R180, D4). BRA's target from its
operand is G16 (log 7). -/
def Obligations.JumpsReachTheirTarget : Prop :=
  ∀ (s : State) (lo : BitVec 15) (hi : BitVec 7) (n : BitVec 16),
    let goto : PAddr := 0#1 ++ hi ++ lo ++ 0#1
    let bra : PAddr := s.pc + 2 + BitVec.ofInt 24 (2 * n.toInt)
    (progImplemented s.dev goto = true →
      ∃ t, exec (.gotoWord1 lo hi) s = .next t ∧ t.pc = goto ∧ Quiet s.cycles s t) ∧
    (progImplemented s.dev bra = true →
      ∃ t, exec (.bra n) s = .next t ∧ t.pc = bra ∧ Quiet s.cycles s t) ∧
    (HardTrapPends s → progImplemented s.dev goto = false →
      ∃ t, exec (.gotoWord1 lo hi) s = .next t ∧ t.pc = goto ∧ TrapRaised .addrErr [] s t ∧
        t.w15 = s.w15 ∧ SameMemory s t ∧ QuietButTraps s.cycles s t) ∧
    (HardTrapPends s → progImplemented s.dev bra = false →
      ∃ t, exec (.bra n) s = .next t ∧ t.pc = bra ∧ TrapRaised .addrErr [] s t ∧
        t.w15 = s.w15 ∧ SameMemory s t ∧ QuietButTraps s.cycles s t)

/-- Word accesses at even plain addresses, byte accesses at plain addresses and bit instructions complete: a
store writes the bytes of its width at `ea`, a read returns them, nothing else changes (R96, R97, R178). That SR and
W0 to W14 are kept is the model's choice (log 18), and so is the word width of a bit instruction (log 27); the order of
the bytes in a word is presumed (log 29). -/
def Obligations.DataAccessCompletes : Prop :=
  ∀ (s : State) (ea v : Word), dataImplemented s.dev ea = true → sfrAt s.dev (wordBase ea) = none →
    (ea.getLsbD 0 = false →
      (∃ t, exec (.dataAccess .word ea (.write v)) s = .next t ∧ t.pc = s.after s.pc ∧
        t.wordAt ea.toNat = v ∧ SameMemoryBut ea.toNat 2 s t ∧ t.w15 = s.w15 ∧ QuietButMemory s.cycles s t) ∧
      (∃ t, exec (.dataAccess .word ea .read) s = .next t ∧ t.pc = s.after s.pc ∧
        t.result = s.wordAt ea.toNat ∧ Quiet s.cycles s t) ∧
      (∃ t, exec (.bitIndirect ea (.write v)) s = .next t ∧ t.pc = s.after s.pc ∧
        t.wordAt ea.toNat = v ∧ SameMemoryBut ea.toNat 2 s t ∧ t.w15 = s.w15 ∧ QuietButMemory s.cycles s t) ∧
      (∃ t, exec (.bitIndirect ea .read) s = .next t ∧ t.pc = s.after s.pc ∧
        t.result = s.wordAt ea.toNat ∧ Quiet s.cycles s t)) ∧
    (∃ t, exec (.dataAccess .byte ea (.write v)) s = .next t ∧ t.pc = s.after s.pc ∧
      t.byteAt ea.toNat = v.extractLsb' 0 8 ∧ SameMemoryBut ea.toNat 1 s t ∧ t.w15 = s.w15 ∧
      QuietButMemory s.cycles s t) ∧
    (∃ t, exec (.dataAccess .byte ea .read) s = .next t ∧ t.pc = s.after s.pc ∧
      t.result.extractLsb' 0 8 = s.byteAt ea.toNat ∧ Quiet s.cycles s t)

/-- A word access or a bit instruction at an odd address raises the address error and stores nothing (R97,
R100, R178, R204). A read of unimplemented data space of either width raises it (R98, R179); a write there has
no effect and raises nothing (the spec's own reading, U15). That SR and W0 to W14 are kept is the model's choice
(log 18), and so is the word width of a bit instruction (log 27). -/
def Obligations.BadDataAddressesTrap : Prop :=
  ∀ (s : State) (ea v : Word) (op : DataOp) (size : Size),
    let trapped (t : State) : Prop :=
      TrapRaised .addrErr [] s t ∧ SameMemory s t ∧ t.w15 = s.w15 ∧ t.pc = s.after s.pc ∧
      QuietButTraps s.cycles s t
    (ea.getLsbD 0 = true → HardTrapPends s →
      (∃ t, exec (.dataAccess .word ea op) s = .next t ∧ trapped t) ∧
      (∃ t, exec (.bitIndirect ea op) s = .next t ∧ trapped t)) ∧
    (dataImplemented s.dev ea = false → HardTrapPends s →
      (∃ t, exec (.dataAccess size ea .read) s = .next t ∧ trapped t) ∧
      (∃ t, exec (.bitIndirect ea op) s = .next t ∧ trapped t)) ∧
    (dataImplemented s.dev ea = false → misaligned size ea = false →
      ∃ t, exec (.dataAccess size ea (.write v)) s = .next t ∧ t.pc = s.after s.pc ∧ Quiet s.cycles s t)

/-- A MAC-class fetch from its own space reads the word at an even implemented address, of memory or of an SFR; at
an odd or unimplemented address, or from the other space, it raises the address error (R97, R98, R179). That SR, W0 to
W14 and the accumulators are kept is the model's choice (log 18), and that the fetch is of a word (log 27). -/
def Obligations.MacFetchKeepsToItsSpace : Prop :=
  ∀ (s : State) (space : MacSpace) (ea : Word),
    (macCrossing s.dev space ea = false → ea.getLsbD 0 = false → dataImplemented s.dev ea = true →
      ∃ t, exec (.macFetch space ea) s = .next t ∧ t.pc = s.after s.pc ∧
        (sfrAt s.dev ea.toNat = none → t.result = s.wordAt ea.toNat) ∧
        (∀ r, sfrAt s.dev ea.toNat = some r → t.result = s.sfrValue r) ∧ Quiet s.cycles s t) ∧
    (macCrossing s.dev space ea = true ∨ ea.getLsbD 0 = true ∨ dataImplemented s.dev ea = false →
      HardTrapPends s →
      ∃ t, exec (.macFetch space ea) s = .next t ∧ t.pc = s.after s.pc ∧ TrapRaised .addrErr [] s t ∧
        SameMemory s t ∧ t.w15 = s.w15 ∧ QuietButTraps s.cycles s t)

/-- An instruction the source does not name, met by no trap condition, moves on and keeps the priority, every
register of the interrupt controller, SPLIM and `power`; so do MOV.D, BTSC and BTSS with a PSV access, the
last two also where they skip, and a REPEAT that executes no divide (R140, R158, R186). The three with a PSV access are
of a kind of R293, after which an exception entry may take 5 cycles; of the other instructions those that the program's
timing says, unless the device is reset. That the skip is an operand is the model's choice (log 18), and so is how long
a skipped word is that is no instruction (log 34), and that a REPEAT before anything but a divide is such an instruction
that goes on at `pc + 2` (log 19). -/
def Obligations.OtherKeepsControlState : Prop :=
  ∀ (s : State) (skip : Bool) (k : BitVec 14),
    let kept (t : State) : Prop := t.ipl = s.ipl ∧ SameExceptionState s t ∧ Ticked s.cycles s t
    (∃ t, exec (.other {}) s = .next t ∧ kept t ∧ t.pc = s.after s.pc) ∧
    (∃ t, exec (.movdPsv {}) s = .next t ∧ kept t ∧ t.lateEntry = true ∧ t.pc = s.after s.pc) ∧
    (∃ t, exec (.btscPsv {} skip) s = .next t ∧ kept t ∧ t.lateEntry = true ∧
      t.pc = if skip then s.after (s.after s.pc) else s.after s.pc) ∧
    (∃ t, exec (.btssPsv {} skip) s = .next t ∧ kept t ∧ t.lateEntry = true ∧
      t.pc = if skip then s.after (s.after s.pc) else s.after s.pc) ∧
    (s.repeatedDivide = none → ∃ t, exec (.repeatLit k) s = .next t ∧ kept t ∧ t.pc = s.pc + 2) ∧
    (∀ (i : Instr) (t : State), exec i s = .next t →
      t.lateEntry = (PsvAccess i || s.late) ∨
        (t.lateEntry = false ∧ t.pc = 0 ∧ t.sr = 0 ∧ t.w15 = 0x0800))

/-- Each trap condition of an `Other` event sets its own flags and no other (R158, R170, R172, R187): the math
error with a shift or a divide condition, or with an overflow that is enabled, the stack error, the address
error; with the address error the event stores nothing (R100, R204). A carry that the enabled saturation rules out is
no overflow (R171; the saturation bits are log 6). The event goes on at the next instruction in program order. The
three instructions with a PSV access do the same and are of a kind of R293 (R186); that the skip is an operand is
log 18, and how long the skipped word is where it is no instruction is log 34. -/
def Obligations.OtherRaisesItsConditions : Prop :=
  ∀ (s : State) (c : TrapConds) (i : Instr) (skip : Bool), (c.addr = true → HardTrapPends s) →
    (i = .other c ∨ i = .movdPsv c ∨ i = .btscPsv c skip ∨ i = .btssPsv c skip) →
    let satA := s.corcon.getLsbD 7
    let satB := s.corcon.getLsbD 6
    let wide := s.corcon.getLsbD 4
    let ovA := c.ovA && !(satA && !wide) && s.intcon1.getLsbD 10
    let ovB := c.ovB && !(satB && !wide) && s.intcon1.getLsbD 9
    let covA := c.covA && !satA && s.intcon1.getLsbD 8
    let covB := c.covB && !satB && s.intcon1.getLsbD 8
    let math := ovA || ovB || covA || covB || c.shift || c.div0
    ∃ t, exec i s = .next t ∧
      (∀ j, t.intcon1.getLsbD j = (s.intcon1.getLsbD j ||
        (j == 14 && ovA) || (j == 13 && ovB) || (j == 12 && covA) || (j == 11 && covB) ||
        (j == 7 && c.shift) || (j == 6 && c.div0) || (j == 2 && c.stack) || (j == 3 && c.addr) ||
        (j == 4 && math))) ∧
      t.trapPending .mathErr = (math || s.trapPending .mathErr) ∧
      t.trapPending .stkErr = (c.stack || s.trapPending .stkErr) ∧
      t.trapPending .addrErr = (c.addr || s.trapPending .addrErr) ∧
      (c.addr = true → SameMemory s t) ∧
      t.ipl = s.ipl ∧ SameSpecial s t ∧ SameSources s t ∧ SamePower s t ∧ SameParameters s t ∧
      Ticked s.cycles s t ∧
      t.lateEntry = (PsvAccess i || s.late) ∧
      (i = .other c ∨ i = .movdPsv c → t.pc = s.after s.pc) ∧
      (i = .btscPsv c skip ∨ i = .btssPsv c skip → t.pc = if skip then s.after (s.after s.pc) else s.after s.pc)

/-! ## SFR accesses -/

/-- A read of an SFR returns its current value, unimplemented bits as 0, and changes nothing (R99, R151). The
bits of RCON and OSCCON that the spec does not name are free. -/
def Obligations.SfrReadHasNoSideEffect : Prop :=
  ∀ (s : State) (r : Sfr), ∃ t, exec (.sfrRead r) s = .next t ∧ t.result = s.sfrValue r ∧
    (∀ acc b, tableAccess s r = some acc → acc b = .unimplemented → t.result.getLsbD b = false) ∧
    (r = .intcon1 → t.result.getLsbD 0 = false) ∧
    (r = .rcon → t.result.getLsbD 15 = s.trapr) ∧ (r = .osccon → t.result.getLsbD 3 = s.cf) ∧
    t.pc = s.after s.pc ∧ Quiet s.cycles s t

/-- A 16-bit software write follows the access of each bit and changes no other register (R40, R150). A priority
that is rewritten with interrupts enabled may count only after the next boundary (R68; the reading of U1 is
log 23). -/
def Obligations.SfrWriteFollowsTheAccessTable : Prop :=
  ∀ (s : State) (r : Sfr) (acc : Nat → Access) (v : Word), tableAccess s r = some acc →
    ∃ t, exec (.sfrWrite r v) s = .next t ∧ t.pc = s.after s.pc ∧
      (∀ b, b < 16 → ¬ (r = .intcon2 ∧ b = 14) →
        (t.sfrValue r).getLsbD b = (acc b).written ((s.sfrValue r).getLsbD b) (v.getLsbD b)) ∧
      OtherSfrsSame s.cycles r s t ∧ PrioritiesSeen s t ∧ t.w15 = s.w15 ∧ SameWorking s t ∧ SameAccs s t ∧
      SameMemory s t ∧ SamePower s t ∧ SameParameters s t

/-- A single-bit clear, a single-bit set and a field write change the selected bits as their access says and
no other bit (R152, R153, R157); a rewritten priority counts as after a 16-bit write (R68, log 23). -/
def Obligations.SfrBitAndFieldWrites : Prop :=
  ∀ (s : State) (r : Sfr) (acc : Nat → Access) (c hi lo : Fin 16) (v : Word), tableAccess s r = some acc →
    lo ≤ hi → v.toNat < 2 ^ (hi.val - lo.val + 1) →
    let kept (t : State) : Prop :=
      OtherSfrsSame s.cycles r s t ∧ PrioritiesSeen s t ∧ t.pc = s.after s.pc ∧ t.w15 = s.w15 ∧
      SameWorking s t ∧ SameAccs s t ∧ SameMemory s t ∧ SamePower s t ∧ SameParameters s t
    ∃ t u x, exec (.sfrBitClear r c) s = .next t ∧ exec (.sfrBitSet r c) s = .next u ∧
      exec (.sfrFieldWrite r hi lo v) s = .next x ∧
      (∀ b, b < 16 → ¬ (r = .intcon2 ∧ b = 14) →
        (t.sfrValue r).getLsbD b =
          (if b = c.val then (acc b).written ((s.sfrValue r).getLsbD b) false else (s.sfrValue r).getLsbD b) ∧
        (u.sfrValue r).getLsbD b =
          (if b = c.val then (acc b).written ((s.sfrValue r).getLsbD b) true else (s.sfrValue r).getLsbD b) ∧
        (x.sfrValue r).getLsbD b =
          (if lo.val ≤ b ∧ b ≤ hi.val then
            (acc b).written ((s.sfrValue r).getLsbD b) (v.getLsbD (b - lo.val))
           else (s.sfrValue r).getLsbD b)) ∧
      kept t ∧ kept u ∧ kept x

/-- A software write of INTCON1, of all of it, of a field or of one bit, stores what it writes, and a flag written 0 is
withdrawn (R28, R29). Trap status flags that it turns from 0 to 1, one or several at once, request their traps exactly
on a device with `SW_SET_TRAP_FLAG_TRAPS` (R29, U4); the request of a hard trap that conflicts with another one, or
comes at its own level, resets the device or halts it (R210, R212, R214; which of the two is log 11). That a 1
written over a 1 requests nothing, the mark on a flag that requests nothing, that CF is kept, and that two hard traps
requested by one write do not conflict with each other are log 13. -/
def Obligations.Intcon1WritesWithdrawAndRequest : Prop :=
  ∀ (s : State) (i : Instr) (hi lo : Fin 16) (v : Word), lo ≤ hi → v.toNat < 2 ^ (hi.val - lo.val + 1) →
    (i = .sfrFieldWrite .intcon1 hi lo v ∨ (i = .sfrWrite .intcon1 v ∧ hi = 15 ∧ lo = 0) ∨
      (i = .sfrBitSet .intcon1 hi ∧ lo = hi ∧ v = 1) ∨ (i = .sfrBitClear .intcon1 hi ∧ lo = hi ∧ v = 0)) →
    let new (b : Nat) : Bool := if lo.val ≤ b ∧ b ≤ hi.val then v.getLsbD (b - lo.val) else s.intcon1.getLsbD b
    let sets (k : TrapKind) : Bool := !s.intcon1.getLsbD k.flagBit && new k.flagBit
    let asked (k : TrapKind) : Bool := s.dev.swSetTrapFlagTraps && sets k
    let written (t : State) : Prop :=
      (∀ b, 1 ≤ b → b < 16 → t.intcon1.getLsbD b = new b) ∧
      (∀ k : TrapKind, t.trapPending k = (new k.flagBit && (s.trapPending k || asked k))) ∧
      t.pc = s.after s.pc ∧ t.w15 = s.w15 ∧ SameMemory s t
    ((asked .addrErr = true → HardTrapPends s) → (asked .oscFail = true → s.cpuIpl < 14) →
      ∃ t, exec i s = .next t ∧ written t ∧ QuietButTraps s.cycles s t) ∧
    (asked .addrErr = true → s.trapPending .oscFail = true ∨ 14 ≤ s.cpuIpl →
      ∃ t, exec i s = .next t ∧ ConflictReset s t) ∧
    ((asked .addrErr = true ∧ s.trapPending .oscFail = false ∧ s.cpuIpl = 13) ∨
        (asked .addrErr = false ∧ asked .oscFail = true ∧ 14 ≤ s.cpuIpl) →
      ∃ t, exec i s = .next t ∧ (ConflictReset s t ∨ (t.power = .halt ∧ written t)))

/-- The four ways software writes an SFR agree, on every register: a 16-bit write is a field write of bits
15:0, a single-bit clear or set is a field write of that bit (R150, R152, R153, R157). -/
def Obligations.SfrWriteFormsAgree : Prop :=
  ∀ (s : State) (r : Sfr) (b : Fin 16) (v : Word),
    exec (.sfrWrite r v) s = exec (.sfrFieldWrite r 15 0 v) s ∧
    exec (.sfrBitClear r b) s = exec (.sfrFieldWrite r b b 0) s ∧
    exec (.sfrBitSet r b) s = exec (.sfrFieldWrite r b b 1) s

/-- The SFRs are reached by ordinary accesses at their data addresses (R96, R99): a word access is the 16-bit
access of the register, a byte store is a write of the field of that byte, and none of them changes memory. That the
byte at the even address is bits 7:0 of the register, the one at the odd address bits 15:8, is presumed (D5, log 29). A bit
instruction reads the whole register, and one that changes a bit writes it back whole: the model's choice
(log 27). -/
def Obligations.SfrsStandInDataSpace : Prop :=
  ∀ (s : State) (r : Sfr) (ea v : Word), dataImplemented s.dev ea = true →
    sfrAt s.dev (wordBase ea) = some r →
    (ea.getLsbD 0 = false →
      exec (.dataAccess .word ea (.write v)) s = exec (.sfrWrite r v) s ∧
      exec (.dataAccess .word ea .read) s = exec (.sfrRead r) s ∧
      exec (.bitIndirect ea .read) s = exec (.sfrRead r) s ∧
      exec (.bitIndirect ea (.write v)) s =
        exec (.sfrWrite r v) { s with result := s.sfrValue r, draws := s.draws + 1 }) ∧
    (v.toNat < 256 →
      exec (.dataAccess .byte ea (.write v)) s =
        if ea.getLsbD 0 then exec (.sfrFieldWrite r 15 8 v) s else exec (.sfrFieldWrite r 7 0 v) s) ∧
    (∃ t, exec (.dataAccess .byte ea .read) s = .next t ∧ Quiet s.cycles s t ∧
      t.result.extractLsb' 0 8 = (s.sfrValue r).extractLsb' (if ea.getLsbD 0 then 8 else 0) 8)

/-- A 16-bit write to DISICNT or to SPLIM is that register's own write event, and a write of a part of DISICNT is
the write of the whole count with that part changed (R144, R156, R157; that the count is cut to 14 bits is log 5); a
write of a part of SPLIM does not enable the overflow check (the model's reading of R156, log 22); a write to RCON or
OSCCON can change only the one bit of it that the spec names, and leaves that bit free (log 21). -/
def Obligations.WritesOfTheOtherRegisters : Prop :=
  ∀ (s : State) (hi lo : Fin 16) (v : Word), lo ≤ hi → v.toNat < 2 ^ (hi.val - lo.val + 1) →
    exec (.sfrWrite .disicnt v) s = exec (.disicntWrite (.write (v.extractLsb' 0 14))) s ∧
    exec (.sfrWrite .splim v) s = exec (.splimWrite v) s ∧
    (∀ m : BitVec 14,
      (∀ b, b < 14 → m.getLsbD b =
        if lo.val ≤ b ∧ b ≤ hi.val then v.getLsbD (b - lo.val) else s.disicnt.getLsbD b) →
      exec (.sfrFieldWrite .disicnt hi lo v) s = exec (.disicntWrite (.write m)) s) ∧
    (¬ (hi = 15 ∧ lo = 0) →
      ∃ t, exec (.sfrFieldWrite .splim hi lo v) s = .next t ∧ t.splimWritten = s.splimWritten ∧
        (∀ b, b < 16 → t.splim.getLsbD b =
          if lo.val ≤ b ∧ b ≤ hi.val then v.getLsbD (b - lo.val) else s.splim.getLsbD b) ∧
        t.pc = s.after s.pc ∧ t.w15 = s.w15 ∧ SameMemory s t ∧ SameWorking s t ∧ SameStatus s t ∧
        SameAccs s t ∧ SameTraps s t ∧ SameSources s t ∧ SamePower s t ∧ SameParameters s t ∧
        t.corcon = s.corcon ∧ t.inttreg = s.inttreg ∧ t.trapr = s.trapr ∧ t.cf = s.cf ∧
        Ticked s.cycles s t) ∧
    (∀ r, r = .rcon ∨ r = .osccon →
      ∃ t, exec (.sfrFieldWrite r hi lo v) s = .next t ∧ t.pc = s.after s.pc ∧ t.w15 = s.w15 ∧
        (r = .osccon ∨ hi ≠ 15 → t.trapr = s.trapr) ∧
        (r = .rcon ∨ hi.val < 3 ∨ 3 < lo.val → t.cf = s.cf) ∧
        SameMemory s t ∧ SameWorking s t ∧ SameStatus s t ∧ SameAccs s t ∧ t.corcon = s.corcon ∧
        t.inttreg = s.inttreg ∧ t.splim = s.splim ∧ t.splimWritten = s.splimWritten ∧ SameTraps s t ∧
        SameSources s t ∧ SamePower s t ∧ SameParameters s t ∧ Ticked s.cycles s t)

/-! ## The environment -/

/-- A peripheral event sets the flag of an implemented source whatever its enable, and no other flag; the CPU
does not move, but a CPU asleep wakes where a source then requests with priority 1 or more (R65, R216, R245). -/
def Obligations.PeripheralEventSetsItsFlag : Prop :=
  ∀ (s : State) (n : Nat) (rest : List Turn), s.turns = .env (.periph n) :: rest → hasSource s.dev n = true →
    n < 80 →
    ∃ t, step s = .next t ∧ t.turns = rest ∧ t.pc = s.pc ∧
      (∀ m, m < 80 → t.ifsBit m = (m == n || s.ifsBit m)) ∧ t.iec = s.iec ∧ t.ipc = s.ipc ∧ t.race = s.race ∧
      WokenByRequest s t ∧
      SameTraps s t ∧ t.intcon2 = s.intcon2 ∧ t.disicnt = s.disicnt ∧ SameSpecial s t ∧ SameStatus s t ∧
      SameWorking s t ∧ SameAccs s t ∧ SameMemory s t ∧ SameParameters s t ∧ t.w15 = s.w15 ∧ t.pins = s.pins

/-- A pin change samples the pin, and sets the flag of its external interrupt exactly at an edge of the chosen
polarity, where the device has that interrupt; a CPU asleep wakes where a source then requests with priority 1 or
more (R240, R245). -/
def Obligations.PinEdgeSetsItsFlag : Prop :=
  ∀ (s : State) (k : Fin 3) (level : Bool) (rest : List Turn), s.turns = .env (.pinChange k level) :: rest →
    ∃ t, step s = .next t ∧ t.turns = rest ∧ t.pins[k] = level ∧
      (∀ j : Fin 3, j ≠ k → t.pins[j] = s.pins[j]) ∧
      (∀ m, m < 80 → t.ifsBit m = (s.ifsBit m || (hasSource s.dev m &&
        m == (match k with | 0 => 0 | 1 => 20 | 2 => 29) &&
        s.pins[k] != level && level != s.intcon2.getLsbD k.val))) ∧
      t.pc = s.pc ∧ t.w15 = s.w15 ∧ t.iec = s.iec ∧ t.ipc = s.ipc ∧ t.race = s.race ∧ WokenByRequest s t ∧
      SameTraps s t ∧ t.intcon2 = s.intcon2 ∧ t.disicnt = s.disicnt ∧ SameSpecial s t ∧ SameStatus s t ∧
      SameWorking s t ∧
      SameAccs s t ∧ SameMemory s t ∧ SameParameters s t

/-- An oscillator failure sets OSCFAIL and OSCCON.CF where the priority lets the trap be taken, and at `cpu_ipl` 14
or 15 resets the device or halts it (R203, R214; which of the two, and the level 15, are log 11; that every cause sets
CF is log 35). A DMA collision that
comes with a CPU data write sets DMACERR, and is no event else (R207, R216, log 28). Either ends Sleep and Idle (the
wake-up is D30), not Halt. An external reset resets the device, out of Halt too (R214, R270). -/
def Obligations.HardwareTrapsArePending : Prop :=
  ∀ (s : State) (ev : EnvEvent) (rest : List Turn), s.turns = .env ev :: rest →
    let kept (t : State) : Prop :=
      t.power = (if s.power = .halt then .halt else .run) ∧ t.pc = s.pc ∧ t.turns = rest ∧ t.w15 = s.w15 ∧
      SameStatus s t ∧ SameWorking s t ∧ SameAccs s t ∧ SameMemory s t ∧ SameSources s t ∧
      SameParameters s t ∧ t.corcon = s.corcon ∧ t.intcon2 = s.intcon2 ∧ t.inttreg = s.inttreg ∧
      t.disicnt = s.disicnt ∧ t.splim = s.splim ∧ t.splimWritten = s.splimWritten ∧ t.trapr = s.trapr ∧
      t.pins = s.pins
    (ev = .oscFail → s.cpuIpl < 14 →
      ∃ t, step s = .next t ∧ TrapRaised .oscFail [] s t ∧ t.cf = true ∧ kept t) ∧
    (ev = .oscFail → 14 ≤ s.cpuIpl →
      ∃ t, step s = .next t ∧ t.turns = rest ∧ (ConflictReset s t ∨
        (t.power = .halt ∧ TrapRaised .oscFail [] s t ∧ t.cf = true ∧ t.pc = s.pc ∧ SameMemory s t))) ∧
    (ev = .dmaCollision → s.dataWrite = true →
      ∃ t, step s = .next t ∧ TrapRaised .dmaErr [] s t ∧ t.cf = s.cf ∧ kept t) ∧
    (ev = .dmaCollision → s.dataWrite = false → step s = .next { s with turns := rest }) ∧
    (ev = .externalReset →
      ∃ t, step s = .next t ∧ t.turns = rest ∧ t.power = .run ∧ t.pc = 0 ∧ t.w15 = 0x0800 ∧ t.sr = 0 ∧
        t.corcon = 0x0020 ∧ t.intcon1 = 0 ∧ t.intcon2 = 0 ∧ t.inttreg = 0 ∧ t.disicnt = 0 ∧
        t.splimWritten = false ∧ t.softSkid = false ∧ (∀ i : Fin 5, t.ifs[i] = 0 ∧ t.iec[i] = 0) ∧
        (∀ n, n < 80 → t.ipcField n = if hasSource s.dev n then 4 else 0) ∧ SameParameters s t)

/-! ## The whole machine -/

/-- The state right after reset meets the invariant. -/
def Obligations.ResetMeetsInvariant : Prop := MachineInv State.reset

/-- Every step keeps the invariant: canonical memory, unimplemented bits 0, DISI only with a count, no mark on
a flag that is 0 (R40, R143). -/
def Obligations.StepKeepsInvariant : Prop := ∀ s t : State, MachineInv s → step s = .next t → MachineInv t

/-- No step writes program memory or changes a parameter of the run (R42, R106). -/
def Obligations.StepKeepsParameters : Prop := ∀ s t : State, step s = .next t → SameParameters s t

/-- No instruction but RETFIE sets IPL3, so software cannot raise its priority above 7 (R27, R202, R250). -/
def Obligations.SoftwareCannotSetIpl3 : Prop :=
  ∀ (i : Instr) (s t : State), i ≠ .retfie → exec i s = .next t → t.ipl3 = true → s.ipl3 = true

/-- While NSTDIS is 1 no instruction but RETFIE changes SR.IPL, except by resetting the device (R25, R286). -/
def Obligations.NstdisFreezesIpl : Prop :=
  ∀ (i : Instr) (s t : State), i ≠ .retfie → s.nstdis = true → exec i s = .next t →
    t.ipl = s.ipl ∨ (t.pc = 0 ∧ t.sr = 0 ∧ t.w15 = 0x0800)
end

