-- ==== Sys2Proof/Laws/Bits.lean ====
section
/-! SUPPORT. The small lemmas of bits, masks and sorted lists. -/

namespace Sys2Proof.Machine

theorem getLsbD_oneBit {n : Nat} (i j : Nat) : (1#n <<< i).getLsbD j = decide (j = i ∧ j < n) := by
  simp only [BitVec.getLsbD_shiftLeft, BitVec.getLsbD_one]
  by_cases h1 : j < n <;> by_cases h2 : j = i <;> simp [h1, h2] <;> omega

theorem getLsbD_setBit {n : Nat} (w : BitVec n) (i : Nat) (b : Bool) (j : Nat) :
    (setBit w i b).getLsbD j = if j = i ∧ j < n then b else w.getLsbD j := by
  unfold setBit
  cases b
  · simp only [Bool.false_eq_true, if_false, BitVec.getLsbD_and, BitVec.getLsbD_not, getLsbD_oneBit]
    by_cases hj : j < n
    · by_cases h : j = i
      · rw [h] at hj; simp [h, hj]
      · simp [h, hj]
    · simp [BitVec.getLsbD_of_ge w j (by omega), hj]
  · simp only [if_true, BitVec.getLsbD_or, getLsbD_oneBit]
    by_cases h : j = i ∧ j < n
    · rw [decide_eq_true h, if_pos h, Bool.or_true]
    · rw [decide_eq_false h, if_neg h, Bool.or_false]

/-- Reading the bit that was set. -/
theorem getLsbD_setBit_self {n : Nat} (w : BitVec n) (i : Nat) (b : Bool) (h : i < n) :
    (setBit w i b).getLsbD i = b := by rw [getLsbD_setBit]; simp only [h, and_self, if_true]

/-- Reading another bit. -/
theorem getLsbD_setBit_ne {n : Nat} (w : BitVec n) (i j : Nat) (b : Bool) (h : j ≠ i) :
    (setBit w i b).getLsbD j = w.getLsbD j := by rw [getLsbD_setBit]; simp only [h, false_and, if_false]

/-- Each bit after a software write (R40). -/
theorem getLsbD_accessWrite {n : Nat} (old v sel wmask cmask : BitVec n) (i : Nat) :
    (accessWrite old v sel wmask cmask).getLsbD i =
      ((if wmask.getLsbD i && sel.getLsbD i then v.getLsbD i else old.getLsbD i) &&
        !(cmask.getLsbD i && sel.getLsbD i && !v.getLsbD i)) := by
  unfold accessWrite
  simp only [BitVec.getLsbD_and, BitVec.getLsbD_or, BitVec.getLsbD_not]
  by_cases hi : i < n
  · simp only [hi, decide_true, Bool.true_and]
    cases wmask.getLsbD i <;> cases sel.getLsbD i <;> cases v.getLsbD i <;>
      cases old.getLsbD i <;> cases cmask.getLsbD i <;> rfl
  · have hi' : n ≤ i := by omega
    simp only [BitVec.getLsbD_of_ge _ _ hi', hi, decide_false]; rfl

/-- The bits of a bit vector that is written bit by bit. -/
theorem getLsbD_ofBits (f : Nat → Bool) (n i : Nat) : (ofBits f n).getLsbD i = (decide (i < n) && f i) := by
  induction n with
  | zero => simp [ofBits]
  | succ n ih =>
    rw [ofBits, BitVec.getLsbD_cons, ih]
    by_cases h : i = n
    · subst h; simp
    · have : (i < n) = (i < n + 1) := propext ⟨fun _ => by omega, fun _ => by omega⟩
      simp only [h, if_false, this]

/-- A bit vector that is written from the bits of another one is that one. -/
theorem ofBits_eq {n : Nat} (f : Nat → Bool) (v : BitVec n) (h : ∀ i, i < n → f i = v.getLsbD i) :
    ofBits f n = v := by
  apply BitVec.eq_of_getLsbD_eq
  intro i hi
  rw [getLsbD_ofBits, h i hi, decide_eq_true hi, Bool.true_and]

theorem memFind_memPut {α : Type} (m : List (Nat × α)) (a : Nat) (v : α) (b : Nat) :
    memFind (memPut m a v) b = if b = a then some v else memFind m b := by
  induction m with
  | nil => simp [memPut, memFind]
  | cons p m ih =>
    obtain ⟨c, w⟩ := p
    simp only [memPut]
    by_cases h1 : a < c
    · simp [h1, memFind]
    · by_cases h2 : a = c
      · subst h2
        by_cases hb : b = a <;> simp [memFind, hb]
      · simp only [h1, h2, if_false, memFind, ih]
        by_cases hb : b = c
        · have : ¬ c = a := fun h => h2 h.symm
          simp [hb, this]
        · simp [hb]

/-- A write at `a` is read back. -/
@[simp] theorem memFind_memPut_self {α : Type} (m : List (Nat × α)) (a : Nat) (v : α) :
    memFind (memPut m a v) a = some v := by simp [memFind_memPut]

/-- A write leaves every other address alone. -/
theorem memFind_memPut_ne {α : Type} (m : List (Nat × α)) (a : Nat) (v : α) (b : Nat) (h : b ≠ a) :
    memFind (memPut m a v) b = memFind m b := by simp [memFind_memPut, h]

theorem risingFrom_memPut {α : Type} (m : List (Nat × α)) (lo a : Nat) (v : α)
    (h : risingFrom lo m = true) (hlo : lo ≤ a) : risingFrom lo (memPut m a v) = true := by
  induction m generalizing lo with
  | nil => simp [memPut, risingFrom, hlo]
  | cons p m ih =>
    obtain ⟨c, w⟩ := p
    simp only [risingFrom, Bool.and_eq_true, decide_eq_true_eq] at h
    simp only [memPut]
    split
    · simp [risingFrom, h.2, hlo]; omega
    · split
      · subst_vars; simp [risingFrom, h]
      · simp only [risingFrom, Bool.and_eq_true, decide_eq_true_eq]
        exact ⟨h.1, ih (c + 1) h.2 (by omega)⟩

theorem memFind_memErase {α : Type} (m : List (Nat × α)) (a b : Nat) :
    memFind (memErase m a) b = if b = a then none else memFind m b := by
  induction m with
  | nil => simp [memErase, memFind]
  | cons p m ih =>
    obtain ⟨c, w⟩ := p
    simp only [memErase]
    by_cases h1 : a = c
    · subst h1
      by_cases hb : b = a
      · rw [if_pos rfl, ih, if_pos hb, if_pos hb]
      · simp [ih, memFind, hb]
    · by_cases hb : b = c
      · subst hb
        have : ¬ b = a := fun h => h1 h.symm
        simp [h1, memFind, this]
      · simp [h1, memFind, hb, ih]

end Sys2Proof.Machine
end

