-- ==== Sys2Proof/Laws/State.lean ====
section
/-! SUPPORT. One lemma per field for every named update of the state, and for what an effect carries. -/

namespace Sys2Proof.Machine

/-! ## `State.bump` -/

@[simp] theorem State.bump_pc (s : State) : s.bump.pc = s.pc := rfl
@[simp] theorem State.bump_w (s : State) : s.bump.w = s.w := rfl
@[simp] theorem State.bump_w15 (s : State) : s.bump.w15 = s.w15 := rfl
@[simp] theorem State.bump_srh (s : State) : s.bump.srh = s.srh := rfl
@[simp] theorem State.bump_ipl (s : State) : s.bump.ipl = s.ipl := rfl
@[simp] theorem State.bump_flags (s : State) : s.bump.flags = s.flags := rfl
@[simp] theorem State.bump_corcon (s : State) : s.bump.corcon = s.corcon := rfl
@[simp] theorem State.bump_intcon1 (s : State) : s.bump.intcon1 = s.intcon1 := rfl
@[simp] theorem State.bump_intcon2 (s : State) : s.bump.intcon2 = s.intcon2 := rfl
@[simp] theorem State.bump_inttreg (s : State) : s.bump.inttreg = s.inttreg := rfl
@[simp] theorem State.bump_ifs (s : State) : s.bump.ifs = s.ifs := rfl
@[simp] theorem State.bump_iec (s : State) : s.bump.iec = s.iec := rfl
@[simp] theorem State.bump_ipc (s : State) : s.bump.ipc = s.ipc := rfl
@[simp] theorem State.bump_disicnt (s : State) : s.bump.disicnt = s.disicnt := rfl
@[simp] theorem State.bump_splim (s : State) : s.bump.splim = s.splim := rfl
@[simp] theorem State.bump_splimWritten (s : State) : s.bump.splimWritten = s.splimWritten := rfl
@[simp] theorem State.bump_trapr (s : State) : s.bump.trapr = s.trapr := rfl
@[simp] theorem State.bump_cf (s : State) : s.bump.cf = s.cf := rfl
@[simp] theorem State.bump_accA (s : State) : s.bump.accA = s.accA := rfl
@[simp] theorem State.bump_accB (s : State) : s.bump.accB = s.accB := rfl
@[simp] theorem State.bump_mem (s : State) : s.bump.mem = s.mem := rfl
@[simp] theorem State.bump_prog (s : State) : s.bump.prog = s.prog := rfl
@[simp] theorem State.bump_power (s : State) : s.bump.power = s.power := rfl
@[simp] theorem State.bump_pins (s : State) : s.bump.pins = s.pins := rfl
@[simp] theorem State.bump_softSkid (s : State) : s.bump.softSkid = s.softSkid := rfl
@[simp] theorem State.bump_events (s : State) : s.bump.events = s.events := rfl
@[simp] theorem State.bump_timing (s : State) : s.bump.timing = s.timing := rfl
@[simp] theorem State.bump_dev (s : State) : s.bump.dev = s.dev := rfl
@[simp] theorem State.bump_turns (s : State) : s.bump.turns = s.turns := rfl
@[simp] theorem State.bump_result (s : State) : s.bump.result = s.result := rfl
@[simp] theorem State.bump_lateEntry (s : State) : s.bump.lateEntry = s.lateEntry := rfl
@[simp] theorem State.bump_inert (s : State) : s.bump.inert = s.inert := rfl
@[simp] theorem State.bump_memEpoch (s : State) : s.bump.memEpoch = s.memEpoch := rfl
@[simp] theorem State.bump_race (s : State) : s.bump.race = s.race := rfl
@[simp] theorem State.bump_dataWrite (s : State) : s.bump.dataWrite = s.dataWrite := rfl
@[simp] theorem State.bump_draws (s : State) : s.bump.draws = s.draws + 1 := rfl

/-! ## `State.wroteData` -/

@[simp] theorem State.wroteData_pc (s : State) : s.wroteData.pc = s.pc := rfl
@[simp] theorem State.wroteData_w (s : State) : s.wroteData.w = s.w := rfl
@[simp] theorem State.wroteData_w15 (s : State) : s.wroteData.w15 = s.w15 := rfl
@[simp] theorem State.wroteData_srh (s : State) : s.wroteData.srh = s.srh := rfl
@[simp] theorem State.wroteData_ipl (s : State) : s.wroteData.ipl = s.ipl := rfl
@[simp] theorem State.wroteData_flags (s : State) : s.wroteData.flags = s.flags := rfl
@[simp] theorem State.wroteData_corcon (s : State) : s.wroteData.corcon = s.corcon := rfl
@[simp] theorem State.wroteData_intcon1 (s : State) : s.wroteData.intcon1 = s.intcon1 := rfl
@[simp] theorem State.wroteData_intcon2 (s : State) : s.wroteData.intcon2 = s.intcon2 := rfl
@[simp] theorem State.wroteData_inttreg (s : State) : s.wroteData.inttreg = s.inttreg := rfl
@[simp] theorem State.wroteData_ifs (s : State) : s.wroteData.ifs = s.ifs := rfl
@[simp] theorem State.wroteData_iec (s : State) : s.wroteData.iec = s.iec := rfl
@[simp] theorem State.wroteData_ipc (s : State) : s.wroteData.ipc = s.ipc := rfl
@[simp] theorem State.wroteData_disicnt (s : State) : s.wroteData.disicnt = s.disicnt := rfl
@[simp] theorem State.wroteData_splim (s : State) : s.wroteData.splim = s.splim := rfl
@[simp] theorem State.wroteData_splimWritten (s : State) : s.wroteData.splimWritten = s.splimWritten := rfl
@[simp] theorem State.wroteData_trapr (s : State) : s.wroteData.trapr = s.trapr := rfl
@[simp] theorem State.wroteData_cf (s : State) : s.wroteData.cf = s.cf := rfl
@[simp] theorem State.wroteData_accA (s : State) : s.wroteData.accA = s.accA := rfl
@[simp] theorem State.wroteData_accB (s : State) : s.wroteData.accB = s.accB := rfl
@[simp] theorem State.wroteData_mem (s : State) : s.wroteData.mem = s.mem := rfl
@[simp] theorem State.wroteData_prog (s : State) : s.wroteData.prog = s.prog := rfl
@[simp] theorem State.wroteData_power (s : State) : s.wroteData.power = s.power := rfl
@[simp] theorem State.wroteData_pins (s : State) : s.wroteData.pins = s.pins := rfl
@[simp] theorem State.wroteData_softSkid (s : State) : s.wroteData.softSkid = s.softSkid := rfl
@[simp] theorem State.wroteData_events (s : State) : s.wroteData.events = s.events := rfl
@[simp] theorem State.wroteData_timing (s : State) : s.wroteData.timing = s.timing := rfl
@[simp] theorem State.wroteData_dev (s : State) : s.wroteData.dev = s.dev := rfl
@[simp] theorem State.wroteData_turns (s : State) : s.wroteData.turns = s.turns := rfl
@[simp] theorem State.wroteData_result (s : State) : s.wroteData.result = s.result := rfl
@[simp] theorem State.wroteData_lateEntry (s : State) : s.wroteData.lateEntry = s.lateEntry := rfl
@[simp] theorem State.wroteData_inert (s : State) : s.wroteData.inert = s.inert := rfl
@[simp] theorem State.wroteData_memEpoch (s : State) : s.wroteData.memEpoch = s.memEpoch := rfl
@[simp] theorem State.wroteData_race (s : State) : s.wroteData.race = s.race := rfl
@[simp] theorem State.wroteData_dataWrite (s : State) : s.wroteData.dataWrite = true := rfl
@[simp] theorem State.wroteData_draws (s : State) : s.wroteData.draws = s.draws := rfl

/-! ## `State.atBoundary` -/

@[simp] theorem State.atBoundary_pc (s : State) : s.atBoundary.pc = s.pc := rfl
@[simp] theorem State.atBoundary_w (s : State) : s.atBoundary.w = s.w := rfl
@[simp] theorem State.atBoundary_w15 (s : State) : s.atBoundary.w15 = s.w15 := rfl
@[simp] theorem State.atBoundary_srh (s : State) : s.atBoundary.srh = s.srh := rfl
@[simp] theorem State.atBoundary_ipl (s : State) : s.atBoundary.ipl = s.ipl := rfl
@[simp] theorem State.atBoundary_flags (s : State) : s.atBoundary.flags = s.flags := rfl
@[simp] theorem State.atBoundary_corcon (s : State) : s.atBoundary.corcon = s.corcon := rfl
@[simp] theorem State.atBoundary_intcon1 (s : State) : s.atBoundary.intcon1 = s.intcon1 := rfl
@[simp] theorem State.atBoundary_intcon2 (s : State) : s.atBoundary.intcon2 = s.intcon2 := rfl
@[simp] theorem State.atBoundary_inttreg (s : State) : s.atBoundary.inttreg = s.inttreg := rfl
@[simp] theorem State.atBoundary_ifs (s : State) : s.atBoundary.ifs = s.ifs := rfl
@[simp] theorem State.atBoundary_iec (s : State) : s.atBoundary.iec = s.iec := rfl
@[simp] theorem State.atBoundary_ipc (s : State) : s.atBoundary.ipc = s.ipc := rfl
@[simp] theorem State.atBoundary_disicnt (s : State) : s.atBoundary.disicnt = s.disicnt := rfl
@[simp] theorem State.atBoundary_splim (s : State) : s.atBoundary.splim = s.splim := rfl
@[simp] theorem State.atBoundary_splimWritten (s : State) : s.atBoundary.splimWritten = s.splimWritten := rfl
@[simp] theorem State.atBoundary_trapr (s : State) : s.atBoundary.trapr = s.trapr := rfl
@[simp] theorem State.atBoundary_cf (s : State) : s.atBoundary.cf = s.cf := rfl
@[simp] theorem State.atBoundary_accA (s : State) : s.atBoundary.accA = s.accA := rfl
@[simp] theorem State.atBoundary_accB (s : State) : s.atBoundary.accB = s.accB := rfl
@[simp] theorem State.atBoundary_mem (s : State) : s.atBoundary.mem = s.mem := rfl
@[simp] theorem State.atBoundary_prog (s : State) : s.atBoundary.prog = s.prog := rfl
@[simp] theorem State.atBoundary_power (s : State) : s.atBoundary.power = s.power := rfl
@[simp] theorem State.atBoundary_pins (s : State) : s.atBoundary.pins = s.pins := rfl
@[simp] theorem State.atBoundary_softSkid (s : State) : s.atBoundary.softSkid = s.softSkid := rfl
@[simp] theorem State.atBoundary_events (s : State) : s.atBoundary.events = s.events := rfl
@[simp] theorem State.atBoundary_timing (s : State) : s.atBoundary.timing = s.timing := rfl
@[simp] theorem State.atBoundary_dev (s : State) : s.atBoundary.dev = s.dev := rfl
@[simp] theorem State.atBoundary_turns (s : State) : s.atBoundary.turns = s.turns := rfl
@[simp] theorem State.atBoundary_result (s : State) : s.atBoundary.result = s.result := rfl
@[simp] theorem State.atBoundary_lateEntry (s : State) : s.atBoundary.lateEntry = s.lateEntry := rfl
@[simp] theorem State.atBoundary_inert (s : State) : s.atBoundary.inert = s.inert := rfl
@[simp] theorem State.atBoundary_memEpoch (s : State) : s.atBoundary.memEpoch = s.memEpoch := rfl
@[simp] theorem State.atBoundary_race (s : State) : s.atBoundary.race = [] := rfl
@[simp] theorem State.atBoundary_dataWrite (s : State) : s.atBoundary.dataWrite = false := rfl
@[simp] theorem State.atBoundary_draws (s : State) : s.atBoundary.draws = s.draws := rfl

/-! ## `State.tick` -/

@[simp] theorem State.tick_pc (c : Nat) (s : State) : (s.tick c).pc = s.pc := rfl
@[simp] theorem State.tick_w (c : Nat) (s : State) : (s.tick c).w = s.w := rfl
@[simp] theorem State.tick_w15 (c : Nat) (s : State) : (s.tick c).w15 = s.w15 := rfl
@[simp] theorem State.tick_srh (c : Nat) (s : State) : (s.tick c).srh = s.srh := rfl
@[simp] theorem State.tick_ipl (c : Nat) (s : State) : (s.tick c).ipl = s.ipl := rfl
@[simp] theorem State.tick_flags (c : Nat) (s : State) : (s.tick c).flags = s.flags := rfl
@[simp] theorem State.tick_corcon (c : Nat) (s : State) : (s.tick c).corcon = s.corcon := rfl
@[simp] theorem State.tick_intcon1 (c : Nat) (s : State) : (s.tick c).intcon1 = s.intcon1 := rfl
@[simp] theorem State.tick_intcon2 (c : Nat) (s : State) :
    (s.tick c).intcon2 = if s.disicnt.toNat - c = 0 then setBit s.intcon2 14 false else s.intcon2 := rfl
@[simp] theorem State.tick_inttreg (c : Nat) (s : State) : (s.tick c).inttreg = s.inttreg := rfl
@[simp] theorem State.tick_ifs (c : Nat) (s : State) : (s.tick c).ifs = s.ifs := rfl
@[simp] theorem State.tick_iec (c : Nat) (s : State) : (s.tick c).iec = s.iec := rfl
@[simp] theorem State.tick_ipc (c : Nat) (s : State) : (s.tick c).ipc = s.ipc := rfl
@[simp] theorem State.tick_disicnt (c : Nat) (s : State) :
    (s.tick c).disicnt = BitVec.ofNat 14 (s.disicnt.toNat - c) := rfl
@[simp] theorem State.tick_splim (c : Nat) (s : State) : (s.tick c).splim = s.splim := rfl
@[simp] theorem State.tick_splimWritten (c : Nat) (s : State) :
    (s.tick c).splimWritten = s.splimWritten := rfl
@[simp] theorem State.tick_trapr (c : Nat) (s : State) : (s.tick c).trapr = s.trapr := rfl
@[simp] theorem State.tick_cf (c : Nat) (s : State) : (s.tick c).cf = s.cf := rfl
@[simp] theorem State.tick_accA (c : Nat) (s : State) : (s.tick c).accA = s.accA := rfl
@[simp] theorem State.tick_accB (c : Nat) (s : State) : (s.tick c).accB = s.accB := rfl
@[simp] theorem State.tick_mem (c : Nat) (s : State) : (s.tick c).mem = s.mem := rfl
@[simp] theorem State.tick_prog (c : Nat) (s : State) : (s.tick c).prog = s.prog := rfl
@[simp] theorem State.tick_power (c : Nat) (s : State) : (s.tick c).power = s.power := rfl
@[simp] theorem State.tick_pins (c : Nat) (s : State) : (s.tick c).pins = s.pins := rfl
@[simp] theorem State.tick_softSkid (c : Nat) (s : State) : (s.tick c).softSkid = s.softSkid := rfl
@[simp] theorem State.tick_events (c : Nat) (s : State) : (s.tick c).events = s.events := rfl
@[simp] theorem State.tick_timing (c : Nat) (s : State) : (s.tick c).timing = s.timing := rfl
@[simp] theorem State.tick_dev (c : Nat) (s : State) : (s.tick c).dev = s.dev := rfl
@[simp] theorem State.tick_turns (c : Nat) (s : State) : (s.tick c).turns = s.turns := rfl
@[simp] theorem State.tick_result (c : Nat) (s : State) : (s.tick c).result = s.result := rfl
@[simp] theorem State.tick_lateEntry (c : Nat) (s : State) : (s.tick c).lateEntry = s.lateEntry := rfl
@[simp] theorem State.tick_inert (c : Nat) (s : State) : (s.tick c).inert = s.inert := rfl
@[simp] theorem State.tick_memEpoch (c : Nat) (s : State) : (s.tick c).memEpoch = s.memEpoch := rfl
@[simp] theorem State.tick_race (c : Nat) (s : State) : (s.tick c).race = s.race := rfl
@[simp] theorem State.tick_dataWrite (c : Nat) (s : State) : (s.tick c).dataWrite = s.dataWrite := rfl
@[simp] theorem State.tick_draws (c : Nat) (s : State) : (s.tick c).draws = s.draws := rfl

/-! ## `State.writeDisicnt` -/

@[simp] theorem State.writeDisicnt_pc (v : BitVec 14) (s : State) : (s.writeDisicnt v).pc = s.pc := rfl
@[simp] theorem State.writeDisicnt_w (v : BitVec 14) (s : State) : (s.writeDisicnt v).w = s.w := rfl
@[simp] theorem State.writeDisicnt_w15 (v : BitVec 14) (s : State) : (s.writeDisicnt v).w15 = s.w15 := rfl
@[simp] theorem State.writeDisicnt_srh (v : BitVec 14) (s : State) : (s.writeDisicnt v).srh = s.srh := rfl
@[simp] theorem State.writeDisicnt_ipl (v : BitVec 14) (s : State) : (s.writeDisicnt v).ipl = s.ipl := rfl
@[simp] theorem State.writeDisicnt_flags (v : BitVec 14) (s : State) :
    (s.writeDisicnt v).flags = s.flags := rfl
@[simp] theorem State.writeDisicnt_corcon (v : BitVec 14) (s : State) :
    (s.writeDisicnt v).corcon = s.corcon := rfl
@[simp] theorem State.writeDisicnt_intcon1 (v : BitVec 14) (s : State) :
    (s.writeDisicnt v).intcon1 = s.intcon1 := rfl
@[simp] theorem State.writeDisicnt_intcon2 (v : BitVec 14) (s : State) :
    (s.writeDisicnt v).intcon2 = if v = 0 then setBit s.intcon2 14 false else s.intcon2 := rfl
@[simp] theorem State.writeDisicnt_inttreg (v : BitVec 14) (s : State) :
    (s.writeDisicnt v).inttreg = s.inttreg := rfl
@[simp] theorem State.writeDisicnt_ifs (v : BitVec 14) (s : State) : (s.writeDisicnt v).ifs = s.ifs := rfl
@[simp] theorem State.writeDisicnt_iec (v : BitVec 14) (s : State) : (s.writeDisicnt v).iec = s.iec := rfl
@[simp] theorem State.writeDisicnt_ipc (v : BitVec 14) (s : State) : (s.writeDisicnt v).ipc = s.ipc := rfl
@[simp] theorem State.writeDisicnt_disicnt (v : BitVec 14) (s : State) : (s.writeDisicnt v).disicnt = v := rfl
@[simp] theorem State.writeDisicnt_splim (v : BitVec 14) (s : State) :
    (s.writeDisicnt v).splim = s.splim := rfl
@[simp] theorem State.writeDisicnt_splimWritten (v : BitVec 14) (s : State) :
    (s.writeDisicnt v).splimWritten = s.splimWritten := rfl
@[simp] theorem State.writeDisicnt_trapr (v : BitVec 14) (s : State) :
    (s.writeDisicnt v).trapr = s.trapr := rfl
@[simp] theorem State.writeDisicnt_cf (v : BitVec 14) (s : State) : (s.writeDisicnt v).cf = s.cf := rfl
@[simp] theorem State.writeDisicnt_accA (v : BitVec 14) (s : State) : (s.writeDisicnt v).accA = s.accA := rfl
@[simp] theorem State.writeDisicnt_accB (v : BitVec 14) (s : State) : (s.writeDisicnt v).accB = s.accB := rfl
@[simp] theorem State.writeDisicnt_mem (v : BitVec 14) (s : State) : (s.writeDisicnt v).mem = s.mem := rfl
@[simp] theorem State.writeDisicnt_prog (v : BitVec 14) (s : State) : (s.writeDisicnt v).prog = s.prog := rfl
@[simp] theorem State.writeDisicnt_power (v : BitVec 14) (s : State) :
    (s.writeDisicnt v).power = s.power := rfl
@[simp] theorem State.writeDisicnt_pins (v : BitVec 14) (s : State) : (s.writeDisicnt v).pins = s.pins := rfl
@[simp] theorem State.writeDisicnt_softSkid (v : BitVec 14) (s : State) :
    (s.writeDisicnt v).softSkid = s.softSkid := rfl
@[simp] theorem State.writeDisicnt_events (v : BitVec 14) (s : State) :
    (s.writeDisicnt v).events = s.events := rfl
@[simp] theorem State.writeDisicnt_timing (v : BitVec 14) (s : State) :
    (s.writeDisicnt v).timing = s.timing := rfl
@[simp] theorem State.writeDisicnt_dev (v : BitVec 14) (s : State) : (s.writeDisicnt v).dev = s.dev := rfl
@[simp] theorem State.writeDisicnt_turns (v : BitVec 14) (s : State) :
    (s.writeDisicnt v).turns = s.turns := rfl
@[simp] theorem State.writeDisicnt_result (v : BitVec 14) (s : State) :
    (s.writeDisicnt v).result = s.result := rfl
@[simp] theorem State.writeDisicnt_lateEntry (v : BitVec 14) (s : State) :
    (s.writeDisicnt v).lateEntry = s.lateEntry := rfl
@[simp] theorem State.writeDisicnt_inert (v : BitVec 14) (s : State) :
    (s.writeDisicnt v).inert = s.inert := rfl
@[simp] theorem State.writeDisicnt_memEpoch (v : BitVec 14) (s : State) :
    (s.writeDisicnt v).memEpoch = s.memEpoch := rfl
@[simp] theorem State.writeDisicnt_race (v : BitVec 14) (s : State) : (s.writeDisicnt v).race = s.race := rfl
@[simp] theorem State.writeDisicnt_dataWrite (v : BitVec 14) (s : State) :
    (s.writeDisicnt v).dataWrite = s.dataWrite := rfl
@[simp] theorem State.writeDisicnt_draws (v : BitVec 14) (s : State) :
    (s.writeDisicnt v).draws = s.draws := rfl

/-! ## `State.setTrapFlag` -/

@[simp] theorem State.setTrapFlag_pc (k : TrapKind) (s : State) : (s.setTrapFlag k).pc = s.pc := rfl
@[simp] theorem State.setTrapFlag_w (k : TrapKind) (s : State) : (s.setTrapFlag k).w = s.w := rfl
@[simp] theorem State.setTrapFlag_w15 (k : TrapKind) (s : State) : (s.setTrapFlag k).w15 = s.w15 := rfl
@[simp] theorem State.setTrapFlag_srh (k : TrapKind) (s : State) : (s.setTrapFlag k).srh = s.srh := rfl
@[simp] theorem State.setTrapFlag_ipl (k : TrapKind) (s : State) : (s.setTrapFlag k).ipl = s.ipl := rfl
@[simp] theorem State.setTrapFlag_flags (k : TrapKind) (s : State) : (s.setTrapFlag k).flags = s.flags := rfl
@[simp] theorem State.setTrapFlag_corcon (k : TrapKind) (s : State) :
    (s.setTrapFlag k).corcon = s.corcon := rfl
@[simp] theorem State.setTrapFlag_intcon1 (k : TrapKind) (s : State) :
    (s.setTrapFlag k).intcon1 = setBit s.intcon1 k.flagBit true := rfl
@[simp] theorem State.setTrapFlag_intcon2 (k : TrapKind) (s : State) :
    (s.setTrapFlag k).intcon2 = s.intcon2 := rfl
@[simp] theorem State.setTrapFlag_inttreg (k : TrapKind) (s : State) :
    (s.setTrapFlag k).inttreg = s.inttreg := rfl
@[simp] theorem State.setTrapFlag_ifs (k : TrapKind) (s : State) : (s.setTrapFlag k).ifs = s.ifs := rfl
@[simp] theorem State.setTrapFlag_iec (k : TrapKind) (s : State) : (s.setTrapFlag k).iec = s.iec := rfl
@[simp] theorem State.setTrapFlag_ipc (k : TrapKind) (s : State) : (s.setTrapFlag k).ipc = s.ipc := rfl
@[simp] theorem State.setTrapFlag_disicnt (k : TrapKind) (s : State) :
    (s.setTrapFlag k).disicnt = s.disicnt := rfl
@[simp] theorem State.setTrapFlag_splim (k : TrapKind) (s : State) : (s.setTrapFlag k).splim = s.splim := rfl
@[simp] theorem State.setTrapFlag_splimWritten (k : TrapKind) (s : State) :
    (s.setTrapFlag k).splimWritten = s.splimWritten := rfl
@[simp] theorem State.setTrapFlag_trapr (k : TrapKind) (s : State) : (s.setTrapFlag k).trapr = s.trapr := rfl
@[simp] theorem State.setTrapFlag_cf (k : TrapKind) (s : State) : (s.setTrapFlag k).cf = s.cf := rfl
@[simp] theorem State.setTrapFlag_accA (k : TrapKind) (s : State) : (s.setTrapFlag k).accA = s.accA := rfl
@[simp] theorem State.setTrapFlag_accB (k : TrapKind) (s : State) : (s.setTrapFlag k).accB = s.accB := rfl
@[simp] theorem State.setTrapFlag_mem (k : TrapKind) (s : State) : (s.setTrapFlag k).mem = s.mem := rfl
@[simp] theorem State.setTrapFlag_prog (k : TrapKind) (s : State) : (s.setTrapFlag k).prog = s.prog := rfl
@[simp] theorem State.setTrapFlag_power (k : TrapKind) (s : State) : (s.setTrapFlag k).power = s.power := rfl
@[simp] theorem State.setTrapFlag_pins (k : TrapKind) (s : State) : (s.setTrapFlag k).pins = s.pins := rfl
@[simp] theorem State.setTrapFlag_softSkid (k : TrapKind) (s : State) :
    (s.setTrapFlag k).softSkid = s.softSkid := rfl
@[simp] theorem State.setTrapFlag_events (k : TrapKind) (s : State) :
    (s.setTrapFlag k).events = s.events := rfl
@[simp] theorem State.setTrapFlag_timing (k : TrapKind) (s : State) :
    (s.setTrapFlag k).timing = s.timing := rfl
@[simp] theorem State.setTrapFlag_dev (k : TrapKind) (s : State) : (s.setTrapFlag k).dev = s.dev := rfl
@[simp] theorem State.setTrapFlag_turns (k : TrapKind) (s : State) : (s.setTrapFlag k).turns = s.turns := rfl
@[simp] theorem State.setTrapFlag_result (k : TrapKind) (s : State) :
    (s.setTrapFlag k).result = s.result := rfl
@[simp] theorem State.setTrapFlag_lateEntry (k : TrapKind) (s : State) :
    (s.setTrapFlag k).lateEntry = s.lateEntry := rfl
@[simp] theorem State.setTrapFlag_inert (k : TrapKind) (s : State) :
    (s.setTrapFlag k).inert = setBit s.inert k.flagBit false := rfl
@[simp] theorem State.setTrapFlag_memEpoch (k : TrapKind) (s : State) :
    (s.setTrapFlag k).memEpoch = s.memEpoch := rfl
@[simp] theorem State.setTrapFlag_race (k : TrapKind) (s : State) : (s.setTrapFlag k).race = s.race := rfl
@[simp] theorem State.setTrapFlag_dataWrite (k : TrapKind) (s : State) :
    (s.setTrapFlag k).dataWrite = s.dataWrite := rfl
@[simp] theorem State.setTrapFlag_draws (k : TrapKind) (s : State) : (s.setTrapFlag k).draws = s.draws := rfl

/-! ## `State.raiseSoft` -/

@[simp] theorem State.raiseSoft_pc (k : TrapKind) (s : State) : (s.raiseSoft k).pc = s.pc := rfl
@[simp] theorem State.raiseSoft_w (k : TrapKind) (s : State) : (s.raiseSoft k).w = s.w := rfl
@[simp] theorem State.raiseSoft_w15 (k : TrapKind) (s : State) : (s.raiseSoft k).w15 = s.w15 := rfl
@[simp] theorem State.raiseSoft_srh (k : TrapKind) (s : State) : (s.raiseSoft k).srh = s.srh := rfl
@[simp] theorem State.raiseSoft_ipl (k : TrapKind) (s : State) : (s.raiseSoft k).ipl = s.ipl := rfl
@[simp] theorem State.raiseSoft_flags (k : TrapKind) (s : State) : (s.raiseSoft k).flags = s.flags := rfl
@[simp] theorem State.raiseSoft_corcon (k : TrapKind) (s : State) : (s.raiseSoft k).corcon = s.corcon := rfl
@[simp] theorem State.raiseSoft_intcon1 (k : TrapKind) (s : State) :
    (s.raiseSoft k).intcon1 = setBit s.intcon1 k.flagBit true := rfl
@[simp] theorem State.raiseSoft_intcon2 (k : TrapKind) (s : State) :
    (s.raiseSoft k).intcon2 = s.intcon2 := rfl
@[simp] theorem State.raiseSoft_inttreg (k : TrapKind) (s : State) :
    (s.raiseSoft k).inttreg = s.inttreg := rfl
@[simp] theorem State.raiseSoft_ifs (k : TrapKind) (s : State) : (s.raiseSoft k).ifs = s.ifs := rfl
@[simp] theorem State.raiseSoft_iec (k : TrapKind) (s : State) : (s.raiseSoft k).iec = s.iec := rfl
@[simp] theorem State.raiseSoft_ipc (k : TrapKind) (s : State) : (s.raiseSoft k).ipc = s.ipc := rfl
@[simp] theorem State.raiseSoft_disicnt (k : TrapKind) (s : State) :
    (s.raiseSoft k).disicnt = s.disicnt := rfl
@[simp] theorem State.raiseSoft_splim (k : TrapKind) (s : State) : (s.raiseSoft k).splim = s.splim := rfl
@[simp] theorem State.raiseSoft_splimWritten (k : TrapKind) (s : State) :
    (s.raiseSoft k).splimWritten = s.splimWritten := rfl
@[simp] theorem State.raiseSoft_trapr (k : TrapKind) (s : State) : (s.raiseSoft k).trapr = s.trapr := rfl
@[simp] theorem State.raiseSoft_cf (k : TrapKind) (s : State) : (s.raiseSoft k).cf = s.cf := rfl
@[simp] theorem State.raiseSoft_accA (k : TrapKind) (s : State) : (s.raiseSoft k).accA = s.accA := rfl
@[simp] theorem State.raiseSoft_accB (k : TrapKind) (s : State) : (s.raiseSoft k).accB = s.accB := rfl
@[simp] theorem State.raiseSoft_mem (k : TrapKind) (s : State) : (s.raiseSoft k).mem = s.mem := rfl
@[simp] theorem State.raiseSoft_prog (k : TrapKind) (s : State) : (s.raiseSoft k).prog = s.prog := rfl
@[simp] theorem State.raiseSoft_power (k : TrapKind) (s : State) : (s.raiseSoft k).power = s.power := rfl
@[simp] theorem State.raiseSoft_pins (k : TrapKind) (s : State) : (s.raiseSoft k).pins = s.pins := rfl
@[simp] theorem State.raiseSoft_softSkid (k : TrapKind) (s : State) :
    (s.raiseSoft k).softSkid = Config.softSkid s.draws := rfl
@[simp] theorem State.raiseSoft_events (k : TrapKind) (s : State) : (s.raiseSoft k).events = s.events := rfl
@[simp] theorem State.raiseSoft_timing (k : TrapKind) (s : State) : (s.raiseSoft k).timing = s.timing := rfl
@[simp] theorem State.raiseSoft_dev (k : TrapKind) (s : State) : (s.raiseSoft k).dev = s.dev := rfl
@[simp] theorem State.raiseSoft_turns (k : TrapKind) (s : State) : (s.raiseSoft k).turns = s.turns := rfl
@[simp] theorem State.raiseSoft_result (k : TrapKind) (s : State) : (s.raiseSoft k).result = s.result := rfl
@[simp] theorem State.raiseSoft_lateEntry (k : TrapKind) (s : State) :
    (s.raiseSoft k).lateEntry = s.lateEntry := rfl
@[simp] theorem State.raiseSoft_inert (k : TrapKind) (s : State) :
    (s.raiseSoft k).inert = setBit s.inert k.flagBit false := rfl
@[simp] theorem State.raiseSoft_memEpoch (k : TrapKind) (s : State) :
    (s.raiseSoft k).memEpoch = s.memEpoch := rfl
@[simp] theorem State.raiseSoft_race (k : TrapKind) (s : State) : (s.raiseSoft k).race = s.race := rfl
@[simp] theorem State.raiseSoft_dataWrite (k : TrapKind) (s : State) :
    (s.raiseSoft k).dataWrite = s.dataWrite := rfl
@[simp] theorem State.raiseSoft_draws (k : TrapKind) (s : State) : (s.raiseSoft k).draws = s.draws + 1 := rfl

/-! ## `State.raiseMath` -/

@[simp] theorem State.raiseMath_pc (bit : Nat) (s : State) : (s.raiseMath bit).pc = s.pc := rfl
@[simp] theorem State.raiseMath_w (bit : Nat) (s : State) : (s.raiseMath bit).w = s.w := rfl
@[simp] theorem State.raiseMath_w15 (bit : Nat) (s : State) : (s.raiseMath bit).w15 = s.w15 := rfl
@[simp] theorem State.raiseMath_srh (bit : Nat) (s : State) : (s.raiseMath bit).srh = s.srh := rfl
@[simp] theorem State.raiseMath_ipl (bit : Nat) (s : State) : (s.raiseMath bit).ipl = s.ipl := rfl
@[simp] theorem State.raiseMath_flags (bit : Nat) (s : State) : (s.raiseMath bit).flags = s.flags := rfl
@[simp] theorem State.raiseMath_corcon (bit : Nat) (s : State) : (s.raiseMath bit).corcon = s.corcon := rfl
@[simp] theorem State.raiseMath_intcon1 (bit : Nat) (s : State) :
    (s.raiseMath bit).intcon1 = setBit (setBit s.intcon1 bit true) 4 true := rfl
@[simp] theorem State.raiseMath_intcon2 (bit : Nat) (s : State) : (s.raiseMath bit).intcon2 = s.intcon2 := rfl
@[simp] theorem State.raiseMath_inttreg (bit : Nat) (s : State) : (s.raiseMath bit).inttreg = s.inttreg := rfl
@[simp] theorem State.raiseMath_ifs (bit : Nat) (s : State) : (s.raiseMath bit).ifs = s.ifs := rfl
@[simp] theorem State.raiseMath_iec (bit : Nat) (s : State) : (s.raiseMath bit).iec = s.iec := rfl
@[simp] theorem State.raiseMath_ipc (bit : Nat) (s : State) : (s.raiseMath bit).ipc = s.ipc := rfl
@[simp] theorem State.raiseMath_disicnt (bit : Nat) (s : State) : (s.raiseMath bit).disicnt = s.disicnt := rfl
@[simp] theorem State.raiseMath_splim (bit : Nat) (s : State) : (s.raiseMath bit).splim = s.splim := rfl
@[simp] theorem State.raiseMath_splimWritten (bit : Nat) (s : State) :
    (s.raiseMath bit).splimWritten = s.splimWritten := rfl
@[simp] theorem State.raiseMath_trapr (bit : Nat) (s : State) : (s.raiseMath bit).trapr = s.trapr := rfl
@[simp] theorem State.raiseMath_cf (bit : Nat) (s : State) : (s.raiseMath bit).cf = s.cf := rfl
@[simp] theorem State.raiseMath_accA (bit : Nat) (s : State) : (s.raiseMath bit).accA = s.accA := rfl
@[simp] theorem State.raiseMath_accB (bit : Nat) (s : State) : (s.raiseMath bit).accB = s.accB := rfl
@[simp] theorem State.raiseMath_mem (bit : Nat) (s : State) : (s.raiseMath bit).mem = s.mem := rfl
@[simp] theorem State.raiseMath_prog (bit : Nat) (s : State) : (s.raiseMath bit).prog = s.prog := rfl
@[simp] theorem State.raiseMath_power (bit : Nat) (s : State) : (s.raiseMath bit).power = s.power := rfl
@[simp] theorem State.raiseMath_pins (bit : Nat) (s : State) : (s.raiseMath bit).pins = s.pins := rfl
@[simp] theorem State.raiseMath_softSkid (bit : Nat) (s : State) :
    (s.raiseMath bit).softSkid = Config.softSkid s.draws := rfl
@[simp] theorem State.raiseMath_events (bit : Nat) (s : State) : (s.raiseMath bit).events = s.events := rfl
@[simp] theorem State.raiseMath_timing (bit : Nat) (s : State) : (s.raiseMath bit).timing = s.timing := rfl
@[simp] theorem State.raiseMath_dev (bit : Nat) (s : State) : (s.raiseMath bit).dev = s.dev := rfl
@[simp] theorem State.raiseMath_turns (bit : Nat) (s : State) : (s.raiseMath bit).turns = s.turns := rfl
@[simp] theorem State.raiseMath_result (bit : Nat) (s : State) : (s.raiseMath bit).result = s.result := rfl
@[simp] theorem State.raiseMath_lateEntry (bit : Nat) (s : State) :
    (s.raiseMath bit).lateEntry = s.lateEntry := rfl
@[simp] theorem State.raiseMath_inert (bit : Nat) (s : State) :
    (s.raiseMath bit).inert = setBit s.inert 4 false := rfl
@[simp] theorem State.raiseMath_memEpoch (bit : Nat) (s : State) :
    (s.raiseMath bit).memEpoch = s.memEpoch := rfl
@[simp] theorem State.raiseMath_race (bit : Nat) (s : State) : (s.raiseMath bit).race = s.race := rfl
@[simp] theorem State.raiseMath_dataWrite (bit : Nat) (s : State) :
    (s.raiseMath bit).dataWrite = s.dataWrite := rfl
@[simp] theorem State.raiseMath_draws (bit : Nat) (s : State) : (s.raiseMath bit).draws = s.draws + 1 := rfl

/-! ## `State.putByte` -/

@[simp] theorem State.putByte_pc (a : Nat) (v : Byte) (s : State) : (s.putByte a v).pc = s.pc := rfl
@[simp] theorem State.putByte_w (a : Nat) (v : Byte) (s : State) : (s.putByte a v).w = s.w := rfl
@[simp] theorem State.putByte_w15 (a : Nat) (v : Byte) (s : State) : (s.putByte a v).w15 = s.w15 := rfl
@[simp] theorem State.putByte_srh (a : Nat) (v : Byte) (s : State) : (s.putByte a v).srh = s.srh := rfl
@[simp] theorem State.putByte_ipl (a : Nat) (v : Byte) (s : State) : (s.putByte a v).ipl = s.ipl := rfl
@[simp] theorem State.putByte_flags (a : Nat) (v : Byte) (s : State) : (s.putByte a v).flags = s.flags := rfl
@[simp] theorem State.putByte_corcon (a : Nat) (v : Byte) (s : State) :
    (s.putByte a v).corcon = s.corcon := rfl
@[simp] theorem State.putByte_intcon1 (a : Nat) (v : Byte) (s : State) :
    (s.putByte a v).intcon1 = s.intcon1 := rfl
@[simp] theorem State.putByte_intcon2 (a : Nat) (v : Byte) (s : State) :
    (s.putByte a v).intcon2 = s.intcon2 := rfl
@[simp] theorem State.putByte_inttreg (a : Nat) (v : Byte) (s : State) :
    (s.putByte a v).inttreg = s.inttreg := rfl
@[simp] theorem State.putByte_ifs (a : Nat) (v : Byte) (s : State) : (s.putByte a v).ifs = s.ifs := rfl
@[simp] theorem State.putByte_iec (a : Nat) (v : Byte) (s : State) : (s.putByte a v).iec = s.iec := rfl
@[simp] theorem State.putByte_ipc (a : Nat) (v : Byte) (s : State) : (s.putByte a v).ipc = s.ipc := rfl
@[simp] theorem State.putByte_disicnt (a : Nat) (v : Byte) (s : State) :
    (s.putByte a v).disicnt = s.disicnt := rfl
@[simp] theorem State.putByte_splim (a : Nat) (v : Byte) (s : State) : (s.putByte a v).splim = s.splim := rfl
@[simp] theorem State.putByte_splimWritten (a : Nat) (v : Byte) (s : State) :
    (s.putByte a v).splimWritten = s.splimWritten := rfl
@[simp] theorem State.putByte_trapr (a : Nat) (v : Byte) (s : State) : (s.putByte a v).trapr = s.trapr := rfl
@[simp] theorem State.putByte_cf (a : Nat) (v : Byte) (s : State) : (s.putByte a v).cf = s.cf := rfl
@[simp] theorem State.putByte_accA (a : Nat) (v : Byte) (s : State) : (s.putByte a v).accA = s.accA := rfl
@[simp] theorem State.putByte_accB (a : Nat) (v : Byte) (s : State) : (s.putByte a v).accB = s.accB := rfl
@[simp] theorem State.putByte_mem (a : Nat) (v : Byte) (s : State) :
    (s.putByte a v).mem = memPut s.mem a v := rfl
@[simp] theorem State.putByte_prog (a : Nat) (v : Byte) (s : State) : (s.putByte a v).prog = s.prog := rfl
@[simp] theorem State.putByte_power (a : Nat) (v : Byte) (s : State) : (s.putByte a v).power = s.power := rfl
@[simp] theorem State.putByte_pins (a : Nat) (v : Byte) (s : State) : (s.putByte a v).pins = s.pins := rfl
@[simp] theorem State.putByte_softSkid (a : Nat) (v : Byte) (s : State) :
    (s.putByte a v).softSkid = s.softSkid := rfl
@[simp] theorem State.putByte_events (a : Nat) (v : Byte) (s : State) :
    (s.putByte a v).events = s.events := rfl
@[simp] theorem State.putByte_timing (a : Nat) (v : Byte) (s : State) :
    (s.putByte a v).timing = s.timing := rfl
@[simp] theorem State.putByte_dev (a : Nat) (v : Byte) (s : State) : (s.putByte a v).dev = s.dev := rfl
@[simp] theorem State.putByte_turns (a : Nat) (v : Byte) (s : State) : (s.putByte a v).turns = s.turns := rfl
@[simp] theorem State.putByte_result (a : Nat) (v : Byte) (s : State) :
    (s.putByte a v).result = s.result := rfl
@[simp] theorem State.putByte_lateEntry (a : Nat) (v : Byte) (s : State) :
    (s.putByte a v).lateEntry = s.lateEntry := rfl
@[simp] theorem State.putByte_inert (a : Nat) (v : Byte) (s : State) : (s.putByte a v).inert = s.inert := rfl
@[simp] theorem State.putByte_memEpoch (a : Nat) (v : Byte) (s : State) :
    (s.putByte a v).memEpoch = s.memEpoch := rfl
@[simp] theorem State.putByte_race (a : Nat) (v : Byte) (s : State) : (s.putByte a v).race = s.race := rfl
@[simp] theorem State.putByte_dataWrite (a : Nat) (v : Byte) (s : State) :
    (s.putByte a v).dataWrite = true := rfl
@[simp] theorem State.putByte_draws (a : Nat) (v : Byte) (s : State) : (s.putByte a v).draws = s.draws := rfl

/-! ## `State.putWord` -/

@[simp] theorem State.putWord_pc (a : Nat) (v : Word) (s : State) : (s.putWord a v).pc = s.pc := rfl
@[simp] theorem State.putWord_w (a : Nat) (v : Word) (s : State) : (s.putWord a v).w = s.w := rfl
@[simp] theorem State.putWord_w15 (a : Nat) (v : Word) (s : State) : (s.putWord a v).w15 = s.w15 := rfl
@[simp] theorem State.putWord_srh (a : Nat) (v : Word) (s : State) : (s.putWord a v).srh = s.srh := rfl
@[simp] theorem State.putWord_ipl (a : Nat) (v : Word) (s : State) : (s.putWord a v).ipl = s.ipl := rfl
@[simp] theorem State.putWord_flags (a : Nat) (v : Word) (s : State) : (s.putWord a v).flags = s.flags := rfl
@[simp] theorem State.putWord_corcon (a : Nat) (v : Word) (s : State) :
    (s.putWord a v).corcon = s.corcon := rfl
@[simp] theorem State.putWord_intcon1 (a : Nat) (v : Word) (s : State) :
    (s.putWord a v).intcon1 = s.intcon1 := rfl
@[simp] theorem State.putWord_intcon2 (a : Nat) (v : Word) (s : State) :
    (s.putWord a v).intcon2 = s.intcon2 := rfl
@[simp] theorem State.putWord_inttreg (a : Nat) (v : Word) (s : State) :
    (s.putWord a v).inttreg = s.inttreg := rfl
@[simp] theorem State.putWord_ifs (a : Nat) (v : Word) (s : State) : (s.putWord a v).ifs = s.ifs := rfl
@[simp] theorem State.putWord_iec (a : Nat) (v : Word) (s : State) : (s.putWord a v).iec = s.iec := rfl
@[simp] theorem State.putWord_ipc (a : Nat) (v : Word) (s : State) : (s.putWord a v).ipc = s.ipc := rfl
@[simp] theorem State.putWord_disicnt (a : Nat) (v : Word) (s : State) :
    (s.putWord a v).disicnt = s.disicnt := rfl
@[simp] theorem State.putWord_splim (a : Nat) (v : Word) (s : State) : (s.putWord a v).splim = s.splim := rfl
@[simp] theorem State.putWord_splimWritten (a : Nat) (v : Word) (s : State) :
    (s.putWord a v).splimWritten = s.splimWritten := rfl
@[simp] theorem State.putWord_trapr (a : Nat) (v : Word) (s : State) : (s.putWord a v).trapr = s.trapr := rfl
@[simp] theorem State.putWord_cf (a : Nat) (v : Word) (s : State) : (s.putWord a v).cf = s.cf := rfl
@[simp] theorem State.putWord_accA (a : Nat) (v : Word) (s : State) : (s.putWord a v).accA = s.accA := rfl
@[simp] theorem State.putWord_accB (a : Nat) (v : Word) (s : State) : (s.putWord a v).accB = s.accB := rfl
@[simp] theorem State.putWord_mem (a : Nat) (v : Word) (s : State) :
    (s.putWord a v).mem = memPut (memPut s.mem a (v.extractLsb' 0 8)) (a + 1) (v.extractLsb' 8 8) := rfl
@[simp] theorem State.putWord_prog (a : Nat) (v : Word) (s : State) : (s.putWord a v).prog = s.prog := rfl
@[simp] theorem State.putWord_power (a : Nat) (v : Word) (s : State) : (s.putWord a v).power = s.power := rfl
@[simp] theorem State.putWord_pins (a : Nat) (v : Word) (s : State) : (s.putWord a v).pins = s.pins := rfl
@[simp] theorem State.putWord_softSkid (a : Nat) (v : Word) (s : State) :
    (s.putWord a v).softSkid = s.softSkid := rfl
@[simp] theorem State.putWord_events (a : Nat) (v : Word) (s : State) :
    (s.putWord a v).events = s.events := rfl
@[simp] theorem State.putWord_timing (a : Nat) (v : Word) (s : State) :
    (s.putWord a v).timing = s.timing := rfl
@[simp] theorem State.putWord_dev (a : Nat) (v : Word) (s : State) : (s.putWord a v).dev = s.dev := rfl
@[simp] theorem State.putWord_turns (a : Nat) (v : Word) (s : State) : (s.putWord a v).turns = s.turns := rfl
@[simp] theorem State.putWord_result (a : Nat) (v : Word) (s : State) :
    (s.putWord a v).result = s.result := rfl
@[simp] theorem State.putWord_lateEntry (a : Nat) (v : Word) (s : State) :
    (s.putWord a v).lateEntry = s.lateEntry := rfl
@[simp] theorem State.putWord_inert (a : Nat) (v : Word) (s : State) : (s.putWord a v).inert = s.inert := rfl
@[simp] theorem State.putWord_memEpoch (a : Nat) (v : Word) (s : State) :
    (s.putWord a v).memEpoch = s.memEpoch := rfl
@[simp] theorem State.putWord_race (a : Nat) (v : Word) (s : State) : (s.putWord a v).race = s.race := rfl
@[simp] theorem State.putWord_dataWrite (a : Nat) (v : Word) (s : State) :
    (s.putWord a v).dataWrite = true := rfl
@[simp] theorem State.putWord_draws (a : Nat) (v : Word) (s : State) : (s.putWord a v).draws = s.draws := rfl

/-! ## `State.writeSr` -/

@[simp] theorem State.writeSr_pc (sel v : Word) (s : State) : (s.writeSr sel v).pc = s.pc := rfl
@[simp] theorem State.writeSr_w (sel v : Word) (s : State) : (s.writeSr sel v).w = s.w := rfl
@[simp] theorem State.writeSr_w15 (sel v : Word) (s : State) : (s.writeSr sel v).w15 = s.w15 := rfl
@[simp] theorem State.writeSr_corcon (sel v : Word) (s : State) : (s.writeSr sel v).corcon = s.corcon := rfl
@[simp] theorem State.writeSr_intcon1 (sel v : Word) (s : State) :
    (s.writeSr sel v).intcon1 = s.intcon1 := rfl
@[simp] theorem State.writeSr_intcon2 (sel v : Word) (s : State) :
    (s.writeSr sel v).intcon2 = s.intcon2 := rfl
@[simp] theorem State.writeSr_inttreg (sel v : Word) (s : State) :
    (s.writeSr sel v).inttreg = s.inttreg := rfl
@[simp] theorem State.writeSr_ifs (sel v : Word) (s : State) : (s.writeSr sel v).ifs = s.ifs := rfl
@[simp] theorem State.writeSr_iec (sel v : Word) (s : State) : (s.writeSr sel v).iec = s.iec := rfl
@[simp] theorem State.writeSr_ipc (sel v : Word) (s : State) : (s.writeSr sel v).ipc = s.ipc := rfl
@[simp] theorem State.writeSr_disicnt (sel v : Word) (s : State) :
    (s.writeSr sel v).disicnt = s.disicnt := rfl
@[simp] theorem State.writeSr_splim (sel v : Word) (s : State) : (s.writeSr sel v).splim = s.splim := rfl
@[simp] theorem State.writeSr_splimWritten (sel v : Word) (s : State) :
    (s.writeSr sel v).splimWritten = s.splimWritten := rfl
@[simp] theorem State.writeSr_trapr (sel v : Word) (s : State) : (s.writeSr sel v).trapr = s.trapr := rfl
@[simp] theorem State.writeSr_cf (sel v : Word) (s : State) : (s.writeSr sel v).cf = s.cf := rfl
@[simp] theorem State.writeSr_accA (sel v : Word) (s : State) : (s.writeSr sel v).accA = s.accA := rfl
@[simp] theorem State.writeSr_accB (sel v : Word) (s : State) : (s.writeSr sel v).accB = s.accB := rfl
@[simp] theorem State.writeSr_mem (sel v : Word) (s : State) : (s.writeSr sel v).mem = s.mem := rfl
@[simp] theorem State.writeSr_prog (sel v : Word) (s : State) : (s.writeSr sel v).prog = s.prog := rfl
@[simp] theorem State.writeSr_power (sel v : Word) (s : State) : (s.writeSr sel v).power = s.power := rfl
@[simp] theorem State.writeSr_pins (sel v : Word) (s : State) : (s.writeSr sel v).pins = s.pins := rfl
@[simp] theorem State.writeSr_softSkid (sel v : Word) (s : State) :
    (s.writeSr sel v).softSkid = s.softSkid := rfl
@[simp] theorem State.writeSr_events (sel v : Word) (s : State) : (s.writeSr sel v).events = s.events := rfl
@[simp] theorem State.writeSr_timing (sel v : Word) (s : State) : (s.writeSr sel v).timing = s.timing := rfl
@[simp] theorem State.writeSr_dev (sel v : Word) (s : State) : (s.writeSr sel v).dev = s.dev := rfl
@[simp] theorem State.writeSr_turns (sel v : Word) (s : State) : (s.writeSr sel v).turns = s.turns := rfl
@[simp] theorem State.writeSr_result (sel v : Word) (s : State) : (s.writeSr sel v).result = s.result := rfl
@[simp] theorem State.writeSr_lateEntry (sel v : Word) (s : State) :
    (s.writeSr sel v).lateEntry = s.lateEntry := rfl
@[simp] theorem State.writeSr_inert (sel v : Word) (s : State) : (s.writeSr sel v).inert = s.inert := rfl
@[simp] theorem State.writeSr_memEpoch (sel v : Word) (s : State) :
    (s.writeSr sel v).memEpoch = s.memEpoch := rfl
@[simp] theorem State.writeSr_race (sel v : Word) (s : State) : (s.writeSr sel v).race = s.race := rfl
@[simp] theorem State.writeSr_dataWrite (sel v : Word) (s : State) :
    (s.writeSr sel v).dataWrite = s.dataWrite := rfl
@[simp] theorem State.writeSr_draws (sel v : Word) (s : State) : (s.writeSr sel v).draws = s.draws := rfl

/-! ## `State.setOverflowStatus` -/

@[simp] theorem State.setOverflowStatus_pc (acc : Acc) (b : Bool) (s : State) :
    (s.setOverflowStatus acc b).pc = s.pc := rfl
@[simp] theorem State.setOverflowStatus_w (acc : Acc) (b : Bool) (s : State) :
    (s.setOverflowStatus acc b).w = s.w := rfl
@[simp] theorem State.setOverflowStatus_w15 (acc : Acc) (b : Bool) (s : State) :
    (s.setOverflowStatus acc b).w15 = s.w15 := rfl
@[simp] theorem State.setOverflowStatus_srh (acc : Acc) (b : Bool) (s : State) :
    (s.setOverflowStatus acc b).srh = setBit s.srh (overflowStatusBit acc) b := rfl
@[simp] theorem State.setOverflowStatus_ipl (acc : Acc) (b : Bool) (s : State) :
    (s.setOverflowStatus acc b).ipl = s.ipl := rfl
@[simp] theorem State.setOverflowStatus_flags (acc : Acc) (b : Bool) (s : State) :
    (s.setOverflowStatus acc b).flags = s.flags := rfl
@[simp] theorem State.setOverflowStatus_corcon (acc : Acc) (b : Bool) (s : State) :
    (s.setOverflowStatus acc b).corcon = s.corcon := rfl
@[simp] theorem State.setOverflowStatus_intcon1 (acc : Acc) (b : Bool) (s : State) :
    (s.setOverflowStatus acc b).intcon1 = s.intcon1 := rfl
@[simp] theorem State.setOverflowStatus_intcon2 (acc : Acc) (b : Bool) (s : State) :
    (s.setOverflowStatus acc b).intcon2 = s.intcon2 := rfl
@[simp] theorem State.setOverflowStatus_inttreg (acc : Acc) (b : Bool) (s : State) :
    (s.setOverflowStatus acc b).inttreg = s.inttreg := rfl
@[simp] theorem State.setOverflowStatus_ifs (acc : Acc) (b : Bool) (s : State) :
    (s.setOverflowStatus acc b).ifs = s.ifs := rfl
@[simp] theorem State.setOverflowStatus_iec (acc : Acc) (b : Bool) (s : State) :
    (s.setOverflowStatus acc b).iec = s.iec := rfl
@[simp] theorem State.setOverflowStatus_ipc (acc : Acc) (b : Bool) (s : State) :
    (s.setOverflowStatus acc b).ipc = s.ipc := rfl
@[simp] theorem State.setOverflowStatus_disicnt (acc : Acc) (b : Bool) (s : State) :
    (s.setOverflowStatus acc b).disicnt = s.disicnt := rfl
@[simp] theorem State.setOverflowStatus_splim (acc : Acc) (b : Bool) (s : State) :
    (s.setOverflowStatus acc b).splim = s.splim := rfl
@[simp] theorem State.setOverflowStatus_splimWritten (acc : Acc) (b : Bool) (s : State) :
    (s.setOverflowStatus acc b).splimWritten = s.splimWritten := rfl
@[simp] theorem State.setOverflowStatus_trapr (acc : Acc) (b : Bool) (s : State) :
    (s.setOverflowStatus acc b).trapr = s.trapr := rfl
@[simp] theorem State.setOverflowStatus_cf (acc : Acc) (b : Bool) (s : State) :
    (s.setOverflowStatus acc b).cf = s.cf := rfl
@[simp] theorem State.setOverflowStatus_accA (acc : Acc) (b : Bool) (s : State) :
    (s.setOverflowStatus acc b).accA = s.accA := rfl
@[simp] theorem State.setOverflowStatus_accB (acc : Acc) (b : Bool) (s : State) :
    (s.setOverflowStatus acc b).accB = s.accB := rfl
@[simp] theorem State.setOverflowStatus_mem (acc : Acc) (b : Bool) (s : State) :
    (s.setOverflowStatus acc b).mem = s.mem := rfl
@[simp] theorem State.setOverflowStatus_prog (acc : Acc) (b : Bool) (s : State) :
    (s.setOverflowStatus acc b).prog = s.prog := rfl
@[simp] theorem State.setOverflowStatus_power (acc : Acc) (b : Bool) (s : State) :
    (s.setOverflowStatus acc b).power = s.power := rfl
@[simp] theorem State.setOverflowStatus_pins (acc : Acc) (b : Bool) (s : State) :
    (s.setOverflowStatus acc b).pins = s.pins := rfl
@[simp] theorem State.setOverflowStatus_softSkid (acc : Acc) (b : Bool) (s : State) :
    (s.setOverflowStatus acc b).softSkid = s.softSkid := rfl
@[simp] theorem State.setOverflowStatus_events (acc : Acc) (b : Bool) (s : State) :
    (s.setOverflowStatus acc b).events = s.events := rfl
@[simp] theorem State.setOverflowStatus_timing (acc : Acc) (b : Bool) (s : State) :
    (s.setOverflowStatus acc b).timing = s.timing := rfl
@[simp] theorem State.setOverflowStatus_dev (acc : Acc) (b : Bool) (s : State) :
    (s.setOverflowStatus acc b).dev = s.dev := rfl
@[simp] theorem State.setOverflowStatus_turns (acc : Acc) (b : Bool) (s : State) :
    (s.setOverflowStatus acc b).turns = s.turns := rfl
@[simp] theorem State.setOverflowStatus_result (acc : Acc) (b : Bool) (s : State) :
    (s.setOverflowStatus acc b).result = s.result := rfl
@[simp] theorem State.setOverflowStatus_lateEntry (acc : Acc) (b : Bool) (s : State) :
    (s.setOverflowStatus acc b).lateEntry = s.lateEntry := rfl
@[simp] theorem State.setOverflowStatus_inert (acc : Acc) (b : Bool) (s : State) :
    (s.setOverflowStatus acc b).inert = s.inert := rfl
@[simp] theorem State.setOverflowStatus_memEpoch (acc : Acc) (b : Bool) (s : State) :
    (s.setOverflowStatus acc b).memEpoch = s.memEpoch := rfl
@[simp] theorem State.setOverflowStatus_race (acc : Acc) (b : Bool) (s : State) :
    (s.setOverflowStatus acc b).race = s.race := rfl
@[simp] theorem State.setOverflowStatus_dataWrite (acc : Acc) (b : Bool) (s : State) :
    (s.setOverflowStatus acc b).dataWrite = s.dataWrite := rfl
@[simp] theorem State.setOverflowStatus_draws (acc : Acc) (b : Bool) (s : State) :
    (s.setOverflowStatus acc b).draws = s.draws := rfl

/-! ## `State.orSrlFlags` -/

@[simp] theorem State.orSrlFlags_pc (v : Byte) (s : State) : (s.orSrlFlags v).pc = s.pc := rfl
@[simp] theorem State.orSrlFlags_w (v : Byte) (s : State) : (s.orSrlFlags v).w = s.w := rfl
@[simp] theorem State.orSrlFlags_w15 (v : Byte) (s : State) : (s.orSrlFlags v).w15 = s.w15 := rfl
@[simp] theorem State.orSrlFlags_srh (v : Byte) (s : State) : (s.orSrlFlags v).srh = s.srh := rfl
@[simp] theorem State.orSrlFlags_ipl (v : Byte) (s : State) :
    (s.orSrlFlags v).ipl = if s.nstdis then s.ipl else s.ipl ||| v.extractLsb' 5 3 := rfl
@[simp] theorem State.orSrlFlags_corcon (v : Byte) (s : State) : (s.orSrlFlags v).corcon = s.corcon := rfl
@[simp] theorem State.orSrlFlags_intcon1 (v : Byte) (s : State) : (s.orSrlFlags v).intcon1 = s.intcon1 := rfl
@[simp] theorem State.orSrlFlags_intcon2 (v : Byte) (s : State) : (s.orSrlFlags v).intcon2 = s.intcon2 := rfl
@[simp] theorem State.orSrlFlags_inttreg (v : Byte) (s : State) : (s.orSrlFlags v).inttreg = s.inttreg := rfl
@[simp] theorem State.orSrlFlags_ifs (v : Byte) (s : State) : (s.orSrlFlags v).ifs = s.ifs := rfl
@[simp] theorem State.orSrlFlags_iec (v : Byte) (s : State) : (s.orSrlFlags v).iec = s.iec := rfl
@[simp] theorem State.orSrlFlags_ipc (v : Byte) (s : State) : (s.orSrlFlags v).ipc = s.ipc := rfl
@[simp] theorem State.orSrlFlags_disicnt (v : Byte) (s : State) : (s.orSrlFlags v).disicnt = s.disicnt := rfl
@[simp] theorem State.orSrlFlags_splim (v : Byte) (s : State) : (s.orSrlFlags v).splim = s.splim := rfl
@[simp] theorem State.orSrlFlags_splimWritten (v : Byte) (s : State) :
    (s.orSrlFlags v).splimWritten = s.splimWritten := rfl
@[simp] theorem State.orSrlFlags_trapr (v : Byte) (s : State) : (s.orSrlFlags v).trapr = s.trapr := rfl
@[simp] theorem State.orSrlFlags_cf (v : Byte) (s : State) : (s.orSrlFlags v).cf = s.cf := rfl
@[simp] theorem State.orSrlFlags_accA (v : Byte) (s : State) : (s.orSrlFlags v).accA = s.accA := rfl
@[simp] theorem State.orSrlFlags_accB (v : Byte) (s : State) : (s.orSrlFlags v).accB = s.accB := rfl
@[simp] theorem State.orSrlFlags_mem (v : Byte) (s : State) : (s.orSrlFlags v).mem = s.mem := rfl
@[simp] theorem State.orSrlFlags_prog (v : Byte) (s : State) : (s.orSrlFlags v).prog = s.prog := rfl
@[simp] theorem State.orSrlFlags_power (v : Byte) (s : State) : (s.orSrlFlags v).power = s.power := rfl
@[simp] theorem State.orSrlFlags_pins (v : Byte) (s : State) : (s.orSrlFlags v).pins = s.pins := rfl
@[simp] theorem State.orSrlFlags_softSkid (v : Byte) (s : State) :
    (s.orSrlFlags v).softSkid = s.softSkid := rfl
@[simp] theorem State.orSrlFlags_events (v : Byte) (s : State) : (s.orSrlFlags v).events = s.events := rfl
@[simp] theorem State.orSrlFlags_timing (v : Byte) (s : State) : (s.orSrlFlags v).timing = s.timing := rfl
@[simp] theorem State.orSrlFlags_dev (v : Byte) (s : State) : (s.orSrlFlags v).dev = s.dev := rfl
@[simp] theorem State.orSrlFlags_turns (v : Byte) (s : State) : (s.orSrlFlags v).turns = s.turns := rfl
@[simp] theorem State.orSrlFlags_result (v : Byte) (s : State) : (s.orSrlFlags v).result = s.result := rfl
@[simp] theorem State.orSrlFlags_lateEntry (v : Byte) (s : State) :
    (s.orSrlFlags v).lateEntry = s.lateEntry := rfl
@[simp] theorem State.orSrlFlags_inert (v : Byte) (s : State) : (s.orSrlFlags v).inert = s.inert := rfl
@[simp] theorem State.orSrlFlags_memEpoch (v : Byte) (s : State) :
    (s.orSrlFlags v).memEpoch = s.memEpoch := rfl
@[simp] theorem State.orSrlFlags_race (v : Byte) (s : State) : (s.orSrlFlags v).race = s.race := rfl
@[simp] theorem State.orSrlFlags_dataWrite (v : Byte) (s : State) : (s.orSrlFlags v).dataWrite = true := rfl
@[simp] theorem State.orSrlFlags_draws (v : Byte) (s : State) : (s.orSrlFlags v).draws = s.draws + 1 := rfl

/-! ## `State.writeIpc` -/

@[simp] theorem State.writeIpc_pc (i : Fin 20) (sel v : Word) (s : State) :
    (s.writeIpc i sel v).pc = s.pc := rfl
@[simp] theorem State.writeIpc_w (i : Fin 20) (sel v : Word) (s : State) : (s.writeIpc i sel v).w = s.w := rfl
@[simp] theorem State.writeIpc_w15 (i : Fin 20) (sel v : Word) (s : State) :
    (s.writeIpc i sel v).w15 = s.w15 := rfl
@[simp] theorem State.writeIpc_srh (i : Fin 20) (sel v : Word) (s : State) :
    (s.writeIpc i sel v).srh = s.srh := rfl
@[simp] theorem State.writeIpc_ipl (i : Fin 20) (sel v : Word) (s : State) :
    (s.writeIpc i sel v).ipl = s.ipl := rfl
@[simp] theorem State.writeIpc_flags (i : Fin 20) (sel v : Word) (s : State) :
    (s.writeIpc i sel v).flags = s.flags := rfl
@[simp] theorem State.writeIpc_corcon (i : Fin 20) (sel v : Word) (s : State) :
    (s.writeIpc i sel v).corcon = s.corcon := rfl
@[simp] theorem State.writeIpc_intcon1 (i : Fin 20) (sel v : Word) (s : State) :
    (s.writeIpc i sel v).intcon1 = s.intcon1 := rfl
@[simp] theorem State.writeIpc_intcon2 (i : Fin 20) (sel v : Word) (s : State) :
    (s.writeIpc i sel v).intcon2 = s.intcon2 := rfl
@[simp] theorem State.writeIpc_inttreg (i : Fin 20) (sel v : Word) (s : State) :
    (s.writeIpc i sel v).inttreg = s.inttreg := rfl
@[simp] theorem State.writeIpc_ifs (i : Fin 20) (sel v : Word) (s : State) :
    (s.writeIpc i sel v).ifs = s.ifs := rfl
@[simp] theorem State.writeIpc_iec (i : Fin 20) (sel v : Word) (s : State) :
    (s.writeIpc i sel v).iec = s.iec := rfl
@[simp] theorem State.writeIpc_disicnt (i : Fin 20) (sel v : Word) (s : State) :
    (s.writeIpc i sel v).disicnt = s.disicnt := rfl
@[simp] theorem State.writeIpc_splim (i : Fin 20) (sel v : Word) (s : State) :
    (s.writeIpc i sel v).splim = s.splim := rfl
@[simp] theorem State.writeIpc_splimWritten (i : Fin 20) (sel v : Word) (s : State) :
    (s.writeIpc i sel v).splimWritten = s.splimWritten := rfl
@[simp] theorem State.writeIpc_trapr (i : Fin 20) (sel v : Word) (s : State) :
    (s.writeIpc i sel v).trapr = s.trapr := rfl
@[simp] theorem State.writeIpc_cf (i : Fin 20) (sel v : Word) (s : State) :
    (s.writeIpc i sel v).cf = s.cf := rfl
@[simp] theorem State.writeIpc_accA (i : Fin 20) (sel v : Word) (s : State) :
    (s.writeIpc i sel v).accA = s.accA := rfl
@[simp] theorem State.writeIpc_accB (i : Fin 20) (sel v : Word) (s : State) :
    (s.writeIpc i sel v).accB = s.accB := rfl
@[simp] theorem State.writeIpc_mem (i : Fin 20) (sel v : Word) (s : State) :
    (s.writeIpc i sel v).mem = s.mem := rfl
@[simp] theorem State.writeIpc_prog (i : Fin 20) (sel v : Word) (s : State) :
    (s.writeIpc i sel v).prog = s.prog := rfl
@[simp] theorem State.writeIpc_power (i : Fin 20) (sel v : Word) (s : State) :
    (s.writeIpc i sel v).power = s.power := rfl
@[simp] theorem State.writeIpc_pins (i : Fin 20) (sel v : Word) (s : State) :
    (s.writeIpc i sel v).pins = s.pins := rfl
@[simp] theorem State.writeIpc_softSkid (i : Fin 20) (sel v : Word) (s : State) :
    (s.writeIpc i sel v).softSkid = s.softSkid := rfl
@[simp] theorem State.writeIpc_events (i : Fin 20) (sel v : Word) (s : State) :
    (s.writeIpc i sel v).events = s.events := rfl
@[simp] theorem State.writeIpc_timing (i : Fin 20) (sel v : Word) (s : State) :
    (s.writeIpc i sel v).timing = s.timing := rfl
@[simp] theorem State.writeIpc_dev (i : Fin 20) (sel v : Word) (s : State) :
    (s.writeIpc i sel v).dev = s.dev := rfl
@[simp] theorem State.writeIpc_turns (i : Fin 20) (sel v : Word) (s : State) :
    (s.writeIpc i sel v).turns = s.turns := rfl
@[simp] theorem State.writeIpc_result (i : Fin 20) (sel v : Word) (s : State) :
    (s.writeIpc i sel v).result = s.result := rfl
@[simp] theorem State.writeIpc_lateEntry (i : Fin 20) (sel v : Word) (s : State) :
    (s.writeIpc i sel v).lateEntry = s.lateEntry := rfl
@[simp] theorem State.writeIpc_inert (i : Fin 20) (sel v : Word) (s : State) :
    (s.writeIpc i sel v).inert = s.inert := rfl
@[simp] theorem State.writeIpc_memEpoch (i : Fin 20) (sel v : Word) (s : State) :
    (s.writeIpc i sel v).memEpoch = s.memEpoch := rfl
@[simp] theorem State.writeIpc_dataWrite (i : Fin 20) (sel v : Word) (s : State) :
    (s.writeIpc i sel v).dataWrite = s.dataWrite := rfl
@[simp] theorem State.writeIpc_draws (i : Fin 20) (sel v : Word) (s : State) :
    (s.writeIpc i sel v).draws = s.draws + 1 := rfl

/-! ## `State.drawDivide` -/

@[simp] theorem State.drawDivide_pc (s : State) : s.drawDivide.pc = s.pc := rfl
@[simp] theorem State.drawDivide_w15 (s : State) : s.drawDivide.w15 = s.w15 := rfl
@[simp] theorem State.drawDivide_srh (s : State) : s.drawDivide.srh = s.srh := rfl
@[simp] theorem State.drawDivide_ipl (s : State) : s.drawDivide.ipl = s.ipl := rfl
@[simp] theorem State.drawDivide_corcon (s : State) : s.drawDivide.corcon = s.corcon := rfl
@[simp] theorem State.drawDivide_intcon1 (s : State) : s.drawDivide.intcon1 = s.intcon1 := rfl
@[simp] theorem State.drawDivide_intcon2 (s : State) : s.drawDivide.intcon2 = s.intcon2 := rfl
@[simp] theorem State.drawDivide_inttreg (s : State) : s.drawDivide.inttreg = s.inttreg := rfl
@[simp] theorem State.drawDivide_ifs (s : State) : s.drawDivide.ifs = s.ifs := rfl
@[simp] theorem State.drawDivide_iec (s : State) : s.drawDivide.iec = s.iec := rfl
@[simp] theorem State.drawDivide_ipc (s : State) : s.drawDivide.ipc = s.ipc := rfl
@[simp] theorem State.drawDivide_disicnt (s : State) : s.drawDivide.disicnt = s.disicnt := rfl
@[simp] theorem State.drawDivide_splim (s : State) : s.drawDivide.splim = s.splim := rfl
@[simp] theorem State.drawDivide_splimWritten (s : State) : s.drawDivide.splimWritten = s.splimWritten := rfl
@[simp] theorem State.drawDivide_trapr (s : State) : s.drawDivide.trapr = s.trapr := rfl
@[simp] theorem State.drawDivide_cf (s : State) : s.drawDivide.cf = s.cf := rfl
@[simp] theorem State.drawDivide_accA (s : State) : s.drawDivide.accA = s.accA := rfl
@[simp] theorem State.drawDivide_accB (s : State) : s.drawDivide.accB = s.accB := rfl
@[simp] theorem State.drawDivide_mem (s : State) : s.drawDivide.mem = s.mem := rfl
@[simp] theorem State.drawDivide_prog (s : State) : s.drawDivide.prog = s.prog := rfl
@[simp] theorem State.drawDivide_power (s : State) : s.drawDivide.power = s.power := rfl
@[simp] theorem State.drawDivide_pins (s : State) : s.drawDivide.pins = s.pins := rfl
@[simp] theorem State.drawDivide_softSkid (s : State) : s.drawDivide.softSkid = s.softSkid := rfl
@[simp] theorem State.drawDivide_events (s : State) : s.drawDivide.events = s.events := rfl
@[simp] theorem State.drawDivide_timing (s : State) : s.drawDivide.timing = s.timing := rfl
@[simp] theorem State.drawDivide_dev (s : State) : s.drawDivide.dev = s.dev := rfl
@[simp] theorem State.drawDivide_turns (s : State) : s.drawDivide.turns = s.turns := rfl
@[simp] theorem State.drawDivide_result (s : State) : s.drawDivide.result = s.result := rfl
@[simp] theorem State.drawDivide_lateEntry (s : State) : s.drawDivide.lateEntry = s.lateEntry := rfl
@[simp] theorem State.drawDivide_inert (s : State) : s.drawDivide.inert = s.inert := rfl
@[simp] theorem State.drawDivide_memEpoch (s : State) : s.drawDivide.memEpoch = s.memEpoch := rfl
@[simp] theorem State.drawDivide_race (s : State) : s.drawDivide.race = s.race := rfl
@[simp] theorem State.drawDivide_dataWrite (s : State) : s.drawDivide.dataWrite = s.dataWrite := rfl
@[simp] theorem State.drawDivide_draws (s : State) : s.drawDivide.draws = s.draws + 1 := rfl

/-! ## `State.drawOther` -/

@[simp] theorem State.drawOther_pc (inhibit : Bool) (s : State) : (s.drawOther inhibit).pc = s.pc := rfl
@[simp] theorem State.drawOther_ipl (inhibit : Bool) (s : State) : (s.drawOther inhibit).ipl = s.ipl := rfl
@[simp] theorem State.drawOther_corcon (inhibit : Bool) (s : State) :
    (s.drawOther inhibit).corcon = s.corcon := rfl
@[simp] theorem State.drawOther_intcon1 (inhibit : Bool) (s : State) :
    (s.drawOther inhibit).intcon1 = s.intcon1 := rfl
@[simp] theorem State.drawOther_intcon2 (inhibit : Bool) (s : State) :
    (s.drawOther inhibit).intcon2 = s.intcon2 := rfl
@[simp] theorem State.drawOther_inttreg (inhibit : Bool) (s : State) :
    (s.drawOther inhibit).inttreg = s.inttreg := rfl
@[simp] theorem State.drawOther_ifs (inhibit : Bool) (s : State) : (s.drawOther inhibit).ifs = s.ifs := rfl
@[simp] theorem State.drawOther_iec (inhibit : Bool) (s : State) : (s.drawOther inhibit).iec = s.iec := rfl
@[simp] theorem State.drawOther_ipc (inhibit : Bool) (s : State) : (s.drawOther inhibit).ipc = s.ipc := rfl
@[simp] theorem State.drawOther_disicnt (inhibit : Bool) (s : State) :
    (s.drawOther inhibit).disicnt = s.disicnt := rfl
@[simp] theorem State.drawOther_splim (inhibit : Bool) (s : State) :
    (s.drawOther inhibit).splim = s.splim := rfl
@[simp] theorem State.drawOther_splimWritten (inhibit : Bool) (s : State) :
    (s.drawOther inhibit).splimWritten = s.splimWritten := rfl
@[simp] theorem State.drawOther_trapr (inhibit : Bool) (s : State) :
    (s.drawOther inhibit).trapr = s.trapr := rfl
@[simp] theorem State.drawOther_cf (inhibit : Bool) (s : State) : (s.drawOther inhibit).cf = s.cf := rfl
@[simp] theorem State.drawOther_mem (inhibit : Bool) (s : State) :
    (s.drawOther inhibit).mem = if inhibit then s.mem else [] := rfl
@[simp] theorem State.drawOther_prog (inhibit : Bool) (s : State) : (s.drawOther inhibit).prog = s.prog := rfl
@[simp] theorem State.drawOther_power (inhibit : Bool) (s : State) :
    (s.drawOther inhibit).power = s.power := rfl
@[simp] theorem State.drawOther_pins (inhibit : Bool) (s : State) : (s.drawOther inhibit).pins = s.pins := rfl
@[simp] theorem State.drawOther_softSkid (inhibit : Bool) (s : State) :
    (s.drawOther inhibit).softSkid = s.softSkid := rfl
@[simp] theorem State.drawOther_events (inhibit : Bool) (s : State) :
    (s.drawOther inhibit).events = s.events := rfl
@[simp] theorem State.drawOther_timing (inhibit : Bool) (s : State) :
    (s.drawOther inhibit).timing = s.timing := rfl
@[simp] theorem State.drawOther_dev (inhibit : Bool) (s : State) : (s.drawOther inhibit).dev = s.dev := rfl
@[simp] theorem State.drawOther_turns (inhibit : Bool) (s : State) :
    (s.drawOther inhibit).turns = s.turns := rfl
@[simp] theorem State.drawOther_result (inhibit : Bool) (s : State) :
    (s.drawOther inhibit).result = s.result := rfl
@[simp] theorem State.drawOther_lateEntry (inhibit : Bool) (s : State) :
    (s.drawOther inhibit).lateEntry = s.lateEntry := rfl
@[simp] theorem State.drawOther_inert (inhibit : Bool) (s : State) :
    (s.drawOther inhibit).inert = s.inert := rfl
@[simp] theorem State.drawOther_memEpoch (inhibit : Bool) (s : State) :
    (s.drawOther inhibit).memEpoch = if inhibit then s.memEpoch else s.draws := rfl
@[simp] theorem State.drawOther_race (inhibit : Bool) (s : State) : (s.drawOther inhibit).race = s.race := rfl
@[simp] theorem State.drawOther_dataWrite (inhibit : Bool) (s : State) :
    (s.drawOther inhibit).dataWrite = (s.dataWrite || !inhibit) := rfl
@[simp] theorem State.drawOther_draws (inhibit : Bool) (s : State) :
    (s.drawOther inhibit).draws = s.draws + 1 := rfl

/-! ## `Eff` -/

@[simp] theorem State.eff_st (s : State) : s.eff.st = s := rfl
@[simp] theorem State.eff_addr (s : State) : s.eff.addr = false := rfl
@[simp] theorem State.eff_swAddr (s : State) : s.eff.swAddr = false := rfl
@[simp] theorem State.eff_swOsc (s : State) : s.eff.swOsc = false := rfl
@[simp] theorem State.eff_stk (s : State) : s.eff.stk = false := rfl
@[simp] theorem Eff.map_addr (f : State → State) (e : Eff) : (e.map f).addr = e.addr := rfl
@[simp] theorem Eff.map_swAddr (f : State → State) (e : Eff) : (e.map f).swAddr = e.swAddr := rfl
@[simp] theorem Eff.map_swOsc (f : State → State) (e : Eff) : (e.map f).swOsc = e.swOsc := rfl
@[simp] theorem Eff.map_stk (f : State → State) (e : Eff) : (e.map f).stk = e.stk := rfl
@[simp] theorem Eff.map_st (f : State → State) (e : Eff) : (e.map f).st = f e.st := rfl
@[simp] theorem Eff.map_map (f g : State → State) (e : Eff) : (e.map f).map g = e.map fun s => g (f s) := rfl

end Sys2Proof.Machine
end

