-- ==== Sys2Proof/Laws/Memory.lean ====
section
/-! SUPPORT. Data memory: a read after a write, the bytes a write leaves alone, and the canonical form, which
every memory operation keeps. -/

namespace Sys2Proof.Machine

/-! ## The canonical form -/

theorem Memory.wf_memPut {α : Type} (m : List (Nat × α)) (a : Nat) (v : α) (h : Memory.wf m = true) :
    Memory.wf (memPut m a v) = true := risingFrom_memPut m 0 a v h (Nat.zero_le a)

theorem risingFrom_mono {α : Type} (m : List (Nat × α)) (lo hi : Nat) (h : risingFrom hi m = true)
    (hle : lo ≤ hi) : risingFrom lo m = true := by
  cases m with
  | nil => rfl
  | cons p m =>
    obtain ⟨c, w⟩ := p
    simp only [risingFrom, Bool.and_eq_true, decide_eq_true_eq] at h ⊢
    exact ⟨by omega, h.2⟩

theorem risingFrom_memErase {α : Type} (m : List (Nat × α)) (lo a : Nat) (h : risingFrom lo m = true) :
    risingFrom lo (memErase m a) = true := by
  induction m generalizing lo with
  | nil => rfl
  | cons p m ih =>
    obtain ⟨c, w⟩ := p
    simp only [risingFrom, Bool.and_eq_true, decide_eq_true_eq] at h
    simp only [memErase]
    split
    · exact ih lo (risingFrom_mono m lo (c + 1) h.2 (by omega))
    · simp [risingFrom, h.1, ih (c + 1) h.2]

theorem Memory.wf_memErase {α : Type} (m : List (Nat × α)) (a : Nat) (h : Memory.wf m = true) :
    Memory.wf (memErase m a) = true := risingFrom_memErase m 0 a h

theorem putByte_keeps_wf (a : Nat) (v : Byte) (s : State) (h : Memory.wf s.mem = true) :
    Memory.wf (s.putByte a v).mem = true := Memory.wf_memPut _ _ _ h

theorem putWord_keeps_wf (a : Nat) (v : Word) (s : State) (h : Memory.wf s.mem = true) :
    Memory.wf (s.putWord a v).mem = true := Memory.wf_memPut _ _ _ (Memory.wf_memPut _ _ _ h)

theorem drawOther_keeps_wf (inhibit : Bool) (s : State) (h : Memory.wf s.mem = true) :
    Memory.wf (s.drawOther inhibit).mem = true := by
  rw [State.drawOther_mem]
  cases inhibit
  · rfl
  · exact h

theorem deviceReset_gives_wf (c : ResetCause) (s : State) : Memory.wf (deviceReset c s).mem = true := rfl

theorem reset_mem_wf : Memory.wf State.reset.mem = true := rfl

theorem reset_prog_wf : Memory.wf State.reset.prog = true := rfl

theorem placeWords_keeps_wf (a : Nat) (ws : List PWord) (s : State) (h : Memory.wf s.prog = true)
    (he : Memory.wf s.events = true) :
    Memory.wf (placeWords a ws s).prog = true ∧ Memory.wf (placeWords a ws s).events = true := by
  induction ws generalizing a s with
  | nil => exact ⟨h, he⟩
  | cons w ws ih => exact ih (a + 2) _ (Memory.wf_memPut _ _ _ h) (Memory.wf_memErase _ _ he)

/-! ## Reading back -/

theorem byteAt_putByte (s : State) (a b : Nat) (v : Byte) :
    (s.putByte a v).byteAt b = if b = a then v else s.byteAt b := by
  unfold State.byteAt
  rw [State.putByte_mem, memFind_memPut]
  by_cases h : b = a <;> simp [h]

/-- A byte store is read back. -/
@[simp] theorem byteAt_putByte_self (s : State) (a : Nat) (v : Byte) : (s.putByte a v).byteAt a = v := by
  simp [byteAt_putByte]

theorem byteAt_putWord (s : State) (a b : Nat) (v : Word) :
    (s.putWord a v).byteAt b =
      if b = a + 1 then v.extractLsb' 8 8 else if b = a then v.extractLsb' 0 8 else s.byteAt b := by
  unfold State.putWord
  rw [byteAt_putByte, byteAt_putByte]

/-- A word is its two bytes (R96). -/
theorem append_bytes (v : Word) : v.extractLsb' 8 8 ++ v.extractLsb' 0 8 = v := by
  apply BitVec.eq_of_getLsbD_eq
  intro i hi
  simp only [BitVec.getLsbD_append, BitVec.getLsbD_extractLsb']
  by_cases h : i < 8
  · simp [h]
  · have h8 : i - 8 < 8 := by omega
    have : 8 + (i - 8) = i := by omega
    simp [h, h8, this]

/-- A word store is read back. -/
@[simp] theorem wordAt_putWord_self (s : State) (a : Nat) (v : Word) : (s.putWord a v).wordAt a = v := by
  unfold State.wordAt
  rw [byteAt_putWord, byteAt_putWord, if_pos rfl, if_neg (by omega), if_pos rfl, append_bytes]

/-- A word store leaves every other word alone. -/
theorem wordAt_putWord_ne (s : State) (a b : Nat) (v : Word) (h : b + 2 ≤ a ∨ a + 2 ≤ b) :
    (s.putWord a v).wordAt b = s.wordAt b := by
  unfold State.wordAt
  simp only [byteAt_putWord]
  rw [if_neg (by omega), if_neg (by omega), if_neg (by omega), if_neg (by omega)]

/-- What a byte of memory reads as depends on the memory and its draw alone. -/
theorem byteAt_congr (s t : State) (hm : t.mem = s.mem) (he : t.memEpoch = s.memEpoch) (a : Nat) :
    t.byteAt a = s.byteAt a := by unfold State.byteAt; rw [hm, he]

theorem sameMemory_of_mem (s t : State) (hm : t.mem = s.mem) (he : t.memEpoch = s.memEpoch) :
    SameMemory s t := byteAt_congr s t hm he

theorem wordAt_congr (s t : State) (hm : t.mem = s.mem) (he : t.memEpoch = s.memEpoch) (a : Nat) :
    t.wordAt a = s.wordAt a := by
  unfold State.wordAt; rw [byteAt_congr s t hm he, byteAt_congr s t hm he]

/-- A word store changes its two bytes only. -/
theorem sameMemoryBut_putWord (s : State) (a : Nat) (v : Word) : SameMemoryBut a 2 s (s.putWord a v) := by
  intro b hb
  rw [byteAt_putWord, if_neg (by omega), if_neg (by omega)]

/-- A byte store changes its byte only. -/
theorem sameMemoryBut_putByte (s : State) (a : Nat) (v : Byte) : SameMemoryBut a 1 s (s.putByte a v) := by
  intro b hb
  rw [byteAt_putByte, if_neg (by omega)]

end Sys2Proof.Machine
end

