-- ==== Sys2Proof/Laws/Sources.lean ====
section
/-! SUPPORT. What the masks of the IFSx, IECx and IPCx registers are, bit by bit. -/

namespace Sys2Proof.Machine

/-- IFSx and IECx implement exactly the bits of the sources the device has (R61, R62, R70). -/
theorem getLsbD_flagMask (d : Device) (x b : Nat) :
    (flagMask d x).getLsbD b = (decide (b < 16) && hasSource d (16 * x + b)) := by
  simp [flagMask, hasSource, BitVec.getLsbD_extractLsb', BitVec.getLsbD_and]

/-- The family has no source above IRQ 79 (R64). -/
theorem hasSource_lt (d : Device) (n : Nat) (h : hasSource d n = true) : n < 80 := by
  by_contra hn
  have : familySources.getLsbD n = false := by
    by_cases h2 : n < 118
    · have hm : ∀ k : Fin 38, familySources.getLsbD (80 + k.val) = false := by decide
      have := hm ⟨n - 80, by omega⟩
      rwa [show 80 + (n - 80) = n from by omega] at this
    · exact BitVec.getLsbD_of_ge _ _ (by omega)
  simp [hasSource, this] at h

/-- One nibble of IPCx: three bits where the source exists, bit 3 never (R63). -/
theorem getLsbD_fieldOf (d : Device) (n b : Nat) :
    (fieldOf d n).getLsbD b = (decide (b < 3) && hasSource d n) := by
  unfold fieldOf
  cases hasSource d n
  · simp
  · simp only [Bool.and_true, if_true]
    match b with
    | 0 | 1 | 2 | 3 => decide
    | b + 4 => simp [BitVec.getLsbD_of_ge]

/-- IPCx implements exactly the priority fields of the sources the device has (R63, R70). -/
theorem getLsbD_prioMask (d : Device) (x b : Nat) :
    (prioMask d x).getLsbD b =
      (decide (b < 16) && decide (b % 4 ≠ 3) && hasSource d (4 * x + b / 4)) := by
  unfold prioMask
  simp only [BitVec.getLsbD_append, getLsbD_fieldOf]
  by_cases h : b < 16
  · have : b = 0 ∨ b = 1 ∨ b = 2 ∨ b = 3 ∨ b = 4 ∨ b = 5 ∨ b = 6 ∨ b = 7 ∨ b = 8 ∨ b = 9 ∨ b = 10 ∨
        b = 11 ∨ b = 12 ∨ b = 13 ∨ b = 14 ∨ b = 15 := by omega
    rcases this with h | h | h | h | h | h | h | h | h | h | h | h | h | h | h | h <;> subst h <;> simp
  · have h1 : ¬ b < 4 := by omega
    have h2 : ¬ b - 4 < 4 := by omega
    have h3 : ¬ b - 4 - 4 < 4 := by omega
    have h4 : ¬ b - 4 - 4 - 4 < 3 := by omega
    simp [h, h1, h2, h3, h4]

end Sys2Proof.Machine
end

