-- ==== Sys2Proof/Laws/Ops.lean ====
section
/-! SUPPORT. What each shared operation can do, said once: the tick, the settling of hard traps, data accesses,
the stack, arbitration. -/

namespace Sys2Proof.Machine

/-! ## The tick -/

/-- What the tick does (R142, R143). -/
theorem ticked_tick (c : Nat) (s : State) : Ticked c s (s.tick c) := by
  have hs := s.disicnt.isLt
  refine ⟨?_, ?_, ?_⟩
  · rw [State.tick_disicnt, BitVec.toNat_ofNat]
    exact Nat.mod_eq_of_lt (by omega)
  · intro j hj
    rw [State.tick_intcon2]
    split
    · exact getLsbD_setBit_ne _ _ _ _ hj
    · rfl
  · unfold State.disi
    rw [State.tick_intcon2]
    by_cases h : s.disicnt.toNat - c = 0
    · rw [if_pos h, getLsbD_setBit_self _ _ _ (by omega)]
      simp only [Bool.false_eq_true, false_iff, not_and]
      omega
    · rw [if_neg h]
      have : c < s.disicnt.toNat := by omega
      simp [this]

/-! ## Hard traps -/

/-- Without a hard trap condition nothing is settled. -/
theorem settle_quiet (pre : State) (e : Eff) (ha : e.addr = false) (hs : e.swAddr = false)
    (ho : e.swOsc = false) : e.settle pre = e.st := by simp [Eff.settle, ha, hs, ho]

/-- An address error that no hard trap conflicts with sets its flag (R204, R210). -/
theorem settle_pends (pre : State) (e : Eff) (ha : e.addr = true) (ho : e.swOsc = false)
    (hp : HardTrapPends pre) : e.settle pre = e.st.setTrapFlag .addrErr := by
  obtain ⟨h1, h2⟩ := hp
  have h3 : (pre.cpuIpl == 13) = false := by simp; omega
  simp [Eff.settle, State.hardConflict, ha, ho, h1, h3, show ¬ 14 ≤ pre.cpuIpl by omega]

/-- Everything settling can do: the state so far, with a hard trap's flag set, a reset of the device, or the
same-level case (R212, R214). -/
theorem settle_cases (pre : State) (e : Eff) :
    ∃ s1, (s1 = e.st ∨ s1 = e.st.setTrapFlag .addrErr ∨ s1 = e.st.setTrapFlag .oscFail ∨
        s1 = (e.st.setTrapFlag .addrErr).setTrapFlag .oscFail) ∧
      (e.settle pre = s1 ∨ e.settle pre = deviceReset .trapConflict s1 ∨
        e.settle pre = deviceReset .trapConflict s1.bump ∨
        e.settle pre = { s1.bump with power := .halt }) := by
  have key : ∀ (s2 : State) (c1 c2 : Bool) (r : State),
      r = (if c1 then deviceReset .trapConflict s2 else if c2 then s2.sameLevel else s2) →
      r = s2 ∨ r = deviceReset .trapConflict s2 ∨ r = deviceReset .trapConflict s2.bump ∨
        r = { s2.bump with power := .halt } := by
    intro s2 c1 c2 r hr
    unfold State.sameLevel at hr
    split at hr
    · exact .inr (.inl hr)
    · split at hr
      · split at hr
        · exact .inr (.inr (.inl hr))
        · exact .inr (.inr (.inr hr))
      · exact .inl hr
  refine ⟨_, ?_, key _ _ _ _ rfl⟩
  split
  · split
    · exact .inr (.inr (.inr rfl))
    · exact .inr (.inr (.inl rfl))
  · split
    · exact .inr (.inl rfl)
    · exact .inl rfl

/-- A device reset by a trap conflict, seen from a state with the same parameters (R41, R270). -/
theorem conflictReset_of (s u : State) (h : SameParameters s u) :
    ConflictReset s (deviceReset .trapConflict u) := by
  obtain ⟨h1, h2, h3, h4⟩ := h
  exact ⟨rfl, rfl, rfl, by change (0#8 ++ 0#3 ++ 0#5 : BitVec 16) = 0; decide, rfl, rfl, rfl, rfl, h1, h2, h3, h4⟩

/-- An address error that conflicts with the oscillator failure trap resets the device (R212). -/
theorem settle_conflict (pre : State) (e : Eff) (ha : (e.addr || e.swAddr) = true)
    (hc : pre.hardConflict = true) (s : State) (hp : SameParameters s e.st) :
    ConflictReset s (e.settle pre) := by
  unfold Eff.settle
  simp only [ha, hc, Bool.and_self, if_true]
  split <;> exact conflictReset_of _ _ hp

/-- An address error at its own level resets the device or halts it with the flag set (R214). -/
theorem settle_sameLevel (pre : State) (e : Eff) (ha : (e.addr || e.swAddr) = true) (ho : e.swOsc = false)
    (hc : pre.hardConflict = false) (h13 : pre.cpuIpl = 13) (s : State) (hp : SameParameters s e.st) :
    ConflictReset s (e.settle pre) ∨
      e.settle pre = { (e.st.setTrapFlag .addrErr).bump with power := .halt } := by
  have h : e.settle pre = (e.st.setTrapFlag .addrErr).sameLevel := by
    simp [Eff.settle, ha, ho, hc, h13]
  rw [h]
  unfold State.sameLevel
  split
  · exact .inl (conflictReset_of _ _ hp)
  · exact .inr rfl

/-- A property that the flags of the hard traps, a reset and Halt keep is kept by settling. -/
theorem settle_induction {P : State → Prop} (pre : State) (e : Eff) (h : P e.st)
    (hf : ∀ s k, k.hard = true → P s → P (s.setTrapFlag k)) (hb : ∀ s, P s → P s.bump)
    (hr : ∀ s, P s → P (deviceReset .trapConflict s)) (hh : ∀ s : State, P s → P { s with power := .halt }) :
    P (e.settle pre) := by
  obtain ⟨s1, h1, h2⟩ := settle_cases pre e
  have hs1 : P s1 := by
    rcases h1 with rfl | rfl | rfl | rfl
    · exact h
    · exact hf _ _ rfl h
    · exact hf _ _ rfl h
    · exact hf _ _ rfl (hf _ _ rfl h)
  rcases h2 with h2 | h2 | h2 | h2 <;> rw [h2]
  · exact hs1
  · exact hr _ hs1
  · exact hr _ (hb _ hs1)
  · exact hh _ (hb _ hs1)

/-- The end of an instruction that met no hard trap condition. -/
theorem goTo_quiet (pre : State) (next : PAddr) (e : Eff) (ha : e.addr = false) (hs : e.swAddr = false)
    (ho : e.swOsc = false) :
    e.goTo pre next = ({ e.st with pc := next, lateEntry := pre.late } : State).tick pre.cycles :=
  settle_quiet _ _ ha hs ho

/-- The end of an instruction that met an address error which is only pending. -/
theorem goTo_pends (pre : State) (next : PAddr) (e : Eff) (ha : e.addr = true) (ho : e.swOsc = false)
    (hp : HardTrapPends pre) :
    e.goTo pre next =
      (({ e.st with pc := next, lateEntry := pre.late } : State).tick pre.cycles).setTrapFlag .addrErr :=
  settle_pends pre _ (by exact ha) (by exact ho) hp

/-- A trap flag that is set is pending, the other bits of INTCON1 are kept. -/
theorem setTrapFlag_pending (k : TrapKind) (s : State) : (s.setTrapFlag k).trapPending k = true := by
  unfold State.trapPending
  rw [State.setTrapFlag_intcon1, State.setTrapFlag_inert, getLsbD_setBit_self, getLsbD_setBit_self]
  · rfl
  all_goals cases k <;> decide

/-- A soft trap that is raised is pending. -/
theorem raiseSoft_pending (k : TrapKind) (s : State) : (s.raiseSoft k).trapPending k = true :=
  setTrapFlag_pending k s

/-- Setting the flag of a trap leaves the other traps as they are. -/
theorem setTrapFlag_pending_ne (k j : TrapKind) (s : State) (h : j ≠ k) :
    (s.setTrapFlag k).trapPending j = s.trapPending j := by
  have : j.flagBit ≠ k.flagBit := by cases j <;> cases k <;> simp_all [TrapKind.flagBit]
  unfold State.trapPending
  rw [State.setTrapFlag_intcon1, State.setTrapFlag_inert, getLsbD_setBit_ne _ _ _ _ this,
    getLsbD_setBit_ne _ _ _ _ this]

/-! ## Data accesses -/

/-- A read that meets no address error (R96, R99). -/
theorem read_ok (size : Size) (ea : Word) (e : Eff) (h : e.st.readFaults size ea = false) :
    e.read size ea = (e.st.load size ea, { e with st := e.st.bump }) := by
  simp [Eff.read, State.readValue, h]

/-- A read that meets an address error returns a free value (R97, R98, U9). -/
theorem read_faults (size : Size) (ea : Word) (e : Eff) (h : e.st.readFaults size ea = true) :
    e.read size ea = (Config.faultyRead e.st.draws, { e with st := e.st.bump, addr := true }) := by
  simp [Eff.read, State.readValue, h]

/-- A word write to plain memory. -/
theorem write_ram_word (ea v : Word) (e : Eff) (hodd : ea.getLsbD 0 = false) (ha : e.addr = false)
    (hp : PlainRam e.st ea) : e.write .word ea v = e.map (State.putWord ea.toNat v) := by
  have : misaligned .word ea = false := by simp only [misaligned, hodd, Bool.and_false]
  simp [Eff.write, Eff.store, this, ha, hp.1, hp.2]

/-- A misaligned word write raises the address error and stores nothing (R97, R100). -/
theorem write_misaligned (ea v : Word) (e : Eff) (hodd : ea.getLsbD 0 = true) :
    e.write .word ea v = { e with addr := true } := by
  have : misaligned .word ea = true := by rw [misaligned, hodd]; rfl
  simp [Eff.write, this]

/-- After an address error of the instruction an aligned write stores nothing (R100). -/
theorem write_inhibited (size : Size) (ea v : Word) (e : Eff) (hal : misaligned size ea = false)
    (ha : e.addr = true) : e.write size ea v = e := by
  simp [Eff.write, hal, ha]

/-- A write to unimplemented data space has no effect (R179, U15). -/
theorem write_unimplemented (size : Size) (ea v : Word) (e : Eff) (hal : misaligned size ea = false)
    (ha : e.addr = false) (hd : dataImplemented e.st.dev ea = false) : e.write size ea v = e := by
  simp [Eff.write, Eff.store, hal, ha, hd]

/-- A byte write to plain memory. -/
theorem write_ram_byte (ea v : Word) (e : Eff) (ha : e.addr = false)
    (hd : dataImplemented e.st.dev ea = true) (hs : sfrAt e.st.dev (wordBase ea) = none) :
    e.write .byte ea v = e.map (State.putByte ea.toNat (v.extractLsb' 0 8)) := by
  simp [Eff.write, Eff.store, misaligned, ha, hd, hs]

/-- A word write to an SFR that is not inhibited is a software write of the register (R99). -/
theorem write_sfr_word (ea v : Word) (e : Eff) (r : Sfr) (hodd : ea.getLsbD 0 = false) (ha : e.addr = false)
    (hd : dataImplemented e.st.dev ea = true) (hr : sfrAt e.st.dev ea.toNat = some r) :
    e.write .word ea v = e.sfrUpdate r 0xFFFF#16 v := by
  have : misaligned .word ea = false := by simp only [misaligned, hodd, Bool.and_false]
  simp [Eff.write, Eff.store, this, ha, hd, hr]

/-! ## The stack -/

/-- An even W15 that meets no check raises nothing (R176, R177). -/
theorem stackFaults_of_ok (s : State) (a : Word) (exact : Int) (h : StackOk s a)
    (hx : BitVec.ofInt 16 exact = a) (hle : exact ≤ 0xFFFF) : s.stackFaults exact = false := by
  obtain ⟨-, -, h3, h4⟩ := h
  unfold State.stackFaults
  simp only [hx, Bool.or_eq_false_iff, Bool.and_eq_false_iff, decide_eq_false_iff_not]
  refine ⟨⟨?_, by omega⟩, by omega⟩
  by_cases hw : s.splimWritten = true
  · exact .inr (by have := h4 hw; omega)
  · exact .inl (by simpa using hw)

/-- A check that fails raises the stack error, and the access goes on (R176). -/
theorem stackCheck_faults (e : Eff) (exact : Int) (h : e.st.stackFaults exact = true) :
    e.stackCheck exact = { e.map (State.raiseSoft .stkErr) with stk := true } := by simp [Eff.stackCheck, h]

theorem stackCheck_ok (e : Eff) (exact : Int) (h : e.st.stackFaults exact = false) :
    e.stackCheck exact = e := by simp [Eff.stackCheck, h]

/-- An access outside the limits of the stack, or one whose address wraps past 0xFFFF, fails a check (R176,
R177). -/
theorem stackFaults_iff (s : State) (exact : Int) :
    s.stackFaults exact = true ↔ OutsideStack s (BitVec.ofInt 16 exact) ∨ 0xFFFF < exact := by
  unfold State.stackFaults OutsideStack
  simp only [Bool.or_eq_true, Bool.and_eq_true, decide_eq_true_eq]
  constructor
  · rintro ((h | h) | h)
    · exact .inl (.inr h)
    · exact .inr h
    · exact .inl (.inl h)
  · rintro ((h | h) | h)
    · exact .inr h
    · exact .inl (.inl h)
    · exact .inl (.inr h)

/-- The address of a pop, cut to 16 bits (R95). -/
theorem popAddr (w : Word) : BitVec.ofInt 16 ((w.toNat : Int) - 2) = w - 2 := by
  apply BitVec.eq_of_toNat_eq
  have := w.isLt
  have h2 : (2 : Word).toNat = 2 := rfl
  rw [BitVec.toNat_ofInt, BitVec.toNat_sub, h2]
  omega

/-- A push that meets no check (R95). -/
theorem push_ok (v : Word) (e : Eff) (ha : e.addr = false) (h : StackOk e.st e.st.w15) :
    e.push v = e.map fun s => { s.putWord e.st.w15.toNat v with w15 := e.st.w15 + 2 } := by
  have hb : BitVec.ofInt 16 (e.st.w15.toNat : Int) = e.st.w15 := by simp
  have hle : (e.st.w15.toNat : Int) ≤ 0xFFFF := by have := e.st.w15.isLt; omega
  have h1 : e.st.stackFaults e.st.w15.toNat = false := stackFaults_of_ok _ _ _ h hb hle
  simp only [Eff.push]
  rw [stackCheck_ok e _ h1, write_ram_word _ _ _ h.1 ha h.2.1]
  rfl

/-- A pop that meets no check (R95). -/
theorem pop_ok (e : Eff) (h : StackOk e.st (e.st.w15 - 2)) :
    e.pop = (e.st.wordAt (e.st.w15 - 2).toNat,
      e.map fun s => { s with w15 := e.st.w15 - 2, draws := s.draws + 1 }) := by
  have hx := popAddr e.st.w15
  have hle : (e.st.w15.toNat : Int) - 2 ≤ 0xFFFF := by have := e.st.w15.isLt; omega
  have h1 : ({ e.st with w15 := e.st.w15 - 2 } : State).stackFaults ((e.st.w15.toNat : Int) - 2) = false :=
    stackFaults_of_ok _ (e.st.w15 - 2) _ ⟨h.1, h.2.1, h.2.2⟩ hx hle
  have h2 : ({ e.st with w15 := e.st.w15 - 2 } : State).readFaults .word (e.st.w15 - 2) = false := by
    have hd : dataImplemented e.st.dev (e.st.w15 - 2) = true := h.2.1.1
    simp only [State.readFaults, misaligned, h.1, hd, Bool.and_false, Bool.not_true, Bool.or_false]
  simp only [Eff.pop]
  rw [stackCheck_ok _ _ (by exact h1), read_ok _ _ _ (by exact h2)]
  have h3 : sfrAt e.st.dev (e.st.w15 - 2).toNat = none := h.2.1.2
  simp only [Eff.map_st, State.load, h3]
  rfl

/-- Everything a pop inside the limits of the stack can do: W15 moves, and the read returns its value or notes the
address error (R95, R97, R98). -/
theorem pop_inside (e : Eff) (h : ¬ OutsideStack e.st (e.st.w15 - 2)) :
    e.pop = (({ e.st with w15 := e.st.w15 - 2 } : State).readValue .word (e.st.w15 - 2),
      { e with
        st := { e.st with w15 := e.st.w15 - 2, draws := e.st.draws + 1 }
        addr := e.addr || e.st.readFaults .word (e.st.w15 - 2) }) := by
  have h1 : ({ e.st with w15 := e.st.w15 - 2 } : State).stackFaults ((e.st.w15.toNat : Int) - 2) = false := by
    rw [Bool.eq_false_iff]
    intro hc
    have := e.st.w15.isLt
    rcases (stackFaults_iff _ _).1 hc with hc | hc
    · rw [popAddr] at hc; exact h hc
    · omega
  simp only [Eff.pop]
  rw [stackCheck_ok _ _ (by exact h1)]
  rfl

/-- Which word reads raise the address error (R97, R98). -/
theorem readFaults_word (s : State) (a : Word) : s.readFaults .word a = true ↔ BadRead s a := by
  unfold State.readFaults BadRead misaligned
  cases a.getLsbD 0 <;> cases dataImplemented s.dev a <;> decide

/-- A pop at a bad address inside the stack raises the address error and reads a free value; W15 moves (R97, R98,
R100; log 24). -/
theorem pop_bad (e : Eff) (hb : BadRead e.st (e.st.w15 - 2)) (h : ¬ OutsideStack e.st (e.st.w15 - 2)) :
    e.pop = (Config.faultyRead e.st.draws,
      { e with st := { e.st with w15 := e.st.w15 - 2, draws := e.st.draws + 1 }, addr := true }) := by
  have hr := (readFaults_word _ _).2 hb
  have hr' : ({ e.st with w15 := e.st.w15 - 2 } : State).readFaults .word (e.st.w15 - 2) = true := hr
  rw [pop_inside e h, State.readValue, hr', hr, Bool.or_true, if_pos rfl]

/-- A push at an odd W15 inside the stack raises the address error and stores nothing; W15 moves (R97, R100;
log 24). -/
theorem push_misaligned (v : Word) (e : Eff) (hw : e.st.w15.getLsbD 0 = true)
    (h : ¬ OutsideStack e.st e.st.w15) :
    e.push v = { e with st := { e.st with w15 := e.st.w15 + 2 }, addr := true } := by
  have h1 : e.st.stackFaults e.st.w15.toNat = false := by
    rw [Bool.eq_false_iff]
    intro hc
    have := e.st.w15.isLt
    rcases (stackFaults_iff _ _).1 hc with hc | hc
    · rw [BitVec.ofInt_natCast, BitVec.ofNat_toNat, BitVec.setWidth_eq] at hc; exact h hc
    · omega
  simp only [Eff.push]
  rw [stackCheck_ok _ _ h1, write_misaligned _ _ _ hw]
  rfl

/-- A push at an unimplemented address inside the stack stores nothing and raises nothing; W15 moves (R179, U15;
log 27). -/
theorem push_unimplemented (v : Word) (e : Eff) (ha : e.addr = false) (hw : e.st.w15.getLsbD 0 = false)
    (hd : dataImplemented e.st.dev e.st.w15 = false) (h : ¬ OutsideStack e.st e.st.w15) :
    e.push v = e.map fun s => { s with w15 := e.st.w15 + 2 } := by
  have h1 : e.st.stackFaults e.st.w15.toNat = false := by
    rw [Bool.eq_false_iff]
    intro hc
    have := e.st.w15.isLt
    rcases (stackFaults_iff _ _).1 hc with hc | hc
    · rw [BitVec.ofInt_natCast, BitVec.ofNat_toNat, BitVec.setWidth_eq] at hc; exact h hc
    · omega
  have hm : misaligned .word e.st.w15 = false := by simp only [misaligned, hw, Bool.and_false]
  simp only [Eff.push]
  rw [stackCheck_ok _ _ h1, write_unimplemented _ _ _ _ hm ha hd]

/-- Everything a push outside the limits of the stack can do: the stack error, the write, W15 (R95, R176, R177). -/
theorem push_outside (v : Word) (e : Eff) (h : OutsideStack e.st e.st.w15) :
    e.push v = (({ e.map (State.raiseSoft .stkErr) with stk := true } : Eff).write .word e.st.w15 v).map
      fun s => { s with w15 := e.st.w15 + 2 } := by
  have h1 : e.st.stackFaults e.st.w15.toNat = true := by
    rw [stackFaults_iff, BitVec.ofInt_natCast, BitVec.ofNat_toNat, BitVec.setWidth_eq]
    exact .inl h
  simp only [Eff.push]
  rw [stackCheck_faults _ _ h1]

/-- Everything a pop outside the limits of the stack can do: W15 moves, the stack error, the read (R95, R176,
R177). -/
theorem pop_outside (e : Eff) (h : OutsideStack e.st (e.st.w15 - 2)) :
    e.pop = ({ e with
      st := State.raiseSoft .stkErr { e.st with w15 := e.st.w15 - 2 }, stk := true } : Eff).read .word
        (e.st.w15 - 2) := by
  have h1 : ({ e.st with w15 := e.st.w15 - 2 } : State).stackFaults ((e.st.w15.toNat : Int) - 2) = true := by
    rw [stackFaults_iff, popAddr]
    exact .inl h
  simp only [Eff.pop]
  rw [stackCheck_faults _ _ (by exact h1)]
  rfl

/-! ## The end of an instruction -/

/-- What an instruction leaves in `lateEntry`: its kind, unless the device is reset (R293). -/
theorem finish_lateEntry (pre : State) (next : PAddr) (c : Nat) (late : Bool) (e : Eff) :
    let t := e.finish pre next c late
    t.lateEntry = late ∨ (t.lateEntry = false ∧ t.pc = 0 ∧ t.sr = 0 ∧ t.w15 = 0x0800) := by
  refine settle_induction (P := fun t => t.lateEntry = late ∨
    (t.lateEntry = false ∧ t.pc = 0 ∧ t.sr = 0 ∧ t.w15 = 0x0800)) _ _ (.inl rfl) (fun _ _ _ h => h)
    (fun _ h => h) (fun _ _ => .inr ⟨rfl, rfl, ?_, rfl⟩) (fun _ h => h)
  change (0#8 ++ 0#3 ++ 0#5 : BitVec 16) = 0
  decide

/-! ## Arbitration -/

/-- What the arbitration picks is one of the requests. -/
theorem bestOf_mem (s : State) (l : List Request) (r : Request) (h : s.bestOf l = some r) : r ∈ l := by
  induction l generalizing r with
  | nil => simp [State.bestOf] at h
  | cons q l ih =>
    simp only [State.bestOf] at h
    split at h
    · simp_all
    · next x hx =>
      split at h
      · have := ih x hx; simp_all
      · simp_all

/-- No request has a greater priority than the one the arbitration picks. -/
theorem bestOf_max (s : State) (l : List Request) (r : Request) (h : s.bestOf l = some r) :
    ∀ q ∈ l, s.priority q ≤ s.priority r := by
  induction l generalizing r with
  | nil => simp
  | cons q l ih =>
    simp only [State.bestOf] at h
    split at h
    · next hn =>
      have hl : l = [] := by
        cases l with
        | nil => rfl
        | cons a l =>
          exfalso
          simp only [State.bestOf] at hn
          split at hn
          · simp at hn
          · split at hn <;> simp at hn
      simp_all
    · next x hx =>
      have hm := ih x hx
      split at h
      · next hlt =>
        obtain rfl : x = r := by simpa using h
        intro p hp
        rcases List.mem_cons.1 hp with rfl | hp
        · omega
        · exact hm p hp
      · next hlt =>
        obtain rfl : q = r := by simpa using h
        intro p hp
        rcases List.mem_cons.1 hp with rfl | hp
        · exact Nat.le_refl _
        · have := hm p hp; omega

/-- The arbitration picks nothing only where nothing requests. -/
theorem bestOf_none (s : State) (l : List Request) (h : s.bestOf l = none) : l = [] := by
  cases l with
  | nil => rfl
  | cons q l =>
    simp only [State.bestOf] at h
    split at h
    · simp at h
    · split at h <;> simp at h

end Sys2Proof.Machine
end

