-- ==== Sys2Proof/Laws/Exception.lean ====
section
/-! SUPPORT. Taking an exception and returning from one, where the stack has room: what the two operations do,
said once, and one lemma per field. -/

namespace Sys2Proof.Machine

/-- The two words of the frame stand at W15 and W15 + 2, and W15 moves past them; the boundary that a rewritten
priority raced with is over. -/
def State.withFrame (s : State) : State :=
  { (s.putWord s.w15.toNat (frame s.dev s.pc s.srl s.ipl3).1).putWord (s.w15.toNat + 2)
      (frame s.dev s.pc s.srl s.ipl3).2 with
    w15 := s.w15 + 4, race := [] }

@[simp] theorem State.withFrame_w15 (s : State) : s.withFrame.w15 = s.w15 + 4 := by simp [State.withFrame]
@[simp] theorem State.withFrame_pc (s : State) : s.withFrame.pc = s.pc := by simp [State.withFrame]
@[simp] theorem State.withFrame_w (s : State) : s.withFrame.w = s.w := by simp [State.withFrame]
@[simp] theorem State.withFrame_srh (s : State) : s.withFrame.srh = s.srh := by simp [State.withFrame]
@[simp] theorem State.withFrame_ipl (s : State) : s.withFrame.ipl = s.ipl := by simp [State.withFrame]
@[simp] theorem State.withFrame_flags (s : State) : s.withFrame.flags = s.flags := by simp [State.withFrame]
@[simp] theorem State.withFrame_corcon (s : State) : s.withFrame.corcon = s.corcon := by simp [State.withFrame]
@[simp] theorem State.withFrame_intcon1 (s : State) : s.withFrame.intcon1 = s.intcon1 := by simp [State.withFrame]
@[simp] theorem State.withFrame_intcon2 (s : State) : s.withFrame.intcon2 = s.intcon2 := by simp [State.withFrame]
@[simp] theorem State.withFrame_inttreg (s : State) : s.withFrame.inttreg = s.inttreg := by simp [State.withFrame]
@[simp] theorem State.withFrame_ifs (s : State) : s.withFrame.ifs = s.ifs := by simp [State.withFrame]
@[simp] theorem State.withFrame_iec (s : State) : s.withFrame.iec = s.iec := by simp [State.withFrame]
@[simp] theorem State.withFrame_ipc (s : State) : s.withFrame.ipc = s.ipc := by simp [State.withFrame]
@[simp] theorem State.withFrame_disicnt (s : State) : s.withFrame.disicnt = s.disicnt := by simp [State.withFrame]
@[simp] theorem State.withFrame_splim (s : State) : s.withFrame.splim = s.splim := by simp [State.withFrame]
@[simp] theorem State.withFrame_splimWritten (s : State) : s.withFrame.splimWritten = s.splimWritten := by simp [State.withFrame]
@[simp] theorem State.withFrame_trapr (s : State) : s.withFrame.trapr = s.trapr := by simp [State.withFrame]
@[simp] theorem State.withFrame_cf (s : State) : s.withFrame.cf = s.cf := by simp [State.withFrame]
@[simp] theorem State.withFrame_accA (s : State) : s.withFrame.accA = s.accA := by simp [State.withFrame]
@[simp] theorem State.withFrame_accB (s : State) : s.withFrame.accB = s.accB := by simp [State.withFrame]
@[simp] theorem State.withFrame_prog (s : State) : s.withFrame.prog = s.prog := by simp [State.withFrame]
@[simp] theorem State.withFrame_power (s : State) : s.withFrame.power = s.power := by simp [State.withFrame]
@[simp] theorem State.withFrame_pins (s : State) : s.withFrame.pins = s.pins := by simp [State.withFrame]
@[simp] theorem State.withFrame_softSkid (s : State) : s.withFrame.softSkid = s.softSkid := by simp [State.withFrame]
@[simp] theorem State.withFrame_events (s : State) : s.withFrame.events = s.events := by simp [State.withFrame]
@[simp] theorem State.withFrame_timing (s : State) : s.withFrame.timing = s.timing := by simp [State.withFrame]
@[simp] theorem State.withFrame_dev (s : State) : s.withFrame.dev = s.dev := by simp [State.withFrame]
@[simp] theorem State.withFrame_turns (s : State) : s.withFrame.turns = s.turns := by simp [State.withFrame]
@[simp] theorem State.withFrame_result (s : State) : s.withFrame.result = s.result := by simp [State.withFrame]
@[simp] theorem State.withFrame_lateEntry (s : State) : s.withFrame.lateEntry = s.lateEntry := by simp [State.withFrame]
@[simp] theorem State.withFrame_inert (s : State) : s.withFrame.inert = s.inert := by simp [State.withFrame]
@[simp] theorem State.withFrame_memEpoch (s : State) : s.withFrame.memEpoch = s.memEpoch := by simp [State.withFrame]
@[simp] theorem State.withFrame_race (s : State) : s.withFrame.race = [] := by simp [State.withFrame]
@[simp] theorem State.withFrame_draws (s : State) : s.withFrame.draws = s.draws := by simp [State.withFrame]

theorem toNat_add_two (w : Word) (h : w.toNat < 0xFFFE) : (w + 2).toNat = w.toNat + 2 := by
  rw [BitVec.toNat_add]
  change (w.toNat + 2) % _ = _
  omega

/-- Where the second word has room, W15 + 2 does not wrap. -/
theorem w15_lt_of_room (s : State) (h2 : StackOk s (s.w15 + 2)) : s.w15.toNat < 0xFFFE := by
  have h := h2.2.2.1
  by_contra hc
  have : (s.w15 + 2).toNat = s.w15.toNat + 2 - 65536 := by
    rw [BitVec.toNat_add]
    change (s.w15.toNat + 2) % _ = _
    have := s.w15.isLt
    omega
  have := s.w15.isLt
  omega

/-- The pushes of an entry that meet no check (R224, R225). -/
theorem pushFrame_ok (s : State) (h1 : StackOk s s.w15) (h2 : StackOk s (s.w15 + 2)) :
    ({ s with race := [] } : State).pushFrame = s.withFrame.eff := by
  have h3 := toNat_add_two _ (w15_lt_of_room s h2)
  have h4 : s.w15 + 2 + 2 = s.w15 + 4 := by rw [BitVec.add_assoc]; rfl
  have hp : ({ s with race := [] } : State).eff.push (frame s.dev s.pc s.srl s.ipl3).1 =
      State.eff { s.putWord s.w15.toNat (frame s.dev s.pc s.srl s.ipl3).1 with
        w15 := s.w15 + 2, race := [] } := push_ok _ _ rfl h1
  have hq : ({ s with race := [] } : State).pushFrame =
      (({ s with race := [] } : State).eff.push (frame s.dev s.pc s.srl s.ipl3).1).push
        (frame s.dev s.pc s.srl s.ipl3).2 := rfl
  rw [hq, hp, push_ok _ _ rfl (by exact h2)]
  simp only [State.eff_st, h3, h4]
  rfl

/-- What the stack holds after the pushes: the two words of the frame, and nothing else changed. -/
theorem withFrame_memory (s : State) :
    s.withFrame.wordAt s.w15.toNat = (frame s.dev s.pc s.srl s.ipl3).1 ∧
    s.withFrame.wordAt (s.w15.toNat + 2) = (frame s.dev s.pc s.srl s.ipl3).2 ∧
    SameMemoryBut s.w15.toNat 4 s s.withFrame := by
  have hc := wordAt_congr ((s.putWord s.w15.toNat (frame s.dev s.pc s.srl s.ipl3).1).putWord (s.w15.toNat + 2)
    (frame s.dev s.pc s.srl s.ipl3).2) s.withFrame rfl rfl
  refine ⟨?_, ?_, ?_⟩
  · rw [hc, wordAt_putWord_ne _ _ _ _ (by omega), wordAt_putWord_self]
  · rw [hc, wordAt_putWord_self]
  · intro b hb
    have hb' := byteAt_congr ((s.putWord s.w15.toNat (frame s.dev s.pc s.srl s.ipl3).1).putWord (s.w15.toNat + 2)
      (frame s.dev s.pc s.srl s.ipl3).2) s.withFrame rfl rfl b
    rw [hb', byteAt_putWord, byteAt_putWord, if_neg (by omega), if_neg (by omega), if_neg (by omega),
      if_neg (by omega)]

/-- Taking an exception with room on the stack (R224). -/
theorem takeException_ok (s : State) (r : Request) (h1 : StackOk s s.w15) (h2 : StackOk s (s.w15 + 2)) :
    takeException r s = (s.withFrame.vectorTo r (s.priority r) s.entryCycles).bump := by
  unfold takeException
  rw [pushFrame_ok s h1 h2]
  exact settle_quiet _ _ rfl rfl rfl

/-- The two pops of a return that meet no check (R145). -/
theorem popFrame_ok (s : State) (h1 : StackOk s (s.w15 - 2)) (h2 : StackOk s (s.w15 - 4)) :
    s.eff.popFrame =
      (unframe s.dev (s.wordAt (s.w15 - 4).toNat) (s.wordAt (s.w15 - 2).toNat),
        State.eff { s with w15 := s.w15 - 4, draws := s.draws + 1 + 1 }) := by
  have h4 : s.w15 - 2 - 2 = s.w15 - 4 := by bv_omega
  have hp : s.eff.pop = (s.wordAt (s.w15 - 2).toNat,
      State.eff { s with w15 := s.w15 - 2, draws := s.draws + 1 }) := pop_ok _ h1
  unfold Eff.popFrame
  simp only [hp]
  rw [pop_ok _ (by simp only [State.eff_st, h4]; exact h2)]
  simp only [State.eff_st, h4]
  rfl

/-- Returning from an exception with a good stack (R145, R233). -/
theorem returnFromException_ok (s : State) (h1 : StackOk s (s.w15 - 2)) (h2 : StackOk s (s.w15 - 4)) :
    returnFromException s =
      (let f := unframe s.dev (s.wordAt (s.w15 - 4).toNat) (s.wordAt (s.w15 - 2).toNat)
       State.tick 3 { s with
        w15 := s.w15 - 4
        draws := s.draws + 1 + 1
        ipl := f.2.1.extractLsb' 5 3
        flags := f.2.1.extractLsb' 0 5
        corcon := setBit s.corcon 3 f.2.2
        pc := f.1
        lateEntry := s.late }) := by
  unfold returnFromException
  rw [popFrame_ok s h1 h2]
  exact settle_quiet _ _ rfl rfl rfl

/-! ## What an entry leaves as the pushes left it -/

@[simp] theorem State.vectorTo_w (r : Request) (p c : Nat) (s : State) :
    (s.vectorTo r p c).w = s.w := by cases r <;> rfl
@[simp] theorem State.vectorTo_w15 (r : Request) (p c : Nat) (s : State) :
    (s.vectorTo r p c).w15 = s.w15 := by cases r <;> rfl
@[simp] theorem State.vectorTo_srh (r : Request) (p c : Nat) (s : State) :
    (s.vectorTo r p c).srh = s.srh := by cases r <;> rfl
@[simp] theorem State.vectorTo_flags (r : Request) (p c : Nat) (s : State) :
    (s.vectorTo r p c).flags = s.flags := by cases r <;> rfl
@[simp] theorem State.vectorTo_intcon1 (r : Request) (p c : Nat) (s : State) :
    (s.vectorTo r p c).intcon1 = s.intcon1 := by cases r <;> rfl
@[simp] theorem State.vectorTo_ifs (r : Request) (p c : Nat) (s : State) :
    (s.vectorTo r p c).ifs = s.ifs := by cases r <;> rfl
@[simp] theorem State.vectorTo_iec (r : Request) (p c : Nat) (s : State) :
    (s.vectorTo r p c).iec = s.iec := by cases r <;> rfl
@[simp] theorem State.vectorTo_ipc (r : Request) (p c : Nat) (s : State) :
    (s.vectorTo r p c).ipc = s.ipc := by cases r <;> rfl
@[simp] theorem State.vectorTo_splim (r : Request) (p c : Nat) (s : State) :
    (s.vectorTo r p c).splim = s.splim := by cases r <;> rfl
@[simp] theorem State.vectorTo_splimWritten (r : Request) (p c : Nat) (s : State) :
    (s.vectorTo r p c).splimWritten = s.splimWritten := by cases r <;> rfl
@[simp] theorem State.vectorTo_trapr (r : Request) (p c : Nat) (s : State) :
    (s.vectorTo r p c).trapr = s.trapr := by cases r <;> rfl
@[simp] theorem State.vectorTo_cf (r : Request) (p c : Nat) (s : State) :
    (s.vectorTo r p c).cf = s.cf := by cases r <;> rfl
@[simp] theorem State.vectorTo_accA (r : Request) (p c : Nat) (s : State) :
    (s.vectorTo r p c).accA = s.accA := by cases r <;> rfl
@[simp] theorem State.vectorTo_accB (r : Request) (p c : Nat) (s : State) :
    (s.vectorTo r p c).accB = s.accB := by cases r <;> rfl
@[simp] theorem State.vectorTo_mem (r : Request) (p c : Nat) (s : State) :
    (s.vectorTo r p c).mem = s.mem := by cases r <;> rfl
@[simp] theorem State.vectorTo_prog (r : Request) (p c : Nat) (s : State) :
    (s.vectorTo r p c).prog = s.prog := by cases r <;> rfl
@[simp] theorem State.vectorTo_pins (r : Request) (p c : Nat) (s : State) :
    (s.vectorTo r p c).pins = s.pins := by cases r <;> rfl
@[simp] theorem State.vectorTo_softSkid (r : Request) (p c : Nat) (s : State) :
    (s.vectorTo r p c).softSkid = s.softSkid := by cases r <;> rfl
@[simp] theorem State.vectorTo_events (r : Request) (p c : Nat) (s : State) :
    (s.vectorTo r p c).events = s.events := by cases r <;> rfl
@[simp] theorem State.vectorTo_timing (r : Request) (p c : Nat) (s : State) :
    (s.vectorTo r p c).timing = s.timing := by cases r <;> rfl
@[simp] theorem State.vectorTo_dev (r : Request) (p c : Nat) (s : State) :
    (s.vectorTo r p c).dev = s.dev := by cases r <;> rfl
@[simp] theorem State.vectorTo_turns (r : Request) (p c : Nat) (s : State) :
    (s.vectorTo r p c).turns = s.turns := by cases r <;> rfl
@[simp] theorem State.vectorTo_result (r : Request) (p c : Nat) (s : State) :
    (s.vectorTo r p c).result = s.result := by cases r <;> rfl
@[simp] theorem State.vectorTo_inert (r : Request) (p c : Nat) (s : State) :
    (s.vectorTo r p c).inert = s.inert := by cases r <;> rfl
@[simp] theorem State.vectorTo_memEpoch (r : Request) (p c : Nat) (s : State) :
    (s.vectorTo r p c).memEpoch = s.memEpoch := by cases r <;> rfl
@[simp] theorem State.vectorTo_power (r : Request) (p c : Nat) (s : State) :
    (s.vectorTo r p c).power = .run := by cases r <;> rfl

/-- The entry of an interrupt leaves IPL3 alone (R226). -/
theorem State.vectorTo_irq_corcon (n p c : Nat) (s : State) :
    (s.vectorTo (.irq n) p c).corcon = s.corcon := by
  simp only [State.vectorTo, State.tick_corcon, State.enterPriority]

/-- SR.IPL at the entry of an interrupt (R226). -/
theorem State.vectorTo_irq_ipl (n p c : Nat) (s : State) :
    (s.vectorTo (.irq n) p c).ipl = if s.nstdis then 7#3 else BitVec.ofNat 3 p := by
  simp only [State.vectorTo, State.tick_ipl, State.enterPriority]

/-- INTTREG at the entry of an interrupt (R227). -/
theorem State.vectorTo_irq_inttreg (n p c : Nat) (s : State) :
    (s.vectorTo (.irq n) p c).inttreg = inttregOf (BitVec.ofNat 4 p) (BitVec.ofNat 7 n) := by
  simp only [State.vectorTo, State.tick_inttreg, State.enterPriority]

/-- The entry of a trap sets IPL3 (R226). -/
theorem State.vectorTo_trap_corcon (k : TrapKind) (p c : Nat) (s : State) :
    (s.vectorTo (.trap k) p c).corcon = setBit s.corcon 3 true := by
  simp only [State.vectorTo, State.tick_corcon, State.enterPriority]

/-- SR.IPL at the entry of a trap (R226, D11). -/
theorem State.vectorTo_trap_ipl (k : TrapKind) (p c : Nat) (s : State) :
    (s.vectorTo (.trap k) p c).ipl = BitVec.ofNat 3 p := by
  simp only [State.vectorTo, State.tick_ipl, State.enterPriority]

/-- INTTREG at the entry of a trap: the priority, and a free vector number (R227). -/
theorem State.vectorTo_trap_inttreg (k : TrapKind) (p c : Nat) (s : State) :
    (s.vectorTo (.trap k) p c).inttreg = inttregOf (BitVec.ofNat 4 p) (Config.trapVecnum s.draws) := by
  simp only [State.vectorTo, State.tick_inttreg, State.enterPriority]

/-- The vector fetch (R228). -/
theorem State.vectorTo_pc (r : Request) (p c : Nat) (s : State) :
    (s.vectorTo r p c).pc = s.progRead24 (s.vecAddr r.vector) := by cases r <;> rfl

/-- The tick of the entry (R142, R224). -/
theorem ticked_vectorTo (r : Request) (p c : Nat) (s : State) : Ticked c s (s.vectorTo r p c) := by
  cases r <;> exact ticked_tick c _

/-- The two fields of INTTREG (R32). -/
theorem inttregOf_fields (ilr : BitVec 4) (vecnum : BitVec 7) :
    (inttregOf ilr vecnum).extractLsb' 8 4 = ilr ∧ (inttregOf ilr vecnum).extractLsb' 0 7 = vecnum := by
  constructor <;> apply BitVec.eq_of_getLsbD_eq <;> intro i hi
  · change ((0#4 ++ ilr ++ 0#1 ++ vecnum : BitVec (4 + 4 + 1 + 7)).extractLsb' 8 4).getLsbD i = _
    have h1 : ¬ 8 + i < 7 := by omega
    have h2 : ¬ 8 + i - 7 < 1 := by omega
    have h3 : 8 + i - 7 - 1 = i := by omega
    simp only [BitVec.getLsbD_extractLsb', BitVec.getLsbD_append, hi, h1, h2, h3, decide_true, Bool.true_and,
      if_false, if_true]
  · change ((0#4 ++ ilr ++ 0#1 ++ vecnum : BitVec (4 + 4 + 1 + 7)).extractLsb' 0 7).getLsbD i = _
    simp only [BitVec.getLsbD_extractLsb', BitVec.getLsbD_append, hi, Nat.zero_add, decide_true, Bool.true_and,
      if_true]

/-- What an entry raises, whatever its pushes did to the stack and the trap flags (R226, R227). -/
theorem entered_vectorTo (r : Request) (s u : State) (c : Nat) (hn : u.nstdis = s.nstdis)
    (hc : u.corcon = s.corcon) : Entered r s (u.vectorTo r (s.priority r) c) := by
  constructor
  · rintro n rfl
    refine ⟨?_, ?_, ?_, ?_⟩
    · rw [State.vectorTo_irq_ipl, hn]
      simp only [State.priority, BitVec.ofNat_toNat, BitVec.setWidth_eq]
      rfl
    · rw [State.vectorTo_irq_corcon, hc]
    · rw [State.vectorTo_irq_inttreg, (inttregOf_fields _ _).1, State.priority]
      generalize s.seenField n = x
      revert x
      decide
    · rw [State.vectorTo_irq_inttreg, (inttregOf_fields _ _).2]
  · rintro k rfl
    have h3 : (setBit s.corcon 3 true).getLsbD 3 = true := getLsbD_setBit_self _ _ _ (by omega)
    refine ⟨?_, ?_, fun j hj => ?_, ?_⟩
    · unfold State.cpuIpl State.ipl3
      rw [State.vectorTo_trap_ipl, State.vectorTo_trap_corcon, hc, h3, State.priority]
      cases k <;> rfl
    · rw [State.ipl3, State.vectorTo_trap_corcon, hc, h3]
    · rw [State.vectorTo_trap_corcon, hc, getLsbD_setBit_ne _ _ _ _ hj]
    · rw [State.vectorTo_trap_inttreg, (inttregOf_fields _ _).1]
      rfl

end Sys2Proof.Machine
end

