-- ==== Sys2Proof/Laws/Frame.lean ====
section
/-! SUPPORT. The frame of an exception: every function is the `Frame` of some device, what the family's two words
hold, and that the family's device has the law of D2. -/

namespace Sys2Proof.Machine

/-! ## Every function is some device's -/

/-- Every function of the first `n` bits of an input is computed by an expression. -/
theorem exists_bitExpr (n : Nat) (f : (Nat → Bool) → Bool)
    (h : ∀ u v : Nat → Bool, (∀ i, i < n → u i = v i) → f u = f v) :
    ∃ e : BitExpr, ∀ v, bitValue v e = f v := by
  induction n generalizing f with
  | zero => exact ⟨.const (f fun _ => false), fun v => h _ _ fun i hi => absurd hi (Nat.not_lt_zero i)⟩
  | succ n ih =>
    let g (b : Bool) (v : Nat → Bool) : Bool := f fun i => if i = n then b else v i
    have hg (b : Bool) : ∀ u v : Nat → Bool, (∀ i, i < n → u i = v i) → g b u = g b v := by
      intro u v huv
      refine h _ _ fun i hi => ?_
      by_cases hin : i = n
      · simp [hin]
      · simp [hin, huv i (by omega)]
    obtain ⟨e1, h1⟩ := ih (g true) (hg true)
    obtain ⟨e0, h0⟩ := ih (g false) (hg false)
    refine ⟨.xor (.and (.bit n) e1) (.and (.not (.bit n)) e0), fun v => ?_⟩
    have hv : f v = g (v n) v := h _ _ fun i _ => by by_cases hin : i = n <;> simp [hin]
    rw [hv]
    simp only [bitValue, h1, h0]
    cases v n <;> simp

/-- Every function of bit vectors is computed by a list of expressions. -/
theorem exists_evalBits {m n : Nat} (f : BitVec m → BitVec n) : ∃ l, ∀ w, evalBits l n w = f w := by
  have hb (j : Nat) : ∃ e : BitExpr, ∀ w : BitVec m, bitValue w.getLsbD e = (f w).getLsbD j := by
    obtain ⟨e, he⟩ := exists_bitExpr m (fun v => (f (ofBits v m)).getLsbD j) fun u v huv => by
      rw [show ofBits u m = ofBits v m from
        ofBits_eq _ _ fun i hi => by rw [getLsbD_ofBits, huv i hi]; simp [hi]]
    exact ⟨e, fun w => by rw [he, ofBits_eq _ w fun _ _ => rfl]⟩
  choose e he using hb
  refine ⟨(List.range n).map e, fun w => ofBits_eq _ _ fun i hi => ?_⟩
  simp [hi, he]

/-- The low part of two bit vectors side by side. -/
theorem extractLsb'_append_low {m n : Nat} (a : BitVec m) (b : BitVec n) : (a ++ b).extractLsb' 0 n = b := by
  apply BitVec.eq_of_getLsbD_eq
  intro i hi
  simp only [BitVec.getLsbD_extractLsb', BitVec.getLsbD_append, hi, Nat.zero_add, decide_true, Bool.true_and,
    if_true]

/-- A part of two bit vectors side by side that lies in the high one. -/
theorem extractLsb'_append_high {m n k : Nat} (a : BitVec m) (b : BitVec n) (j : Nat) :
    (a ++ b).extractLsb' (n + j) k = a.extractLsb' j k := by
  apply BitVec.eq_of_getLsbD_eq
  intro i hi
  simp only [BitVec.getLsbD_extractLsb', BitVec.getLsbD_append, hi, decide_true, Bool.true_and,
    show ¬ n + j + i < n by omega, if_false, show n + j + i - n = j + i by omega]

/-- All of a bit vector. -/
theorem extractLsb'_self {n : Nat} (a : BitVec n) : a.extractLsb' 0 n = a := by
  apply BitVec.eq_of_getLsbD_eq
  intro i hi
  simp only [BitVec.getLsbD_extractLsb', hi, decide_true, Bool.true_and, Nat.zero_add]

/-- The three parts of IPL3 : SRL : PC. -/
theorem framePart (ret : PAddr) (srl : Byte) (ipl3 : Bool) :
    (BitVec.ofBool ipl3 ++ srl ++ ret).extractLsb' 0 24 = ret ∧
    (BitVec.ofBool ipl3 ++ srl ++ ret).extractLsb' 24 8 = srl ∧
    (BitVec.ofBool ipl3 ++ srl ++ ret).getLsbD 32 = ipl3 := by
  refine ⟨extractLsb'_append_low _ _, (extractLsb'_append_high _ ret 0).trans (extractLsb'_append_low _ _), ?_⟩
  rw [BitVec.getLsbD_append, if_neg (by omega), BitVec.getLsbD_append, if_neg (by omega)]
  cases ipl3 <;> rfl

/-- The two words of a frame. -/
theorem frameWords (w1 w2 : Word) :
    (w2 ++ w1).extractLsb' 0 16 = w1 ∧ (w2 ++ w1).extractLsb' 16 16 = w2 :=
  ⟨extractLsb'_append_low _ _, (extractLsb'_append_high _ w1 0).trans (extractLsb'_self _)⟩

/-- `Frame` can be any function of PC, SRL and IPL3 to two words (R7). -/
theorem exists_frame (d : Device) (f : PAddr → Byte → Bool → Word × Word) :
    ∃ l, ∀ ret srl ipl3, frame { d with frame := l } ret srl ipl3 = f ret srl ipl3 := by
  obtain ⟨l, hl⟩ := exists_evalBits (m := 33) (n := 32) fun w =>
    let p := f (w.extractLsb' 0 24) (w.extractLsb' 24 8) (w.getLsbD 32)
    p.2 ++ p.1
  refine ⟨l, fun ret srl ipl3 => ?_⟩
  have hw := hl (BitVec.ofBool ipl3 ++ srl ++ ret)
  obtain ⟨h1, h2, h3⟩ := framePart ret srl ipl3
  rw [h1, h2, h3] at hw
  simp only [frame]
  rw [hw]
  exact Prod.ext (frameWords _ _).1 (frameWords _ _).2

/-- `Unframe` can be any function of two words to a return address, SRL and IPL3 (R7). -/
theorem exists_unframe (d : Device) (f : Word → Word → PAddr × Byte × Bool) :
    ∃ l, ∀ w1 w2, unframe { d with unframe := l } w1 w2 = f w1 w2 := by
  obtain ⟨l, hl⟩ := exists_evalBits (m := 32) (n := 33) fun w =>
    let p := f (w.extractLsb' 0 16) (w.extractLsb' 16 16)
    BitVec.ofBool p.2.2 ++ p.2.1 ++ p.1
  refine ⟨l, fun w1 w2 => ?_⟩
  have hw := hl (w2 ++ w1)
  rw [(frameWords w1 w2).1, (frameWords w1 w2).2] at hw
  obtain ⟨h1, h2, h3⟩ := framePart (f w1 w2).1 (f w1 w2).2.1 (f w1 w2).2.2
  simp only [unframe]
  rw [hw]
  exact Prod.ext h1 (Prod.ext h2 h3)

/-- Every `Frame` with an inverse that D2 asks for is that of a device with the law of D2. -/
theorem exists_frameLaw (d : Device) (f : PAddr → Byte → Bool → Word × Word) (g : Word → Word → PAddr × Byte × Bool)
    (h : ∀ ret srl ipl3, ret.getLsbD 0 = false → ret.getLsbD 23 = false →
      g (f ret srl ipl3).1 (f ret srl ipl3).2 = (ret, srl, ipl3)) :
    ∃ l u, FrameLaw { d with frame := l, unframe := u } ∧
      ∀ ret srl ipl3, frame { d with frame := l, unframe := u } ret srl ipl3 = f ret srl ipl3 := by
  obtain ⟨l, hl⟩ := exists_frame d f
  obtain ⟨u, hu⟩ := exists_unframe d g
  have hl' (ret srl ipl3) : frame { d with frame := l, unframe := u } ret srl ipl3 = f ret srl ipl3 := hl ret srl ipl3
  refine ⟨l, u, fun ret h0 h23 srl ipl3 => ?_, hl'⟩
  rw [hl']
  exact (hu _ _).trans (h ret srl ipl3 h0 h23)

/-! ## The family's frame -/

/-- Bit `i` that a list of expressions computes. -/
theorem getLsbD_evalBits (l : List BitExpr) (n : Nat) {m : Nat} (w : BitVec m) (i : Nat) :
    (evalBits l n w).getLsbD i = (decide (i < n) && bitValue w.getLsbD (l[i]?.getD (.const false))) :=
  getLsbD_ofBits _ _ _

/-- The two words in the family's layout (G1). -/
theorem frame_family (d : Device) (h : d.frame = familyFrame) (ret : PAddr) (srl : Byte) (ipl3 : Bool) :
    frame d ret srl ipl3 = (ret.extractLsb' 0 16, srl ++ BitVec.ofBool ipl3 ++ ret.extractLsb' 16 7) := by
  have key : ∀ j : Fin 32, familyFrame[j.val]?.getD (.const false) =
      .bit (if j.val < 23 then j.val else if j.val = 23 then 32 else j.val) := by decide
  have hbit (j : Nat) (hj : j < 32) : (evalBits familyFrame 32 (BitVec.ofBool ipl3 ++ srl ++ ret)).getLsbD j =
      (BitVec.ofBool ipl3 ++ srl ++ ret).getLsbD (if j < 23 then j else if j = 23 then 32 else j) := by
    rw [getLsbD_evalBits, decide_eq_true hj, Bool.true_and, show _ = _ from key ⟨j, hj⟩]
    rfl
  simp only [frame, h]
  refine Prod.ext ?_ ?_ <;> apply BitVec.eq_of_getLsbD_eq <;> intro i hi
  · simp only [BitVec.getLsbD_extractLsb', hi, decide_true, Bool.true_and, Nat.zero_add]
    rw [hbit i (by omega), if_pos (by omega), BitVec.getLsbD_append, if_pos (by omega)]
  · simp only [BitVec.getLsbD_extractLsb', hi, decide_true, Bool.true_and]
    rw [hbit (16 + i) (by omega)]
    change _ = (srl ++ BitVec.ofBool ipl3 ++ ret.extractLsb' 16 7 : BitVec (8 + 1 + 7)).getLsbD i
    simp only [BitVec.getLsbD_append, BitVec.getLsbD_extractLsb']
    by_cases h7 : i < 7
    · simp [h7, show 16 + i < 23 by omega, show 16 + i < 24 by omega]
    · by_cases h8 : i = 7
      · subst h8; simp
      · have hs : 16 + i - 24 = i - 7 - 1 := by omega
        have h8' : ¬ 8 ≤ i - 7 - 1 := by omega
        simp [h7, hs, h8', show ¬ 16 + i < 23 by omega, show ¬ 16 + i = 23 by omega, show ¬ 16 + i < 24 by omega,
          show ¬ i - 7 < 1 by omega]

/-- The parts of a frame in the family's layout (G1). -/
theorem unframe_family (d : Device) (h : d.unframe = familyUnframe) (w1 w2 : Word) :
    unframe d w1 w2 = (0#1 ++ w2.extractLsb' 0 7 ++ w1, w2.extractLsb' 8 8, w2.getLsbD 7) := by
  have key : ∀ j : Fin 33, familyUnframe[j.val]?.getD (.const false) =
      if j.val = 23 then .const false else if j.val = 32 then .bit 23 else .bit j.val := by decide
  have hbit (j : Nat) (hj : j < 33) : (evalBits familyUnframe 33 (w2 ++ w1)).getLsbD j =
      if j = 23 then false else if j = 32 then (w2 ++ w1).getLsbD 23 else (w2 ++ w1).getLsbD j := by
    rw [getLsbD_evalBits, decide_eq_true hj, Bool.true_and, show _ = _ from key ⟨j, hj⟩]
    simp only
    split
    · rfl
    · split <;> rfl
  simp only [unframe, h]
  refine Prod.ext ?_ (Prod.ext ?_ ?_)
  · apply BitVec.eq_of_getLsbD_eq
    intro i hi
    simp only [BitVec.getLsbD_extractLsb', hi, decide_true, Bool.true_and, Nat.zero_add]
    rw [hbit i (by omega)]
    change _ = (0#1 ++ w2.extractLsb' 0 7 ++ w1 : BitVec (1 + 7 + 16)).getLsbD i
    simp only [BitVec.getLsbD_append, BitVec.getLsbD_extractLsb', BitVec.getLsbD_zero]
    by_cases h16 : i < 16
    · simp [h16, show i ≠ 23 by omega, show i ≠ 32 by omega]
    · by_cases h23 : i = 23
      · subst h23; simp
      · simp [h16, h23, show i ≠ 32 by omega, show i - 16 < 7 by omega]
  · apply BitVec.eq_of_getLsbD_eq
    intro i hi
    simp only [BitVec.getLsbD_extractLsb', hi, decide_true, Bool.true_and]
    rw [hbit (24 + i) (by omega), if_neg (by omega), if_neg (by omega), BitVec.getLsbD_append,
      if_neg (by omega), show 24 + i - 16 = 8 + i by omega]
  · rw [hbit 32 (by omega), if_neg (by omega), if_pos rfl, BitVec.getLsbD_append, if_neg (by omega)]

/-- The family's device has the law of D2. -/
theorem frameLaw_family (d : Device) (h : d.frame = familyFrame) (hu : d.unframe = familyUnframe) : FrameLaw d := by
  intro ret _ h23 srl ipl3
  rw [frame_family d h, unframe_family d hu]
  refine Prod.ext ?_ (Prod.ext (extractLsb'_append_high (srl ++ BitVec.ofBool ipl3) (ret.extractLsb' 16 7) 1 |>.trans
    ((extractLsb'_append_high srl (BitVec.ofBool ipl3) 0).trans (extractLsb'_self _))) ?_)
  · apply BitVec.eq_of_getLsbD_eq
    intro i hi
    rw [show (srl ++ BitVec.ofBool ipl3 ++ ret.extractLsb' 16 7).extractLsb' 0 7 = ret.extractLsb' 16 7 from
      extractLsb'_append_low _ _]
    change (0#1 ++ ret.extractLsb' 16 7 ++ ret.extractLsb' 0 16 : BitVec (1 + 7 + 16)).getLsbD i = _
    simp only [BitVec.getLsbD_append, BitVec.getLsbD_extractLsb', BitVec.getLsbD_zero]
    by_cases h16 : i < 16
    · simp [h16]
    · by_cases h7 : i = 23
      · subst h7
        simpa using h23.symm
      · simp [h16, show i - 16 < 7 by omega, show 16 + (i - 16) = i by omega]
  · change (srl ++ BitVec.ofBool ipl3 ++ ret.extractLsb' 16 7).getLsbD 7 = _
    rw [BitVec.getLsbD_append, if_neg (by omega), BitVec.getLsbD_append, if_pos (by omega)]
    cases ipl3 <;> rfl

end Sys2Proof.Machine
end

