-- ==== Sys2Proof/Laws/PerInstr.lean ====
section
/-! SUPPORT. Statements made once for every instruction, one lemma per constructor. -/

namespace Sys2Proof.Laws.EncodingLength

open Sys2Proof

/-- An instruction that has an encoding takes exactly the words that `encodedWords` counts (R121, R125). -/
def Statement (i : Instr) : Prop := ∀ ws, encode i = some ws → ws.length = encodedWords i

theorem nop : Statement (.nop) := by
  intro ws h
  cases h
  rfl

theorem retfie : Statement (.retfie) := by
  intro ws h
  cases h
  rfl

theorem ret : Statement (.ret) := by
  intro ws h
  cases h
  rfl

theorem reset : Statement (.reset) := by
  intro ws h
  cases h
  rfl

theorem pwrsav (m : PowerMode) : Statement (.pwrsav m) := by
  intro ws h
  cases m <;> (cases h; rfl)

theorem disi (k : BitVec 14) : Statement (.disi k) := by
  intro ws h
  cases h
  rfl

theorem repeatLit (k : BitVec 14) : Statement (.repeatLit k) := by
  intro ws h
  cases h
  rfl

theorem gotoWord1 (lo : BitVec 15) (hi : BitVec 7) : Statement (.gotoWord1 lo hi) := by
  intro ws h
  cases h
  rfl

theorem gotoWord2 (hi : BitVec 7) : Statement (.gotoWord2 hi) := by
  intro ws h
  cases h
  rfl

theorem bra (n : BitVec 16) : Statement (.bra n) := by
  intro ws h
  cases h
  rfl

theorem pushF (f : BitVec 15) : Statement (.pushF f) := by
  intro ws h
  cases h
  rfl

theorem popF (f : BitVec 15) : Statement (.popF f) := by
  intro ws h
  cases h
  rfl

theorem orSrl (v : Byte) : Statement (.orSrl v) := by
  intro ws h
  cases h

theorem sftac (acc : Acc) (n : ShiftCount) : Statement (.sftac acc n) := by
  intro ws h
  cases h

theorem repeatDiv (divisor : Int) : Statement (.repeatDiv divisor) := by
  intro ws h
  cases h

theorem accOp (acc : Acc) (ov31 ov39 : Bool) : Statement (.accOp acc ov31 ov39) := by
  intro ws h
  cases h

theorem movdPsv (c : TrapConds) : Statement (.movdPsv c) := by
  intro ws h
  cases h

theorem btscPsv (c : TrapConds) (skip : Bool) : Statement (.btscPsv c skip) := by
  intro ws h
  cases h

theorem btssPsv (c : TrapConds) (skip : Bool) : Statement (.btssPsv c skip) := by
  intro ws h
  cases h

theorem bitIndirect (ea : Word) (op : DataOp) : Statement (.bitIndirect ea op) := by
  intro ws h
  cases h

theorem dataAccess (size : Size) (ea : Word) (op : DataOp) : Statement (.dataAccess size ea op) := by
  intro ws h
  cases h

theorem macFetch (space : MacSpace) (ea : Word) : Statement (.macFetch space ea) := by
  intro ws h
  cases h

theorem stackAccess (mode : StackMode) (size : Size) (op : DataOp) : Statement (.stackAccess mode size op) := by
  intro ws h
  cases h

theorem sfrWrite (r : Sfr) (v : Word) : Statement (.sfrWrite r v) := by
  intro ws h
  cases h

theorem sfrRead (r : Sfr) : Statement (.sfrRead r) := by
  intro ws h
  cases h

theorem sfrBitClear (r : Sfr) (b : Fin 16) : Statement (.sfrBitClear r b) := by
  intro ws h
  cases h

theorem sfrBitSet (r : Sfr) (b : Fin 16) : Statement (.sfrBitSet r b) := by
  intro ws h
  cases h

theorem sfrFieldWrite (r : Sfr) (hi lo : Fin 16) (v : Word) : Statement (.sfrFieldWrite r hi lo v) := by
  intro ws h
  cases h

theorem splimWrite (v : Word) : Statement (.splimWrite v) := by
  intro ws h
  cases h

theorem disicntWrite (op : CountOp) : Statement (.disicntWrite op) := by
  intro ws h
  cases h

theorem other (c : TrapConds) : Statement (.other c) := by
  intro ws h
  cases h

end Sys2Proof.Laws.EncodingLength
end

