-- ==== Sys2Proof/Laws/SfrAccess.lean ====
section
/-! SUPPORT. What a software write to a special function register can do: each bit by its access, nothing else. -/

namespace Sys2Proof.Machine

/-- A bit of a masked register. -/
theorem getLsbD_and_self {n : Nat} (w m : BitVec n) (b : Nat) :
    (w &&& m).getLsbD b = (w.getLsbD b && m.getLsbD b) := BitVec.getLsbD_and

/-- SR bit by bit from its three parts (R23). -/
theorem getLsbD_sr (s : State) (b : Nat) :
    s.sr.getLsbD b =
      if b < 5 then s.flags.getLsbD b else if b < 8 then s.ipl.getLsbD (b - 5) else s.srh.getLsbD (b - 8) := by
  change (s.srh ++ s.ipl ++ s.flags : BitVec (8 + 3 + 5)).getLsbD b = _
  simp only [BitVec.getLsbD_append]
  by_cases h5 : b < 5
  · simp [h5]
  · by_cases h8 : b < 8
    · have : b - 5 < 3 := by omega
      simp [h5, h8, this]
    · have : ¬ b - 5 < 3 := by omega
      have h : b - 5 - 3 = b - 8 := by omega
      simp [h5, h8, this, h]

/-- The 16-bit write mask of SR (R40): the IPL bits drop out of it while NSTDIS is 1 (R25). -/
def srWmask (n : Bool) : Word := if n then 0x010F#16 else 0x01EF#16

/-- A software write to SR is a masked write of the 16-bit register (R40). -/
theorem writeSr_sr (s : State) (sel v : Word) :
    (s.writeSr sel v).sr = accessWrite s.sr v sel (srWmask s.nstdis) 0x3400#16 := by
  apply BitVec.eq_of_getLsbD_eq
  intro b hb
  rw [getLsbD_sr, getLsbD_accessWrite, getLsbD_sr]
  by_cases h5 : b < 5
  · have hw : ∀ (n : Bool) (b : Fin 5), (0x0F#5).getLsbD b = (srWmask n).getLsbD b ∧
        (0#5).getLsbD b = (0x3400#16).getLsbD b := by decide
    have := hw s.nstdis ⟨b, h5⟩
    simp only [h5, if_true, State.writeSr, getLsbD_accessWrite, BitVec.getLsbD_extractLsb', decide_true,
      Bool.true_and, Nat.zero_add, this.1, this.2]
  · by_cases h8 : b < 8
    · have h3 : b - 5 < 3 := by omega
      have hb5 : 5 + (b - 5) = b := by omega
      simp only [h5, h8, if_true, if_false, State.writeSr]
      cases hn : s.nstdis
      · have hw : ∀ b : Fin 3, (7#3).getLsbD b = (srWmask false).getLsbD (5 + b) ∧
            (0#3).getLsbD b = (0x3400#16).getLsbD (5 + b) := by decide
        have := hw ⟨b - 5, h3⟩
        simp only [hb5] at this
        simp only [Bool.false_eq_true, if_false, getLsbD_accessWrite, BitVec.getLsbD_extractLsb', h3,
          decide_true, Bool.true_and, hb5, this.1, this.2]
      · have hw : ∀ b : Fin 3, (srWmask true).getLsbD (5 + b) = false ∧
            (0x3400#16).getLsbD (5 + b) = false := by decide
        have := hw ⟨b - 5, h3⟩
        simp only [hb5] at this
        simp only [if_true, this.1, this.2, Bool.false_and, Bool.false_eq_true, if_false, Bool.not_false,
          Bool.and_true]
    · have h3 : b - 8 < 8 := by omega
      have hb8 : 8 + (b - 8) = b := by omega
      have hw : ∀ (n : Bool) (b : Fin 8), (0x01#8).getLsbD b = (srWmask n).getLsbD (8 + b) ∧
          (0x34#8).getLsbD b = (0x3400#16).getLsbD (8 + b) := by decide
      have := hw s.nstdis ⟨b - 8, h3⟩
      simp only [hb8] at this
      simp only [h5, h8, if_false, State.writeSr, getLsbD_accessWrite, BitVec.getLsbD_extractLsb', h3,
        decide_true, Bool.true_and, hb8, this.1, this.2]

/-- The access that the masks of a register give a bit: writable, clear-only, implemented. -/
def maskAccess (wmask cmask impl : Word) (b : Nat) : Access :=
  if wmask.getLsbD b then .rw
  else if cmask.getLsbD b then .clearOnly
  else if impl.getLsbD b then .ro
  else .unimplemented

/-- A masked write, bit by bit, as the access of each bit says (R9, R40). -/
theorem accessWrite_bit (old v sel wmask cmask impl : Word) (b : Nat)
    (hd : wmask.getLsbD b = true → cmask.getLsbD b = false)
    (hi : wmask.getLsbD b = true ∨ cmask.getLsbD b = true → impl.getLsbD b = true) :
    (accessWrite old v sel wmask cmask &&& impl).getLsbD b =
      if sel.getLsbD b then
        (maskAccess wmask cmask impl b).written ((old &&& impl).getLsbD b) (v.getLsbD b)
      else (old &&& impl).getLsbD b := by
  simp only [BitVec.getLsbD_and, getLsbD_accessWrite, maskAccess]
  cases hw : wmask.getLsbD b <;> cases hc : cmask.getLsbD b <;> cases hs : sel.getLsbD b <;>
    cases hm : impl.getLsbD b <;> simp_all [Access.written]

/-- The tables of R23, R26, R30 and R32 are the masks of R40. -/
theorem tables_are_masks :
    (∀ (n : Bool) (b : Fin 16), srAccess n b = maskAccess (srWmask n) 0x3400 0xFFFF b) ∧
    (∀ b : Fin 16, corconAccess b = maskAccess 0x08F7 0x0008 0x0FFF b) ∧
    (∀ b : Fin 16, intcon2Access b = maskAccess 0x8007 0 0xC007 b) ∧
    (∀ b : Fin 16, inttregAccess b = maskAccess 0 0 0x0F7F b) := by decide

/-- The implemented bits of IFSx and IECx are writable, the others do not exist (R61, R62, R70). -/
theorem flagAccess_eq (d : Device) (x b : Nat) (hb : b < 16) :
    flagAccess d x b = maskAccess (flagMask d x) 0 (flagMask d x) b := by
  unfold flagAccess maskAccess
  rw [getLsbD_flagMask]
  cases hasSource d (16 * x + b) <;> simp [hb]

/-- The implemented bits of IPCx are writable, the others do not exist (R63, R70). -/
theorem prioAccess_eq (d : Device) (x b : Nat) (hb : b < 16) :
    prioAccess d x b = maskAccess (prioMask d x) 0 (prioMask d x) b := by
  unfold prioAccess maskAccess
  rw [getLsbD_prioMask]
  cases hasSource d (4 * x + b / 4) <;> by_cases h : b % 4 = 3 <;> simp [hb, h]

/-- A software write to a register of the tables changes the selected bits as their access says (R40, R150). -/
theorem sfrUpdate_bit (r : Sfr) (acc : Nat → Access) (sel v : Word) (e : Eff)
    (h : tableAccess e.st r = some acc) (b : Nat) (hb : b < 16) :
    ((e.sfrUpdate r sel v).st.sfrValue r).getLsbD b =
      if sel.getLsbD b then (acc b).written ((e.st.sfrValue r).getLsbD b) (v.getLsbD b)
      else (e.st.sfrValue r).getLsbD b := by
  obtain ⟨t1, t2, t3, t4⟩ := tables_are_masks
  cases r with
  | sr =>
    simp only [tableAccess, Option.some.injEq] at h
    subst h
    have := t1 e.st.nstdis ⟨b, hb⟩
    simp only at this
    rw [this]
    have hm : ∀ w : Word, w &&& 0xFFFF#16 = w := fun w => by
      have : (0xFFFF#16) = BitVec.allOnes 16 := by decide
      rw [this, BitVec.and_allOnes]
    have hg := accessWrite_bit e.st.sr v sel (srWmask e.st.nstdis) 0x3400#16 0xFFFF#16 b
    rw [hm, hm] at hg
    simp only [Eff.sfrUpdate, Eff.sfrBits, Eff.map_st, State.sfrValue]
    change (State.writeSr sel v e.st).sr.getLsbD b = _
    rw [writeSr_sr]
    apply hg
    · have : ∀ (n : Bool) (b : Fin 16), (srWmask n).getLsbD b = true → (0x3400#16).getLsbD b = false := by
        decide
      exact this _ ⟨b, hb⟩
    · intro _
      have : ∀ b : Fin 16, (0xFFFF#16).getLsbD b = true := by decide
      exact this ⟨b, hb⟩
  | corcon =>
    simp only [tableAccess, Option.some.injEq] at h
    subst h
    have := t2 ⟨b, hb⟩
    simp only at this
    rw [this]
    refine accessWrite_bit e.st.corcon v sel _ _ _ b ?_ ?_
    · have : ∀ b : Fin 16, (0x08F7#16).getLsbD b = true → (0x0008#16).getLsbD b = false := by decide
      exact this ⟨b, hb⟩
    · have : ∀ b : Fin 16, (0x08F7#16).getLsbD b = true ∨ (0x0008#16).getLsbD b = true →
          (0x0FFF#16).getLsbD b = true := by decide
      exact this ⟨b, hb⟩
  | intcon2 =>
    simp only [tableAccess, Option.some.injEq] at h
    subst h
    have := t3 ⟨b, hb⟩
    simp only at this
    rw [this]
    refine accessWrite_bit e.st.intcon2 v sel _ _ _ b (fun _ => BitVec.getLsbD_zero) ?_
    have : ∀ b : Fin 16, (0x8007#16).getLsbD b = true ∨ (0#16).getLsbD b = true →
        (0xC007#16).getLsbD b = true := by decide
    exact this ⟨b, hb⟩
  | inttreg =>
    simp only [tableAccess, Option.some.injEq] at h
    subst h
    have := t4 ⟨b, hb⟩
    simp only at this
    rw [this]
    simp only [Eff.sfrUpdate, Eff.sfrBits, State.sfrValue, maskAccess, BitVec.getLsbD_and]
    cases (0x0F7F#16).getLsbD b <;> simp [Access.written]
  | ifs i =>
    simp only [tableAccess, Option.some.injEq] at h
    subst h
    rw [flagAccess_eq _ _ _ hb]
    have := accessWrite_bit e.st.ifs[i] v sel (flagMask e.st.dev i.val) 0 (flagMask e.st.dev i.val) b
      (fun _ => BitVec.getLsbD_zero) (by simp)
    simpa [Eff.sfrUpdate, Eff.sfrBits, State.wroteData, State.sfrValue] using this
  | iec i =>
    simp only [tableAccess, Option.some.injEq] at h
    subst h
    rw [flagAccess_eq _ _ _ hb]
    have := accessWrite_bit e.st.iec[i] v sel (flagMask e.st.dev i.val) 0 (flagMask e.st.dev i.val) b
      (fun _ => BitVec.getLsbD_zero) (by simp)
    simpa [Eff.sfrUpdate, Eff.sfrBits, State.wroteData, State.sfrValue] using this
  | ipc i =>
    simp only [tableAccess, Option.some.injEq] at h
    subst h
    rw [prioAccess_eq _ _ _ hb]
    have := accessWrite_bit e.st.ipc[i] v sel (prioMask e.st.dev i.val) 0 (prioMask e.st.dev i.val) b
      (fun _ => BitVec.getLsbD_zero) (by simp)
    simpa [Eff.sfrUpdate, Eff.sfrBits, State.wroteData, State.writeIpc, State.sfrValue] using this
  | intcon1 => simp [tableAccess] at h
  | disicnt => simp [tableAccess] at h
  | splim => simp [tableAccess] at h
  | rcon => simp [tableAccess] at h
  | osccon => simp [tableAccess] at h

/-- A software write to a register of the tables changes no other register. The bits of RCON and OSCCON that
the spec does not name are free at every read. -/
theorem sfrUpdate_other (r q : Sfr) (acc : Nat → Access) (sel v : Word) (e : Eff)
    (h : tableAccess e.st r = some acc) (hq : q ≠ r) (hr : q ≠ .rcon) (ho : q ≠ .osccon) :
    (e.sfrUpdate r sel v).st.sfrValue q = e.st.sfrValue q := by
  cases r <;> simp only [tableAccess, reduceCtorEq] at h <;> cases q <;>
    first
    | exact absurd rfl hq
    | exact absurd rfl hr
    | exact absurd rfl ho
    | rfl
    | (simp only [Eff.sfrUpdate, Eff.sfrBits, State.wroteData, State.writeIpc, Eff.map_st, State.sfrValue, ne_eq, Sfr.ifs.injEq, Sfr.iec.injEq,
        Sfr.ipc.injEq] at hq ⊢
       have := Fin.val_ne_of_ne hq
       simp [Ne.symm this])

/-- What a software write to a register of the tables keeps: everything that is no SFR, INTCON1 with its hidden
bits, DISICNT, the bits of the effect. -/
theorem sfrUpdate_frame (r : Sfr) (acc : Nat → Access) (sel v : Word) (e : Eff)
    (h : tableAccess e.st r = some acc) :
    let u := (e.sfrUpdate r sel v).st
    (u.pc = e.st.pc ∧ u.w = e.st.w ∧ u.w15 = e.st.w15 ∧ u.intcon1 = e.st.intcon1 ∧ u.inert = e.st.inert ∧
     u.softSkid = e.st.softSkid ∧ u.disicnt = e.st.disicnt ∧ u.splim = e.st.splim ∧
     u.splimWritten = e.st.splimWritten ∧ u.trapr = e.st.trapr ∧ u.cf = e.st.cf ∧ u.accA = e.st.accA ∧
     u.accB = e.st.accB ∧ u.mem = e.st.mem ∧ u.memEpoch = e.st.memEpoch ∧ u.prog = e.st.prog ∧
     u.power = e.st.power ∧ u.pins = e.st.pins ∧ u.events = e.st.events ∧ u.timing = e.st.timing ∧
     u.dev = e.st.dev ∧ u.turns = e.st.turns) ∧
    ((∀ i, r ≠ .ipc i) → u.race = e.st.race) ∧
    (e.sfrUpdate r sel v).addr = e.addr ∧ (e.sfrUpdate r sel v).swAddr = e.swAddr ∧
    (e.sfrUpdate r sel v).swOsc = e.swOsc := by
  cases r <;> simp only [tableAccess, reduceCtorEq] at h <;>
    simp [Eff.sfrUpdate, Eff.sfrBits, State.wroteData, State.writeIpc, State.writeSr]

end Sys2Proof.Machine
end

