-- ==== Sys2Proof/Laws/Step.lean ====
section
/-! SUPPORT. What a step of the CPU does, said once: every instruction answers a next state, and what the boundary
adds around it. -/

namespace Sys2Proof.Machine

/-- Every instruction answers a next state, from every state. -/
theorem exec_next (i : Instr) (s : State) : ∃ t, exec i s = .next t := by
  cases i with
  | repeatLit k => simp only [exec, execRepeatLit]; split <;> exact ⟨_, rfl⟩
  | macFetch space ea => simp only [exec, execMacFetch]; split <;> exact ⟨_, rfl⟩
  | _ => exact ⟨_, rfl⟩

/-- A turn of the CPU is its step, the turn being used up (R216). -/
theorem step_cpu (s : State) (left : List Turn) (h : CpuTurn s left) :
    step s = cpuStep { s with turns := left } := by
  rcases h with ⟨h, rfl⟩ | h
  · have : ({ s with turns := [] } : State) = s := by rw [← h]
    rw [this]
    simp only [step, turn, h]
  · simp only [step, turn, h]

/-- With the turn of a running CPU the step is what it does at the boundary (R140, R216). -/
theorem step_boundary (s : State) (left : List Turn) (h : CpuTurn s left) (hp : s.power = .run) :
    step s = boundary { s with turns := left } := by
  rw [step_cpu s left h]
  simp only [cpuStep, hp]

/-- The instruction that stands at `pc` runs (R140 c, R209). -/
theorem boundary_instr (s : State) (i : Instr) (t : State) (hn : s.taken = none)
    (hp : progImplemented s.dev s.pc = true) (hf : s.fetch = .instr i) (he : exec i s.atBoundary = .next t) :
    boundary s = .next (t.endSkid s.softSkid) := by
  simp only [boundary, hn, hp, hf, he, if_true, endSkidResult]

/-- The exception that is taken is entered (R140 b, R209). -/
theorem boundary_exception (s : State) (r : Request) (hr : s.taken = some r) :
    boundary s = .next ((takeException r { s with dataWrite := false }).endSkid s.softSkid) := by
  simp only [boundary, hr, endSkidResult]

end Sys2Proof.Machine
end

