-- ==== Sys2Proof/Tests/Slice0.lean ====
section
/-! SUPPORT. Tests: expected values are those of spec/30_encoding.md R125, spec/11_interrupt_source_registers.md
and the vectors V-* and programs P* of spec/95_test_vectors.md. The last part shows, for every statement with
hypotheses, a state that meets them. -/

set_option maxRecDepth 20000

namespace Sys2Proof.Tests

open Sys2Proof Sys2Proof.Machine

/-- The state that an outcome answers, looked at by `f`. -/
def look {α : Type} (o : Host.Outcome State Fault Refusal) (f : State → α) : Option α :=
  match o with
  | .next s => some (f s)
  | .fault _ => none
  | .refused _ => none

/-- The reset state with `pc` at the start of a program (spec/95_test_vectors.md, conventions). -/
def base : State := { State.reset with pc := 0x000200 }

/-- `base` with memory words at even addresses. -/
def withWords (ws : List (Nat × Word)) (s : State) : State := ws.foldl (fun s p => s.putWord p.1 p.2) s

/-- `base` with Timer1 of priority 2 and Timer3 of priority 6 enabled (end of X1). -/
def timers (ifs0 : Word) : State :=
  { base with
    ifs := #v[ifs0, 0, 0, 0, 0]
    iec := #v[0x0188, 0x0008, 0, 0, 0]
    ipc := #v[0x2444, 0x5444, 0x4446, 0x0444, 0x4444, 0x4404, 0x4444, 0x4444, 0x4444, 0x0004,
              0x0000, 0x0440, 0x0000, 0x0000, 0x4440, 0x4444, 0x4440, 0x0444, 0x4440, 0x4400] }

/-! ## Well-formedness: one ill-formed term for each check -/

theorem test_wf_refuses_ipc10 : (Instr.sfrWrite (.ipc 10) 0).wf = false := by decide
theorem test_wf_refuses_ipc12 : (Instr.sfrRead (.ipc 12)).wf = false := by decide
theorem test_wf_refuses_ipc13 : (Instr.sfrBitSet (.ipc 13) 0).wf = false := by decide
theorem test_wf_refuses_bit_clear_of_ipc10 : (Instr.sfrBitClear (.ipc 10) 0).wf = false := by decide
theorem test_wf_refuses_wide_byte_store : (Instr.dataAccess .byte 0x1000 (.write 256)).wf = false := by decide
theorem test_wf_refuses_wide_byte_push : (Instr.stackAccess .indirect .byte (.write 256)).wf = false := by decide
theorem test_wf_refuses_reversed_field : (Instr.sfrFieldWrite .sr 5 7 0).wf = false := by decide
theorem test_wf_refuses_wide_field_value : (Instr.sfrFieldWrite .sr 7 5 8).wf = false := by decide
theorem test_wf_accepts_field : (Instr.sfrFieldWrite .sr 7 5 7).wf = true := by decide

/-! ## Decoding: words written out from the rows of R125 -/

theorem test_decode_nop : decodeTableWord 24 0b000000001010101010101010 = some .nop := by decide
theorem test_decode_retfie : decodeTableWord 24 0b000001100100000000000000 = some .retfie := by decide
theorem test_decode_return : decodeTableWord 24 0b000001100000000000000000 = some .ret := by decide
theorem test_decode_reset : decodeTableWord 24 0b111111100000000000000000 = some .reset := by decide
theorem test_decode_pwrsav_sleep : decodeTableWord 24 0b111111100100000000000000 = some (.pwrsav .sleep) := by
  decide
theorem test_decode_pwrsav_idle : decodeTableWord 24 0b111111100100000000000001 = some (.pwrsav .idle) := by
  decide
theorem test_decode_disi : decodeTableWord 24 0b111111000000000000000011 = some (.disi 3) := by decide
theorem test_decode_repeat : decodeTableWord 24 0x090011 = some (.repeatLit 17) := by decide
theorem test_decode_goto : decodeTableWord 24 0x040200 = some (.gotoWord1 0x100 0) := by decide
theorem test_decode_goto_high : decodeTableWord 48 0x00007F04FF00 = some (.gotoWord1 0x7F80 0x7F) := by decide
theorem test_decode_goto_second_word : decode [0x00007F#24] = .ok (.nop, []) := by decide
theorem test_decode_bra_dot : decodeTableWord 24 0x37FFFF = some (.bra 0xFFFF) := by decide
theorem test_decode_push_sr : decodeTableWord 24 0xF80042 = some (.pushF 0x21) := by decide
theorem test_decode_pop_sr : decodeTableWord 24 0xF90042 = some (.popF 0x21) := by decide
theorem test_decode_refuses_unallocated : decode [0xFFFFFF#24] = .error .unallocated := by decide
theorem test_decode_refuses_half_goto : decode [0x040200#24] = .error .noSecondWord := by decide
theorem test_decode_refuses_bad_goto : decode [0x040200#24, 0x000080#24] = .error .badSecondWord := by decide

/-! ## The register tables: R64, R69, R70 -/

theorem test_flag_masks : (List.range 5).map (flagMask familyDevice) =
    [0x7FFF, 0xFFDF, 0x601F, 0xFE00, 0xCE7E] := by decide
theorem test_priority_masks : (List.range 20).map (prioMask familyDevice) =
    [0x7777, 0x7777, 0x7777, 0x0777, 0x7777, 0x7707, 0x7777, 0x7777, 0x7777, 0x0007,
     0, 0x0770, 0, 0, 0x7770, 0x7777, 0x7770, 0x0777, 0x7770, 0x7700] := by decide
theorem test_priority_resets : (List.range 20).map (prioReset familyDevice) =
    [0x4444, 0x4444, 0x4444, 0x0444, 0x4444, 0x4404, 0x4444, 0x4444, 0x4444, 0x0004,
     0, 0x0440, 0, 0, 0x4440, 0x4444, 0x4440, 0x0444, 0x4440, 0x4400] := by decide
theorem test_reserved_irqs : (List.range 118).filter (fun n => !hasSource familyDevice n) =
    [15, 21] ++ List.range' 37 8 ++ List.range' 47 10 ++ [64, 71, 72, 76, 77] ++ List.range' 80 38 := by decide
theorem test_family_device_wf : deviceWf familyDevice = true := by decide
theorem test_device_wf_needs_no_more_than_tables :
    let d (rs : List AddrRange) : Device := { familyDevice with progRanges := rs }
    deviceWf (d [⟨0, 0⟩, ⟨0x4, 0xFE⟩, ⟨0x104, 0x1FE⟩]) = true ∧
    deviceWf (d [⟨0, 0⟩, ⟨0x4, 0xFC⟩, ⟨0x104, 0x1FE⟩]) = false := by decide

/-! ## Vectors, V-M -/

theorem test_vecaddr_osc : base.vecAddr 1 = 0x000006 := by decide
theorem test_vecaddr_last_alternate : ({ base with intcon2 := 0x8000 } : State).vecAddr 125 = 0x0001FE := by decide

/-! ## Arbitration, V-A -/

theorem test_va1_taken : (timers 0x0008).taken = some (.irq 3) := by decide
theorem test_va2_equal_not_taken : ({ timers 0x0008 with ipl := 2 } : State).taken = none := by decide
theorem test_va5_greatest_priority : (timers 0x0108).taken = some (.irq 8) := by decide
theorem test_va4_natural_order : ({ timers 0x0009 with
    iec := #v[0x0009, 0, 0, 0, 0], ipc := Vector.replicate 20 0x4444 } : State).taken = some (.irq 0) := by decide
theorem test_va9_soft_trap_first : ({ timers 0x0100 with intcon1 := 0x0004 } : State).taken =
    some (.trap .stkErr) := by decide
theorem test_va10_ipl_masks_no_trap : ({ base with ipl := 7, intcon1 := 0x0010 } : State).taken =
    some (.trap .mathErr) := by decide
theorem test_va11_lower_trap_waits : ({ base with ipl := 4, corcon := 0x0028, intcon1 := 0x0010 } : State).taken =
    none := by decide
theorem test_vd4_disi_masks_six : ({ timers 0x0100 with intcon2 := 0x4000, disicnt := 5 } : State).taken =
    none := by decide
theorem test_soft_skid_holds_soft_trap : ({ base with intcon1 := 0x0004, softSkid := true } : State).taken =
    none := by decide
theorem test_soft_skid_lasts_one_boundary : look (step { base with
    intcon1 := 0x0004, softSkid := true, events := [(0x000200, ⟨.repeatDiv 0, 2⟩)] })
    (fun t => (t.intcon1, t.softSkid)) = some (0x0054, false) := by decide

/-! ## Entry and return, V-E -/

/-- V-E1. -/
def ve1 : State := { timers 0x0008 with pc := 0x000202, prog := [(0x00001A, 0x000300)] }

theorem test_ve1_entry : look (step ve1) (fun t => (t.pc, t.w15, t.sr, t.corcon, t.inttreg)) =
    some (0x000300, 0x0804, 0x0040, 0x0020, 0x0203) := by decide
theorem test_ve1_frame : look (step ve1) (fun t => (t.wordAt 0x0800, t.wordAt 0x0802, t.ifs[0])) =
    some (0x0202, 0x0000, 0x0008) := by decide
theorem test_ve2_frame : look (step { timers 0x0100 with pc := 0x012346, w15 := 0x1000, ipl := 2, flags := 9 })
    (fun t => (t.wordAt 0x1000, t.wordAt 0x1002, t.sr, t.inttreg)) =
    some (0x2346, 0x4901, 0x00C9, 0x0608) := by decide
theorem test_other_frame :
    let d : Device := { familyDevice with
      frame := ((List.range 8).map fun i => .bit (24 + i)) ++ [.not (.bit 32)] ++
        ((List.range 22).map fun i => .bit (i + 1)) ++ [.xor (.bit 23) (.bit 32)]
      unframe := [.const false] ++ ((List.range 22).map fun i => .bit (9 + i)) ++ [.xor (.bit 31) (.not (.bit 8))] ++
        ((List.range 8).map .bit) ++ [.not (.bit 8)] }
    frame d 0x812346 0x49 true = (0x4649, 0x0123) ∧ unframe d 0x4649 0x0123 = (0x812346, 0x49, true) := by decide
theorem test_ve4_nstdis : look (step { ve1 with intcon1 := 0x8000 }) (fun t => (t.sr, t.inttreg)) =
    some (0x00E0, 0x0203) := by decide
theorem test_ve5_trap_entry : look (step { base with intcon1 := 0x0010, prog := [(0x00000C, 0x000600)] })
    (fun t => (t.pc, t.corcon, t.sr, t.cpuIpl)) = some (0x000600, 0x0028, 0x0060, 11) := by decide
theorem test_ve8_retfie_forged : look (exec .retfie
    (withWords [(0x0800, 0x0400), (0x0802, 0x0080)] { base with w15 := 0x0804 }))
    (fun t => (t.pc, t.sr, t.cpuIpl, t.w15)) = some (0x000400, 0, 8, 0x0800) := by decide
theorem test_ve9_retfie_ignores_nstdis : look (exec .retfie
    (withWords [(0x0800, 0x0400), (0x0802, 0x0000)] { base with w15 := 0x0804, ipl := 7, intcon1 := 0x8000 }))
    (fun t => t.ipl) = some 0 := by decide
theorem test_return_keeps_sr : look (exec .ret
    (withWords [(0x0800, 0x0400), (0x0802, 0xFF81)] { base with w15 := 0x0804 }))
    (fun t => (t.pc, t.sr, t.ipl3)) = some (0x010400, 0, false) := by decide
theorem test_ve11_entry_above_splim : look (step { ve1 with splim := 0x0800, splimWritten := true })
    (fun t => (t.intcon1, t.w15, t.wordAt 0x0802)) = some (0x0004, 0x0804, 0x0000) := by decide

/-! ## One instruction each -/

theorem test_nop : look (exec .nop base) (fun t => t.pc) = some 0x000202 := by decide
theorem test_reset : look (exec .reset { base with intcon1 := 0x8010, ipl := 5 })
    (fun t => (t.pc, t.w15, t.sr, t.intcon1, t.ipc[3])) = some (0, 0x0800, 0, 0, 0x0444) := by decide
theorem test_pwrsav_sleeps : look (exec (.pwrsav .sleep) base) (fun t => (t.pc, t.power)) =
    some (0x000202, .sleep) := by decide
theorem test_vs5_pwrsav_wakes_at_once : look (exec (.pwrsav .idle) { timers 0x0008 with ipl := 7 })
    (fun t => t.power) = some .run := by decide
theorem test_vd1_disi : look (exec (.disi 3) base) (fun t => (t.disicnt, t.intcon2)) = some (3, 0x4000) := by
  decide
theorem test_vd2_disi_zero : look (exec (.disi 0) { base with disicnt := 9, intcon2 := 0x4000 })
    (fun t => (t.disicnt, t.intcon2)) = some (0, 0x0000) := by decide
theorem test_repeat_divide_by_zero : look (exec (.repeatLit 17)
    { base with events := [(0x000202, ⟨.repeatDiv 0, 1⟩)] }) (fun t => (t.pc, t.intcon1)) =
    some (0x000204, 0x0050) := by decide
theorem test_vt4_divide : look (exec (.repeatDiv 5) { base with events := [(0x000200, ⟨.repeatDiv 5, 2⟩)] })
    (fun t => (t.pc, t.intcon1)) = some (0x000204, 0x0000) := by decide
theorem test_goto : look (exec (.gotoWord1 0x7F80 0x01) base) (fun t => (t.pc, t.intcon1)) =
    some (0x01FF00, 0) := by decide
theorem test_vt22_goto_unimplemented : look (exec (.gotoWord1 0x7F80 0x7F)
    { base with dev := { familyDevice with progRanges := [⟨0, 0x00FFFF⟩] } }) (fun t => (t.pc, t.intcon1)) =
    some (0x7FFF00, 0x0008) := by decide
theorem test_bra_back : look (exec (.bra 0xFFFE) { base with pc := 0x000202 }) (fun t => t.pc) =
    some 0x000200 := by decide
theorem test_x6_push_sr : look (exec (.pushF 0x21) { base with ipl := 2 }) (fun t => (t.w15, t.wordAt 0x0800)) =
    some (0x0802, 0x0040) := by decide
theorem test_x6_pop_sr : look (exec (.popF 0x21) (withWords [(0x0800, 0x0040)] { base with w15 := 0x0802, ipl := 7 }))
    (fun t => (t.w15, t.sr)) = some (0x0800, 0x0040) := by decide
theorem test_x6_or_srl : look (exec (.orSrl 0xE0) { base with ipl := 2 }) (fun t => t.ipl) = some 7 := by decide
theorem test_or_srl_nstdis : look (exec (.orSrl 0xE0) { base with intcon1 := 0x8000 }) (fun t => t.ipl) =
    some 0 := by decide
theorem test_vt1_sftac : look (exec (.sftac .a (.lit (-16))) base) (fun t => t.intcon1) = some 0 := by decide
theorem test_vt2_sftac_register : look (exec (.sftac .b (.reg 15)) { base with w15 := 0xFFEF })
    (fun t => (t.intcon1, t.accB)) = some (0x0090, 0) := by decide
theorem test_vt6_overflow_a : look (exec (.accOp .a true false) { base with intcon1 := 0x0400 })
    (fun t => (t.intcon1, t.srh)) = some (0x4410, 0x80) := by decide
theorem test_vt8_catastrophic : look (exec (.accOp .a true true) { base with intcon1 := 0x0100 })
    (fun t => t.intcon1) = some 0x1110 := by decide
theorem test_movd : look (exec (.movdPsv {}) base) (fun t => (t.pc, t.lateEntry)) = some (0x000202, true) := by
  decide
theorem test_btsc_skips_a_goto : look (exec (.btscPsv {} true) { base with prog := [(0x000202, 0x040200), (0x000204, 0)] })
    (fun t => t.pc) = some 0x000206 := by decide
theorem test_btss_goes_on : look (exec (.btssPsv {} false) base) (fun t => t.pc) = some 0x000202 := by decide
theorem test_vt20_bit_indirect : look (exec (.bitIndirect 0x1001 (.write 1)) base)
    (fun t => (t.intcon1, t.mem)) = some (0x0008, []) := by decide
theorem test_word_store : look (exec (.dataAccess .word 0x1000 (.write 0x1234)) base)
    (fun t => (t.byteAt 0x1000, t.byteAt 0x1001)) = some (0x34, 0x12) := by decide
theorem test_byte_store_to_an_sfr : look (exec (.dataAccess .byte 0x0085 (.write 0xFF)) base)
    (fun t => t.ifs[0]) = some 0x7F00 := by decide
theorem test_mac_crossing : look (exec (.macFetch .x 0x1000)
    { base with dev := { familyDevice with xRanges := [⟨0, 0x0FFF⟩] } }) (fun t => t.intcon1) = some 0x0008 := by
  decide
theorem test_vt12_stack_at_limit : look (exec (.stackAccess .indirect .word (.write 1))
    { base with w15 := 0x0900, splim := 0x0900, splimWritten := true }) (fun t => t.intcon1) = some 0 := by decide
theorem test_vt15_stack_wraps : look (exec (.stackAccess (.offset 4) .word (.write 7))
    { base with w15 := 0xFFFE }) (fun t => (t.intcon1, t.wordAt 2)) = some (0x0004, 7) := by decide
theorem test_vw3_corcon_write : look (exec (.sfrWrite .corcon 0xFFFF) base) (fun t => t.corcon) =
    some 0x08F7 := by decide
theorem test_inttreg_is_read_only : look (exec (.sfrBitClear .inttreg 0) { base with inttreg := 0x0203 })
    (fun t => t.inttreg) = some 0x0203 := by decide
theorem test_sfr_read_ifs : look (exec (.sfrRead (.ifs 0)) (timers 0x0108)) (fun t => t.result) =
    some 0x0108 := by decide
theorem test_sfr_bit_clear : look (exec (.sfrBitClear (.ifs 0) 8) (timers 0x0188)) (fun t => t.ifs[0]) =
    some 0x0088 := by decide
theorem test_sfr_bit_set_ipl3 : look (exec (.sfrBitSet .corcon 3) base) (fun t => t.corcon) = some 0x0020 := by
  decide
theorem test_x1_field_write : look (exec (.sfrFieldWrite (.ipc 0) 14 12 2) base) (fun t => t.ipc[0]) =
    some 0x2444 := by decide
theorem test_disabled_source_does_not_race : look (exec (.sfrFieldWrite (.ipc 0) 14 12 7) base)
    (fun t => (t.race, t.ipcField 3)) = some ([], 7) := by decide
theorem test_vw11_nstdis_freezes_ipl : look (exec (.sfrWrite .sr 0) { base with intcon1 := 0x8000, ipl := 7 })
    (fun t => t.ipl) = some 7 := by decide
theorem test_splim_write : look (exec (.splimWrite 0x0900) base) (fun t => (t.splim, t.splimWritten)) =
    some (0x0900, true) := by decide
theorem test_vd7_disicnt_write : look (exec (.disicntWrite (.write 500))
    { base with disicnt := 2, intcon2 := 0x4000 }) (fun t => (t.disicnt, t.intcon2)) = some (499, 0x4000) := by decide
theorem test_vd8_disicnt_masks_nothing : look (exec (.disicntWrite (.add 500)) base)
    (fun t => (t.disicnt, t.intcon2)) = some (499, 0) := by decide
theorem test_other_conditions : look (exec (.other { stack := true, addr := true }) base)
    (fun t => (t.pc, t.intcon1)) = some (0x000202, 0x000C) := by decide
theorem test_saturation_stops_an_overflow : look (exec (.other { ovA := true, covA := true, addr := true })
    { base with intcon1 := 0x0500, corcon := 0x00A0, mem := [(0x0900, 3)] }) (fun t => (t.intcon1, t.byteAt 0x0900)) =
    some (0x0508, 3) := by decide
theorem test_vt25_conflict : look (exec (.bitIndirect 0x1001 .read) { base with intcon1 := 0x0002 })
    (fun t => (t.pc, t.trapr, t.intcon1)) = some (0, true, 0) := by decide

/-! ## The environment -/

theorem test_vs1_peripheral_wakes : look (step { timers 0 with power := .sleep, turns := [.env (.periph 3)] })
    (fun t => (t.power, t.ifs[0])) = some (.run, 0x0008) := by decide
theorem test_falling_edge : look (step { base with
    intcon2 := 0x0002, pins := #v[false, true, false], turns := [.env (.pinChange 1 false)] })
    (fun t => (t.ifs[1], t.pins[1])) = some (0x0010, false) := by decide
theorem test_osc_fail : look (step { base with power := .sleep, turns := [.env .oscFail] })
    (fun t => (t.intcon1, t.cf, t.power)) = some (0x0002, true, .run) := by decide
theorem test_dma_collision_needs_a_data_write : look (step { base with turns := [.env .dmaCollision] })
    (fun t => t.intcon1) = some 0 := by decide
theorem test_placed_word_runs : look (step (State.reset.withFetchWord 24 0xFC0003)) (fun t => (t.pc, t.disicnt)) =
    some (2, 3) := by decide
theorem test_nothing_programmed : step State.reset = .fault .nothingProgrammed := by rfl

/-! ## Witnesses: for every statement with hypotheses, states and operands that meet them

One theorem for each clause that has hypotheses of its own, at a boundary of its range where it has one. -/

/-- A device with holes: 128 KB of program memory, 32 KB of data memory, X below 0x4800, Y from there on. -/
def holedDevice : Device :=
  { familyDevice with
    progRanges := [⟨0, 0x01FFFF⟩], dataRanges := [⟨0, 0x7FFF⟩], xRanges := [⟨0, 0x47FF⟩],
    yRanges := [⟨0x4800, 0x7FFF⟩] }

/-- `base` on that device. -/
def holed : State := { base with dev := holedDevice }

theorem witness_DecodeEncodeRoundTrip :
    (Instr.gotoWord1 0x7FFF 0x7F).wf = true ∧ (∀ hi, Instr.gotoWord1 0x7FFF 0x7F ≠ .gotoWord2 hi) ∧
    encode (.gotoWord1 0x7FFF 0x7F) = some [0x04FFFE, 0x00007F] := ⟨by decide, nofun, by decide⟩

theorem witness_EncodeDecodeExact : decode [0x00FFFF#24] = .ok (.nop, []) ∧
    decode [0x04FFFE#24, 0x00007F#24] = .ok (.gotoWord1 0x7FFF 0x7F, []) := by decide

theorem witness_StepRunsDecodedInstruction_words :
    let s : State := { base with
      prog := [(0x000200, 0x040300), (0x000202, 0)], turns := [.cpu, .env (.periph 3)] }
    CpuTurn s [.env (.periph 3)] ∧ AtInstruction s ∧ memFind s.events (wordAddr s.pc) = none ∧
    memFind s.prog (wordAddr s.pc) = some 0x040300 ∧
    decode (0x040300 :: (memFind s.prog (wordAddr s.pc + 2)).toList) = .ok (.gotoWord1 0x180 0, []) := by
  unfold CpuTurn AtInstruction; decide

theorem witness_StepRunsDecodedInstruction_event :
    let s : State := { base with events := [(0x000200, ⟨.orSrl 0xE0, 1⟩)] }
    CpuTurn s [] ∧ AtInstruction s ∧ memFind s.events (wordAddr s.pc) = some ⟨.orSrl 0xE0, 1⟩ := by
  unfold CpuTurn AtInstruction; decide

theorem witness_StepTakesException :
    let s : State := { ve1 with softSkid := true, turns := [.cpu, .cpu] }
    CpuTurn s [.cpu] ∧ s.power = .run ∧ s.taken = some (.irq 3) := by unfold CpuTurn; decide

theorem witness_StepAtUnimplementedAddress :
    let s : State := { holed with pc := 0x020000, ipl := 7, turns := [.cpu, .env .oscFail] }
    CpuTurn s [.env .oscFail] ∧ s.power = .run ∧ s.taken = none ∧ progImplemented s.dev s.pc = false ∧
    HardTrapPends s := by unfold CpuTurn HardTrapPends; decide

theorem witness_SleepingCpuOnlyWakes_wakes :
    let s : State := { timers 0x0008 with power := .idle }
    CpuTurn s [] ∧ s.power = .idle ∧
    hasSource s.dev 3 = true ∧ s.ifsBit 3 = true ∧ s.iecBit 3 = true ∧ s.ipcField 3 ≠ 0 := by
  unfold CpuTurn; decide

theorem witness_SleepingCpuOnlyWakes_sleeps :
    let s : State := { base with
      power := .sleep, ifs := #v[0x0008, 0, 0, 0, 0], iec := #v[0x0008, 0, 0, 0, 0], ipc := Vector.replicate 20 0
      turns := [.cpu, .env (.periph 3)] }
    CpuTurn s [.env (.periph 3)] ∧ s.power = .sleep ∧ ∀ n, n < 118 → hasSource s.dev n = true →
      s.ifsBit n = true → s.iecBit n = true → s.ipcField n = 0 := by unfold CpuTurn; decide

theorem witness_SleepingCpuOnlyWakes_halted :
    CpuTurn ({ base with power := .halt } : State) [] ∧ ({ base with power := .halt } : State).power = .halt := by
  unfold CpuTurn; decide

theorem witness_TakenIsBestCandidate :
    ({ timers 0x0108 with ipl := 5 } : State).taken = some (.irq 8) := by decide

theorem witness_InterruptsNeedHigherPriority :
    let s : State := { timers 0x0008 with
      ipl := 6, ipc := Vector.replicate 20 0x7777, intcon2 := 0x4000, disicnt := 1 }
    s.taken = some (.irq 3) ∧ s.disi = true := by decide

theorem witness_TrapsCannotBeMasked_soft :
    let s : State := { base with ipl := 7, intcon1 := 0x0020 }
    s.trapPending .dmaErr = true ∧ s.softSkid = false ∧ s.cpuIpl ≤ 7 := by decide

theorem witness_TrapsCannotBeMasked_hard :
    let s : State := { base with ipl := 7, intcon1 := 0x0008, softSkid := true }
    s.trapPending .addrErr = true ∧ TrapKind.hard .addrErr = true ∧ s.cpuIpl ≤ 7 := by decide

theorem witness_HardTrapHoldsTheProgram :
    let s : State := { base with ipl := 4, corcon := 0x0028, intcon1 := 0x000C, softSkid := true }
    TrapKind.hard .addrErr = true ∧ s.trapPending .addrErr = true ∧ s.cpuIpl < 13 ∧
    s.softSkid = true ∧ s.taken = some (.trap .addrErr) := by decide

theorem witness_EntrySavesAndRaises :
    StackOk ve1 ve1.w15 ∧ StackOk ve1 (ve1.w15 + 2) ∧ ve1.lateEntry = false ∧ ve1.dev.frame = familyFrame := by
  unfold StackOk PlainRam; decide

theorem witness_EntrySavesAndRaises_at_limit :
    let s : State := { ve1 with w15 := 0xFFFC, splim := 0xFFFE, splimWritten := true, lateEntry := true }
    StackOk s s.w15 ∧ StackOk s (s.w15 + 2) ∧ s.lateEntry = true := by unfold StackOk PlainRam; decide

theorem witness_EntryFaultsAreRaised_splim :
    let s : State := { ve1 with w15 := 0xFFFC, splim := 0xFFFD, splimWritten := true }
    s.taken = some (.irq 3) ∧ s.w15.getLsbD 0 = false ∧ PlainRam s s.w15 ∧ PlainRam s (s.w15 + 2) ∧
    ¬ OutsideStack s s.w15 ∧ OutsideStack s (s.w15 + 2) := by
  unfold PlainRam OutsideStack; decide

theorem witness_EntryFaultsAreRaised_floor :
    let s : State := { ve1 with w15 := 0x07FE }
    s.taken = some (.irq 3) ∧ s.w15.getLsbD 0 = false ∧ PlainRam s s.w15 ∧ PlainRam s (s.w15 + 2) ∧
    OutsideStack s s.w15 ∧ ¬ OutsideStack s (s.w15 + 2) := by
  unfold PlainRam OutsideStack; decide

theorem witness_EntryFaultsAreRaised_wrap :
    let s : State := { ve1 with w15 := 0xFFFE }
    s.taken = some (.irq 3) ∧ s.w15.getLsbD 0 = false ∧ PlainRam s s.w15 ∧ PlainRam s (s.w15 + 2) ∧
    OutsideStack s (s.w15 + 2) := by unfold PlainRam OutsideStack; decide

theorem witness_EntryFaultsAreRaised_hole :
    let s : State := { ve1 with dev := holedDevice, w15 := 0x7FFE }
    s.taken = some (.irq 3) ∧ s.w15.getLsbD 0 = false ∧ PlainRam s s.w15 ∧
    dataImplemented s.dev (s.w15 + 2) = false ∧ ¬ OutsideStack s s.w15 ∧ ¬ OutsideStack s (s.w15 + 2) := by
  unfold PlainRam OutsideStack; decide

theorem witness_EntryFaultsAreRaised_register :
    let s : State := { ve1 with w15 := 0x0042 }
    s.taken = some (.irq 3) ∧ s.w15.getLsbD 0 = false ∧ StandsAt s s.w15 .sr ∧ ¬ StandsAt s (s.w15 + 2) .sr ∧
    StandsAt s (s.w15 + 2) .corcon ∧ ¬ StandsAt s s.w15 .corcon ∧ ¬ StandsAt s s.w15 .intcon1 ∧
    ¬ StandsAt s (s.w15 + 2) .intcon1 ∧ s.w15.toNat < 0x0800 ∧
    tableAccess s .sr = some (srAccess false) ∧ ¬ EntryWrites .sr 8 :=
  ⟨by decide, by decide, by unfold StandsAt; decide, by unfold StandsAt; decide, by unfold StandsAt; decide,
    by unfold StandsAt; decide, by unfold StandsAt; decide, by unfold StandsAt; decide, by decide, rfl,
    by unfold EntryWrites; decide⟩

theorem witness_EntryFaultsAreRaised_intcon1 :
    let s : State := { ve1 with pc := 0x000200, w15 := 0x0080 }
    s.taken = some (.irq 3) ∧ StandsAt s s.w15 .intcon1 ∧ ¬ StandsAt s (s.w15 + 2) .intcon1 ∧
    (frame s.dev s.pc s.srl s.ipl3).1 = 0x0200 ∧ SetsNoHardFlag s 0x0200 ∧
    StandsAt s (s.w15 + 2) .intcon2 ∧ ¬ StandsAt s s.w15 .intcon2 :=
  ⟨by decide, by unfold StandsAt; decide, by unfold StandsAt; decide, by decide,
    by rintro j (rfl | rfl) h <;> exact absurd h (by decide), by unfold StandsAt; decide, by unfold StandsAt; decide⟩

theorem witness_EntryFaultsAreRaised_disicnt :
    let s : State := { ve1 with w15 := 0x0052 }
    let u : State := { ve1 with w15 := 0x001E }
    s.taken = some (.irq 3) ∧ StandsAt s s.w15 .disicnt ∧ PlainRam s (s.w15 + 2) ∧
    u.taken = some (.irq 3) ∧ StandsAt u (u.w15 + 2) .splim ∧ PlainRam u u.w15 := by
  unfold StandsAt PlainRam; decide

theorem witness_EntryFaultsAreRaised_odd :
    let s : State := { base with w15 := 0x0801, intcon1 := 0x0004 }
    s.taken = some (.trap .stkErr) ∧ s.w15.getLsbD 0 = true ∧ s.trapPending .oscFail = false ∧
    s.priority (.trap .stkErr) < 13 := by decide

theorem witness_EntryFaultsAreRaised_conflict :
    let s : State := { base with w15 := 0x0801, intcon1 := 0x0002 }
    s.taken = some (.trap .oscFail) ∧ s.w15.getLsbD 0 = true ∧ s.trapPending .oscFail = true := by decide

theorem witness_EntryFaultsAreRaised_same_level :
    let s : State := { base with w15 := 0x0801, intcon1 := 0x0008 }
    s.taken = some (.trap .addrErr) ∧ s.w15.getLsbD 0 = true ∧ s.trapPending .oscFail = false := by decide

theorem witness_RetfieRestoresFromStack :
    let s : State := { base with w15 := 0x0804, ipl := 3, intcon1 := 0x8000 }
    StackOk s (s.w15 - 2) ∧ StackOk s (s.w15 - 4) ∧ s.dev.unframe = familyUnframe := by unfold StackOk PlainRam; decide

theorem witness_ReturnUndoesEntry :
    let s : State := { ve1 with pc := 0x7FFFFE, w15 := 0xFFFC }
    StackOk s s.w15 ∧ StackOk s (s.w15 + 2) ∧ FrameKeeps s.dev s.pc :=
  ⟨by unfold StackOk PlainRam; decide, by unfold StackOk PlainRam; decide,
    frameLaw_family familyDevice rfl rfl 0x7FFFFE (by decide) (by decide)⟩

theorem witness_ReturnTakesPcFromStack :
    let s : State := { base with w15 := 0x0000 }
    StackOk s (s.w15 - 2) ∧ StackOk s (s.w15 - 4) := by unfold StackOk PlainRam; decide

theorem witness_ReturnOutsideStackRaisesStackError_floor :
    let s : State := { base with w15 := 0x0802 }
    ¬ OutsideStack s (s.w15 - 2) ∧ OutsideStack s (s.w15 - 4) ∧ ¬ BadRead s (s.w15 - 2) ∧ ¬ BadRead s (s.w15 - 4) ∧
    PopReads s (s.w15 - 2) (s.wordAt (s.w15 - 2).toNat) ∧ PopReads s (s.w15 - 4) (s.wordAt (s.w15 - 4).toNat) :=
  ⟨by unfold OutsideStack; decide, by unfold OutsideStack; decide, by unfold BadRead; decide,
    by unfold BadRead; decide, .inl ⟨by unfold PlainRam; decide, rfl⟩, .inl ⟨by unfold PlainRam; decide, rfl⟩⟩

theorem witness_ReturnOutsideStackRaisesStackError_splim :
    let s : State := { base with w15 := 0x0904, splim := 0x0901, splimWritten := true }
    OutsideStack s (s.w15 - 2) ∧ ¬ OutsideStack s (s.w15 - 4) ∧ ¬ BadRead s (s.w15 - 2) ∧
    ¬ BadRead s (s.w15 - 4) := by unfold OutsideStack BadRead; decide

theorem witness_ReturnOutsideStackRaisesStackError_registers :
    let s : State := { base with w15 := 0x0084 }
    OutsideStack s (s.w15 - 2) ∧ OutsideStack s (s.w15 - 4) ∧ ¬ BadRead s (s.w15 - 2) ∧ ¬ BadRead s (s.w15 - 4) ∧
    PopReads s (s.w15 - 4) 0x0004 ∧ PopReads s (s.w15 - 2) 0x0000 := by
  refine ⟨by unfold OutsideStack; decide, by unfold OutsideStack; decide, by unfold BadRead; decide,
    by unfold BadRead; decide, .inr (.inl ?_), .inr (.inr ⟨.intcon2, ?_⟩)⟩
  · unfold StandsAt OutsideStack; decide
  · unfold StandsAt; decide

theorem witness_ReturnOutsideStackRaisesStackError_both :
    let s : State := { base with w15 := 0x0803 }
    OutsideStack s (s.w15 - 4) ∧ BadRead s (s.w15 - 2) ∧ HardTrapPends s := by
  unfold OutsideStack BadRead HardTrapPends; decide

theorem witness_ResetValues : base.dev.implemented = familySources := by decide

theorem witness_HardTrapConflictResets_pending :
    let s : State := { base with intcon1 := 0x0002, ipl := 1, w15 := 0x0801 }
    s.trapPending .oscFail = true ∧ MeetsAddressError s (.dataAccess .word 0x1001 .read) ∧
    MeetsAddressError s (.bitIndirect 0x1001 (.write 1)) ∧ MeetsAddressError s (.pushF 0x21) ∧
    MeetsAddressError s (.popF 0x21) ∧ MeetsAddressError s .retfie ∧
    MeetsAddressError s (.stackAccess .indirect .word (.write 1)) := by
  unfold MeetsAddressError BadRead; decide

theorem witness_HardTrapConflictResets_executing :
    let s : State := { holed with ipl := 6, corcon := 0x0028 }
    14 ≤ s.cpuIpl ∧ MeetsAddressError s (.dataAccess .byte 0x8000 .read) ∧ MeetsAddressError s (.macFetch .x 0x4800) ∧
    MeetsAddressError s (.gotoWord1 0x0000 0x02) ∧ MeetsAddressError s (.bra 0xFEFE) ∧
    MeetsAddressError s (.btscPsv { addr := true } true) := by unfold MeetsAddressError BadRead; decide

theorem witness_HardTrapConflictResets_same_level :
    let s : State := { holed with ipl := 5, corcon := 0x0028, w15 := 0x8002 }
    s.trapPending .oscFail = false ∧ s.cpuIpl = 13 ∧ MeetsAddressError s .ret ∧
    MeetsAddressError s (.other { addr := true, stack := true }) ∧ MeetsAddressError s (.bitIndirect 0x8000 .read) ∧
    OnlyAddressError (.bitIndirect 0x8000 .read) = true := by unfold MeetsAddressError BadRead; decide

theorem witness_HardTrapConflictResets_nowhere :
    let s : State := { holed with ipl := 5, corcon := 0x0028, pc := 0x020000 }
    let u : State := { holed with ipl := 6, corcon := 0x0028, pc := 0x020000 }
    CpuTurn s [] ∧ s.power = .run ∧ s.taken = none ∧ progImplemented s.dev s.pc = false ∧
    s.trapPending .oscFail = false ∧ s.cpuIpl = 13 ∧
    CpuTurn u [] ∧ u.power = .run ∧ u.taken = none ∧ progImplemented u.dev u.pc = false ∧ 14 ≤ u.cpuIpl := by
  unfold CpuTurn; decide

theorem witness_PwrsavSleeps_wakes : 3 < 118 ∧ (timers 8).requests 3 = true ∧ (timers 8).ipcField 3 ≠ 0 := by
  decide

theorem witness_PwrsavSleeps_sleeps :
    let s : State := { base with
      ifs := #v[0x0008, 0, 0, 0, 0], iec := #v[0x0008, 0, 0, 0, 0], ipc := Vector.replicate 20 0 }
    ∀ n, n < 118 → s.requests n = true → s.ipcField n = 0 := by decide

theorem witness_SplimWriteEnablesTheCheck : (0x0900#16).toNat < (BitVec.ofInt 16 0x0901).toNat := by decide

theorem witness_OrSrlRaisesPriority : (0xE0#8 : Byte) = 0xE0 ∧ base.nstdis = false := by decide

theorem witness_PushStoresAtW15_register :
    StackOk base base.w15 ∧ dataImplemented base.dev (0x0021#15 ++ 0#1) = true ∧
    sfrAt base.dev (0x0021#15 ++ 0#1).toNat = some .sr := by unfold StackOk PlainRam; decide

theorem witness_PushStoresAtW15_memory :
    StackOk base base.w15 ∧ dataImplemented base.dev (0x7FFF#15 ++ 0#1) = true ∧
    sfrAt base.dev (0x7FFF#15 ++ 0#1).toNat = none := by unfold StackOk PlainRam; decide

theorem witness_PushStoresAtW15_hole :
    StackOk holed holed.w15 ∧ dataImplemented holed.dev (0x4000#15 ++ 0#1) = false ∧ HardTrapPends holed := by
  unfold StackOk PlainRam HardTrapPends; decide

theorem witness_PushStoresAtW15_nowhere :
    let s : State := { holed with w15 := 0x8000, splim := 0x8000, splimWritten := true }
    s.w15.getLsbD 0 = false ∧ dataImplemented s.dev s.w15 = false ∧ ¬ OutsideStack s s.w15 ∧
    dataImplemented s.dev (0x3FFF#15 ++ 0#1) = true := by unfold OutsideStack; decide

theorem witness_PopStoresAtFile_memory :
    let s : State := { base with w15 := 0x0802 }
    StackOk s (s.w15 - 2) ∧ PlainRam s (0x7FFF#15 ++ 0#1) := by unfold StackOk PlainRam; decide

theorem witness_PopStoresAtFile_hole :
    let s : State := { holed with w15 := 0x0802 }
    StackOk s (s.w15 - 2) ∧ dataImplemented s.dev (0x4000#15 ++ 0#1) = false := by
  unfold StackOk PlainRam; decide

theorem witness_PopSrIsASoftwareWrite :
    let s : State := { base with w15 := 0x0802 }
    StackOk s (s.w15 - 2) ∧ dataImplemented s.dev (0x0021#15 ++ 0#1) = true ∧
    sfrAt s.dev (0x0021#15 ++ 0#1).toNat = some .sr ∧ tableAccess s .sr = some (srAccess false) ∧
    s.wordsAt s.pc = 1 := ⟨by unfold StackOk PlainRam; decide, by decide, by decide, rfl, by decide⟩

theorem witness_StackAccessCompletes_word :
    let s : State := { base with w15 := 0xFFFA, splim := 0xFFFE, splimWritten := true }
    stackExact s.w15 (.offset 4) ≤ 0xFFFF ∧ StackOk s (stackEa s.w15 (.offset 4)) := by
  unfold StackOk PlainRam; decide

theorem witness_StackAccessCompletes_byte :
    let s : State := { base with w15 := 0xFFFE }
    stackExact s.w15 (.preModify 1) ≤ 0xFFFF ∧
    dataImplemented s.dev (stackEa s.w15 (.preModify 1)) = true ∧
    0x0800 ≤ (stackEa s.w15 (.preModify 1)).toNat ∧
    sfrAt s.dev (wordBase (stackEa s.w15 (.preModify 1))) = none ∧
    (s.splimWritten = true → (stackEa s.w15 (.preModify 1)).toNat ≤ s.splim.toNat) := by decide

theorem witness_StackAccessCompletes_nowhere :
    let s : State := { holed with w15 := 0x7FFF }
    stackExact s.w15 (.preModify 2) ≤ 0xFFFF ∧ dataImplemented s.dev (stackEa s.w15 (.preModify 2)) = false ∧
    misaligned .byte (stackEa s.w15 (.preModify 2)) = false ∧
    ¬ OutsideStack s (stackEa s.w15 (.preModify 2)) := by unfold OutsideStack; decide

/-- A device with SR at 0x0842, inside the limits of the stack. -/
def highSr : State := { base with dev := { familyDevice with sfrAddrs := [(0x0842, .sr)] }, w15 := 0x0842 }

theorem witness_StackAccessCompletes_register :
    stackExact highSr.w15 .indirect ≤ 0xFFFF ∧ dataImplemented highSr.dev (stackEa highSr.w15 .indirect) = true ∧
    sfrAt highSr.dev (wordBase (stackEa highSr.w15 .indirect)) = some .sr ∧
    ReachesBits .word (stackEa highSr.w15 .indirect) 15 0 ∧ ¬ OutsideStack highSr (stackEa highSr.w15 .indirect) := by
  unfold ReachesBits OutsideStack; decide

theorem witness_StackLimitsRaiseStackError_splim :
    let s : State := { base with w15 := 0x0902, splim := 0x0901, splimWritten := true }
    OutsideStack s (stackEa s.w15 .indirect) ∧ (stackEa s.w15 .indirect).getLsbD 0 = false ∧
    PlainRam s (stackEa s.w15 .indirect) := by unfold OutsideStack PlainRam; decide

theorem witness_StackLimitsRaiseStackError_wrap :
    let s : State := { base with w15 := 0xFFFE }
    0xFFFF < stackExact s.w15 (.offset 2) ∧ (stackEa s.w15 (.offset 2)).getLsbD 0 = false ∧
    PlainRam s (stackEa s.w15 (.offset 2)) := by unfold PlainRam; decide

theorem witness_StackLimitsRaiseStackError_floor :
    OutsideStack base (stackEa base.w15 (.preModify (-2))) ∧
    (stackEa base.w15 (.preModify (-2))).getLsbD 0 = false ∧
    PlainRam base (stackEa base.w15 (.preModify (-2))) := by unfold OutsideStack PlainRam; decide

theorem witness_StackLimitsRaiseStackError_byte :
    OutsideStack base (stackEa base.w15 (.preModify (-1))) ∧
    dataImplemented base.dev (stackEa base.w15 (.preModify (-1))) = true ∧
    sfrAt base.dev (wordBase (stackEa base.w15 (.preModify (-1)))) = none := by unfold OutsideStack; decide

theorem witness_StackLimitsRaiseStackError_register :
    let s : State := { base with w15 := 0x0044 }
    OutsideStack s (stackEa s.w15 .indirect) ∧ dataImplemented s.dev (stackEa s.w15 .indirect) = true ∧
    sfrAt s.dev (wordBase (stackEa s.w15 .indirect)) = some .corcon ∧ tableAccess s .corcon = some corconAccess ∧
    ReachesBits .word (stackEa s.w15 .indirect) 15 0 ∧ ReachesBits .byte (stackEa s.w15 .indirect) 7 0 ∧
    sfrAt s.dev (wordBase (stackEa s.w15 (.offset 1))) = some .corcon ∧
    ReachesBits .byte (stackEa s.w15 (.offset 1)) 15 8 :=
  ⟨by unfold OutsideStack; decide, by decide, by decide, rfl, by unfold ReachesBits; decide,
    by unfold ReachesBits; decide, by decide, by unfold ReachesBits; decide⟩

theorem witness_StackLimitsRaiseStackError_intcon1 :
    let s : State := { base with w15 := 0x0080, intcon1 := 0x0002 }
    OutsideStack s (stackEa s.w15 .indirect) ∧ sfrAt s.dev (wordBase (stackEa s.w15 .indirect)) = some .intcon1 ∧
    ReachesBits .word (stackEa s.w15 .indirect) 15 0 ∧ (0x0004#16).getLsbD 2 = true ∧
    (∀ b, b = 1 ∨ b = 3 →
      (if (0 : Fin 16).val ≤ b ∧ b ≤ (15 : Fin 16).val then (0x8012#16).getLsbD (b - (0 : Fin 16).val)
        else (s.sfrValue .intcon1).getLsbD b) = true → s.intcon1.getLsbD b = true) := by
  refine ⟨by unfold OutsideStack; decide, by decide, by unfold ReachesBits; decide, by decide, ?_⟩
  rintro b (rfl | rfl) <;> decide

theorem witness_StackLimitsRaiseStackError_hole :
    let s : State := { holed with w15 := 0x9000, splim := 0x8FFF, splimWritten := true }
    OutsideStack s (stackEa s.w15 .indirect) ∧ dataImplemented s.dev (stackEa s.w15 .indirect) = false ∧
    misaligned .word (stackEa s.w15 .indirect) = false ∧ HardTrapPends s ∧
    OutsideStack s (stackEa s.w15 (.offset 1)) ∧ (stackEa s.w15 (.offset 1)).getLsbD 0 = true := by
  unfold OutsideStack HardTrapPends; decide

theorem witness_PushAndPopCheckTheStack_floor :
    let s : State := { base with w15 := 0x07FE }
    s.w15.getLsbD 0 = false ∧ OutsideStack s s.w15 ∧ PlainRam s s.w15 ∧ OutsideStack s (s.w15 - 2) ∧
    PopReads s (s.w15 - 2) (s.wordAt (s.w15 - 2).toNat) ∧
    dataImplemented s.dev (0x0021#15 ++ 0#1) = true ∧ sfrAt s.dev (0x0021#15 ++ 0#1).toNat = some .sr ∧
    tableAccess s .sr = some (srAccess false) ∧ s.wordsAt s.pc = 1 ∧ PlainRam s (0x7FFF#15 ++ 0#1) :=
  ⟨by decide, by unfold OutsideStack; decide, by unfold PlainRam; decide, by unfold OutsideStack; decide,
    .inl ⟨by unfold PlainRam; decide, rfl⟩, by decide, by decide, rfl, by decide, by unfold PlainRam; decide⟩

theorem witness_PushAndPopCheckTheStack_splim :
    let s : State := { base with w15 := 0x0000, splim := 0xFFFD, splimWritten := true }
    OutsideStack s s.w15 ∧ OutsideStack s (s.w15 - 2) ∧ s.w15.getLsbD 0 = false ∧
    PopReads s (s.w15 - 2) (s.wordAt (s.w15 - 2).toNat) :=
  ⟨by unfold OutsideStack; decide, by unfold OutsideStack; decide, by decide, .inl ⟨by unfold PlainRam; decide, rfl⟩⟩

theorem witness_PushAndPopCheckTheStack_registers :
    let s : State := { base with w15 := 0x0082 }
    OutsideStack s s.w15 ∧ OutsideStack s (s.w15 - 2) ∧ s.w15.getLsbD 0 = false ∧
    dataImplemented s.dev s.w15 = true ∧ sfrAt s.dev s.w15.toNat = some .intcon2 ∧
    tableAccess s .intcon2 = some intcon2Access ∧
    PopReads s (s.w15 - 2) (s.sfrValue .intcon1 ||| 0x0004) ∧
    dataImplemented s.dev (0x0022#15 ++ 0#1) = true ∧ sfrAt s.dev (0x0022#15 ++ 0#1).toNat = some .corcon ∧
    tableAccess s .corcon = some corconAccess ∧ s.wordsAt s.pc = 1 :=
  ⟨by unfold OutsideStack; decide, by unfold OutsideStack; decide, by decide, by decide, by decide, rfl,
    .inr (.inl (by unfold StandsAt OutsideStack; decide)), by decide, by decide, rfl, by decide⟩

theorem witness_PushAndPopCheckTheStack_intcon1 :
    let s : State := { base with w15 := 0x0080, intcon1 := 0x0024 }
    let u : State := { s with w15 := 0x0082 }
    let v : Word := u.sfrValue .intcon1 ||| 0x0004
    OutsideStack s s.w15 ∧ sfrAt s.dev s.w15.toNat = some .intcon1 ∧
    sfrAt s.dev (0x0040#15 ++ 0#1).toNat = some .intcon1 ∧
    (∀ b, b ≤ 5 → 1 ≤ b → b ≠ 2 → (s.sfrValue .intcon1).getLsbD b = true → s.intcon1.getLsbD b = true) ∧
    OutsideStack u (u.w15 - 2) ∧ StandsAt u (u.w15 - 2) .intcon1 ∧ v.getLsbD 2 = true ∧
    (∀ b, b ≤ 5 → 1 ≤ b → b ≠ 2 → v.getLsbD b = true → u.intcon1.getLsbD b = true) := by
  unfold OutsideStack StandsAt; decide

theorem witness_PushAndPopCheckTheStack_hole :
    let s : State := { holed with w15 := 0x8002, splim := 0x7FFF, splimWritten := true }
    OutsideStack s s.w15 ∧ s.w15.getLsbD 0 = false ∧ dataImplemented s.dev s.w15 = false ∧
    dataImplemented s.dev (0x3FFF#15 ++ 0#1) = true ∧ dataImplemented s.dev (0x4000#15 ++ 0#1) = false ∧
    HardTrapPends s ∧ OutsideStack s (s.w15 - 2) ∧ BadRead s (s.w15 - 2) := by
  unfold OutsideStack HardTrapPends BadRead; decide

theorem witness_BadStackAddressesTrap :
    let s : State := { base with w15 := 0x0805, splim := 0x0805, splimWritten := true }
    HardTrapPends s ∧ s.w15.getLsbD 0 = true ∧ ¬ OutsideStack s s.w15 ∧ BadRead s (s.w15 - 2) ∧
    ¬ OutsideStack s (s.w15 - 2) ∧ BadRead s (s.w15 - 4) ∧ ¬ OutsideStack s (s.w15 - 4) := by
  unfold HardTrapPends OutsideStack BadRead; decide

theorem witness_BadStackAddressesTrap_hole :
    let s : State := { holed with w15 := 0x8002 }
    HardTrapPends s ∧ BadRead s (s.w15 - 2) ∧ ¬ OutsideStack s (s.w15 - 2) ∧ ¬ BadRead s (s.w15 - 4) ∧
    ¬ OutsideStack s (s.w15 - 4) ∧ dataImplemented s.dev (stackEa s.w15 (.postModify (-1))) = false ∧
    ¬ OutsideStack s (stackEa s.w15 (.postModify (-1))) ∧ stackExact s.w15 (.postModify (-1)) ≤ 0xFFFF := by
  unfold HardTrapPends OutsideStack BadRead; decide

theorem witness_BadStackAddressesTrap_access :
    let s : State := { base with w15 := 0xFFFC }
    HardTrapPends s ∧ (stackEa s.w15 (.offset 3)).getLsbD 0 = true ∧
    ¬ OutsideStack s (stackEa s.w15 (.offset 3)) ∧ stackExact s.w15 (.offset 3) ≤ 0xFFFF := by
  unfold HardTrapPends OutsideStack; decide

theorem witness_SftacTrapsBeyondSixteen_inside :
    (-16 ≤ shiftCount base (.lit 16) ∧ shiftCount base (.lit 16) ≤ 16) ∧
    (-16 ≤ shiftCount base (.lit (-16)) ∧ shiftCount base (.lit (-16)) ≤ 16) := by decide

theorem witness_SftacTrapsBeyondSixteen_outside :
    16 < shiftCount base (.lit 17) ∧
    shiftCount ({ base with w15 := 0xFFEF } : State) (.reg 15) < -16 := by decide

theorem witness_DivideByZeroTraps :
    ({ base with events := [(0x000202, ⟨.repeatDiv 0, 1⟩)] } : State).repeatedDivide = some 0 ∧
    ({ base with events := [(0x000202, ⟨.repeatDiv (-1), 1⟩)] } : State).repeatedDivide = some (-1) := by decide

theorem witness_CandidatesAreTheRequests : base.race = [] ∧ (timers 8).disi = false := by decide

theorem witness_AccumulatorOverflowTraps :
    let s : State := { base with intcon1 := 0x0400, corcon := 0x00A0 }
    (true && !(s.corcon.getLsbD 6 && !s.corcon.getLsbD 4)) = true ∧
    (true && !(s.corcon.getLsbD 7 && !s.corcon.getLsbD 4)) = false ∧
    s.intcon1.getLsbD (overflowEnableBit .a) = true := by decide

theorem witness_JumpsReachTheirTarget_inside :
    progImplemented holed.dev (0#1 ++ 0x01#7 ++ 0x7FFF#15 ++ 0#1) = true ∧
    progImplemented holed.dev (holed.pc + 2 + BitVec.ofInt 24 (2 * (0xFEFF#16).toInt)) = true := by decide

theorem witness_JumpsReachTheirTarget_outside :
    HardTrapPends holed ∧ progImplemented holed.dev (0#1 ++ 0x02#7 ++ 0x0000#15 ++ 0#1) = false ∧
    progImplemented holed.dev (holed.pc + 2 + BitVec.ofInt 24 (2 * (0xFEFE#16).toInt)) = false := by
  unfold HardTrapPends; decide

theorem witness_DataAccessCompletes :
    dataImplemented base.dev 0xFFFE = true ∧ sfrAt base.dev (wordBase 0xFFFE) = none ∧
    (0xFFFE#16).getLsbD 0 = false ∧
    dataImplemented base.dev 0xFFFF = true ∧ sfrAt base.dev (wordBase 0xFFFF) = none := by decide

theorem witness_BadDataAddressesTrap_odd : (0x1001#16).getLsbD 0 = true ∧ HardTrapPends base := by
  unfold HardTrapPends; decide

theorem witness_BadDataAddressesTrap_hole :
    dataImplemented holed.dev 0x8000 = false ∧ HardTrapPends holed ∧ misaligned .word 0x8000 = false ∧
    dataImplemented holed.dev 0xFFFF = false ∧ misaligned .byte 0xFFFF = false := by
  unfold HardTrapPends; decide

theorem witness_MacFetchKeepsToItsSpace_own :
    (0x47FE#16).getLsbD 0 = false ∧ macCrossing holed.dev .x 0x47FE = false ∧ PlainRam holed 0x47FE ∧
    (0x4800#16).getLsbD 0 = false ∧ macCrossing holed.dev .y 0x4800 = false ∧ PlainRam holed 0x4800 ∧
    macCrossing holed.dev .x 0x0042 = false ∧ (0x0042#16).getLsbD 0 = false ∧
    dataImplemented holed.dev 0x0042 = true ∧ sfrAt holed.dev (0x0042#16).toNat = some .sr := by
  unfold PlainRam; decide

theorem witness_MacFetchKeepsToItsSpace_other :
    macCrossing holed.dev .x 0x4800 = true ∧ macCrossing holed.dev .y 0x47FE = true ∧
    (0x1001#16).getLsbD 0 = true ∧ dataImplemented holed.dev 0x8000 = false ∧ HardTrapPends holed := by
  unfold HardTrapPends; decide

theorem witness_OtherKeepsControlState :
    base.repeatedDivide = none ∧ ∃ t, exec (.movdPsv {}) base = .next t ∧ base.late = false :=
  ⟨by decide, _, rfl, by decide⟩

theorem witness_OtherRaisesItsConditions :
    let c : TrapConds := { covB := true, div0 := true, stack := true, addr := true }
    (c.addr = true → HardTrapPends base) ∧ Instr.btssPsv c true = .btssPsv c true :=
  ⟨fun _ => by unfold HardTrapPends; decide, rfl⟩

theorem witness_SfrReadHasNoSideEffect :
    tableAccess base .corcon = some corconAccess ∧ corconAccess 12 = .unimplemented := ⟨rfl, rfl⟩

theorem witness_SfrWriteFollowsTheAccessTable :
    tableAccess base (.ipc 19) = some (prioAccess familyDevice 19) := rfl

theorem witness_SfrBitAndFieldWrites :
    tableAccess base .sr = some (srAccess false) ∧ (5 : Fin 16) ≤ 7 ∧
    (7#16).toNat < 2 ^ ((7 : Fin 16).val - (5 : Fin 16).val + 1) := ⟨rfl, by decide, by decide⟩

/-- Which trap a 16-bit write of `v` to INTCON1 would set, as `Intcon1WritesWithdrawAndRequest` says it. -/
def wouldSet (s : State) (v : Word) (k : TrapKind) : Bool :=
  !s.intcon1.getLsbD k.flagBit &&
    if (0 : Fin 16).val ≤ k.flagBit ∧ k.flagBit ≤ (15 : Fin 16).val then v.getLsbD (k.flagBit - (0 : Fin 16).val)
    else s.intcon1.getLsbD k.flagBit

theorem witness_Intcon1WritesWithdrawAndRequest_all :
    (0 : Fin 16) ≤ 15 ∧ (0xFFFF#16).toNat < 2 ^ ((15 : Fin 16).val - (0 : Fin 16).val + 1) ∧
    (∀ k, wouldSet base 0xFFFF k = true) ∧ base.dev.swSetTrapFlagTraps = true ∧ HardTrapPends base ∧
    base.cpuIpl < 14 :=
  ⟨by decide, by decide, fun k => by cases k <;> rfl, rfl, by unfold HardTrapPends; decide, by decide⟩

theorem witness_Intcon1WritesWithdrawAndRequest_withdraw :
    let s : State := { base with intcon1 := 0x0010 }
    ∀ k, wouldSet s 0x8010 k = false := by intro s k; cases k <;> decide

theorem witness_Intcon1WritesWithdrawAndRequest_bits :
    (3 : Fin 16) ≤ 3 ∧ (1#16).toNat < 2 ^ ((3 : Fin 16).val - (3 : Fin 16).val + 1) ∧
    (0#16).toNat < 2 ^ ((3 : Fin 16).val - (3 : Fin 16).val + 1) := by decide

theorem witness_Intcon1WritesWithdrawAndRequest_conflict :
    let s : State := { base with intcon1 := 0x0002 }
    let u : State := { base with ipl := 6, corcon := 0x0028 }
    wouldSet s 0x0008 .addrErr = true ∧ s.trapPending .oscFail = true ∧ s.dev.swSetTrapFlagTraps = true ∧
    wouldSet u 0xFFFF .addrErr = true ∧ 14 ≤ u.cpuIpl := by decide

theorem witness_Intcon1WritesWithdrawAndRequest_same_level :
    let s : State := { base with ipl := 5, corcon := 0x0028 }
    let u : State := { base with ipl := 6, corcon := 0x0028 }
    wouldSet s 0x000A .addrErr = true ∧ s.trapPending .oscFail = false ∧ s.cpuIpl = 13 ∧
    wouldSet u 0x0002 .addrErr = false ∧ wouldSet u 0x0002 .oscFail = true ∧ 14 ≤ u.cpuIpl := by decide

theorem witness_Intcon1WritesWithdrawAndRequest_inert :
    let s : State := { base with dev := { familyDevice with swSetTrapFlagTraps := false } }
    s.dev.swSetTrapFlagTraps = false ∧ wouldSet s 0x000A .addrErr = true := by decide

theorem witness_SfrsStandInDataSpace_word :
    dataImplemented base.dev 0x0742 = true ∧ sfrAt base.dev (wordBase 0x0742) = some .osccon ∧
    (0x0742#16).getLsbD 0 = false := by decide

theorem witness_SfrsStandInDataSpace_byte :
    dataImplemented base.dev 0x0085 = true ∧ sfrAt base.dev (wordBase 0x0085) = some (.ifs 0) ∧
    (0xFF#16).toNat < 256 := by decide

theorem witness_WritesOfTheOtherRegisters :
    (0 : Fin 16) ≤ 14 ∧ (0x7FFF#16).toNat < 2 ^ ((14 : Fin 16).val - (0 : Fin 16).val + 1) ∧
    ¬ ((14 : Fin 16) = 15 ∧ (0 : Fin 16) = 0) ∧ ((14 : Fin 16) ≠ 15) ∧
    (4 : Fin 16) ≤ 15 ∧ 3 < (4 : Fin 16).val := by decide

theorem witness_WritesOfTheOtherRegisters_count :
    let s : State := { base with disicnt := 0x2A5F }
    (4 : Fin 16) ≤ 11 ∧ (0x3C#16).toNat < 2 ^ ((11 : Fin 16).val - (4 : Fin 16).val + 1) ∧
    ∀ b, b < 14 → (0x23CF#14).getLsbD b =
      if (4 : Fin 16).val ≤ b ∧ b ≤ (11 : Fin 16).val then (0x3C#16).getLsbD (b - (4 : Fin 16).val)
      else s.disicnt.getLsbD b := by decide

theorem witness_PeripheralEventSetsItsFlag :
    let s : State := { base with turns := [.env (.periph 79)] }
    s.turns = .env (.periph 79) :: [] ∧ hasSource s.dev 79 = true ∧ 79 < 80 := by decide

theorem witness_PinEdgeSetsItsFlag :
    ({ base with turns := [.env (.pinChange 2 true), .cpu] } : State).turns =
      .env (.pinChange 2 true) :: [.cpu] := by decide

theorem witness_HardwareTrapsArePending :
    let s : State := { base with power := .sleep, ipl := 5, corcon := 0x0028, turns := [.env .oscFail] }
    s.turns = .env .oscFail :: [] ∧ s.cpuIpl < 14 := by decide

theorem witness_HardwareTrapsArePending_same_level :
    let s : State := { base with ipl := 6, corcon := 0x0028, turns := [.env .oscFail] }
    s.turns = .env .oscFail :: [] ∧ 14 ≤ s.cpuIpl := by decide

theorem witness_HardwareTrapsArePending_dma :
    let s : State := { base with turns := [.env .dmaCollision], dataWrite := true }
    s.turns = .env .dmaCollision :: [] ∧ s.dataWrite = true ∧ base.dataWrite = false := by decide

theorem witness_HardwareTrapsArePending_reset :
    ({ base with power := .halt, turns := [.env .externalReset] } : State).turns = .env .externalReset :: [] := by
  decide

theorem witness_StepKeepsInvariant : MachineInv ve1 ∧ ∃ t, step ve1 = .next t :=
  ⟨⟨by decide, by decide, by decide, by decide, by decide, by decide, by decide, by decide, by decide, by decide⟩,
    by refine ⟨takeException (.irq 3) ve1, ?_⟩; rfl⟩

theorem witness_StepKeepsParameters : ∃ t, step (State.reset.withFetchWord 24 0x000000) = .next t := ⟨_, rfl⟩

theorem witness_SoftwareCannotSetIpl3 :
    let s : State := { base with corcon := 0x0028 }
    ∃ t, Instr.nop ≠ .retfie ∧ exec .nop s = .next t ∧ t.ipl3 = true :=
  ⟨_, by decide, rfl, by decide⟩

theorem witness_NstdisFreezesIpl :
    let s : State := { base with intcon1 := 0x8000, ipl := 7 }
    ∃ t, Instr.sfrWrite .sr 0 ≠ .retfie ∧ s.nstdis = true ∧ exec (.sfrWrite .sr 0) s = .next t :=
  ⟨_, by decide, by decide, rfl⟩

end Sys2Proof.Tests
end

section
/-! PROOFS. Taking an exception onto plain memory (spec/60_exceptions.md R224 to R229): its cycles, its frame, what it
leaves unchanged, and the obligation about it. -/

namespace Sys2Proof.Machine

/-! ## The cycles of an entry -/

/-- An entry takes 4 cycles or 5 (R224, R293). -/
theorem State.entryCycles_eq_or (s : State) : s.entryCycles = 4 ∨ s.entryCycles = 5 := by
  unfold State.entryCycles
  split
  · exact .inr rfl
  · exact .inl rfl

/-- Only an instruction of a kind of R293 makes an entry longer. -/
theorem State.entryCycles_of_not_late (s : State) (h : s.lateEntry = false) : s.entryCycles = 4 := by
  simp [State.entryCycles, h]

/-! ## The words of the frame -/

/-- The two words of a frame side by side are the 32 bits that the device computes (R7, R225). -/
theorem frame_append (d : Device) (ret : PAddr) (srl : Byte) (ipl3 : Bool) :
    (frame d ret srl ipl3).2 ++ (frame d ret srl ipl3).1 =
      evalBits d.frame 32 (BitVec.ofBool ipl3 ++ srl ++ ret) :=
  (BitVec.extractLsb'_append_extractLsb'_eq_extractLsb' rfl).trans (extractLsb'_self _)

/-- Each bit of the frame is the one that the device's expression for it stands for (R7, R225). -/
theorem getLsbD_frame (d : Device) (ret : PAddr) (srl : Byte) (ipl3 : Bool) (j : Nat) (hj : j < 32) :
    ((frame d ret srl ipl3).2 ++ (frame d ret srl ipl3).1).getLsbD j =
      bitValue (BitVec.ofBool ipl3 ++ srl ++ ret).getLsbD (d.frame[j]?.getD (.const false)) := by
  rw [frame_append, getLsbD_evalBits, decide_eq_true hj, Bool.true_and]

/-! ## What follows the pushes -/

@[simp] theorem State.vectorTo_race (r : Request) (p c : Nat) (s : State) :
    (s.vectorTo r p c).race = s.race := by cases r <;> rfl
@[simp] theorem State.vectorTo_lateEntry (r : Request) (p c : Nat) (s : State) :
    (s.vectorTo r p c).lateEntry = false := by cases r <;> rfl

/-- The pushes leave the vector table that is in use and its entries alone (R93, R228). -/
theorem State.withFrame_vector (s : State) (v : Nat) :
    s.withFrame.progRead24 (s.withFrame.vecAddr v) = s.progRead24 (s.vecAddr v) := by
  simp [State.progRead24, State.vecAddr, State.altivt]

/-! ## An entry with room on the stack -/

section
variable {s : State} (r : Request) (h1 : StackOk s s.w15) (h2 : StackOk s (s.w15 + 2))
include h1 h2

/-- The frame stands on the stack, and the rest of memory is as it was (R224, R225). -/
theorem takeException_ok_memory :
    (takeException r s).wordAt s.w15.toNat = (frame s.dev s.pc s.srl s.ipl3).1 ∧
    (takeException r s).wordAt (s.w15.toNat + 2) = (frame s.dev s.pc s.srl s.ipl3).2 ∧
    SameMemoryBut s.w15.toNat 4 s (takeException r s) := by
  rw [takeException_ok s r h1 h2]
  obtain ⟨hfirst, hsecond, hrest⟩ := withFrame_memory s
  refine ⟨?_, ?_, fun b hb => ?_⟩
  · rw [wordAt_congr s.withFrame _ (by simp) (by simp), hfirst]
  · rw [wordAt_congr s.withFrame _ (by simp) (by simp), hsecond]
  · rw [byteAt_congr s.withFrame _ (by simp) (by simp), hrest b hb]

/-- `pc` comes from the entry of the vector (R93, R228). -/
theorem takeException_ok_pc :
    (takeException r s).pc = s.progRead24 (s.vecAddr r.vector) := by
  rw [takeException_ok s r h1 h2, State.bump_pc, State.vectorTo_pc, State.withFrame_vector]

/-- SR.IPL, IPL3 and INTTREG are those of the request (R226, R227). -/
theorem takeException_ok_entered : Entered r s (takeException r s) := by
  rw [takeException_ok s r h1 h2]
  exact entered_vectorTo r s s.withFrame s.entryCycles (by simp [State.nstdis]) s.withFrame_corcon

/-- The tick of an entry is that of its cycles (R142, R224). -/
theorem takeException_ok_ticked : Ticked s.entryCycles s (takeException r s) := by
  rw [takeException_ok s r h1 h2]
  have h := ticked_vectorTo r (s.priority r) s.entryCycles s.withFrame
  unfold Ticked State.disi at h ⊢
  simpa using h

/-- The registers and parameters that no part of an entry touches; the race of a rewritten priority with this boundary
is over (R68, R229). -/
theorem takeException_ok_keeps :
    let t := takeException r s
    SameWorking s t ∧ SameAccs s t ∧ SameTraps s t ∧ SameSources { s with race := [] } t ∧
    SameParameters s t ∧ t.srh = s.srh ∧ t.flags = s.flags ∧ t.splim = s.splim ∧ t.splimWritten = s.splimWritten ∧
    t.trapr = s.trapr ∧ t.cf = s.cf ∧ t.pins = s.pins := by
  rw [takeException_ok s r h1 h2]
  simp [SameWorking, SameAccs, SameTraps, SameSources, SameParameters]

end

end Sys2Proof.Machine

namespace Sys2Proof.Proofs

open Sys2Proof.Machine

/-- Settles O15: with room on the stack an entry is the two stores, then the vectoring, and each part of the statement
is what one of the two does or leaves alone. -/
theorem entrySavesAndRaises : Obligations.EntrySavesAndRaises := by
  intro s r h1 h2 t f
  obtain ⟨hfirst, hsecond, hrest⟩ := takeException_ok_memory r h1 h2
  obtain ⟨hw, haccs, htraps, hsources, hparams, hsrh, hflags, hsplim, hwritten, htrapr, hcf, hpins⟩ :=
    takeException_ok_keeps r h1 h2
  have hticked := takeException_ok_ticked r h1 h2
  have ht := takeException_ok s r h1 h2
  have hw15 : t.w15 = s.w15 + 4 := by simp [t, ht]
  have hpower : t.power = .run := by simp [t, ht]
  have hlate : t.lateEntry = false := by simp [t, ht]
  have hfour : s.lateEntry = false → Ticked 4 s t := fun h => s.entryCycles_of_not_late h ▸ hticked
  have hcycles : Ticked 4 s t ∨ Ticked 5 s t :=
    s.entryCycles_eq_or.imp (fun h4 => by rwa [h4] at hticked) (fun h5 => by rwa [h5] at hticked)
  exact ⟨hfirst, hsecond, getLsbD_frame s.dev s.pc s.srl s.ipl3, fun h => frame_family s.dev h s.pc s.srl s.ipl3,
    hrest, hw15, takeException_ok_pc r h1 h2, hpower, hlate, hsrh, hflags, takeException_ok_entered r h1 h2, hw,
    haccs, htraps, hsources, hparams, hsplim, hwritten, htrapr, hcf, hpins, hfour, hcycles⟩

end Sys2Proof.Proofs
end

section
/-! PROOFS. What an instruction, an entry and a turn can do to the state, said once as a chain of small moves
(spec/40_interrupt_control_instructions.md R140, spec/60_exceptions.md R216): calm moves, which no register that
controls exceptions takes part in but by the flags of INTCON1 and the tick, and software writes of registers. -/

namespace Sys2Proof.Machine

/-! ## The registers that control exceptions, and the parameters -/

/-- The registers that decide which exception is taken, their hidden marks, and the parameters of the run. -/
structure Control where
  ipl : BitVec 3
  corcon : Word
  intcon1 : Word
  intcon2 : Word
  inttreg : Word
  ifs : Vector Word 5
  iec : Vector Word 5
  ipc : Vector Word 20
  disicnt : BitVec 14
  inert : Word
  prog : List (Nat × PWord)
  events : List (Nat × ProgEvent)
  timing : List (Nat × Timing)
  dev : Device

/-- The control registers and the parameters of a state. -/
def State.control (s : State) : Control :=
  ⟨s.ipl, s.corcon, s.intcon1, s.intcon2, s.inttreg, s.ifs, s.iec, s.ipc, s.disicnt, s.inert, s.prog, s.events,
    s.timing, s.dev⟩

/-- `t` differs from `s` in no control register and no parameter, and its memory is canonical if that of `s` is. -/
def SameControl (s t : State) : Prop := t.control = s.control ∧ (Memory.wf s.mem = true → Memory.wf t.mem = true)

section
variable {s t : State} (h : SameControl s t)
include h

theorem SameControl.ipl : t.ipl = s.ipl := congrArg Control.ipl h.1
theorem SameControl.corcon : t.corcon = s.corcon := congrArg Control.corcon h.1
theorem SameControl.intcon1 : t.intcon1 = s.intcon1 := congrArg Control.intcon1 h.1
theorem SameControl.intcon2 : t.intcon2 = s.intcon2 := congrArg Control.intcon2 h.1
theorem SameControl.inttreg : t.inttreg = s.inttreg := congrArg Control.inttreg h.1
theorem SameControl.ifs : t.ifs = s.ifs := congrArg Control.ifs h.1
theorem SameControl.iec : t.iec = s.iec := congrArg Control.iec h.1
theorem SameControl.ipc : t.ipc = s.ipc := congrArg Control.ipc h.1
theorem SameControl.disicnt : t.disicnt = s.disicnt := congrArg Control.disicnt h.1
theorem SameControl.inert : t.inert = s.inert := congrArg Control.inert h.1
theorem SameControl.dev : t.dev = s.dev := congrArg Control.dev h.1
theorem SameControl.parameters : SameParameters s t :=
  ⟨congrArg Control.prog h.1, congrArg Control.events h.1, congrArg Control.timing h.1, h.dev⟩

end

/-! ## Calm moves -/

/-- One calm move: registers that control nothing change, a trap flag or a sub-cause flag of the math error is set,
or the tick is applied. -/
inductive Calm : State → State → Prop
  | control {s t : State} (h : SameControl s t) : Calm s t
  | trapFlag (k : TrapKind) (s : State) : Calm s (s.setTrapFlag k)
  | mathFlag (bit : Nat) (s : State) (h6 : 6 ≤ bit) (h14 : bit ≤ 14) :
    Calm s { s with intcon1 := setBit s.intcon1 bit true }
  | tick (c : Nat) (s : State) : Calm s (s.tick c)

/-- Any number of calm moves. -/
abbrev Calmly : State → State → Prop := Relation.ReflTransGen Calm

/-- A change of registers that control nothing, memory untouched. -/
theorem Calmly.of_control {s t : State} (h : t.control = s.control) (hm : t.mem = s.mem) : Calmly s t :=
  .single (.control ⟨h, fun hw => hm ▸ hw⟩)

theorem Calmly.of_sameControl {s t : State} (h : SameControl s t) : Calmly s t := .single (.control h)

theorem calmly_raiseSoft (k : TrapKind) (s : State) : Calmly s (s.raiseSoft k) :=
  .trans (.single (.trapFlag k s)) (Calmly.of_control rfl rfl)

theorem calmly_raiseMath (bit : Nat) (h6 : 6 ≤ bit) (h14 : bit ≤ 14) (s : State) : Calmly s (s.raiseMath bit) :=
  .trans (.single (.mathFlag bit s h6 h14)) (calmly_raiseSoft .mathErr _)

theorem calmly_raiseOverflow (acc : Acc) (s : State) : Calmly s (s.raiseOverflow acc) := by
  unfold State.raiseOverflow
  split
  · exact calmly_raiseMath _ (by cases acc <;> decide) (by cases acc <;> decide) s
  · exact .refl

theorem calmly_raiseFarOverflow (acc : Acc) (s : State) : Calmly s (s.raiseFarOverflow acc) := by
  unfold State.raiseFarOverflow
  split
  · exact calmly_raiseMath _ (by cases acc <;> decide) (by cases acc <;> decide) s
  · exact .refl

theorem calmly_drawAcc (acc : Acc) (s : State) : Calmly s (s.drawAcc acc) := by
  cases acc <;> exact .of_control rfl rfl

theorem calmly_drawOther (inhibit : Bool) (s : State) : Calmly s (s.drawOther inhibit) :=
  .of_sameControl ⟨by simp [State.control], drawOther_keeps_wf inhibit s⟩

theorem calmly_wakeIfRequested (s : State) : Calmly s s.wakeIfRequested := by
  unfold State.wakeIfRequested State.wake
  split
  · split <;> exact .of_control rfl rfl
  · exact .refl

/-- A calm change that takes place only under a condition. -/
theorem Calmly.ite {s t : State} (c : Prop) [Decidable c] (h : Calmly s t) : Calmly s (if c then t else s) := by
  split
  · exact h
  · exact .refl

/-! ## What an instruction does without a software write -/

/-- The traps that a condition set raises only set flags (R158, R170). -/
theorem calmly_raiseConds (c : TrapConds) (e : Eff) : Calmly e.st (e.raiseConds c).st := by
  have cond (p : Prop) [Decidable p] {f : State → State} (hf : ∀ a, Calmly a (f a)) {a : State}
      (h : Calmly e.st a) : Calmly e.st (if p then f a else a) := h.trans (Calmly.ite p (hf a))
  unfold Eff.raiseConds
  have hovA := cond (e.st.overflows .a c.ovA) (calmly_raiseOverflow .a) .refl
  have hovB := cond (e.st.overflows .b c.ovB) (calmly_raiseOverflow .b) hovA
  have hfarA := cond (e.st.overflowsFar .a c.covA) (calmly_raiseFarOverflow .a) hovB
  have hfarB := cond (e.st.overflowsFar .b c.covB) (calmly_raiseFarOverflow .b) hfarA
  have hshift := cond c.shift (calmly_raiseMath 7 (by omega) (by omega)) hfarB
  have hdiv := cond c.div0 (calmly_raiseMath 6 (by omega) (by omega)) hshift
  exact cond c.stack (calmly_raiseSoft .stkErr) hdiv

theorem calmly_otherEvent (c : TrapConds) (e : Eff) : Calmly e.st (e.otherEvent c).st :=
  .trans (calmly_drawOther c.addr e.st) (calmly_raiseConds c (e.map (State.drawOther c.addr)))

theorem calmly_divide (d : Int) (e : Eff) : Calmly e.st (e.divide d).st := by
  have hd : Calmly e.st (e.map State.drawDivide).st := .of_control (by simp [State.control]) (by simp)
  unfold Eff.divide
  split
  · exact hd.trans (calmly_raiseMath 6 (by omega) (by omega) _)
  · exact hd

theorem calmly_read (size : Size) (ea : Word) (e : Eff) : Calmly e.st (e.read size ea).2.st :=
  .of_control rfl rfl

theorem calmly_stackCheck (exact : Int) (e : Eff) : Calmly e.st (e.stackCheck exact).st := by
  unfold Eff.stackCheck
  split
  · exact calmly_raiseSoft .stkErr e.st
  · exact .refl

theorem calmly_pop (e : Eff) : Calmly e.st e.pop.2.st := by
  have hw : Calmly e.st (e.map fun s => { s with w15 := e.st.w15 - 2 }).st := .of_control rfl rfl
  exact (hw.trans (calmly_stackCheck _ _)).trans (calmly_read _ _ _)

theorem calmly_popFrame (e : Eff) : Calmly e.st e.popFrame.2.st := (calmly_pop e).trans (calmly_pop _)

/-! ## Software writes -/

/-- One software write of a register that controls exceptions: of an SFR, of DISICNT, the OR to SRL, and the load of
DISI. -/
inductive RegWrite : State → State → Prop
  | sfr (r : Sfr) (sel v : Word) (e : Eff) : RegWrite e.st (e.sfrUpdate r sel v).st
  | disicnt (v : BitVec 14) (s : State) : RegWrite s (s.writeDisicnt v)
  | orSrl (v : Byte) (s : State) : RegWrite s (s.orSrlFlags v)
  | disi (k : BitVec 14) (s : State) :
    RegWrite s { s with disicnt := k, intcon2 := setBit s.intcon2 14 (decide (k ≠ 0)) }

/-- Calm moves with at most one software write among them. -/
def Writes (s t : State) : Prop := Calmly s t ∨ ∃ a b, Calmly s a ∧ RegWrite a b ∧ Calmly b t

theorem RegWrite.writes {s t : State} (h : RegWrite s t) : Writes s t := .inr ⟨s, t, .refl, h, .refl⟩

theorem Writes.after {s t u : State} (hc : Calmly s t) (h : Writes t u) : Writes s u := by
  obtain h | ⟨a, b, ha, hw, hb⟩ := h
  · exact .inl (hc.trans h)
  · exact .inr ⟨a, b, hc.trans ha, hw, hb⟩

theorem Writes.before {s t u : State} (h : Writes s t) (hc : Calmly t u) : Writes s u := by
  obtain h | ⟨a, b, ha, hw, hb⟩ := h
  · exact .inl (h.trans hc)
  · exact .inr ⟨a, b, ha, hw, hb.trans hc⟩

/-- A store that is not inhibited writes one register, or memory (R96, R99, R179). -/
theorem writes_store (size : Size) (ea v : Word) (e : Eff) : Writes e.st (e.store size ea v).st := by
  unfold Eff.store
  split
  · cases size with
    | word =>
      dsimp only
      split
      · exact (RegWrite.sfr ..).writes
      · exact .inl (.of_sameControl ⟨rfl, putWord_keeps_wf _ _ _⟩)
    | byte =>
      dsimp only
      split
      · split <;> exact (RegWrite.sfr ..).writes
      · exact .inl (.of_sameControl ⟨rfl, putByte_keeps_wf _ _ _⟩)
  · exact .inl .refl

theorem writes_write (size : Size) (ea v : Word) (e : Eff) : Writes e.st (e.write size ea v).st := by
  unfold Eff.write
  split
  · exact .inl .refl
  · split
    · exact .inl .refl
    · exact writes_store size ea v e

theorem writes_push (v : Word) (e : Eff) : Writes e.st (e.push v).st :=
  (Writes.after (calmly_stackCheck _ e) (writes_write _ _ _ _)).before (.of_control rfl rfl)

theorem calmly_access_read (size : Size) (ea : Word) (e : Eff) : Calmly e.st (e.access size ea .read).st :=
  .of_control (by unfold State.control; rfl) rfl

theorem writes_access (size : Size) (ea : Word) (op : DataOp) (e : Eff) : Writes e.st (e.access size ea op).st := by
  cases op with
  | read => exact .inl (calmly_access_read size ea e)
  | write v => exact writes_write size ea v e

/-! ## Every instruction -/

/-- Calm moves with at most one software write among them, and then perhaps a reset of the device. -/
def Ran (s t : State) : Prop := ∃ c, Writes s c ∧ (t = c ∨ ∃ cause, t = deviceReset cause c)

theorem Writes.ran {s t : State} (h : Writes s t) : Ran s t := ⟨t, h, .inl rfl⟩

/-- Settling the hard traps adds calm moves, and at its end perhaps a reset (R203, R204, R212, R214). -/
theorem Writes.settle {s : State} {e : Eff} (h : Writes s e.st) (pre : State) : Ran s (e.settle pre) := by
  have flag {u : State} (k : TrapKind) (hu : Writes s u) : Writes s (u.setTrapFlag k) :=
    hu.before (.single (.trapFlag k u))
  have bump {u : State} (hu : Writes s u) : Writes s u.bump := hu.before (.of_control rfl rfl)
  obtain ⟨u, hu, ht⟩ := settle_cases pre e
  have hs : Writes s u := by
    rcases hu with rfl | rfl | rfl | rfl
    · exact h
    · exact flag _ h
    · exact flag _ h
    · exact flag _ (flag _ h)
  rcases ht with ht | ht | ht | ht <;> rw [ht]
  · exact hs.ran
  · exact ⟨u, hs, .inr ⟨_, rfl⟩⟩
  · exact ⟨u.bump, bump hs, .inr ⟨_, rfl⟩⟩
  · exact Writes.ran ((bump hs).before (.of_control rfl rfl))

theorem Writes.finish {s : State} {e : Eff} (h : Writes s e.st) (pre : State) (next : PAddr) (c : Nat)
    (late : Bool) : Ran s (e.finish pre next c late) := by
  have hp : Calmly e.st { e.st with pc := next, lateEntry := late } := .of_control rfl rfl
  exact Writes.settle (h.before (hp.trans (.single (.tick c _)))) pre

theorem Writes.goTo {s : State} {e : Eff} (h : Writes s e.st) (pre : State) (next : PAddr) :
    Ran s (e.goTo pre next) := h.finish pre next pre.cycles pre.late

/-- A software write of an SFR by its own event. -/
theorem ran_sfrUpdate (r : Sfr) (sel v : Word) (s : State) (next : PAddr) :
    Ran s ((s.eff.sfrUpdate r sel v).goTo s next) := (RegWrite.sfr r sel v s.eff).writes.goTo s next

/-- A jump only notes an address error (R180). -/
theorem ran_jump (s : State) (target : PAddr) : Ran s (s.eff.jump s target) :=
  Writes.goTo (e := { s.eff with addr := s.eff.addr || !progImplemented s.dev target }) (.inl .refl) s target

/-- `Other` events, whatever their length and kind. -/
theorem ran_otherEvent (c : TrapConds) (s : State) (next : PAddr) (n : Nat) (late : Bool) :
    Ran s ((s.eff.otherEvent c).finish s next n late) := Writes.finish (.inl (calmly_otherEvent c s.eff)) s next n late

theorem ran_pwrsav (m : PowerMode) (s : State) :
    Ran s ({ s.eff.goTo s (s.pc + 2) with power := powerOf m } : State).wakeIfRequested := by
  rw [goTo_quiet _ _ _ rfl rfl rfl]
  have hp : Calmly s { s with pc := s.pc + 2, lateEntry := s.late } := .of_control rfl rfl
  have hs : Calmly (({ s with pc := s.pc + 2, lateEntry := s.late } : State).tick s.cycles)
    { ({ s with pc := s.pc + 2, lateEntry := s.late } : State).tick s.cycles with power := powerOf m } :=
    .of_control rfl rfl
  exact Writes.ran (.inl (((hp.trans (.single (.tick _ _))).trans hs).trans (calmly_wakeIfRequested _)))

theorem ran_disi (k : BitVec 14) (s t : State) (h : exec (.disi k) s = .next t) : Ran s t := by
  obtain rfl := Host.Outcome.next.inj h
  have hp : Calmly s { s with pc := s.pc + 2, lateEntry := s.late } := .of_control rfl rfl
  exact (Writes.after (hp.trans (.single (.tick 1 _))) (RegWrite.disi k _).writes).ran

theorem calmly_accOp (acc : Acc) (ov far : Bool) (s : State) :
    Calmly s
      (let t := (s.drawAcc acc).setOverflowStatus acc ov
       let t := if ov then t.raiseOverflow acc else t
       if far then t.raiseFarOverflow acc else t) := by
  have h1 : Calmly s ((s.drawAcc acc).setOverflowStatus acc ov) :=
    (calmly_drawAcc acc s).trans (Calmly.of_control rfl rfl)
  exact (h1.trans (Calmly.ite _ (calmly_raiseOverflow acc _))).trans (Calmly.ite _ (calmly_raiseFarOverflow acc _))

/-- Every instruction but RETFIE makes calm moves and at most one software write, and may then reset the device. -/
theorem exec_ran (i : Instr) (s t : State) (hi : i ≠ .retfie) (h : exec i s = .next t) : Ran s t := by
  cases i with
  | retfie => exact absurd rfl hi
  | disi k => exact ran_disi k s t h
  | repeatLit k =>
    simp only [exec, execRepeatLit] at h
    split at h <;> obtain rfl := Host.Outcome.next.inj h
    · exact Writes.goTo (.inl (calmly_divide _ s.eff)) s _
    · exact ran_otherEvent {} s _ _ _
  | macFetch space ea =>
    simp only [exec, execMacFetch] at h
    split at h <;> obtain rfl := Host.Outcome.next.inj h
    · exact Writes.goTo (s := s) (.inl (.of_control rfl rfl)) s _
    · exact (writes_access .word ea .read s.eff).goTo s _
  | bitIndirect ea op =>
    have hr := calmly_access_read .word ea s.eff
    obtain rfl := Host.Outcome.next.inj h
    cases op with
    | read => exact Writes.goTo (.inl hr) s _
    | write v => exact Writes.goTo (Writes.after hr (writes_write .word ea v _)) s _
  | sftac acc n =>
    obtain rfl := Host.Outcome.next.inj h
    refine Writes.goTo (s := s) (.inl ?_) s _
    simp only [Eff.map_st, State.eff_st]
    split
    · exact calmly_raiseMath 7 (by omega) (by omega) s
    · exact calmly_drawAcc acc s
  | accOp acc ov31 ov39 =>
    obtain rfl := Host.Outcome.next.inj h
    exact Writes.goTo (e := s.eff.map _) (.inl (calmly_accOp acc _ _ s)) s _
  | pwrsav m =>
    obtain rfl := Host.Outcome.next.inj h
    exact ran_pwrsav m s
  | reset =>
    obtain rfl := Host.Outcome.next.inj h
    exact ⟨s, .inl .refl, .inr ⟨.software, rfl⟩⟩
  | ret =>
    obtain rfl := Host.Outcome.next.inj h
    exact Writes.goTo (.inl (calmly_popFrame s.eff)) s _
  | repeatDiv d =>
    obtain rfl := Host.Outcome.next.inj h
    exact Writes.goTo (.inl (calmly_divide d s.eff)) s _
  | pushF f =>
    obtain rfl := Host.Outcome.next.inj h
    exact Writes.goTo (Writes.after (calmly_read .word (fileAddr f) s.eff) (writes_push _ _)) s _
  | popF f =>
    obtain rfl := Host.Outcome.next.inj h
    exact Writes.goTo (Writes.after (calmly_pop s.eff) (writes_write _ _ _ _)) s _
  | orSrl v =>
    obtain rfl := Host.Outcome.next.inj h
    exact Writes.goTo (e := s.eff.map _) (RegWrite.orSrl v s).writes s _
  | disicntWrite op =>
    obtain rfl := Host.Outcome.next.inj h
    refine Writes.goTo (e := s.eff.map _) (Writes.before (RegWrite.disicnt (countOperand s op) s).writes ?_) s _
    exact .of_control rfl rfl
  | dataAccess size ea op =>
    obtain rfl := Host.Outcome.next.inj h
    exact (writes_access size ea op s.eff).goTo s _
  | stackAccess mode size op =>
    obtain rfl := Host.Outcome.next.inj h
    have ha := Writes.after (calmly_stackCheck (stackExact s.w15 mode) s.eff)
      (writes_access size (stackEa s.w15 mode) op _)
    refine Writes.goTo (e := Eff.map _ _) (ha.before ?_) s _
    exact .of_control rfl rfl
  | sfrWrite r v | sfrBitClear r b | sfrBitSet r b | sfrFieldWrite r hi lo v =>
    obtain rfl := Host.Outcome.next.inj h
    exact ran_sfrUpdate r _ _ s _
  | nop | gotoWord2 hi =>
    obtain rfl := Host.Outcome.next.inj h
    exact Writes.goTo (e := s.eff) (.inl .refl) s _
  | gotoWord1 lo hi | bra n =>
    obtain rfl := Host.Outcome.next.inj h
    exact ran_jump s _
  | sfrRead r | splimWrite v =>
    obtain rfl := Host.Outcome.next.inj h
    refine Writes.goTo (e := s.eff.map _) (.inl ?_) s _
    exact .of_control rfl rfl
  | other c | movdPsv c | btscPsv c skip | btssPsv c skip =>
    obtain rfl := Host.Outcome.next.inj h
    exact ran_otherEvent c s _ _ _

end Sys2Proof.Machine
end

section
/-! PROOFS. What no step does (spec/10_state.md R25, R27, R40, R42, R143): the obligations that the small moves settle. -/

namespace Sys2Proof.Machine

/-! ## Every step -/

/-- One move of a step: a calm one, a software write, what RETFIE restores, what an entry raises, the flag of a
source, a reset. -/
inductive Move : State → State → Prop
  | calm {s t : State} (h : Calm s t) : Move s t
  | write {s t : State} (h : RegWrite s t) : Move s t
  | restore (ipl : BitVec 3) (flags : BitVec 5) (ipl3 : Bool) (s : State) :
    Move s { s with ipl := ipl, flags := flags, corcon := setBit s.corcon 3 ipl3 }
  | enter (r : Request) (p : Nat) (s : State) : Move s (s.enterPriority r p)
  | setIfs (n : Nat) (s : State) : Move s (s.setIfs n)
  | reset (cause : ResetCause) (s : State) : Move s (deviceReset cause s)

/-- Any number of moves. -/
abbrev Moves : State → State → Prop := Relation.ReflTransGen Move

theorem Calmly.moves {s t : State} (h : Calmly s t) : Moves s t :=
  Relation.ReflTransGen.mono (fun _ _ => Move.calm) s t h

/-- A change of registers that control nothing, memory untouched. -/
theorem Moves.of_control {s t : State} (h : t.control = s.control) (hm : t.mem = s.mem) : Moves s t :=
  (Calmly.of_control h hm).moves

theorem Writes.moves {s t : State} (h : Writes s t) : Moves s t := by
  obtain h | ⟨a, b, ha, hw, hb⟩ := h
  · exact h.moves
  · exact (ha.moves.tail (.write hw)).trans hb.moves

theorem Ran.moves {s t : State} (h : Ran s t) : Moves s t := by
  obtain ⟨c, hc, rfl | ⟨cause, rfl⟩⟩ := h
  · exact hc.moves
  · exact hc.moves.tail (.reset cause c)

theorem moves_settle (pre : State) (e : Eff) : Moves e.st (e.settle pre) := (Writes.settle (.inl .refl) pre).moves

theorem moves_finish (pre : State) (next : PAddr) (c : Nat) (late : Bool) (e : Eff) :
    Moves e.st (e.finish pre next c late) := (Writes.finish (.inl .refl) pre next c late).moves

theorem moves_returnFromException (s : State) : Moves s (returnFromException s) := by
  have hpop : Moves s s.eff.popFrame.2.st := (calmly_popFrame s.eff).moves
  unfold returnFromException
  revert hpop
  obtain ⟨⟨pc, srl, ipl3⟩, e⟩ := s.eff.popFrame
  intro hpop
  refine Relation.ReflTransGen.trans ?_ (moves_finish _ _ _ _ _)
  exact hpop.tail (.restore (srl.extractLsb' 5 3) (srl.extractLsb' 0 5) ipl3 e.st)

theorem moves_exec (i : Instr) (s t : State) (h : exec i s = .next t) : Moves s t := by
  by_cases hi : i = .retfie
  · subst hi
    obtain rfl := Host.Outcome.next.inj h
    exact moves_returnFromException s
  · exact (exec_ran i s t hi h).moves

theorem moves_vectorTo (r : Request) (p c : Nat) (s : State) : Moves s (s.vectorTo r p c) := by
  have he : Moves s (s.enterPriority r p) := .single (.enter r p s)
  refine (he.trans ?_).tail (.calm (.tick c _))
  exact .single (.calm (.control ⟨rfl, id⟩))

theorem moves_takeException (r : Request) (s : State) : Moves s (takeException r s) := by
  have hrace : Moves s { s with race := [] } := .of_control rfl rfl
  have hpush : Moves { s with race := [] } ({ s with race := [] } : State).pushFrame.st :=
    (writes_push _ ({ s with race := [] } : State).eff).moves.trans (writes_push _ _).moves
  have hvector (u : State) : Moves u (u.vectorTo r (s.priority r) s.entryCycles).bump :=
    (moves_vectorTo r _ _ u).trans (Moves.of_control rfl rfl)
  refine Relation.ReflTransGen.trans ?_ (moves_settle _ _)
  exact (hrace.trans hpush).trans (hvector _)

theorem moves_pinChange (k : Fin 3) (level : Bool) (s : State) : Moves s (s.pinChange k level) := by
  have hp : Moves s { s with pins := s.pins.set k level } := .of_control rfl rfl
  unfold State.pinChange
  dsimp only
  split
  · exact hp.tail (.setIfs _ _)
  · exact hp

theorem moves_wake (s : State) : Moves s s.wake := by
  unfold State.wake
  split <;> exact .of_control rfl rfl

theorem moves_envEvent (ev : EnvEvent) (s : State) : Moves s (envEvent ev s) := by
  cases ev with
  | periph n => exact (Relation.ReflTransGen.single (.setIfs n s)).trans (calmly_wakeIfRequested _).moves
  | pinChange k level => exact (moves_pinChange k level s).trans (calmly_wakeIfRequested _).moves
  | oscFail =>
    have hcf : Moves s { s with cf := true } := .of_control rfl rfl
    exact (hcf.trans (moves_settle s { s.eff with st := { s with cf := true }, swOsc := true })).trans (moves_wake _)
  | dmaCollision =>
    simp only [envEvent]
    split
    · exact (calmly_raiseSoft .dmaErr s).moves.trans (moves_wake _)
    · exact .refl
  | externalReset => exact .single (.reset .external s)

theorem moves_endSkid (skid : Bool) (s : State) : Moves s (s.endSkid skid) := by
  cases skid <;> exact .of_control rfl rfl

/-- A step that answers a next state under `endSkidResult` is the state before it with `soft_skid` as it leaves it. -/
theorem endSkidResult_next (skid : Bool) (x : Result) (t : State) (h : endSkidResult skid x = .next t) :
    ∃ u, x = .next u ∧ t = u.endSkid skid := by
  cases x with
  | next u => exact ⟨u, rfl, (Host.Outcome.next.inj h).symm⟩
  | fault f => cases h
  | refused r => cases h

theorem moves_boundary (s t : State) (h : boundary s = .next t) : Moves s t := by
  obtain ⟨u, hu, rfl⟩ := endSkidResult_next _ _ _ h
  refine Relation.ReflTransGen.trans ?_ (moves_endSkid s.softSkid u)
  split at hu
  · next r _ =>
    obtain rfl := Host.Outcome.next.inj hu
    have hd : Moves s { s with dataWrite := false } := .of_control rfl rfl
    exact hd.trans (moves_takeException r _)
  · have hb : Moves s s.atBoundary := .of_control rfl rfl
    split at hu
    · split at hu
      · exact hb.trans (moves_exec _ _ _ hu)
      · cases hu
      · cases hu
    · obtain rfl := Host.Outcome.next.inj hu
      have hd : Moves s.atBoundary s.atBoundary.bump := .of_control rfl rfl
      exact (hb.trans hd).trans (moves_finish _ _ _ _ { s.atBoundary.bump.eff with addr := true })

theorem moves_cpuStep (s t : State) (h : cpuStep s = .next t) : Moves s t := by
  unfold cpuStep at h
  split at h
  · exact moves_boundary s t h
  · obtain rfl := Host.Outcome.next.inj h
    exact (calmly_wakeIfRequested s).moves
  · obtain rfl := Host.Outcome.next.inj h
    exact (calmly_wakeIfRequested s).moves
  · obtain rfl := Host.Outcome.next.inj h
    exact .refl

/-- Every step of the machine is made of the small moves (R140, R216). -/
theorem moves_step (s t : State) (h : step s = .next t) : Moves s t := by
  have hturns (left : List Turn) : Moves s { s with turns := left } := .of_control rfl rfl
  unfold step turn at h
  split at h
  · exact moves_cpuStep s t h
  · exact (hturns _).trans (moves_cpuStep _ t h)
  · obtain rfl := Host.Outcome.next.inj h
    exact (hturns _).trans (moves_envEvent _ _)

/-- What every move keeps, every step keeps. -/
theorem step_keeps {P : State → Prop} (hP : ∀ s t, Move s t → P s → P t) (s t : State) (h : step s = .next t)
    (hs : P s) : P t := by
  have hm := moves_step s t h
  clear h
  induction hm with
  | refl => exact hs
  | tail _ hm ih => exact hP _ _ hm ih

end Sys2Proof.Machine
end

section
/-! PROOFS. The parameters, IPL3 and SR.IPL (spec/10_state.md R25, R27, R42): what every small move leaves alone, and
the obligations that say so. -/

namespace Sys2Proof.Machine

/-! ## Software writes and the control registers -/

/-- A software write of INTTREG, SPLIM, RCON or OSCCON changes no control register and no memory. -/
theorem sfrUpdate_sameControl (r : Sfr) (hr : r = .inttreg ∨ r = .splim ∨ r = .rcon ∨ r = .osccon) (sel v : Word)
    (e : Eff) : SameControl e.st (e.sfrUpdate r sel v).st := by
  obtain rfl | rfl | rfl | rfl := hr
  · exact ⟨rfl, id⟩
  · exact ⟨rfl, id⟩
  · simp only [Eff.sfrUpdate, Eff.sfrBits, Eff.map_st]
    split <;> exact ⟨rfl, id⟩
  · simp only [Eff.sfrUpdate, Eff.sfrBits, Eff.map_st]
    split <;> exact ⟨rfl, id⟩

/-- A software write of INTCON1 changes no other control register but the marks on its flags (R29). -/
theorem sfrUpdate_intcon1_control (sel v : Word) (e : Eff) :
    let u := (e.sfrUpdate .intcon1 sel v).st
    u.control = { e.st.control with intcon1 := u.intcon1, inert := u.inert } := by
  simp only [Eff.sfrUpdate, Eff.sfrBits, Eff.writeIntcon1]
  split <;> rfl

/-! ## The parameters -/

theorem SameParameters.trans {s t u : State} (h : SameParameters s t) (h' : SameParameters t u) :
    SameParameters s u := by
  obtain ⟨hprog, hevents, htiming, hdev⟩ := h
  obtain ⟨hprog', hevents', htiming', hdev'⟩ := h'
  exact ⟨hprog'.trans hprog, hevents'.trans hevents, htiming'.trans htiming, hdev'.trans hdev⟩

/-- A software write of an SFR leaves the parameters alone (R42). -/
theorem sfrUpdate_parameters (r : Sfr) (sel v : Word) (e : Eff) : SameParameters e.st (e.sfrUpdate r sel v).st := by
  cases r with
  | intcon1 =>
    have h := sfrUpdate_intcon1_control sel v e
    exact ⟨congrArg Control.prog h, congrArg Control.events h, congrArg Control.timing h, congrArg Control.dev h⟩
  | rcon | osccon => exact (sfrUpdate_sameControl _ (by simp) sel v e).parameters
  | _ => exact ⟨rfl, rfl, rfl, rfl⟩

theorem Calm.parameters {s t : State} (h : Calm s t) : SameParameters s t := by
  cases h with
  | control h => exact h.parameters
  | _ => exact ⟨rfl, rfl, rfl, rfl⟩

theorem RegWrite.parameters {s t : State} (h : RegWrite s t) : SameParameters s t := by
  cases h with
  | sfr r sel v e => exact sfrUpdate_parameters r sel v e
  | _ => exact ⟨rfl, rfl, rfl, rfl⟩

theorem setIfs_parameters (n : Nat) (s : State) : SameParameters s (s.setIfs n) := by
  unfold State.setIfs
  split <;> exact ⟨rfl, rfl, rfl, rfl⟩

theorem Move.parameters {s t : State} (h : Move s t) : SameParameters s t := by
  cases h with
  | calm h => exact h.parameters
  | write h => exact h.parameters
  | enter r p => cases r <;> exact ⟨rfl, rfl, rfl, rfl⟩
  | setIfs n => exact setIfs_parameters n s
  | _ => exact ⟨rfl, rfl, rfl, rfl⟩

/-! ## IPL3 -/

theorem ipl3_congr {s t : State} (h : t.corcon = s.corcon) : t.ipl3 = s.ipl3 := congrArg (BitVec.getLsbD · 3) h

theorem Calmly.corcon {s t : State} (h : Calmly s t) : t.corcon = s.corcon := by
  induction h with
  | refl => rfl
  | tail _ hm ih =>
    cases hm with
    | control h => exact h.corcon.trans ih
    | _ => exact ih

/-- No calm move changes IPL3. -/
theorem Calmly.ipl3 {s t : State} (h : Calmly s t) : t.ipl3 = s.ipl3 := ipl3_congr h.corcon

/-- A software write only clears IPL3 (R26, R40). -/
theorem RegWrite.ipl3 {s t : State} (h : RegWrite s t) (ht : t.ipl3 = true) : s.ipl3 = true := by
  cases h with
  | sfr r sel v e =>
    cases r with
    | corcon =>
      simp only [State.ipl3, Eff.sfrUpdate, Eff.sfrBits, Eff.map_st, State.wroteData_corcon, getLsbD_accessWrite,
        Bool.and_eq_true] at ht
      exact ht.1
    | intcon1 => exact ipl3_congr (congrArg Control.corcon (sfrUpdate_intcon1_control sel v e)) ▸ ht
    | rcon => exact ipl3_congr (sfrUpdate_sameControl .rcon (by simp) sel v e).corcon ▸ ht
    | osccon => exact ipl3_congr (sfrUpdate_sameControl .osccon (by simp) sel v e).corcon ▸ ht
    | _ => exact ht
  | _ => exact ht

theorem Writes.ipl3 {s t : State} (h : Writes s t) (ht : t.ipl3 = true) : s.ipl3 = true := by
  obtain h | ⟨a, b, ha, hw, hb⟩ := h
  · rwa [h.ipl3] at ht
  · rw [hb.ipl3] at ht
    rw [← ha.ipl3]
    exact hw.ipl3 ht

theorem deviceReset_ipl3 (cause : ResetCause) (s : State) : (deviceReset cause s).ipl3 = false := by
  change (0x0020#16).getLsbD 3 = false
  decide

theorem deviceReset_sr (cause : ResetCause) (s : State) : (deviceReset cause s).sr = 0 := by
  change (0#8 ++ 0#3 ++ 0#5 : BitVec 16) = 0
  decide

/-! ## SR.IPL while NSTDIS is 1 -/

theorem Calmly.ipl {s t : State} (h : Calmly s t) : t.ipl = s.ipl := by
  induction h with
  | refl => rfl
  | tail _ hm ih =>
    cases hm with
    | control h => exact h.ipl.trans ih
    | _ => exact ih

/-- No calm move changes NSTDIS: the flags of INTCON1 that they set are other bits (R28). -/
theorem Calmly.nstdis {s t : State} (h : Calmly s t) : t.nstdis = s.nstdis := by
  induction h with
  | refl => rfl
  | tail _ hm ih =>
    rw [← ih]
    cases hm with
    | control h => exact congrArg (BitVec.getLsbD · 15) h.intcon1
    | trapFlag k u => exact getLsbD_setBit_ne _ _ _ _ (by cases k <;> decide)
    | mathFlag bit u h6 h14 => exact getLsbD_setBit_ne _ _ _ _ (by omega)
    | tick c u => rfl

/-- While NSTDIS is 1 a software write leaves SR.IPL alone (R25, R40). -/
theorem RegWrite.ipl {s t : State} (h : RegWrite s t) (hn : s.nstdis = true) : t.ipl = s.ipl := by
  cases h with
  | sfr r sel v e =>
    cases r with
    | sr => simp only [Eff.sfrUpdate, Eff.sfrBits, Eff.map_st, State.wroteData_ipl, State.writeSr, hn, if_true]
    | intcon1 => exact congrArg Control.ipl (sfrUpdate_intcon1_control sel v e)
    | rcon | osccon => exact (sfrUpdate_sameControl _ (by simp) sel v e).ipl
    | _ => rfl
  | orSrl v => simp only [State.orSrlFlags_ipl, hn, if_true]
  | _ => rfl

theorem Writes.ipl {s t : State} (h : Writes s t) (hn : s.nstdis = true) : t.ipl = s.ipl := by
  obtain h | ⟨a, b, ha, hw, hb⟩ := h
  · exact h.ipl
  · rw [hb.ipl, hw.ipl (ha.nstdis.trans hn), ha.ipl]

end Sys2Proof.Machine

namespace Sys2Proof.Proofs

open Sys2Proof.Machine

/-- Settles O58: no small move changes a parameter, so no step does. -/
theorem stepKeepsParameters : Obligations.StepKeepsParameters := by
  intro s t h
  exact step_keeps (P := SameParameters s) (fun _ _ hm hs => hs.trans hm.parameters) s t h ⟨rfl, rfl, rfl, rfl⟩

/-- Settles O59: every instruction but RETFIE is calm moves, one software write, and perhaps a reset, and none of them
sets IPL3. -/
theorem softwareCannotSetIpl3 : Obligations.SoftwareCannotSetIpl3 := by
  intro i s t hi h ht
  obtain ⟨c, hc, rfl | ⟨cause, rfl⟩⟩ := exec_ran i s t hi h
  · exact hc.ipl3 ht
  · exact absurd ht (by simp [deviceReset_ipl3])

/-- Settles O60: the one software write of an instruction begins with NSTDIS as the instruction found it. -/
theorem nstdisFreezesIpl : Obligations.NstdisFreezesIpl := by
  intro i s t hi hn h
  obtain ⟨c, hc, rfl | ⟨cause, rfl⟩⟩ := exec_ran i s t hi h
  · exact .inl (hc.ipl hn)
  · exact .inr ⟨rfl, deviceReset_sr cause c, rfl⟩

end Sys2Proof.Proofs
end

section
/-! PROOFS. The invariant (spec/10_state.md R40, R143): each small move keeps it, so every step does. -/

namespace Sys2Proof.Machine

/-! ## Bits that stay 0 -/

/-- A register holds 0 in every bit of a mask. -/
theorem and_eq_zero_iff {n : Nat} (w m : BitVec n) :
    w &&& m = 0#n ↔ ∀ i, m.getLsbD i = true → w.getLsbD i = false := by
  constructor
  · intro h i hm
    have hi : (w &&& m).getLsbD i = false := by rw [h, BitVec.getLsbD_zero]
    simpa [hm] using hi
  · intro h
    apply BitVec.eq_of_getLsbD_eq
    intro i _
    cases hm : m.getLsbD i
    · simp [hm]
    · simp [h i hm]

theorem getLsbD_and_not {n : Nat} (x y : BitVec n) (i : Nat) :
    (x &&& ~~~y).getLsbD i = (x.getLsbD i && !y.getLsbD i) := by
  by_cases hi : i < n
  · simp [hi]
  · simp [BitVec.getLsbD_of_ge _ _ (Nat.le_of_not_lt hi)]

/-- A bit outside the mask may be written, and a bit of the mask may be cleared. -/
theorem setBit_and_eq_zero {n : Nat} {w m : BitVec n} (h : w &&& m = 0#n) (i : Nat) (b : Bool)
    (hb : m.getLsbD i = true → b = false) : setBit w i b &&& m = 0#n := by
  rw [and_eq_zero_iff] at h ⊢
  intro j hj
  rw [getLsbD_setBit]
  split
  · next hji => exact hb (hji.1 ▸ hj)
  · exact h j hj

/-- A software write keeps a bit 0 that it may not write (R40). -/
theorem accessWrite_and_eq_zero {n : Nat} {old m : BitVec n} (h : old &&& m = 0#n) (v sel wmask cmask : BitVec n)
    (hw : wmask &&& m = 0#n) : accessWrite old v sel wmask cmask &&& m = 0#n := by
  rw [and_eq_zero_iff] at h hw ⊢
  intro i hi
  rw [getLsbD_accessWrite, hw i hi, h i hi]
  rfl

/-- A register of a bank keeps its unimplemented bits 0 where the one that is written does. -/
theorem set_keeps_masks {n : Nat} {bank : Vector Word n} {mask : Nat → Word}
    (h : ∀ j : Fin n, bank[j] &&& mask j.val = 0#16) (i : Fin n) {w : Word} (hw : w &&& mask i.val = 0#16) :
    ∀ j : Fin n, (bank.set i w)[j] &&& mask j.val = 0#16 := by
  intro j
  by_cases hij : i = j
  · subst hij
    simpa using hw
  · have hne : i.val ≠ j.val := Fin.val_ne_of_ne hij
    simpa [Vector.getElem_set_ne, hne] using h j

/-- The fields of INTTREG leave its unimplemented bits 0 (R32). -/
theorem inttregOf_unimplemented (ilr : BitVec 4) (vecnum : BitVec 7) :
    inttregOf ilr vecnum &&& 0xF080#16 = 0#16 := by
  have hbits : ∀ i : Fin 16, (0xF080#16).getLsbD i = true → i.val = 7 ∨ 12 ≤ i.val := by decide
  rw [and_eq_zero_iff]
  intro i hm
  have hi : i < 16 := BitVec.lt_of_getLsbD hm
  change (0#4 ++ ilr ++ 0#1 ++ vecnum : BitVec (4 + 4 + 1 + 7)).getLsbD i = false
  simp only [BitVec.getLsbD_append]
  obtain h | h : i = 7 ∨ 12 ≤ i := hbits ⟨i, hi⟩ hm
  · simp [h]
  · have h7 : ¬ i < 7 := by omega
    have h8 : ¬ i - 7 < 1 := by omega
    have h12 : ¬ i - 7 - 1 < 4 := by omega
    simp [h7, h8, h12]

/-! ## The marks on flags that request nothing -/

/-- Only trap status flags that are 1 are marked (R29), bit by bit. -/
theorem marks_iff (intcon1 inert : Word) :
    inert &&& ~~~(intcon1 &&& 0x003E#16) = 0#16 ↔
      ∀ j, inert.getLsbD j = true → intcon1.getLsbD j = true ∧ (0x003E#16).getLsbD j = true := by
  rw [and_eq_zero_iff]
  refine forall_congr' fun j => ?_
  by_cases hj : j < 16
  · simp only [BitVec.getLsbD_not, BitVec.getLsbD_and, hj, decide_true, Bool.true_and]
    cases inert.getLsbD j <;> cases intcon1.getLsbD j <;> cases (0x003E#16).getLsbD j <;> simp
  · simp [BitVec.getLsbD_of_ge _ _ (Nat.le_of_not_lt hj)]

/-- A flag that is set loses its mark, and the others keep theirs. -/
theorem marks_setBit {intcon1 inert : Word} (h : inert &&& ~~~(intcon1 &&& 0x003E#16) = 0#16) (i : Nat) :
    setBit inert i false &&& ~~~(setBit intcon1 i true &&& 0x003E#16) = 0#16 := by
  rw [marks_iff] at h ⊢
  intro j hj
  rw [getLsbD_setBit] at hj ⊢
  split at hj
  · cases hj
  · next hne =>
    rw [if_neg hne]
    exact h j hj

/-- A bit that is set in INTCON1 takes no mark away. -/
theorem marks_setBit_true {intcon1 inert : Word} (h : inert &&& ~~~(intcon1 &&& 0x003E#16) = 0#16) (i : Nat) :
    inert &&& ~~~(setBit intcon1 i true &&& 0x003E#16) = 0#16 := by
  rw [marks_iff] at h ⊢
  intro j hj
  rw [getLsbD_setBit]
  split
  · exact ⟨rfl, (h j hj).2⟩
  · exact h j hj

/-! ## Each move keeps the invariant -/

theorem MachineInv.of_control {s t : State} (h : SameControl s t) (hs : MachineInv s) : MachineInv t where
  mem := h.2 hs.mem
  corcon := h.corcon ▸ hs.corcon
  intcon1 := h.intcon1 ▸ hs.intcon1
  intcon2 := h.intcon2 ▸ hs.intcon2
  inttreg := h.inttreg ▸ hs.inttreg
  ifs := h.dev ▸ h.ifs ▸ hs.ifs
  iec := h.dev ▸ h.iec ▸ hs.iec
  ipc := h.dev ▸ h.ipc ▸ hs.ipc
  disi := by
    have hd := hs.disi
    unfold State.disi at hd ⊢
    rwa [h.intcon2, h.disicnt]
  inert := h.intcon1 ▸ h.inert ▸ hs.inert

theorem tick_keeps_inv (c : Nat) (s : State) (hs : MachineInv s) : MachineInv (s.tick c) := by
  obtain ⟨hcount, -, hdisi⟩ := ticked_tick c s
  refine { hs with intcon2 := ?_, disi := fun h hz => ?_ }
  · rw [State.tick_intcon2]
    split
    · exact setBit_and_eq_zero hs.intcon2 14 false fun _ => rfl
    · exact hs.intcon2
  · have hlt := (hdisi.1 h).2
    rw [hz] at hcount
    change 0 = _ at hcount
    omega

theorem writeDisicnt_keeps_inv (v : BitVec 14) (s : State) (hs : MachineInv s) : MachineInv (s.writeDisicnt v) := by
  refine { hs with intcon2 := ?_, disi := fun h hz => ?_ }
  · rw [State.writeDisicnt_intcon2]
    split
    · exact setBit_and_eq_zero hs.intcon2 14 false fun _ => rfl
    · exact hs.intcon2
  · have hz : v = 0 := hz
    rw [State.disi, State.writeDisicnt_intcon2, if_pos hz, getLsbD_setBit_self _ _ _ (by omega)] at h
    cases h

theorem Calm.inv {s t : State} (h : Calm s t) (hs : MachineInv s) : MachineInv t := by
  cases h with
  | control h => exact hs.of_control h
  | trapFlag k =>
    refine { hs with intcon1 := setBit_and_eq_zero hs.intcon1 _ _ ?_, inert := marks_setBit hs.inert _ }
    cases k <;> decide
  | mathFlag bit _ h6 h14 =>
    refine { hs with intcon1 := setBit_and_eq_zero hs.intcon1 _ _ ?_, inert := marks_setBit_true hs.inert _ }
    have hbit : ∀ b : Fin 16, 6 ≤ b.val → (0x0001#16).getLsbD b.val = false := by decide
    intro h
    rw [hbit ⟨bit, by omega⟩ h6] at h
    cases h
  | tick c => exact tick_keeps_inv c s hs

/-! ### Software writes of INTCON1 -/

/-- The trap status flags that a write turns from 0 to 1, bit by bit (R29). -/
theorem getLsbD_trapFlagsSet (sel v : Word) (s : State) (j : Nat) :
    (s.trapFlagsSet sel v).getLsbD j =
      ((s.intcon1Written sel v).getLsbD j && !s.intcon1.getLsbD j && (0x003E#16).getLsbD j) := by
  rw [State.trapFlagsSet, BitVec.getLsbD_and, getLsbD_and_not]

/-- A trap status flag that a write turns to 1 is 1 after it. -/
theorem getLsbD_intcon1New_of_set {sel v : Word} {e : Eff} {j : Nat}
    (h : (e.st.trapFlagsSet sel v).getLsbD j = true) : (e.intcon1New sel v).getLsbD j = true := by
  have hw : (e.st.intcon1Written sel v).getLsbD j = true := by
    simp only [getLsbD_trapFlagsSet, Bool.and_eq_true] at h
    exact h.1.1
  unfold Eff.intcon1New
  dsimp only
  split
  · next hc =>
    have hne : j ≠ 2 := by
      rintro rfl
      rw [hw, Bool.not_true, Bool.and_false] at hc
      cases hc
    rw [getLsbD_setBit_ne _ _ _ _ hne, hw]
  · exact hw

/-- Bit 0 of INTCON1 stays 0 (R28). -/
theorem intcon1New_unimplemented (sel v : Word) (e : Eff) (h : e.st.intcon1 &&& 0x0001#16 = 0#16) :
    e.intcon1New sel v &&& 0x0001#16 = 0#16 := by
  have hw : e.st.intcon1Written sel v &&& 0x0001#16 = 0#16 := accessWrite_and_eq_zero h _ _ _ _ (by decide)
  unfold Eff.intcon1New
  dsimp only
  split
  · exact setBit_and_eq_zero hw _ _ (by simp)
  · exact hw

/-- What a write of INTCON1 leaves of the marks: on a device where software requests traps every flag it sets is a
request, else every one is marked (R29). -/
theorem writeIntcon1_keeps_inv (sel v : Word) (e : Eff) (hs : MachineInv e.st) :
    MachineInv (e.writeIntcon1 sel v).st := by
  have h0 := intcon1New_unimplemented sel v e hs.intcon1
  have hold := (marks_iff _ _).1 hs.inert
  unfold Eff.writeIntcon1
  dsimp only
  split
  · refine { hs with intcon1 := ?_, inert := (marks_iff _ _).2 fun j hj => ?_ }
    · rw [BitVec.and_assoc, BitVec.and_comm _ 1#16, ← BitVec.and_assoc, h0, BitVec.zero_and]
    · rw [getLsbD_and_not, BitVec.getLsbD_and, Bool.and_eq_true, Bool.and_eq_true, Bool.not_eq_true'] at hj
      obtain ⟨⟨hi, hnew⟩, hset⟩ := hj
      rw [getLsbD_and_not, BitVec.getLsbD_and, hnew, hset]
      exact ⟨rfl, (hold j hi).2⟩
  · refine { hs with intcon1 := h0, inert := (marks_iff _ _).2 fun j hj => ?_ }
    simp only [BitVec.getLsbD_or, BitVec.getLsbD_and, Bool.or_eq_true, Bool.and_eq_true] at hj
    obtain ⟨hi, hnew⟩ | hset := hj
    · exact ⟨hnew, (hold j hi).2⟩
    · have hflag := hset
      simp only [getLsbD_trapFlagsSet, Bool.and_eq_true] at hflag
      exact ⟨getLsbD_intcon1New_of_set hset, hflag.2⟩

/-- DISI is read-only (R30, R40). -/
theorem accessWrite_intcon2_disi (old v sel : Word) :
    (accessWrite old v sel 0x8007#16 0#16).getLsbD 14 = old.getLsbD 14 := by
  rw [getLsbD_accessWrite, show (0x8007#16).getLsbD 14 = false by decide, BitVec.getLsbD_zero]
  simp only [Bool.false_and, Bool.false_eq_true, if_false, Bool.not_false, Bool.and_true]

/-! ### The other registers, and the other moves -/

theorem sfrUpdate_keeps_inv (r : Sfr) (sel v : Word) (e : Eff) (hs : MachineInv e.st) :
    MachineInv (e.sfrUpdate r sel v).st := by
  have hnot (m : Word) : m &&& ~~~m = 0#16 := BitVec.and_not_self m
  cases r with
  | sr => exact { hs with }
  | corcon => exact { hs with corcon := accessWrite_and_eq_zero hs.corcon _ _ _ _ (by decide) }
  | intcon1 => exact { writeIntcon1_keeps_inv sel v e hs with }
  | intcon2 =>
    refine { hs with intcon2 := accessWrite_and_eq_zero hs.intcon2 _ _ _ _ (by decide), disi := fun h => hs.disi ?_ }
    exact (accessWrite_intcon2_disi e.st.intcon2 v sel).symm.trans h
  | ifs i =>
    have hw := accessWrite_and_eq_zero (hs.ifs i) v sel (flagMask e.st.dev i.val) 0#16 (hnot _)
    exact { hs with ifs := set_keeps_masks (mask := fun j => ~~~flagMask e.st.dev j) hs.ifs i hw }
  | iec i =>
    have hw := accessWrite_and_eq_zero (hs.iec i) v sel (flagMask e.st.dev i.val) 0#16 (hnot _)
    exact { hs with iec := set_keeps_masks (mask := fun j => ~~~flagMask e.st.dev j) hs.iec i hw }
  | ipc i =>
    have hw := accessWrite_and_eq_zero (hs.ipc i) v sel (prioMask e.st.dev i.val) 0#16 (hnot _)
    exact { hs with ipc := set_keeps_masks (mask := fun j => ~~~prioMask e.st.dev j) hs.ipc i hw }
  | disicnt => exact { writeDisicnt_keeps_inv _ e.st hs with }
  | inttreg | splim | rcon | osccon => exact hs.of_control (sfrUpdate_sameControl _ (by simp) sel v e)

theorem RegWrite.inv {s t : State} (h : RegWrite s t) (hs : MachineInv s) : MachineInv t := by
  cases h with
  | sfr r sel v e => exact sfrUpdate_keeps_inv r sel v e hs
  | disicnt v => exact writeDisicnt_keeps_inv v s hs
  | orSrl v => exact { hs with }
  | disi k =>
    refine { hs with intcon2 := setBit_and_eq_zero hs.intcon2 _ _ fun h => absurd h (by decide), disi := fun h => ?_ }
    rw [State.disi, getLsbD_setBit_self _ _ _ (by omega)] at h
    exact of_decide_eq_true h

/-- IPL3 and the fields of INTTREG are implemented bits (R26, R32). -/
theorem enterPriority_keeps_inv (r : Request) (p : Nat) (s : State) (hs : MachineInv s) :
    MachineInv (s.enterPriority r p) := by
  cases r with
  | irq n => exact { hs with inttreg := inttregOf_unimplemented _ _ }
  | trap k =>
    exact { hs with
      inttreg := inttregOf_unimplemented _ _
      corcon := setBit_and_eq_zero hs.corcon _ _ fun h => absurd h (by decide) }

/-- Only the flag of a source that the device has is set (R215, R216). -/
theorem setIfs_keeps_inv (n : Nat) (s : State) (hs : MachineInv s) : MachineInv (s.setIfs n) := by
  unfold State.setIfs
  split
  · next hn =>
    refine { hs with ifs := fun j => ?_ }
    change (s.ifs.setIfInBounds (n / 16) _)[j.val] &&& ~~~flagMask s.dev j.val = 0#16
    rw [Vector.getElem_setIfInBounds j.isLt]
    split
    · next hj =>
      have hword : s.ifs[n / 16]?.getD 0 = s.ifs[j] := by simp [hj]
      have hbit : (~~~flagMask s.dev j.val).getLsbD (n % 16) = false := by
        rw [BitVec.getLsbD_not, getLsbD_flagMask, ← hj, Nat.div_add_mod, hn,
          decide_eq_true (Nat.mod_lt n (by omega) : n % 16 < 16)]
        rfl
      rw [hword]
      exact setBit_and_eq_zero (hs.ifs j) _ _ fun h => absurd h (by simp [hbit])
    · exact hs.ifs j
  · exact hs

/-- The state after a reset of any kind meets the invariant (R41, R69, R70). -/
theorem deviceReset_inv (cause : ResetCause) (s : State) : MachineInv (deviceReset cause s) where
  mem := deviceReset_gives_wf cause s
  corcon := by change 0x0020#16 &&& 0xF000#16 = 0#16; decide
  intcon1 := by change 0#16 &&& 0x0001#16 = 0#16; decide
  intcon2 := by change 0#16 &&& 0x3FF8#16 = 0#16; decide
  inttreg := by change 0#16 &&& 0xF080#16 = 0#16; decide
  ifs := fun i => by
    change (Vector.replicate 5 (0 : Word))[i] &&& _ = 0#16
    simp
  iec := fun i => by
    change (Vector.replicate 5 (0 : Word))[i] &&& _ = 0#16
    simp
  ipc := fun i => by
    change (Vector.ofFn fun j : Fin 20 => prioReset s.dev j.val)[i] &&& ~~~prioMask s.dev i.val = 0#16
    rw [Fin.getElem_fin, Vector.getElem_ofFn, prioReset, BitVec.and_comm, ← BitVec.and_assoc, BitVec.not_and_self]
    exact BitVec.zero_and
  disi := fun h => by
    change (0#16).getLsbD 14 = true at h
    exact absurd h (by decide)
  inert := BitVec.zero_and

theorem Move.inv {s t : State} (h : Move s t) (hs : MachineInv s) : MachineInv t := by
  cases h with
  | calm h => exact h.inv hs
  | write h => exact h.inv hs
  | restore ipl flags ipl3 =>
    exact { hs with corcon := setBit_and_eq_zero hs.corcon _ _ fun h => absurd h (by decide) }
  | enter r p => exact enterPriority_keeps_inv r p s hs
  | setIfs n => exact setIfs_keeps_inv n s hs
  | reset cause => exact deviceReset_inv cause s

end Sys2Proof.Machine

namespace Sys2Proof.Proofs

open Sys2Proof.Machine

/-- Settles O57: each of the small moves that make up a step keeps the invariant. -/
theorem stepKeepsInvariant : Obligations.StepKeepsInvariant :=
  fun s t hs h => step_keeps (fun _ _ hm => hm.inv) s t h hs

/-- Settles O56: after power-on the control registers hold what every reset of the device gives them. -/
theorem resetMeetsInvariant : Obligations.ResetMeetsInvariant := by
  have hsame : SameControl (deviceReset .powerOn State.reset) State.reset := ⟨rfl, id⟩
  exact (deviceReset_inv .powerOn State.reset).of_control hsame

end Sys2Proof.Proofs
end

section
/-! PROOFS. Which interrupt is taken (spec/60_exceptions.md R218 to R221), and the registers after a reset
(spec/10_state.md R41, spec/11_interrupt_source_registers.md R69). -/

namespace Sys2Proof.Machine

/-! ## The interrupt that is taken -/

/-- What is taken is a candidate whose priority exceeds `cpu_ipl` (R219, R220). -/
theorem taken_candidate (s : State) (r : Request) (h : s.taken = some r) :
    r ∈ s.candidates ∧ s.cpuIpl < s.priority r := by
  unfold State.taken at h
  split at h
  · next q hq =>
    split at h
    · next hlt =>
      obtain rfl := Option.some.inj h
      exact ⟨bestOf_mem s _ _ hq, hlt⟩
    · cases h
  · cases h

/-- The interrupts among the candidates (R219). -/
theorem irq_mem_candidates (s : State) (n : Nat) :
    Request.irq n ∈ s.candidates ↔ n < 118 ∧ s.irqCandidate n = true := by
  simp [State.candidates]

/-- While DISI is active a candidate has priority 0 or 7 (R221). -/
theorem irqCandidate_disi (s : State) (n : Nat) (h : s.irqCandidate n = true) (hd : s.disi = true)
    (h0 : s.seenField n ≠ 0) : s.seenField n = 7 := by
  simp only [State.irqCandidate, hd, Bool.and_eq_true, Bool.not_eq_true', Bool.true_and, Bool.and_eq_false_iff,
    decide_eq_false_iff_not] at h
  bv_omega

/-! ## The IPCx registers after a reset -/

/-- The priorities after a reset depend on the sources of the device alone (R69, R70). -/
theorem prioReset_congr (d d' : Device) (h : d.implemented = d'.implemented) (x : Nat) :
    prioReset d x = prioReset d' x := by
  have hfield (n : Nat) : fieldOf d n = fieldOf d' n := by rw [fieldOf, fieldOf, hasSource, hasSource, h]
  simp only [prioReset, prioMask, hfield]

theorem deviceReset_ipc (cause : ResetCause) (s : State) (h : s.dev.implemented = familySources) :
    (deviceReset cause s).ipc = State.reset.ipc := by
  change (Vector.ofFn fun i : Fin 20 => prioReset s.dev i.val) = Vector.ofFn fun i => prioReset familyDevice i.val
  simp only [prioReset_congr s.dev familyDevice h]

/-- The IPCx registers of a device with every source (R69). -/
theorem reset_ipc :
    State.reset.ipc =
      #v[0x4444, 0x4444, 0x4444, 0x0444, 0x4444, 0x4404, 0x4444, 0x4444, 0x4444, 0x0004,
         0x0000, 0x0440, 0x0000, 0x0000, 0x4440, 0x4444, 0x4440, 0x0444, 0x4440, 0x4400] := by decide

/-- No flag is set and no source enabled after a reset (R69). -/
theorem reset_flags_enables (i : Fin 5) : State.reset.ifs[i] = 0 ∧ State.reset.iec[i] = 0 := by
  revert i
  decide

end Sys2Proof.Machine

namespace Sys2Proof.Proofs

open Sys2Proof.Machine

/-- Settles O12: a priority of at most 7 that exceeds `cpu_ipl` leaves IPL3 no room, and under DISI a candidate of
priority above 0 has priority 7. -/
theorem interruptsNeedHigherPriority : Obligations.InterruptsNeedHigherPriority := by
  intro s n h
  obtain ⟨hmem, hlt⟩ := taken_candidate s _ h
  obtain ⟨-, hcand⟩ := (irq_mem_candidates s n).1 hmem
  have hlt : (if s.ipl3 then 8 else 0) + s.ipl.toNat < (s.seenField n).toNat := hlt
  have hle := (s.seenField n).isLt
  have hipl3 : s.ipl3 = false := by
    cases hi : s.ipl3
    · rfl
    · rw [hi, if_pos rfl] at hlt
      omega
  rw [hipl3, if_neg Bool.false_ne_true, Nat.zero_add] at hlt
  have h0 : s.seenField n ≠ 0 := by bv_omega
  have h7 : s.ipl ≠ 7 := by bv_omega
  exact ⟨hipl3, hlt, h7, h0, fun hd => irqCandidate_disi s n hcand hd h0⟩

/-- Settles O21: the values of R41 and R69 are those of the power-on state, and a reset of any kind gives the flags,
the enables and the priorities the same ones. -/
theorem resetValues : Obligations.ResetValues := by
  refine ⟨rfl, rfl, by decide, rfl, by decide, rfl, rfl, rfl, ⟨reset_flags_enables, reset_ipc⟩, rfl, rfl, rfl, rfl,
    fun cause u hu => ⟨reset_flags_enables, ?_⟩⟩
  rw [deviceReset_ipc cause u hu, reset_ipc]

end Sys2Proof.Proofs
end

section
/-! PROOFS. A software write of a register of the tables, to the end of its instruction (spec/10_state.md R40, R68,
spec/40_interrupt_control_instructions.md R150, R154). -/

namespace Sys2Proof.Machine

/-! ## The priorities that the next boundary uses -/

/-- A priority that the next boundary still uses stands in a list as it was written there. -/
theorem mem_of_lookup {α : Type} (l : List (Nat × α)) (n : Nat) (x : α) (h : l.lookup n = some x) : (n, x) ∈ l := by
  obtain ⟨before, after, rfl, -⟩ := List.lookup_eq_some_iff.1 h
  exact List.mem_append_right _ List.mem_cons_self

/-- Where no write races with the next boundary it uses the field of the register (R68). -/
theorem seenField_of_race_nil (s : State) (h : s.race = []) (n : Nat) : s.seenField n = s.ipcField n := by
  rw [State.seenField, h]
  rfl

/-- When a write of a priority races with the next boundary (R68, U1). -/
theorem priorityRaces_iff (n : Nat) (old new : BitVec 3) (s : State) :
    s.priorityRaces n old new = true ↔
      hasSource s.dev n = true ∧ s.iecBit n = true ∧ s.cpuIpl < 7 ∧ (s.disi = true → old = 7 ∨ new = 7) := by
  unfold State.priorityRaces
  cases s.disi <;> simp [and_assoc, or_iff_not_imp_left]

/-- What stands in the list of the fields that the next boundary still uses (R68, U1). -/
theorem mem_staleFields (i : Nat) (new : Word) (s : State) (n : Nat) (f : BitVec 3)
    (h : (n, f) ∈ s.staleFields i new) :
    n / 4 = i ∧ f = s.ipcField n ∧ s.priorityRaces n f (new.extractLsb' (4 * (n % 4)) 3) = true := by
  unfold State.staleFields at h
  obtain ⟨k, hk, hf⟩ := List.mem_filterMap.1 h
  have hk4 : k < 4 := List.mem_range.1 hk
  dsimp only at hf
  split at hf
  · next hr =>
    obtain ⟨rfl, rfl⟩ := Prod.mk.inj (Option.some.inj hf)
    have hmod : (4 * i + k) % 4 = k := by omega
    rw [Bool.and_eq_true] at hr
    exact ⟨by omega, rfl, by rw [hmod]; exact hr.1⟩
  · cases hf

/-- The field of an IRQ in the register that was written is that of the new word (R63). -/
theorem ipcField_writeIpc (i : Fin 20) (sel v : Word) (s : State) (n : Nat) (h : n / 4 = i.val) :
    (s.writeIpc i sel v).ipcField n =
      (accessWrite s.ipc[i] v sel (prioMask s.dev i.val) 0#16).extractLsb' (4 * (n % 4)) 3 := by
  unfold State.ipcField State.writeIpc
  simp [h]

/-- A software write of a priority register: the next boundary uses each priority as it is now, or one that races as
it was (R68, U1). -/
theorem prioritiesSeen_writeIpc (i : Fin 20) (sel v : Word) (s : State) :
    PrioritiesSeen s (s.writeIpc i sel v) := by
  intro hrace n
  unfold State.seenField
  cases hl : (s.writeIpc i sel v).race.lookup n with
  | none => exact .inl rfl
  | some f =>
    have hmem : (n, f) ∈ s.staleFields i.val (accessWrite s.ipc[i] v sel (prioMask s.dev i.val) 0#16) ++ s.race :=
      mem_of_lookup _ _ _ hl
    rw [hrace, List.append_nil] at hmem
    obtain ⟨hn, rfl, hr⟩ := mem_staleFields _ _ _ _ _ hmem
    rw [← ipcField_writeIpc i sel v s n hn, priorityRaces_iff] at hr
    exact .inr ⟨rfl, hr⟩

/-! ## The registers after the end of the instruction -/

/-- The end of an instruction changes INTCON2 and DISICNT by the tick, and no other register. -/
theorem sfrValue_tick (q : Sfr) (h2 : q ≠ .intcon2) (hd : q ≠ .disicnt) (next : PAddr) (late : Bool) (c : Nat)
    (s : State) : (({ s with pc := next, lateEntry := late } : State).tick c).sfrValue q = s.sfrValue q := by
  cases q with
  | intcon2 => exact absurd rfl h2
  | disicnt => exact absurd rfl hd
  | _ => rfl

/-- The tick changes no bit of INTCON2 but DISI (R142). -/
theorem sfrValue_intcon2_tick (next : PAddr) (late : Bool) (c : Nat) (s : State) (b : Nat) (hb : b ≠ 14) :
    ((({ s with pc := next, lateEntry := late } : State).tick c).sfrValue .intcon2).getLsbD b =
      (s.sfrValue .intcon2).getLsbD b := by
  have h := (ticked_tick c { s with pc := next, lateEntry := late }).2.1 b hb
  simp only [State.sfrValue, BitVec.getLsbD_and, h]

section
variable {r : Sfr} {acc : Nat → Access} {e : Eff} (h : tableAccess e.st r = some acc) (sel v : Word)
include h

/-- A software write of a register of the tables changes no bit of INTCON2 but those of INTCON2 itself, of which DISI
is read-only (R30, R40). -/
theorem sfrUpdate_intcon2 (j : Nat) (hj : r = .intcon2 → j = 14) :
    (e.sfrUpdate r sel v).st.intcon2.getLsbD j = e.st.intcon2.getLsbD j := by
  cases r with
  | intcon2 =>
    obtain rfl := hj rfl
    exact accessWrite_intcon2_disi e.st.intcon2 v sel
  | intcon1 | disicnt | splim | rcon | osccon => cases h
  | _ => rfl

theorem sfrUpdate_prioritiesSeen : PrioritiesSeen e.st (e.sfrUpdate r sel v).st := by
  have hnil (hr : ∀ i, r ≠ .ipc i) : PrioritiesSeen e.st (e.sfrUpdate r sel v).st := by
    intro hrace n
    exact .inl (seenField_of_race_nil _ (((sfrUpdate_frame r acc sel v e h).2.1 hr).trans hrace) n)
  cases r with
  | ipc i => exact prioritiesSeen_writeIpc i sel v e.st
  | _ => exact hnil fun _ => nofun

variable (ha : e.addr = false) (hs : e.swAddr = false) (ho : e.swOsc = false) (pre : State) (next : PAddr)
include ha hs ho

/-- The end of the instruction adds no trap. -/
theorem goTo_sfrUpdate :
    (e.sfrUpdate r sel v).goTo pre next =
      ({ (e.sfrUpdate r sel v).st with pc := next, lateEntry := pre.late } : State).tick pre.cycles := by
  obtain ⟨-, -, haddr, hsw, hosc⟩ := sfrUpdate_frame r acc sel v e h
  exact goTo_quiet pre next _ (haddr.trans ha) (hsw.trans hs) (hosc.trans ho)

/-- The register that is written, bit by bit (R40, R150). -/
theorem goTo_sfrUpdate_bit (b : Nat) (hb : b < 16) (h14 : ¬ (r = .intcon2 ∧ b = 14)) :
    (((e.sfrUpdate r sel v).goTo pre next).sfrValue r).getLsbD b =
      if sel.getLsbD b then (acc b).written ((e.st.sfrValue r).getLsbD b) (v.getLsbD b)
      else (e.st.sfrValue r).getLsbD b := by
  rw [goTo_sfrUpdate h sel v ha hs ho, ← sfrUpdate_bit r acc sel v e h b hb]
  by_cases h2 : r = .intcon2
  · subst h2
    exact sfrValue_intcon2_tick _ _ _ _ b fun hb14 => h14 ⟨rfl, hb14⟩
  · rw [sfrValue_tick r h2 (by rintro rfl; cases h)]

/-- Every other register is as it was, but for the tick. -/
theorem goTo_sfrUpdate_others : OtherSfrsSame pre.cycles r e.st ((e.sfrUpdate r sel v).goTo pre next) := by
  obtain ⟨⟨-, -, -, hintcon1, hinert, hskid, hdisicnt, -, hwritten, htrapr, hcf, -⟩, hrace, -⟩ :=
    sfrUpdate_frame r acc sel v e h
  rw [goTo_sfrUpdate h sel v ha hs ho]
  obtain ⟨hcount, hbits, hdisi⟩ := ticked_tick pre.cycles
    ({ (e.sfrUpdate r sel v).st with pc := next, lateEntry := pre.late } : State)
  have hdisi0 : (e.sfrUpdate r sel v).st.disi = e.st.disi := sfrUpdate_intcon2 h sel v 14 fun _ => rfl
  refine ⟨⟨fun q hq h1 h2 hd hr ho => ?_, fun hr j hj => ?_, ?_, ?_, hwritten, htrapr, hcf, hrace⟩,
    hintcon1, hinert, hskid⟩
  · rw [sfrValue_tick q h2 hd, sfrUpdate_other r q acc sel v e h hq hr ho]
  · rw [hbits j hj]
    exact sfrUpdate_intcon2 h sel v j fun hr' => absurd hr' hr
  · rw [hcount]
    exact congrArg (·.toNat - pre.cycles) hdisicnt
  · rw [hdisi]
    change (e.sfrUpdate r sel v).st.disi = true ∧ pre.cycles < (e.sfrUpdate r sel v).st.disicnt.toNat ↔ _
    rw [hdisi0, hdisicnt]

/-- The tick leaves the priorities that the next boundary uses as the write left them. -/
theorem goTo_sfrUpdate_prioritiesSeen : PrioritiesSeen e.st ((e.sfrUpdate r sel v).goTo pre next) := by
  rw [goTo_sfrUpdate h sel v ha hs ho]
  exact sfrUpdate_prioritiesSeen h sel v

/-- What is no special function register is as it was. -/
theorem goTo_sfrUpdate_keeps :
    let t := (e.sfrUpdate r sel v).goTo pre next
    t.pc = next ∧ t.w15 = e.st.w15 ∧ SameWorking e.st t ∧ SameAccs e.st t ∧ SameMemory e.st t ∧ SamePower e.st t ∧
    SameParameters e.st t := by
  obtain ⟨⟨-, hw, hw15, -, -, -, -, -, -, -, -, haccA, haccB, hmem, hepoch, hprog, hpower, hpins, hevents, htiming,
    hdev, -⟩, -⟩ := sfrUpdate_frame r acc sel v e h
  rw [goTo_sfrUpdate h sel v ha hs ho]
  exact ⟨rfl, hw15, hw, ⟨haccA, haccB⟩, sameMemory_of_mem _ _ hmem hepoch, ⟨hpower, hpins⟩, hprog, hevents, htiming,
    hdev⟩

end

/-! ## POP to a register -/

/-- The state after the pop of a good stack (R95). -/
def State.popped (s : State) : State := { s with w15 := s.w15 - 2, draws := s.draws + 1 }

/-- The pop moves W15 only, so every register reads as before; most bits of RCON and OSCCON are free (R36, R37). -/
theorem sfrValue_popped (s : State) (q : Sfr) (hr : q ≠ .rcon) (ho : q ≠ .osccon) :
    s.popped.sfrValue q = s.sfrValue q := by
  cases q with
  | rcon => exact absurd rfl hr
  | osccon => exact absurd rfl ho
  | _ => rfl

/-- The bits of a register of the tables are written after the pop as before it (R9, R25). -/
theorem tableAccess_popped (s : State) (r : Sfr) : tableAccess s.popped r = tableAccess s r := by
  cases r <;> rfl

/-- `POP` to a register is a software write of the popped word, after the pop (R154). -/
theorem exec_popF_sfr (s : State) (f : BitVec 15) (r : Sfr) (hstack : StackOk s (s.w15 - 2))
    (hd : dataImplemented s.dev (f ++ 0#1) = true) (hr : sfrAt s.dev (f ++ 0#1).toNat = some r) :
    exec (.popF f) s =
      .next ((s.popped.eff.sfrUpdate r 0xFFFF#16 (s.wordAt (s.w15 - 2).toNat)).goTo s (s.pc + 2)) := by
  have heven : (fileAddr f).getLsbD 0 = false := by
    change (f ++ 0#1).getLsbD 0 = false
    rw [BitVec.getLsbD_append, if_pos Nat.zero_lt_one, BitVec.getLsbD_zero]
  simp only [exec, execPopF]
  rw [pop_ok s.eff hstack, write_sfr_word (fileAddr f) _ _ r heven rfl hd hr]
  rfl

/-- An instruction of one word is followed by the one two addresses on (R22, R140). -/
theorem after_of_one_word (s : State) (h : s.wordsAt s.pc = 1) : s.after s.pc = s.pc + 2 := by
  rw [State.after, h]
  rfl

end Sys2Proof.Machine

namespace Sys2Proof.Proofs

open Sys2Proof.Machine

/-- Settles O47: the whole register is selected, and the instruction ends with the tick alone. -/
theorem sfrWriteFollowsTheAccessTable : Obligations.SfrWriteFollowsTheAccessTable := by
  intro s r acc v h
  have hall : ∀ b : Fin 16, (0xFFFF#16).getLsbD b.val = true := by decide
  obtain ⟨hpc, hw15, hw, haccs, hmem, hpower, hparams⟩ :=
    goTo_sfrUpdate_keeps (e := s.eff) h 0xFFFF#16 v rfl rfl rfl s (s.after s.pc)
  refine ⟨_, rfl, hpc, fun b hb h14 => ?_, goTo_sfrUpdate_others (e := s.eff) h 0xFFFF#16 v rfl rfl rfl s _,
    goTo_sfrUpdate_prioritiesSeen (e := s.eff) h 0xFFFF#16 v rfl rfl rfl s _, hw15, hw, haccs, hmem, hpower, hparams⟩
  exact (goTo_sfrUpdate_bit (e := s.eff) h 0xFFFF#16 v rfl rfl rfl s _ b hb h14).trans (if_pos (hall ⟨b, hb⟩))

/-- Settles O32: after the pop the store is a software write of the whole register. -/
theorem popSrIsASoftwareWrite : Obligations.PopSrIsASoftwareWrite := by
  intro s f r hstack hd hr
  have hexec := exec_popF_sfr s f r hstack hd hr
  refine ⟨fun acc h => ?_, fun hone => ?_⟩
  · have hp : tableAccess s.popped.eff.st r = some acc := (tableAccess_popped s r).trans h
    have hall : ∀ b : Fin 16, (0xFFFF#16).getLsbD b.val = true := by decide
    obtain ⟨hpc, hw15, hw, haccs, hmem, hpower, hparams⟩ :=
      goTo_sfrUpdate_keeps hp 0xFFFF#16 (s.wordAt (s.w15 - 2).toNat) rfl rfl rfl s (s.pc + 2)
    obtain ⟨⟨hothers, hregs⟩, htraps⟩ :=
      goTo_sfrUpdate_others hp 0xFFFF#16 (s.wordAt (s.w15 - 2).toNat) rfl rfl rfl s (s.pc + 2)
    have hseen := goTo_sfrUpdate_prioritiesSeen hp 0xFFFF#16 (s.wordAt (s.w15 - 2).toNat) rfl rfl rfl s (s.pc + 2)
    refine ⟨_, hexec, hpc, hw15, hseen, fun b hb h14 => ?_, ⟨⟨fun q hq h1 h2 hd hrc ho => ?_, hregs⟩, htraps⟩, hmem,
      hw, haccs, hpower, hparams⟩
    · have hbit := goTo_sfrUpdate_bit hp 0xFFFF#16 (s.wordAt (s.w15 - 2).toNat) rfl rfl rfl s (s.pc + 2) b hb h14
      rw [if_pos (hall ⟨b, hb⟩), State.eff_st,
        sfrValue_popped s r (by rintro rfl; cases h) (by rintro rfl; cases h)] at hbit
      exact hbit
    · exact (hothers q hq h1 h2 hd hrc ho).trans (sfrValue_popped s q hrc ho)
  · rw [hexec, ← after_of_one_word s hone]
    rfl

end Sys2Proof.Proofs
end

section
/-! PROOFS. Software writes of INTCON1, to the end of their instruction (spec/10_state.md R28, R29,
spec/60_exceptions.md R210, R212, R214). -/

namespace Sys2Proof.Machine

/-! ## The hard traps that an instruction asks for -/

/-- The state in which the hard trap conditions of an effect have set their flags, before it is judged whether they
conflict (R203, R204). -/
def Eff.flagged (e : Eff) : State :=
  let s1 := if e.addr || e.swAddr then e.st.setTrapFlag .addrErr else e.st
  if e.swOsc then s1.setTrapFlag .oscFail else s1

/-- The bits of INTCON1 that the hard trap conditions of an effect set. -/
def Eff.hardFlag (e : Eff) (j : Nat) : Bool := ((e.addr || e.swAddr) && j == 3) || (e.swOsc && j == 1)

/-- Settling is the flags, then the judgement (R210, R212, R214). -/
theorem settle_eq_flagged (pre : State) (e : Eff) :
    e.settle pre =
      if (e.addr || e.swAddr) && pre.hardConflict then deviceReset .trapConflict e.flagged
      else if ((e.addr || e.swAddr) && pre.cpuIpl == 13) || (e.swOsc && decide (14 ≤ pre.cpuIpl)) then
        e.flagged.sameLevel
      else e.flagged := rfl

/-- The hard trap conditions change INTCON1 and the marks on its flags only. -/
theorem flagged_eq (e : Eff) :
    e.flagged = { e.st with intcon1 := e.flagged.intcon1, inert := e.flagged.inert } := by
  unfold Eff.flagged
  split <;> split <;> rfl

/-- Each flag of a hard trap condition is 1 and loses its mark. -/
theorem getLsbD_flagged (e : Eff) (j : Nat) :
    e.flagged.intcon1.getLsbD j = (e.st.intcon1.getLsbD j || e.hardFlag j) ∧
    e.flagged.inert.getLsbD j = (e.st.inert.getLsbD j && !e.hardFlag j) := by
  have hset (u : State) (k : TrapKind) : (u.setTrapFlag k).intcon1.getLsbD j =
      (u.intcon1.getLsbD j || j == k.flagBit) ∧
      (u.setTrapFlag k).inert.getLsbD j = (u.inert.getLsbD j && !(j == k.flagBit)) := by
    have hk : k.flagBit < 16 := by cases k <;> decide
    by_cases hj : j = k.flagBit
    · subst hj
      simp [State.setTrapFlag, getLsbD_setBit_self _ _ _ hk]
    · simp [State.setTrapFlag, getLsbD_setBit_ne _ _ _ _ hj, hj]
  unfold Eff.flagged Eff.hardFlag
  cases e.addr || e.swAddr <;> cases e.swOsc <;>
    simp only [hset, TrapKind.flagBit, if_true, if_false, Bool.false_eq_true, Bool.true_and, Bool.false_and,
      Bool.or_false, Bool.false_or, Bool.not_false, Bool.and_true, Bool.or_assoc, Bool.and_assoc, Bool.not_or,
      and_self]

/-! ## What a write of INTCON1 asks for -/

section
variable (sel v : Word) (s : State)

/-- A software write of INTCON1 to the end of its instruction, but for the hard traps it asks for. -/
def State.intcon1Eff : Eff :=
  (s.eff.sfrUpdate .intcon1 sel v).map fun u =>
    ({ u with pc := s.after s.pc, lateEntry := s.late } : State).tick s.cycles

/-- What every instruction that goes on at the next address leaves: `pc`, its kind, and the tick. -/
def State.advanced : State := ({ s with pc := s.after s.pc, lateEntry := s.late } : State).tick s.cycles

/-- The write on a device where software requests traps (R29). -/
theorem intcon1Eff_of_requests (h : s.dev.swSetTrapFlagTraps = true) :
    s.intcon1Eff sel v =
      { st := { s.advanced with
          intcon1 := s.intcon1Written sel v &&& ~~~(s.trapFlagsSet sel v &&& 0x000A#16)
          inert := s.inert &&& s.intcon1Written sel v &&& ~~~s.trapFlagsSet sel v
          softSkid := if s.trapFlagsSet sel v &&& 0x0034#16 = 0#16 then s.softSkid else Config.softSkid s.draws
          dataWrite := true
          draws := s.draws + 1 }
        addr := false
        swAddr := (s.trapFlagsSet sel v).getLsbD 3
        swOsc := (s.trapFlagsSet sel v).getLsbD 1
        stk := false } := by
  simp only [State.intcon1Eff, Eff.sfrUpdate, Eff.sfrBits, Eff.writeIntcon1, State.eff_st, h, if_true, State.eff_swAddr,
    State.eff_swOsc, Bool.false_or]
  rfl

/-- The write on a device where software stores flags that request nothing (R29). -/
theorem intcon1Eff_of_marks (h : s.dev.swSetTrapFlagTraps = false) :
    s.intcon1Eff sel v =
      State.eff { s.advanced with
        intcon1 := s.intcon1Written sel v
        inert := (s.inert &&& s.intcon1Written sel v) ||| s.trapFlagsSet sel v
        dataWrite := true
        draws := s.draws + 1 } := by
  simp only [State.intcon1Eff, Eff.sfrUpdate, Eff.sfrBits, Eff.writeIntcon1, State.eff_st, h, Bool.false_eq_true,
    if_false]
  rfl

theorem intcon1Eff_sw :
    (s.intcon1Eff sel v).addr = false ∧
    (s.intcon1Eff sel v).swAddr = (s.dev.swSetTrapFlagTraps && (s.trapFlagsSet sel v).getLsbD 3) ∧
    (s.intcon1Eff sel v).swOsc = (s.dev.swSetTrapFlagTraps && (s.trapFlagsSet sel v).getLsbD 1) := by
  cases h : s.dev.swSetTrapFlagTraps
  · rw [intcon1Eff_of_marks sel v s h]
    exact ⟨rfl, rfl, rfl⟩
  · rw [intcon1Eff_of_requests sel v s h]
    exact ⟨rfl, rfl, rfl⟩

/-- The flags of hard traps that a write sets are the ones it asks for, on a device where software requests traps. -/
theorem intcon1Eff_hardFlag (j : Nat) :
    (s.intcon1Eff sel v).hardFlag j =
      (s.dev.swSetTrapFlagTraps && (s.trapFlagsSet sel v).getLsbD j && (0x000A#16).getLsbD j) := by
  obtain ⟨haddr, hsw, hosc⟩ := intcon1Eff_sw sel v s
  have hmask : (0x000A#16).getLsbD j = (j == 3 || j == 1) := by
    by_cases hj : j < 16
    · have hbits : ∀ b : Fin 16, (0x000A#16).getLsbD b.val = (b.val == 3 || b.val == 1) := by decide
      exact hbits ⟨j, hj⟩
    · rw [BitVec.getLsbD_of_ge _ _ (Nat.le_of_not_lt hj), beq_false_of_ne (by omega), beq_false_of_ne (by omega)]
      rfl
  rw [Eff.hardFlag, haddr, hsw, hosc, hmask, Bool.false_or]
  by_cases h3 : j = 3
  · simp [h3]
  · by_cases h1 : j = 1
    · simp [h1]
    · rw [beq_false_of_ne h3, beq_false_of_ne h1]
      simp only [Bool.and_false, Bool.or_self]

/-- The bits that the write itself stores: a hard trap flag that it asks for is left to the settling. -/
theorem getLsbD_intcon1Eff (j : Nat) :
    (s.intcon1Eff sel v).st.intcon1.getLsbD j =
      ((s.intcon1Written sel v).getLsbD j && !(s.intcon1Eff sel v).hardFlag j) ∧
    (s.intcon1Eff sel v).st.inert.getLsbD j =
      if s.dev.swSetTrapFlagTraps then
        s.inert.getLsbD j && (s.intcon1Written sel v).getLsbD j && !(s.trapFlagsSet sel v).getLsbD j
      else (s.inert.getLsbD j && (s.intcon1Written sel v).getLsbD j) || (s.trapFlagsSet sel v).getLsbD j := by
  rw [intcon1Eff_hardFlag]
  cases h : s.dev.swSetTrapFlagTraps
  · rw [intcon1Eff_of_marks sel v s h]
    simp
  · rw [intcon1Eff_of_requests sel v s h]
    simp only [getLsbD_and_not, if_true, Bool.true_and]
    simp only [BitVec.getLsbD_and, and_self]

/-- Nothing but INTCON1 with its marks and `soft_skid` changes on the way to the next instruction. -/
theorem intcon1Eff_eq :
    ∃ intcon1 inert skid, (s.intcon1Eff sel v).st =
      { s.advanced with
        intcon1 := intcon1, inert := inert, softSkid := skid, draws := s.draws + 1, dataWrite := true } := by
  cases h : s.dev.swSetTrapFlagTraps
  · rw [intcon1Eff_of_marks sel v s h]
    exact ⟨_, _, _, rfl⟩
  · rw [intcon1Eff_of_requests sel v s h]
    exact ⟨_, _, _, rfl⟩

/-- The bits of INTCON1 after a software write (R28, R40). -/
theorem getLsbD_intcon1Written (b : Nat) (h1 : 1 ≤ b) (h16 : b < 16) :
    (s.intcon1Written sel v).getLsbD b = if sel.getLsbD b then v.getLsbD b else s.intcon1.getLsbD b := by
  have hbits : ∀ b : Fin 16, 1 ≤ b.val → (0xFFFE#16).getLsbD b.val = true := by decide
  rw [State.intcon1Written, getLsbD_accessWrite, hbits ⟨b, h16⟩ h1, BitVec.getLsbD_zero]
  simp only [Bool.true_and, Bool.false_and, Bool.not_false, Bool.and_true]

/-- A write sets the status flag of a trap where it turns that flag from 0 to 1 (R29). -/
theorem getLsbD_trapFlagsSet_flagBit (k : TrapKind) :
    (s.trapFlagsSet sel v).getLsbD k.flagBit =
      ((s.intcon1Written sel v).getLsbD k.flagBit && !s.intcon1.getLsbD k.flagBit) := by
  have hmask : (0x003E#16).getLsbD k.flagBit = true := by cases k <;> decide
  rw [getLsbD_trapFlagsSet, hmask, Bool.and_true]

/-! ## INTCON1 where the hard traps that were asked for are pending -/

/-- INTCON1 holds what was written. -/
theorem intcon1Eff_flagged_intcon1 (b : Nat) :
    (s.intcon1Eff sel v).flagged.intcon1.getLsbD b = (s.intcon1Written sel v).getLsbD b := by
  rw [(getLsbD_flagged _ b).1, (getLsbD_intcon1Eff sel v s b).1]
  cases hf : (s.intcon1Eff sel v).hardFlag b
  · simp
  · rw [intcon1Eff_hardFlag, Bool.and_eq_true, Bool.and_eq_true, getLsbD_trapFlagsSet, Bool.and_eq_true,
      Bool.and_eq_true] at hf
    obtain ⟨⟨-, ⟨hw, -⟩, -⟩, -⟩ := hf
    simp [hw]

/-- A trap whose flag is 1 after the write is pending where it was, or where the write asks for it (R29). -/
theorem intcon1Eff_flagged_pending (k : TrapKind) :
    (s.intcon1Eff sel v).flagged.trapPending k =
      ((s.intcon1Written sel v).getLsbD k.flagBit &&
        (s.trapPending k || (s.dev.swSetTrapFlagTraps && (s.trapFlagsSet sel v).getLsbD k.flagBit))) := by
  have hbool : ∀ requests new old mark hard : Bool,
      (new && !((if requests then mark && new && !(new && !old) else (mark && new) || (new && !old)) &&
        !(requests && (new && !old) && hard))) =
      (new && ((old && !mark) || (requests && (new && !old)))) := by decide
  unfold State.trapPending
  rw [intcon1Eff_flagged_intcon1, (getLsbD_flagged _ _).2, (getLsbD_intcon1Eff sel v s _).2, intcon1Eff_hardFlag,
    getLsbD_trapFlagsSet_flagBit]
  exact hbool _ _ _ _ _

/-- Everything but INTCON1, its marks and `soft_skid` is as every instruction leaves it. -/
theorem intcon1Eff_flagged_keeps :
    let t := (s.intcon1Eff sel v).flagged
    t.pc = s.after s.pc ∧ t.w15 = s.w15 ∧ SameMemory s t ∧ QuietButTraps s.cycles s t := by
  obtain ⟨intcon1, inert, skid, hst⟩ := intcon1Eff_eq sel v s
  obtain ⟨intcon1', inert', ht⟩ : ∃ intcon1' inert', (s.intcon1Eff sel v).flagged =
      { (s.intcon1Eff sel v).st with intcon1 := intcon1', inert := inert' } := ⟨_, _, flagged_eq _⟩
  rw [ht, hst]
  exact ⟨rfl, rfl, fun _ => rfl, rfl, ⟨rfl, rfl, rfl⟩, ⟨rfl, rfl⟩, ⟨rfl, rfl, rfl, rfl, rfl, rfl⟩,
    ⟨rfl, rfl, rfl, rfl⟩, ⟨rfl, rfl⟩, ⟨rfl, rfl, rfl, rfl⟩,
    ticked_tick s.cycles { s with pc := s.after s.pc, lateEntry := s.late }⟩

end

theorem QuietButTraps.parameters {c : Nat} {s t : State} (h : QuietButTraps c s t) : SameParameters s t := by
  obtain ⟨-, -, -, -, -, -, hparams, -⟩ := h
  exact hparams

/-! ## The forms of a write of INTCON1 -/

/-- The bits of a field (R8, R157). -/
theorem getLsbD_fieldMask (hi lo : Fin 16) (hle : lo ≤ hi) (b : Nat) :
    (fieldMask hi.val lo.val).getLsbD b = decide (lo.val ≤ b ∧ b ≤ hi.val) := by
  have hle : lo.val ≤ hi.val := hle
  have hpow : 2 ^ (hi.val + 1) - 2 ^ lo.val = 2 ^ lo.val * (2 ^ (hi.val + 1 - lo.val) - 1) := by
    rw [Nat.mul_sub, ← Nat.pow_add, Nat.mul_one, Nat.add_sub_of_le (by omega)]
  rw [fieldMask, BitVec.getLsbD_ofNat, hpow, Nat.testBit_two_pow_mul, Nat.testBit_two_pow_sub_one]
  have hhi := hi.isLt
  rw [← Bool.decide_and, ← Bool.decide_and, decide_eq_decide]
  omega

/-- Every form of a write of INTCON1 is a write of the bits `lo` to `hi` from the bits of `v` (R150, R152, R153,
R157). -/
theorem exec_intcon1_form (s : State) (i : Instr) (hi lo : Fin 16) (v : Word) (hle : lo ≤ hi)
    (h : i = .sfrFieldWrite .intcon1 hi lo v ∨ (i = .sfrWrite .intcon1 v ∧ hi = 15 ∧ lo = 0) ∨
      (i = .sfrBitSet .intcon1 hi ∧ lo = hi ∧ v = 1) ∨ (i = .sfrBitClear .intcon1 hi ∧ lo = hi ∧ v = 0)) :
    ∃ sel w, exec i s = .next ((s.intcon1Eff sel w).settle s) ∧
      ∀ b, b < 16 → (if sel.getLsbD b then w.getLsbD b else s.intcon1.getLsbD b) =
        if lo.val ≤ b ∧ b ≤ hi.val then v.getLsbD (b - lo.val) else s.intcon1.getLsbD b := by
  have hall : ∀ b : Fin 16, (0xFFFF#16).getLsbD b.val = true := by decide
  have hone (c : Fin 16) (b : Nat) : (bitMask c).getLsbD b = true ↔ c.val ≤ b ∧ b ≤ c.val := by
    have hc := c.isLt
    rw [bitMask, getLsbD_oneBit, decide_eq_true_iff]
    omega
  obtain rfl | ⟨rfl, rfl, rfl⟩ | ⟨rfl, rfl, rfl⟩ | ⟨rfl, rfl, rfl⟩ := h
  · refine ⟨fieldMask hi.val lo.val, v <<< lo.val, rfl, fun b hb => ?_⟩
    simp only [getLsbD_fieldMask hi lo hle, decide_eq_true_eq]
    split
    · next h =>
      rw [BitVec.getLsbD_shiftLeft, decide_eq_true hb, decide_eq_false (by omega)]
      rfl
    · rfl
  · refine ⟨0xFFFF#16, v, rfl, fun b hb => ?_⟩
    rw [if_pos (hall ⟨b, hb⟩), if_pos ⟨Nat.zero_le b, Nat.le_of_lt_succ hb⟩]
    rfl
  · refine ⟨bitMask lo, 0xFFFF#16, rfl, fun b hb => ?_⟩
    simp only [hone]
    split
    · next h => rw [hall ⟨b, hb⟩, Nat.sub_eq_zero_of_le h.2]; rfl
    · rfl
  · refine ⟨bitMask lo, 0#16, rfl, fun b hb => ?_⟩
    simp only [hone]
    split
    · rw [BitVec.getLsbD_zero]; exact BitVec.getLsbD_zero.symm
    · rfl

/-! ## The statement's terms -/

/-- INTCON1 holds the bits `new`, a trap whose flag is 1 is pending where it was or is asked for, and the instruction
has moved on with memory untouched. -/
def Intcon1Stored (new : Nat → Bool) (asked : TrapKind → Bool) (s t : State) : Prop :=
  (∀ b, 1 ≤ b → b < 16 → t.intcon1.getLsbD b = new b) ∧
  (∀ k : TrapKind, t.trapPending k = (new k.flagBit && (s.trapPending k || asked k))) ∧
  t.pc = s.after s.pc ∧ t.w15 = s.w15 ∧ SameMemory s t

theorem Intcon1Stored.halted {new : Nat → Bool} {asked : TrapKind → Bool} {s t : State}
    (h : Intcon1Stored new asked s t) : Intcon1Stored new asked s { t.bump with power := .halt } := h

/-- The traps that a write asks for which leaves INTCON1 with the bits `new` (R29). -/
def State.asks (s : State) (new : Nat → Bool) (k : TrapKind) : Bool :=
  s.dev.swSetTrapFlagTraps && (!s.intcon1.getLsbD k.flagBit && new k.flagBit)

section
variable {s : State} {sel w : Word} {new : Nat → Bool}
  (hnew : ∀ b, b < 16 → (if sel.getLsbD b then w.getLsbD b else s.intcon1.getLsbD b) = new b)
include hnew

theorem intcon1Written_eq (b : Nat) (h1 : 1 ≤ b) (h16 : b < 16) : (s.intcon1Written sel w).getLsbD b = new b := by
  rw [getLsbD_intcon1Written sel w s b h1 h16, hnew b h16]

theorem intcon1Written_flagBit (k : TrapKind) : (s.intcon1Written sel w).getLsbD k.flagBit = new k.flagBit :=
  intcon1Written_eq hnew _ (by cases k <;> decide) (by cases k <;> decide)

theorem asks_eq (k : TrapKind) :
    (s.dev.swSetTrapFlagTraps && (s.trapFlagsSet sel w).getLsbD k.flagBit) = s.asks new k := by
  rw [getLsbD_trapFlagsSet_flagBit, intcon1Written_flagBit hnew, State.asks, Bool.and_comm (new _)]

theorem flagged_stored : Intcon1Stored new (s.asks new) s (s.intcon1Eff sel w).flagged := by
  obtain ⟨hpc, hw15, hmem, -⟩ := intcon1Eff_flagged_keeps sel w s
  refine ⟨fun b h1 h16 => ?_, fun k => ?_, hpc, hw15, hmem⟩
  · rw [intcon1Eff_flagged_intcon1, intcon1Written_eq hnew b h1 h16]
  · rw [intcon1Eff_flagged_pending, intcon1Written_flagBit hnew, asks_eq hnew]

/-- How a write of INTCON1 ends, from the hard traps it asks for (R210, R212, R214). -/
theorem settle_intcon1Eff :
    (s.intcon1Eff sel w).settle s =
      if s.asks new .addrErr && s.hardConflict then deviceReset .trapConflict (s.intcon1Eff sel w).flagged
      else if (s.asks new .addrErr && s.cpuIpl == 13) || (s.asks new .oscFail && decide (14 ≤ s.cpuIpl)) then
        (s.intcon1Eff sel w).flagged.sameLevel
      else (s.intcon1Eff sel w).flagged := by
  obtain ⟨haddr, hsw, hosc⟩ := intcon1Eff_sw sel w s
  rw [settle_eq_flagged, haddr, hsw, hosc, Bool.false_or, ← asks_eq hnew .addrErr, ← asks_eq hnew .oscFail]
  rfl

/-- Without a conflict and without a trap at its own level the write is stored, and nothing else happens. -/
theorem settle_intcon1Eff_stored (hpends : s.asks new .addrErr = true → HardTrapPends s)
    (hlevel : s.asks new .oscFail = true → s.cpuIpl < 14) :
    (s.intcon1Eff sel w).settle s = (s.intcon1Eff sel w).flagged := by
  have hconflict : (s.asks new .addrErr && s.hardConflict) = false := by
    cases ha : s.asks new .addrErr
    · rfl
    · obtain ⟨hosc, hlt⟩ := hpends ha
      rw [State.hardConflict, hosc, decide_eq_false (by omega)]
      rfl
  have hsame : ((s.asks new .addrErr && s.cpuIpl == 13) ||
      (s.asks new .oscFail && decide (14 ≤ s.cpuIpl))) = false := by
    rw [Bool.or_eq_false_iff, Bool.and_eq_false_imp, Bool.and_eq_false_imp]
    refine ⟨fun ha => ?_, fun ho => ?_⟩
    · have hlt := (hpends ha).2
      exact beq_false_of_ne (by omega)
    · exact decide_eq_false (by have := hlevel ho; omega)
  rw [settle_intcon1Eff hnew, hconflict, hsame]
  rfl

/-- A request of the address error trap that conflicts with the oscillator failure trap resets the device (R212). -/
theorem settle_intcon1Eff_conflict (ha : s.asks new .addrErr = true)
    (hc : s.trapPending .oscFail = true ∨ 14 ≤ s.cpuIpl) : ConflictReset s ((s.intcon1Eff sel w).settle s) := by
  obtain ⟨-, -, -, hquiet⟩ := intcon1Eff_flagged_keeps sel w s
  have hconflict : s.hardConflict = true := by
    rw [State.hardConflict, Bool.or_eq_true, decide_eq_true_iff]
    exact hc
  rw [settle_intcon1Eff hnew, ha, hconflict, Bool.and_self, if_pos rfl]
  exact conflictReset_of s _ hquiet.parameters

/-- A request of a hard trap at its own level resets the device, or halts it with the write stored (R214). -/
theorem settle_intcon1Eff_sameLevel
    (h : (s.asks new .addrErr = true ∧ s.trapPending .oscFail = false ∧ s.cpuIpl = 13) ∨
      (s.asks new .addrErr = false ∧ s.asks new .oscFail = true ∧ 14 ≤ s.cpuIpl)) :
    let t := (s.intcon1Eff sel w).settle s
    ConflictReset s t ∨ (t.power = .halt ∧ Intcon1Stored new (s.asks new) s t) := by
  have hlevel : (s.intcon1Eff sel w).settle s = (s.intcon1Eff sel w).flagged.sameLevel := by
    rw [settle_intcon1Eff hnew]
    obtain ⟨ha, hosc, h13⟩ | ⟨ha, ho, h14⟩ := h
    · simp [ha, State.hardConflict, hosc, h13]
    · simp [ha, ho, h14]
  obtain ⟨-, -, -, hquiet⟩ := intcon1Eff_flagged_keeps sel w s
  dsimp only
  rw [hlevel, State.sameLevel]
  split
  · exact .inl (conflictReset_of s _ hquiet.parameters)
  · exact .inr ⟨rfl, (flagged_stored hnew).halted⟩

end

end Sys2Proof.Machine

namespace Sys2Proof.Proofs

open Sys2Proof.Machine

/-- Settles O49: every form of the write selects some bits of INTCON1, and the hard traps that it asks for are pending,
conflict, or come at their own level. -/
theorem intcon1WritesWithdrawAndRequest : Obligations.Intcon1WritesWithdrawAndRequest := by
  intro s i hi lo v hle _ hform new sets asked written
  obtain ⟨sel, w, hexec, hnew⟩ := exec_intcon1_form s i hi lo v hle hform
  refine ⟨fun hpends hlevel => ⟨_, hexec, ?_⟩, fun ha hc => ⟨_, hexec, settle_intcon1Eff_conflict hnew ha hc⟩,
    fun hsame => ⟨_, hexec, settle_intcon1Eff_sameLevel hnew hsame⟩⟩
  rw [settle_intcon1Eff_stored hnew hpends hlevel]
  obtain ⟨-, -, -, hquiet⟩ := intcon1Eff_flagged_keeps sel w s
  exact ⟨flagged_stored hnew, hquiet⟩

end Sys2Proof.Proofs
end

section
/-! PROOFS. The best candidate (spec/60_exceptions.md R217, R219, R220). -/

namespace Sys2Proof.Machine

/-! ## The order of requests -/

/-- `r` goes before `q`: a greater priority, or the same one and no greater vector number (R217, R219). -/
def State.Outranks (s : State) (r q : Request) : Prop :=
  s.priority q < s.priority r ∨ (s.priority q = s.priority r ∧ r.vector ≤ q.vector)

/-- No two requests share a vector number (R60, R201). -/
theorem Request.vector_injective : Function.Injective Request.vector := by
  have htrap : ∀ k : TrapKind, k.vector < 8 := by intro k; cases k <;> decide
  have hkinds : ∀ k j : TrapKind, k.vector = j.vector → k = j := by
    intro k j
    cases k <;> cases j <;> decide
  intro r q h
  cases r with
  | trap k =>
    cases q with
    | trap j => exact congrArg _ (hkinds k j h)
    | irq n => exact absurd h (by have := htrap k; simp only [Request.vector]; omega)
  | irq m =>
    cases q with
    | trap j => exact absurd h (by have := htrap j; simp only [Request.vector]; omega)
    | irq n => exact congrArg _ (Nat.add_right_cancel h)

/-- Of two requests only one goes before the other. -/
theorem State.Outranks.antisymm {s : State} {r q : Request} (h : s.Outranks r q) (h' : s.Outranks q r) : r = q := by
  unfold State.Outranks at h h'
  exact Request.vector_injective (by omega)

/-! ## What the arbitration picks -/

/-- The candidates stand in the order of their vector numbers (R219). -/
theorem candidates_rising (s : State) : s.candidates.Pairwise (·.vector < ·.vector) := by
  have htraps : ([.oscFail, .addrErr, .stkErr, .mathErr, .dmaErr] : List TrapKind).Pairwise
      (·.vector < ·.vector) := by decide
  refine List.pairwise_append.2 ⟨?_, ?_, fun r hr q hq => ?_⟩
  · exact List.pairwise_map.2 (htraps.filter _)
  · exact List.pairwise_map.2 ((List.pairwise_lt_range.imp (Nat.add_lt_add_right · 8)).filter _)
  · obtain ⟨k, -, rfl⟩ := List.mem_map.1 hr
    obtain ⟨n, -, rfl⟩ := List.mem_map.1 hq
    change k.vector < n + 8
    cases k <;> simp only [TrapKind.vector] <;> omega

/-- Among requests in the order of their vector numbers the arbitration picks one that goes before all the others. -/
theorem bestOf_outranks (s : State) (l : List Request) (hl : l.Pairwise (·.vector < ·.vector)) (r : Request)
    (h : s.bestOf l = some r) : ∀ q ∈ l, s.Outranks r q := by
  induction l generalizing r with
  | nil => nofun
  | cons p l ih =>
    obtain ⟨hp, hl⟩ := List.pairwise_cons.1 hl
    have hself : s.Outranks p p := .inr ⟨rfl, Nat.le_refl _⟩
    rw [State.bestOf] at h
    split at h
    · next hnone =>
      obtain rfl := Option.some.inj h
      rw [bestOf_none s l hnone]
      exact List.forall_mem_singleton.2 hself
    · next x hx =>
      split at h
      · next hlt =>
        obtain rfl := Option.some.inj h
        exact List.forall_mem_cons.2 ⟨.inl hlt, ih hl x hx⟩
      · next hge =>
        obtain rfl := Option.some.inj h
        refine List.forall_mem_cons.2 ⟨hself, fun q hq => ?_⟩
        have hmax := bestOf_max s l x hx q hq
        have hvec := hp q hq
        unfold State.Outranks
        omega

/-- `Best` is the candidate that goes before all the others (R219). -/
theorem best_eq_some_iff (s : State) (r : Request) :
    s.best = some r ↔ r ∈ s.candidates ∧ ∀ q ∈ s.candidates, s.Outranks r q := by
  have hbest (q : Request) (h : s.best = some q) : q ∈ s.candidates ∧ ∀ p ∈ s.candidates, s.Outranks q p :=
    ⟨bestOf_mem s _ q h, bestOf_outranks s _ (candidates_rising s) q h⟩
  refine ⟨hbest r, fun ⟨hr, hfirst⟩ => ?_⟩
  cases hb : s.best with
  | none => exact absurd (bestOf_none s _ hb ▸ hr) List.not_mem_nil
  | some q =>
    obtain ⟨hq, hqfirst⟩ := hbest q hb
    rw [(hfirst q hq).antisymm (hqfirst r hr)]

/-- `Best` is taken exactly where its priority exceeds `cpu_ipl` (R220). -/
theorem taken_eq_some_iff (s : State) (r : Request) :
    s.taken = some r ↔ s.best = some r ∧ s.cpuIpl < s.priority r := by
  unfold State.taken
  cases s.best with
  | none => simp
  | some q =>
    simp only [Option.ite_none_right_eq_some, Option.some.injEq]
    constructor
    · rintro ⟨hlt, rfl⟩
      exact ⟨rfl, hlt⟩
    · rintro ⟨rfl, hlt⟩
      exact ⟨hlt, rfl⟩

end Sys2Proof.Machine

namespace Sys2Proof.Proofs

open Sys2Proof.Machine

/-- Settles O11: the candidates rise in their vector numbers, so the first of those with the greatest priority is the
one that goes before all the others, and only one can. -/
theorem takenIsBestCandidate : Obligations.TakenIsBestCandidate := by
  intro s r
  rw [taken_eq_some_iff, best_eq_some_iff, and_assoc, and_comm (b := s.cpuIpl < s.priority r)]
  rfl

end Sys2Proof.Proofs
end

section
/-! PROOFS. Software writes of single bits and of fields (spec/40_interrupt_control_instructions.md R152, R153,
R157). -/

namespace Sys2Proof.Machine

/-! ## The bits that a write selects, and their new values -/

theorem getLsbD_bitMask (c : Fin 16) (b : Nat) : (bitMask c).getLsbD b = decide (b = c.val) := by
  rw [bitMask, getLsbD_oneBit, decide_eq_decide]
  omega

/-- The value of a field stands at the field's own bits (R157). -/
theorem getLsbD_shiftLeft_field (v : Word) (lo b : Nat) (hlo : lo ≤ b) (hb : b < 16) :
    (v <<< lo).getLsbD b = v.getLsbD (b - lo) := by
  rw [BitVec.getLsbD_shiftLeft, decide_eq_true hb, decide_eq_false (Nat.not_lt.2 hlo)]
  rfl

/-! ## A write of part of a register of the tables -/

/-- What a software write of `r` keeps: the other registers but for the tick, and all that is no register; the
instruction goes on at the next one (R40, R68, R140). -/
def KeptBySfrWrite (r : Sfr) (s t : State) : Prop :=
  OtherSfrsSame s.cycles r s t ∧ PrioritiesSeen s t ∧ t.pc = s.after s.pc ∧ t.w15 = s.w15 ∧
  SameWorking s t ∧ SameAccs s t ∧ SameMemory s t ∧ SamePower s t ∧ SameParameters s t

section
variable {s : State} {r : Sfr} {acc : Nat → Access} (h : tableAccess s r = some acc) (sel v : Word)
include h

theorem goTo_sfrUpdate_kept : KeptBySfrWrite r s ((s.eff.sfrUpdate r sel v).goTo s (s.after s.pc)) := by
  obtain ⟨hpc, hw15, hw, haccs, hmem, hpower, hparams⟩ :=
    goTo_sfrUpdate_keeps (e := s.eff) h sel v rfl rfl rfl s (s.after s.pc)
  exact ⟨goTo_sfrUpdate_others (e := s.eff) h sel v rfl rfl rfl s _,
    goTo_sfrUpdate_prioritiesSeen (e := s.eff) h sel v rfl rfl rfl s _, hpc, hw15, hw, haccs, hmem, hpower, hparams⟩

/-- A bit follows its access where `P` selects it with the new value `new`, and is kept elsewhere. -/
theorem goTo_sfrUpdate_selected (b : Nat) (hb : b < 16) (h14 : ¬ (r = .intcon2 ∧ b = 14)) (P : Prop) [Decidable P]
    (new : Bool) (hsel : sel.getLsbD b = decide P) (hnew : P → v.getLsbD b = new) :
    (((s.eff.sfrUpdate r sel v).goTo s (s.after s.pc)).sfrValue r).getLsbD b =
      if P then (acc b).written ((s.sfrValue r).getLsbD b) new else (s.sfrValue r).getLsbD b := by
  rw [goTo_sfrUpdate_bit (e := s.eff) h sel v rfl rfl rfl s _ b hb h14, hsel]
  by_cases hP : P
  · rw [if_pos hP, if_pos (decide_eq_true hP), hnew hP]
    rfl
  · rw [if_neg hP, if_neg (by simpa using hP)]
    rfl

end

end Sys2Proof.Machine

namespace Sys2Proof.Proofs

open Sys2Proof.Machine

/-- Settles O48: the three instructions select one bit, one bit, and the bits of a field. -/
theorem sfrBitAndFieldWrites : Obligations.SfrBitAndFieldWrites := by
  intro s r acc c hi lo v h hle _ kept
  have hones : ∀ b : Fin 16, (0xFFFF#16).getLsbD b.val = true := by decide
  refine ⟨_, _, _, rfl, rfl, rfl, fun b hb h14 => ⟨?_, ?_, ?_⟩,
    goTo_sfrUpdate_kept h _ _, goTo_sfrUpdate_kept h _ _, goTo_sfrUpdate_kept h _ _⟩
  · exact goTo_sfrUpdate_selected h _ _ b hb h14 _ _ (getLsbD_bitMask c b) fun _ => BitVec.getLsbD_zero
  · exact goTo_sfrUpdate_selected h _ _ b hb h14 _ _ (getLsbD_bitMask c b) fun _ => hones ⟨b, hb⟩
  · exact goTo_sfrUpdate_selected h _ _ b hb h14 _ _ (getLsbD_fieldMask hi lo hle b)
      fun hfield => getLsbD_shiftLeft_field v lo b hfield.1 hb

end Sys2Proof.Proofs
end

section
/-! PROOFS. The event of a peripheral and the wake-up that follows it (spec/11_interrupt_source_registers.md R65,
spec/60_exceptions.md R215, R216, R245). -/

namespace Sys2Proof.Machine

/-! ## The flag of a source -/

/-- A peripheral changes the IFSx registers only (R216). -/
theorem setIfs_eq (n : Nat) (s : State) : s.setIfs n = { s with ifs := (s.setIfs n).ifs } := by
  unfold State.setIfs
  split <;> rfl

@[simp] theorem setIfs_power (n : Nat) (s : State) : (s.setIfs n).power = s.power := by rw [setIfs_eq]

/-- The flags after the flag of a source was set, where the device has that source (R65, R215). -/
theorem ifsBit_setIfs (n m : Nat) (s : State) (hm : m < 80) :
    (s.setIfs n).ifsBit m = (s.ifsBit m || (hasSource s.dev n && m == n)) := by
  unfold State.setIfs
  split
  · next hn =>
    rw [hn, Bool.true_and]
    unfold State.ifsBit
    have hword : m / 16 < 5 := by omega
    have hbit : m % 16 < 16 := Nat.mod_lt _ (by omega)
    by_cases hw : n / 16 = m / 16
    · simp only [Vector.getElem?_setIfInBounds, hw, if_true, hword, Option.getD_some, getLsbD_setBit, hbit, and_true]
      by_cases hb : m % 16 = n % 16
      · rw [if_pos hb, beq_iff_eq.2 (by omega : m = n), Bool.or_true]
      · rw [if_neg hb, beq_false_of_ne (by rintro rfl; exact hb rfl), Bool.or_false]
    · rw [Vector.getElem?_setIfInBounds_ne hw, beq_false_of_ne (by rintro rfl; exact hw rfl), Bool.or_false]
  · next hn => rw [Bool.eq_false_iff.2 hn, Bool.false_and, Bool.or_false]

/-! ## The wake-up -/

/-- The wake-up changes the power mode only (R245). -/
theorem wakeIfRequested_eq (s : State) : s.wakeIfRequested = { s with power := s.wakeIfRequested.power } := by
  unfold State.wakeIfRequested State.wake
  split
  · split <;> rfl
  · rfl

/-- The CPU may wake where a source requests with priority 1 or more (R218, R245). -/
theorem wakeCondition_iff (s : State) :
    s.wakeCondition = true ↔ ∃ n, n < 118 ∧ s.requests n = true ∧ s.ipcField n ≠ 0 := by
  have hpos (f : BitVec 3) : 1 ≤ f.toNat ↔ f ≠ 0 := by bv_omega
  simp only [State.wakeCondition, List.any_eq_true, List.mem_range, Bool.and_eq_true, decide_eq_true_eq, hpos]

theorem wake_power_of_asleep (s : State) (h : s.power = .sleep ∨ s.power = .idle) : s.wake.power = .run := by
  obtain h | h := h <;> simp only [State.wake, h]

theorem wake_power_of_awake (s : State) (h : s.power = .run ∨ s.power = .halt) : s.wake.power = s.power := by
  obtain h | h := h <;> simp only [State.wake, h]

/-- What requests after the wake-up requested before it (R215). -/
theorem wakeIfRequested_requests (s : State) (n : Nat) : s.wakeIfRequested.requests n = s.requests n := by
  rw [wakeIfRequested_eq]
  rfl

theorem wakeIfRequested_ipcField (s : State) (n : Nat) : s.wakeIfRequested.ipcField n = s.ipcField n := by
  rw [wakeIfRequested_eq]
  rfl

/-- The rule of the wake-up (R245), after an event that has left the power mode of `s` alone. -/
theorem wokenByRequest_wakeIfRequested {s u : State} (hp : u.power = s.power) : WokenByRequest s u.wakeIfRequested := by
  have hquiet : (∀ n, n < 118 → u.requests n = true → u.ipcField n = 0) ↔ ¬ u.wakeCondition = true := by
    rw [wakeCondition_iff]
    simp
  simp only [WokenByRequest, wakeIfRequested_requests, wakeIfRequested_ipcField]
  rw [← wakeCondition_iff, hquiet, ← hp]
  unfold State.wakeIfRequested
  refine ⟨fun hc hasleep => ?_, fun hc => ?_, fun hawake => ?_⟩
  · rw [if_pos hc, wake_power_of_asleep u hasleep]
  · rw [if_neg hc]
  · split
    · exact wake_power_of_awake u hawake
    · rfl

/-! ## The turn of the environment -/

/-- A turn of the environment is its event, the turn being used up (R216). -/
theorem step_env (s : State) (ev : EnvEvent) (rest : List Turn) (h : s.turns = .env ev :: rest) :
    step s = .next (envEvent ev { s with turns := rest }) := by
  simp only [step, turn, h]

/-- The event of a peripheral changes the IFSx registers and the power mode only (R216, R245). -/
theorem envEvent_periph_eq (n : Nat) (s : State) :
    envEvent (.periph n) s =
      { s with ifs := (s.setIfs n).ifs, power := (envEvent (.periph n) s).power } :=
  (wakeIfRequested_eq (s.setIfs n)).trans
    (congrArg (fun u : State => { u with power := (s.setIfs n).wakeIfRequested.power }) (setIfs_eq n s))

end Sys2Proof.Machine

namespace Sys2Proof.Proofs

open Sys2Proof.Machine

/-- Settles O53: the event sets the flag, and the wake-up changes the power mode alone. -/
theorem peripheralEventSetsItsFlag : Obligations.PeripheralEventSetsItsFlag := by
  intro s n rest hturn hn _
  have hwoken : WokenByRequest s (envEvent (.periph n) { s with turns := rest }) :=
    wokenByRequest_wakeIfRequested (setIfs_power n { s with turns := rest })
  have hflags (m : Nat) (hm : m < 80) :
      (({ s with turns := rest } : State).setIfs n).ifsBit m = (m == n || s.ifsBit m) := by
    rw [ifsBit_setIfs n m _ hm, hn, Bool.true_and, Bool.or_comm]
    rfl
  refine ⟨_, step_env s _ rest hturn, ?_⟩
  rw [envEvent_periph_eq] at hwoken ⊢
  exact ⟨rfl, rfl, hflags, rfl, rfl, rfl, hwoken, ⟨rfl, rfl, rfl⟩, rfl, rfl, ⟨rfl, rfl, rfl, rfl, rfl, rfl⟩,
    ⟨rfl, rfl, rfl⟩, rfl, ⟨rfl, rfl⟩, fun _ => rfl, ⟨rfl, rfl, rfl, rfl⟩, rfl, rfl⟩

end Sys2Proof.Proofs
end

section
/-! PROOFS. What data accesses do that write no register, to the end of their instruction: the trap flags that they
raise, and what they leave unchanged (spec/20_memory.md R96 to R100, spec/60_exceptions.md R203 to R214). -/

namespace Sys2Proof.Machine

/-! ## The trap flags that are raised -/

/-- From `s` to `t` the bits `flags` of INTCON1 are set and the bits `marks` lose the mark of a flag that requests
nothing; no other bit of the two changes. -/
def FlagsSet (flags marks : Nat → Bool) (s t : State) : Prop :=
  ∀ j, t.intcon1.getLsbD j = (s.intcon1.getLsbD j || flags j) ∧
    t.inert.getLsbD j = (s.inert.getLsbD j && !marks j)

theorem FlagsSet.trans {f m f' m' : Nat → Bool} {s t u : State} (h : FlagsSet f m s t) (h' : FlagsSet f' m' t u) :
    FlagsSet (fun j => f j || f' j) (fun j => m j || m' j) s u := by
  intro j
  rw [(h' j).1, (h' j).2, (h j).1, (h j).2, Bool.not_or, Bool.or_assoc, Bool.and_assoc]
  exact ⟨rfl, rfl⟩

/-- The hard traps that an effect has met set their flags, as requests (R203, R204). -/
theorem flagsSet_flagged (e : Eff) : FlagsSet e.hardFlag e.hardFlag e.st e.flagged := getLsbD_flagged e

theorem flagsSet_setTrapFlag (k : TrapKind) (s : State) :
    FlagsSet (· == k.flagBit) (· == k.flagBit) s (s.setTrapFlag k) := by
  have hk : k.flagBit < 16 := by cases k <;> decide
  intro j
  by_cases hj : j = k.flagBit
  · subst hj
    simp [State.setTrapFlag, getLsbD_setBit_self _ _ _ hk]
  · simp [State.setTrapFlag, getLsbD_setBit_ne _ _ _ _ hj, hj]

/-- A trap whose flag is among those that are set, and unmarked, is pending; the others are pending as before. -/
theorem FlagsSet.trapPending {f m : Nat → Bool} {s t : State} (h : FlagsSet f m s t) (k : TrapKind)
    (hk : m k.flagBit = f k.flagBit) : t.trapPending k = (f k.flagBit || s.trapPending k) := by
  unfold State.trapPending
  rw [(h _).1, (h _).2, hk]
  cases f k.flagBit <;> simp

/-- The flags of the stack error and of the address error, where they are raised. -/
def accessFlag (stk addr : Bool) (j : Nat) : Bool := (stk && j == 2) || (addr && j == 3)

/-- From `s` to `t` the stack error was raised where `stk` says so, the address error where `addr` does, and no other
trap. -/
def Raised (stk addr : Bool) (s t : State) : Prop :=
  FlagsSet (accessFlag stk addr) (accessFlag stk addr) s t ∧ (stk = false → t.softSkid = s.softSkid)

section
variable {stk addr : Bool} {s t : State}

theorem Raised.trans {stk' addr' : Bool} {u : State} (h : Raised stk addr s t) (h' : Raised stk' addr' t u) :
    Raised (stk || stk') (addr || addr') s u := by
  have hor : ∀ j, (accessFlag stk addr j || accessFlag stk' addr' j) = accessFlag (stk || stk') (addr || addr') j := by
    intro j
    unfold accessFlag
    cases stk <;> cases stk' <;> cases addr <;> cases addr' <;> simp [Bool.or_comm, Bool.or_left_comm]
  refine ⟨fun j => ?_, fun hs => ?_⟩
  · rw [← hor j]
    exact h.1.trans h'.1 j
  · obtain ⟨h1, h2⟩ := Bool.or_eq_false_iff.1 hs
    rw [h'.2 h2, h.2 h1]

theorem Raised.sameTraps (h : Raised false false s t) : SameTraps s t := by
  obtain ⟨hflags, hskid⟩ := h
  refine ⟨BitVec.eq_of_getLsbD_eq fun j _ => ?_, BitVec.eq_of_getLsbD_eq fun j _ => ?_, hskid rfl⟩
  · simpa [accessFlag] using (hflags j).1
  · simpa [accessFlag] using (hflags j).2

/-- Where nothing of INTCON1 changes, and no soft trap draws its skid, no trap is raised. -/
theorem raised_of_same (h1 : t.intcon1 = s.intcon1) (h2 : t.inert = s.inert) (h3 : t.softSkid = s.softSkid) :
    Raised false false s t := by
  refine ⟨fun j => ?_, fun _ => h3⟩
  rw [h1, h2]
  simp [accessFlag]

theorem Raised.stkErr (h : Raised true addr s t) : TrapRaised .stkErr (if addr then [3] else []) s t := by
  refine ⟨?_, fun j hj => ?_⟩
  · rw [h.1.trapPending .stkErr rfl]
    simp [accessFlag, TrapKind.flagBit]
  · have hj2 : j ≠ 2 := hj
    rw [(h.1 j).1, Bool.or_comm]
    cases addr
    · simp [accessFlag, hj2]
    · by_cases hj3 : j = 3 <;> simp [accessFlag, hj2, hj3]

theorem Raised.addrErr (h : Raised false true s t) : TrapRaised .addrErr [] s t := by
  refine ⟨?_, fun j hj => ?_⟩
  · rw [h.1.trapPending .addrErr rfl]
    simp [accessFlag, TrapKind.flagBit]
  · have hj3 : j ≠ 3 := hj
    rw [(h.1 j).1]
    simp [accessFlag, hj3]

theorem Raised.addrErr_pending (h : Raised stk true s t) : t.trapPending .addrErr = true := by
  rw [h.1.trapPending .addrErr rfl]
  simp [accessFlag, TrapKind.flagBit]

theorem Raised.stkErr_pending (h : Raised true addr s t) : t.trapPending .stkErr = true := h.stkErr.1

/-- The oscillator failure trap is pending as before. -/
theorem Raised.oscFail_pending (h : Raised stk addr s t) : t.trapPending .oscFail = s.trapPending .oscFail := by
  rw [h.1.trapPending .oscFail rfl]
  simp [accessFlag, TrapKind.flagBit]

/-- Where the stack error was raised INTCON1 reads with its flag set (R28, R176; log 24). -/
theorem Raised.sfrValue_intcon1 (h : Raised true false s t) :
    t.sfrValue .intcon1 = s.sfrValue .intcon1 ||| 0x0004#16 := by
  have hbits : ∀ b : Fin 16, (0x0004#16).getLsbD b.val = (b.val == 2) ∧
      (b.val = 2 → (0xFFFE#16).getLsbD b.val = true) := by decide
  apply BitVec.eq_of_getLsbD_eq
  intro b hb
  obtain ⟨hfour, hmask⟩ : (0x0004#16).getLsbD b = (b == 2) ∧ (b = 2 → (0xFFFE#16).getLsbD b = true) := hbits ⟨b, hb⟩
  simp only [State.sfrValue, BitVec.getLsbD_and, BitVec.getLsbD_or, (h.1 b).1, hfour, accessFlag]
  by_cases h2 : b = 2
  · rw [hmask h2]
    simp
  · simp [beq_false_of_ne h2]

end

theorem raised_stkErr (s : State) : Raised true false s (s.raiseSoft .stkErr) := by
  refine ⟨fun j => ?_, nofun⟩
  have h := flagsSet_setTrapFlag .stkErr s j
  simpa [accessFlag, TrapKind.flagBit] using h

/-- Without a trap nothing but memory, W15 and `pc` has changed. -/
theorem QuietButTraps.quietButMemory {c : Nat} {s t : State} (h : QuietButTraps c s t) (hr : Raised false false s t) :
    QuietButMemory c s t := by
  obtain ⟨hw, hstatus, haccs, hspecial, hsources, hpower, hparams, htick⟩ := h
  exact ⟨hw, hstatus, haccs, hspecial, hr.sameTraps, hsources, hpower, hparams, htick⟩

/-! ## The end of an instruction -/

/-- From `s` to `u` only W15, memory, the trap flags and what the model itself keeps of an access have changed. -/
def OnlyAccessed (s u : State) : Prop :=
  ∃ w15 mem intcon1 inert skid result dataWrite draws, u = { s with
    w15 := w15, mem := mem, intcon1 := intcon1, inert := inert, softSkid := skid, result := result,
    dataWrite := dataWrite, draws := draws }

theorem OnlyAccessed.trans {s t u : State} (h : OnlyAccessed s t) (h' : OnlyAccessed t u) : OnlyAccessed s u := by
  obtain ⟨_, _, _, _, _, _, _, _, rfl⟩ := h
  obtain ⟨_, _, _, _, _, _, _, _, rfl⟩ := h'
  exact ⟨_, _, _, _, _, _, _, _, rfl⟩

theorem OnlyAccessed.dev {s u : State} (h : OnlyAccessed s u) : u.dev = s.dev := by
  obtain ⟨_, _, _, _, _, _, _, _, rfl⟩ := h
  rfl

theorem OnlyAccessed.parameters {s u : State} (h : OnlyAccessed s u) : SameParameters s u := by
  obtain ⟨_, _, _, _, _, _, _, _, rfl⟩ := h
  exact ⟨rfl, rfl, rfl, rfl⟩

/-- Every register but INTCON1 reads as before; the free bits of RCON and OSCCON are drawn anew. -/
theorem OnlyAccessed.sfrValue {s u : State} (h : OnlyAccessed s u) (q : Sfr) (h1 : q ≠ .intcon1) (hr : q ≠ .rcon)
    (ho : q ≠ .osccon) : u.sfrValue q = s.sfrValue q := by
  obtain ⟨_, _, _, _, _, _, _, _, rfl⟩ := h
  cases q with
  | intcon1 => exact absurd rfl h1
  | rcon => exact absurd rfl hr
  | osccon => exact absurd rfl ho
  | _ => rfl

theorem OnlyAccessed.cpuIpl {s u : State} (h : OnlyAccessed s u) : u.cpuIpl = s.cpuIpl := by
  obtain ⟨_, _, _, _, _, _, _, _, rfl⟩ := h
  rfl

theorem OnlyAccessed.outsideStack {s u : State} (h : OnlyAccessed s u) (a : Word) :
    OutsideStack u a ↔ OutsideStack s a := by
  obtain ⟨_, _, _, _, _, _, _, _, rfl⟩ := h
  exact .rfl

theorem OnlyAccessed.stackFaults {s u : State} (h : OnlyAccessed s u) (exact : Int) :
    u.stackFaults exact = s.stackFaults exact := by
  obtain ⟨_, _, _, _, _, _, _, _, rfl⟩ := h
  rfl

theorem OnlyAccessed.readFaults {s u : State} (h : OnlyAccessed s u) (size : Size) (ea : Word) :
    u.readFaults size ea = s.readFaults size ea := by
  rw [State.readFaults, h.dev]
  rfl

/-- The end of an instruction adds the tick, and moves `pc` (R140, R142). -/
theorem OnlyAccessed.quietButTraps {s u : State} (h : OnlyAccessed s u) (next : PAddr) (late : Bool) (c : Nat) :
    QuietButTraps c s (({ u with pc := next, lateEntry := late } : State).tick c) := by
  obtain ⟨_, _, _, _, _, _, _, _, rfl⟩ := h
  exact ⟨rfl, ⟨rfl, rfl, rfl⟩, ⟨rfl, rfl⟩, ⟨rfl, rfl, rfl, rfl, rfl, rfl⟩, ⟨rfl, rfl, rfl, rfl⟩, ⟨rfl, rfl⟩,
    ⟨rfl, rfl, rfl, rfl⟩, ticked_tick c { s with pc := next, lateEntry := late }⟩

/-- The effect `e` has come from the state `s` by accesses that wrote no register; the stack error was raised where
`stk` says so. -/
structure Accessed (s : State) (stk : Bool) (e : Eff) : Prop where
  only : OnlyAccessed s e.st
  raised : Raised stk false s e.st
  swAddr : e.swAddr = false
  swOsc : e.swOsc = false

/-- What the end of an instruction leaves that went on to `next` after the accesses of `e`. -/
structure AccessEnd (s : State) (stk : Bool) (e : Eff) (next : PAddr) (c : Nat) (t : State) : Prop where
  pc : t.pc = next
  w15 : t.w15 = e.st.w15
  result : t.result = e.st.result
  memory : SameMemory e.st t
  quietButTraps : QuietButTraps c s t
  raised : Raised stk e.addr s t

/-- The end of an instruction before its hard traps are judged: `pc`, its kind, and the tick. -/
def Eff.advance (next : PAddr) (c : Nat) (late : Bool) (e : Eff) : Eff :=
  e.map fun s => ({ s with pc := next, lateEntry := late } : State).tick c

/-- Only an address error is judged where software asked for no hard trap. -/
theorem hardFlag_advance {next : PAddr} {c : Nat} {late : Bool} (e : Eff) (hs : e.swAddr = false)
    (ho : e.swOsc = false) : (e.advance next c late).hardFlag = accessFlag false e.addr := by
  funext j
  simp [Eff.advance, Eff.hardFlag, accessFlag, hs, ho]

theorem Accessed.flagged {s : State} {stk : Bool} {e : Eff} (h : Accessed s stk e) (next : PAddr) (c : Nat)
    (late : Bool) : AccessEnd s stk e next c (e.advance next c late).flagged := by
  obtain ⟨honly, hraised, hsw, hosc⟩ := h
  have hflags : FlagsSet (accessFlag false e.addr) (accessFlag false e.addr) e.st (e.advance next c late).flagged := by
    have h := flagsSet_flagged (e.advance next c late)
    rwa [hardFlag_advance e hsw hosc] at h
  have hmarked := flagged_eq (e.advance next c late)
  generalize (e.advance next c late).flagged = t at hflags hmarked ⊢
  obtain ⟨i, n, ht⟩ : ∃ i n, t = { ({ e.st with pc := next, lateEntry := late } : State).tick c with
    intcon1 := i, inert := n } := ⟨_, _, hmarked⟩
  have hskid : t.softSkid = e.st.softSkid := by rw [ht]; rfl
  have hend := hraised.trans ⟨hflags, fun _ => hskid⟩
  rw [Bool.or_false, Bool.false_or] at hend
  have hmoved : OnlyAccessed s { e.st with intcon1 := i, inert := n } :=
    honly.trans ⟨_, _, _, _, _, _, _, _, rfl⟩
  rw [ht] at hend ⊢
  exact ⟨rfl, rfl, rfl, fun _ => rfl, hmoved.quietButTraps next late c, hend⟩

/-- Where no hard trap conflicts, the flags of the hard traps that were met are the end of the instruction (R210). -/
theorem finish_eq_flagged (pre : State) (next : PAddr) (c : Nat) (late : Bool) (e : Eff)
    (hp : e.addr = true → HardTrapPends pre) (hs : e.swAddr = false) (ho : e.swOsc = false) :
    e.finish pre next c late = (e.advance next c late).flagged := by
  change (e.advance next c late).settle pre = _
  rw [settle_eq_flagged]
  simp only [Eff.advance, Eff.map_addr, Eff.map_swAddr, Eff.map_swOsc, hs, ho, Bool.or_false, Bool.false_and]
  cases ha : e.addr with
  | false => rfl
  | true =>
    obtain ⟨hosc, hlt⟩ := hp ha
    have h13 : (pre.cpuIpl == 13) = false := beq_false_of_ne (by omega)
    rw [State.hardConflict, hosc, decide_eq_false (by omega), h13]
    rfl

/-- An address error at its own level resets the device, or halts it with the flags of the instruction set (R214). -/
theorem finish_sameLevel (pre : State) (next : PAddr) (c : Nat) (late : Bool) (e : Eff) (ha : e.addr = true)
    (ho : e.swOsc = false) (hosc : pre.trapPending .oscFail = false) (h13 : pre.cpuIpl = 13) (s : State)
    (hs : SameParameters s e.st) :
    ConflictReset s (e.finish pre next c late) ∨
      e.finish pre next c late = { (e.advance next c late).flagged.bump with power := .halt } := by
  have hconflict : pre.hardConflict = false := by
    rw [State.hardConflict, hosc, h13]
    rfl
  have hflagged : (e.advance next c late).flagged = (e.advance next c late).st.setTrapFlag .addrErr := by
    simp [Eff.flagged, Eff.advance, ha, ho]
  rw [hflagged]
  exact settle_sameLevel pre (e.advance next c late) (by simp [Eff.advance, ha]) ho hconflict h13 s hs

/-- An address error that conflicts with the oscillator failure trap resets the device (R212). -/
theorem finish_conflict (pre : State) (next : PAddr) (c : Nat) (late : Bool) (e : Eff) (ha : e.addr = true)
    (hc : pre.hardConflict = true) (s : State) (hs : SameParameters s e.st) :
    ConflictReset s (e.finish pre next c late) :=
  settle_conflict pre (e.advance next c late) (by simp [Eff.advance, ha]) hc s hs

theorem Accessed.finish {s : State} {stk : Bool} {e : Eff} (h : Accessed s stk e) (pre : State) (next : PAddr)
    (c : Nat) (late : Bool) (hp : e.addr = true → HardTrapPends pre) :
    AccessEnd s stk e next c (e.finish pre next c late) := by
  rw [finish_eq_flagged pre next c late e hp h.swAddr h.swOsc]
  exact h.flagged next c late

theorem Accessed.goTo {s : State} {stk : Bool} {e : Eff} (h : Accessed s stk e) (next : PAddr)
    (hp : e.addr = true → HardTrapPends s) : AccessEnd s stk e next s.cycles (e.goTo s next) :=
  h.finish s next s.cycles s.late hp

theorem Accessed.goTo_ok {s : State} {stk : Bool} {e : Eff} (h : Accessed s stk e) (next : PAddr)
    (ha : e.addr = false) : AccessEnd s stk e next s.cycles (e.goTo s next) :=
  h.goTo next fun hc => absurd (ha.symm.trans hc) Bool.false_ne_true

section
variable {s t : State} {stk : Bool} {e : Eff} {next : PAddr} {c : Nat}

theorem AccessEnd.quietButMemory (h : AccessEnd s false e next c t) (ha : e.addr = false) :
    QuietButMemory c s t := h.quietButTraps.quietButMemory (ha ▸ h.raised)

theorem AccessEnd.sameMemory (h : AccessEnd s stk e next c t) (hm : SameMemory s e.st) : SameMemory s t :=
  fun a => (h.memory a).trans (hm a)

theorem AccessEnd.sameMemoryBut (h : AccessEnd s stk e next c t) {a n : Nat} (hm : SameMemoryBut a n s e.st) :
    SameMemoryBut a n s t := fun b hb => (h.memory b).trans (hm b hb)

theorem AccessEnd.wordAt (h : AccessEnd s stk e next c t) (a : Nat) : t.wordAt a = e.st.wordAt a := by
  unfold State.wordAt
  rw [h.memory, h.memory]

theorem AccessEnd.quiet (h : AccessEnd s false e next c t) (ha : e.addr = false) (hw : e.st.w15 = s.w15)
    (hm : SameMemory s e.st) : Quiet c s t :=
  ⟨h.quietButMemory ha, h.w15.trans hw, h.sameMemory hm⟩

end

/-! ## The accesses -/

/-- Data space has no odd word: the byte at an even address begins its word (R96). -/
theorem wordBase_of_even (ea : Word) (h : ea.getLsbD 0 = false) : wordBase ea = ea.toNat := by
  have h0 : ea.toNat.testBit 0 = false := h
  rw [Nat.testBit_zero, decide_eq_false_iff_not] at h0
  unfold wordBase
  omega

theorem misaligned_word (ea : Word) : misaligned .word ea = ea.getLsbD 0 := rfl

theorem misaligned_byte (ea : Word) : misaligned .byte ea = false := rfl

/-- When a read raises the address error (R97, R98, R179). -/
theorem readFaults_iff (s : State) (size : Size) (ea : Word) :
    s.readFaults size ea = true ↔ misaligned size ea = true ∨ dataImplemented s.dev ea = false := by
  simp [State.readFaults]

theorem readFaults_of_aligned {s : State} {size : Size} {ea : Word} (hal : misaligned size ea = false)
    (hd : dataImplemented s.dev ea = true) : s.readFaults size ea = false := by
  simp [State.readFaults, hal, hd]

theorem accessed_eff (s : State) : Accessed s false s.eff :=
  ⟨⟨_, _, _, _, _, _, _, _, rfl⟩, raised_of_same rfl rfl rfl, rfl, rfl⟩

section
variable {s : State} {stk : Bool} {e : Eff}

/-- An update of W15, memory or the result, which raises nothing. -/
theorem Accessed.map (h : Accessed s stk e) (f : State → State) (ho : OnlyAccessed e.st (f e.st))
    (h1 : (f e.st).intcon1 = e.st.intcon1) (h2 : (f e.st).inert = e.st.inert)
    (h3 : (f e.st).softSkid = e.st.softSkid) : Accessed s stk (e.map f) := by
  have hr := h.raised.trans (raised_of_same h1 h2 h3)
  rw [Bool.or_false] at hr
  exact ⟨h.only.trans ho, hr, h.swAddr, h.swOsc⟩

theorem Accessed.setW15 (h : Accessed s stk e) (a : Word) : Accessed s stk (e.map fun u => { u with w15 := a }) :=
  h.map _ ⟨_, _, _, _, _, _, _, _, rfl⟩ rfl rfl rfl

theorem Accessed.setResult (h : Accessed s stk e) (v : Word) :
    Accessed s stk (e.map fun u => { u with result := v }) := h.map _ ⟨_, _, _, _, _, _, _, _, rfl⟩ rfl rfl rfl

theorem Accessed.putWord (h : Accessed s stk e) (a : Nat) (v : Word) : Accessed s stk (e.map (State.putWord a v)) :=
  h.map _ ⟨_, _, _, _, _, _, _, _, rfl⟩ rfl rfl rfl

theorem Accessed.putByte (h : Accessed s stk e) (a : Nat) (v : Byte) : Accessed s stk (e.map (State.putByte a v)) :=
  h.map _ ⟨_, _, _, _, _, _, _, _, rfl⟩ rfl rfl rfl

/-- The address error that is noted is not yet a flag. -/
theorem Accessed.setAddr (h : Accessed s stk e) (b : Bool) : Accessed s stk { e with addr := b } :=
  ⟨h.only, h.raised, h.swAddr, h.swOsc⟩

theorem Accessed.read (h : Accessed s stk e) (size : Size) (ea : Word) : Accessed s stk (e.read size ea).2 :=
  (h.map State.bump ⟨_, _, _, _, _, _, _, _, rfl⟩ rfl rfl rfl).setAddr _

/-- A failing check raises the stack error (R176, R177). -/
theorem Accessed.stackCheck (h : Accessed s stk e) (exact : Int) :
    Accessed s (stk || s.stackFaults exact) (e.stackCheck exact) := by
  rw [← h.only.stackFaults exact]
  cases hf : e.st.stackFaults exact with
  | false => rwa [Bool.or_false, stackCheck_ok e exact hf]
  | true =>
    rw [stackCheck_faults e exact hf]
    exact ⟨h.only.trans ⟨_, _, _, _, _, _, _, _, rfl⟩, h.raised.trans (raised_stkErr e.st), h.swAddr, h.swOsc⟩

/-- A store at an address where no register stands (R96, R97, R100). -/
theorem Accessed.write (h : Accessed s stk e) (size : Size) (ea v : Word)
    (hreg : e.addr = false → misaligned size ea = false → dataImplemented s.dev ea = true →
      sfrAt s.dev (wordBase ea) = none) : Accessed s stk (e.write size ea v) := by
  rw [← h.only.dev] at hreg
  unfold Eff.write
  split
  · exact h.setAddr true
  · next hal =>
    split
    · exact h
    · next ha =>
      unfold Eff.store
      split
      · next hd =>
        have hnone := hreg (Bool.eq_false_iff.2 ha) (Bool.eq_false_iff.2 hal) hd
        cases size with
        | word =>
          rw [misaligned_word] at hal
          rw [wordBase_of_even ea (Bool.eq_false_iff.2 hal)] at hnone
          simp only [hnone]
          exact h.putWord _ _
        | byte =>
          simp only [hnone]
          exact h.putByte _ _
      · exact h

end

/-- A check moves nothing but the trap flags. -/
theorem stackCheck_keeps (e : Eff) (exact : Int) :
    (e.stackCheck exact).addr = e.addr ∧ (e.stackCheck exact).st.w15 = e.st.w15 ∧
    SameMemory e.st (e.stackCheck exact).st := by
  unfold Eff.stackCheck
  split <;> exact ⟨rfl, rfl, fun _ => rfl⟩

/-- A write that is not made, and one that raises the address error, store nothing (R97, R100). -/
theorem write_stores_nothing (size : Size) (ea v : Word) (e : Eff) (h : misaligned size ea = true ∨ e.addr = true) :
    e.write size ea v = { e with addr := true } := by
  unfold Eff.write
  split
  · rfl
  · next hal =>
    have ha : e.addr = true := h.resolve_left hal
    rw [if_pos ha, ← ha]

end Sys2Proof.Machine
end

section
/-! PROOFS. Data accesses, bit instructions and MAC-class fetches (spec/20_memory.md R96 to R100,
spec/41_trap_raising_instructions.md R178, R179), at memory, at holes and at the SFRs. -/

namespace Sys2Proof.Machine

/-! ## What each access does -/

theorem wordAt_of_sameMemory {s t : State} (h : SameMemory s t) (a : Nat) : t.wordAt a = s.wordAt a := by
  unfold State.wordAt
  rw [h, h]

/-- What a read returns of plain memory (R96). -/
theorem load_word_ram {s : State} {ea : Word} (h : sfrAt s.dev ea.toNat = none) :
    s.load .word ea = s.wordAt ea.toNat := by
  simp only [State.load, h]

theorem load_byte_ram {s : State} {ea : Word} (h : sfrAt s.dev (wordBase ea) = none) :
    (s.load .byte ea).extractLsb' 0 8 = s.byteAt ea.toNat := by
  simp only [State.load, h]
  exact extractLsb'_append_low _ _

/-- What a read returns of a register (R99, R151). -/
theorem load_word_sfr {s : State} {ea : Word} {r : Sfr} (h : sfrAt s.dev ea.toNat = some r) :
    s.load .word ea = s.sfrValue r := by
  simp only [State.load, h]

theorem load_byte_sfr {s : State} {ea : Word} {r : Sfr} (h : sfrAt s.dev (wordBase ea) = some r) :
    (s.load .byte ea).extractLsb' 0 8 = (s.sfrValue r).extractLsb' (if ea.getLsbD 0 then 8 else 0) 8 := by
  simp only [State.load, h]
  refine (extractLsb'_append_low _ _).trans ?_
  split <;> rfl

section
variable {s : State} {stk : Bool} {e : Eff} (h : Accessed s stk e) (size : Size) (ea : Word)
include h

/-- A read notes the address error where it meets one, and moves nothing (R97, R98). -/
theorem Accessed.access_read :
    let e' := e.access size ea .read
    Accessed s stk e' ∧ e'.addr = (e.addr || s.readFaults size ea) ∧ e'.st.w15 = e.st.w15 ∧
    SameMemory e.st e'.st ∧ (s.readFaults size ea = false → e'.st.result = e.st.load size ea) := by
  have hf := h.only.readFaults size ea
  refine ⟨(h.read size ea).setResult _, congrArg (e.addr || ·) hf, rfl, fun _ => rfl, fun hok => ?_⟩
  have hvalue : (e.access size ea .read).st.result = e.st.readValue size ea := rfl
  rw [hvalue, State.readValue, hf, hok]
  rfl

/-- A word store to plain memory (R96). -/
theorem Accessed.write_word (v : Word) (ha : e.addr = false) (hodd : ea.getLsbD 0 = false) (hp : PlainRam s ea) :
    let e' := e.write .word ea v
    Accessed s stk e' ∧ e'.addr = false ∧ e'.st.w15 = e.st.w15 ∧ e'.st.wordAt ea.toNat = v ∧
    SameMemoryBut ea.toNat 2 e.st e'.st := by
  have hp' : PlainRam e.st ea := by rwa [PlainRam, h.only.dev]
  rw [write_ram_word ea v e hodd ha hp']
  exact ⟨h.putWord _ _, ha, rfl, wordAt_putWord_self _ _ _, sameMemoryBut_putWord _ _ _⟩

/-- A byte store to plain memory (R96). -/
theorem Accessed.write_byte (v : Word) (ha : e.addr = false) (hd : dataImplemented s.dev ea = true)
    (hr : sfrAt s.dev (wordBase ea) = none) :
    let e' := e.write .byte ea v
    Accessed s stk e' ∧ e'.addr = false ∧ e'.st.w15 = e.st.w15 ∧ e'.st.byteAt ea.toNat = v.extractLsb' 0 8 ∧
    SameMemoryBut ea.toNat 1 e.st e'.st := by
  rw [← h.only.dev] at hd hr
  rw [write_ram_byte ea v e ha hd hr]
  exact ⟨h.putByte _ _, ha, rfl, byteAt_putByte_self _ _ _, sameMemoryBut_putByte _ _ _⟩

/-- A store to unimplemented data space does nothing (R179, U15; log 27). -/
theorem Accessed.write_hole (v : Word) (ha : e.addr = false) (hal : misaligned size ea = false)
    (hd : dataImplemented s.dev ea = false) : e.write size ea v = e :=
  write_unimplemented size ea v e hal ha (by rwa [h.only.dev])

/-- An access that cannot be made notes the address error and stores nothing (R97, R98, R100). -/
theorem Accessed.access_bad (op : DataOp)
    (hbad : misaligned size ea = true ∨ (op = .read ∧ dataImplemented s.dev ea = false)) :
    let e' := e.access size ea op
    Accessed s stk e' ∧ e'.addr = true ∧ e'.st.w15 = e.st.w15 ∧ SameMemory e.st e'.st := by
  cases op with
  | read =>
    obtain ⟨hacc, haddr, hw15, hmem, -⟩ := h.access_read size ea
    have hf : s.readFaults size ea = true := (readFaults_iff s size ea).2 (hbad.imp id fun hb => hb.2)
    exact ⟨hacc, by rw [haddr, hf, Bool.or_true], hw15, hmem⟩
  | write v =>
    obtain hal | ⟨hop, -⟩ := hbad
    · have he : e.access size ea (.write v) = { e with addr := true } := write_stores_nothing size ea v e (.inl hal)
      rw [he]
      exact ⟨h.setAddr true, rfl, rfl, fun _ => rfl⟩
    · cases hop

end

/-! ## Data accesses -/

/-- The effect of a data access. -/
theorem exec_dataAccess (size : Size) (ea : Word) (op : DataOp) (s : State) :
    exec (.dataAccess size ea op) s = .next ((s.eff.access size ea op).goTo s (s.after s.pc)) := rfl

theorem exec_bitIndirect_read (ea : Word) (s : State) :
    exec (.bitIndirect ea .read) s = exec (.dataAccess .word ea .read) s := rfl

/-- A bit instruction that changes a bit reads the word, then stores it (R178; log 27). -/
theorem exec_bitIndirect_write (ea v : Word) (s : State) :
    exec (.bitIndirect ea (.write v)) s =
      .next (((s.eff.access .word ea .read).write .word ea v).goTo s (s.after s.pc)) := rfl

theorem dataAccess_read_ok {s : State} {size : Size} {ea : Word} (hf : s.readFaults size ea = false) :
    ∃ t, exec (.dataAccess size ea .read) s = .next t ∧ t.pc = s.after s.pc ∧ t.result = s.load size ea ∧
      Quiet s.cycles s t := by
  obtain ⟨hacc, haddr, hw15, hmem, hresult⟩ := (accessed_eff s).access_read size ea
  rw [hf] at haddr
  have hend := hacc.goTo_ok (s.after s.pc) haddr
  exact ⟨_, exec_dataAccess .., hend.pc, hend.result.trans (hresult hf), hend.quiet haddr hw15 hmem⟩

theorem dataAccess_hole {s : State} {size : Size} {ea : Word} (v : Word) (hal : misaligned size ea = false)
    (hd : dataImplemented s.dev ea = false) :
    ∃ t, exec (.dataAccess size ea (.write v)) s = .next t ∧ t.pc = s.after s.pc ∧ Quiet s.cycles s t := by
  have he : s.eff.access size ea (.write v) = s.eff := (accessed_eff s).write_hole size ea v rfl hal hd
  have hend := (accessed_eff s).goTo (s.after s.pc) nofun
  exact ⟨_, by rw [exec_dataAccess, he], hend.pc, hend.quiet rfl rfl fun _ => rfl⟩

/-- An address error of a data access, pending at the end of its instruction. -/
def AddressErrorOnly (s t : State) : Prop :=
  TrapRaised .addrErr [] s t ∧ SameMemory s t ∧ t.w15 = s.w15 ∧ t.pc = s.after s.pc ∧ QuietButTraps s.cycles s t

theorem AccessEnd.addressErrorOnly {s t : State} {e : Eff}
    (h : AccessEnd s false e (s.after s.pc) s.cycles t) (ha : e.addr = true) (hw : e.st.w15 = s.w15)
    (hm : SameMemory s e.st) : AddressErrorOnly s t := by
  have hraised := h.raised
  rw [ha] at hraised
  exact ⟨hraised.addrErr, h.sameMemory hm, h.w15.trans hw, h.pc, h.quietButTraps⟩

theorem dataAccess_bad {s : State} {size : Size} {ea : Word} {op : DataOp}
    (hbad : misaligned size ea = true ∨ (op = .read ∧ dataImplemented s.dev ea = false)) (hp : HardTrapPends s) :
    ∃ t, exec (.dataAccess size ea op) s = .next t ∧ AddressErrorOnly s t := by
  obtain ⟨hacc, haddr, hw15, hmem⟩ := (accessed_eff s).access_bad size ea op hbad
  exact ⟨_, exec_dataAccess .., (hacc.goTo _ fun _ => hp).addressErrorOnly haddr hw15 hmem⟩

/-- A bit instruction at a bad address stores nothing, whether it changes a bit or not (R100, R178). -/
theorem bitIndirect_bad {s : State} {ea : Word} (op : DataOp) (hbad : BadRead s ea) (hp : HardTrapPends s) :
    ∃ t, exec (.bitIndirect ea op) s = .next t ∧ AddressErrorOnly s t := by
  have hread : misaligned .word ea = true ∨ (DataOp.read = .read ∧ dataImplemented s.dev ea = false) :=
    hbad.imp id fun hd => ⟨rfl, hd⟩
  cases op with
  | read =>
    rw [exec_bitIndirect_read]
    exact dataAccess_bad hread hp
  | write v =>
    obtain ⟨hacc, haddr, hw15, hmem⟩ := (accessed_eff s).access_bad .word ea .read hread
    have he : (s.eff.access .word ea .read).write .word ea v = { s.eff.access .word ea .read with addr := true } :=
      write_stores_nothing _ _ _ _ (.inr haddr)
    refine ⟨_, exec_bitIndirect_write .., ?_⟩
    rw [he]
    exact ((hacc.setAddr true).goTo _ fun _ => hp).addressErrorOnly rfl hw15 hmem

/-- A store to memory, to the end of its instruction, which nothing else follows. -/
theorem AccessEnd.stored {s t : State} {e : Eff} {next : PAddr} {c a n : Nat} (h : AccessEnd s false e next c t)
    (ha : e.addr = false) (hw : e.st.w15 = s.w15) (hm : SameMemoryBut a n s e.st) :
    t.pc = next ∧ SameMemoryBut a n s t ∧ t.w15 = s.w15 ∧ QuietButMemory c s t :=
  ⟨h.pc, h.sameMemoryBut hm, h.w15.trans hw, h.quietButMemory ha⟩

/-! ## MAC-class fetches -/

theorem exec_macFetch_own {s : State} {space : MacSpace} {ea : Word} (h : macCrossing s.dev space ea = false) :
    exec (.macFetch space ea) s = exec (.dataAccess .word ea .read) s := by
  simp only [exec, execMacFetch, h]
  rfl

/-- A fetch from the other space counts as one of unimplemented data space (R98, R179). -/
theorem exec_macFetch_crossing {s : State} {space : MacSpace} {ea : Word} (h : macCrossing s.dev space ea = true) :
    ∃ e, exec (.macFetch space ea) s = .next (e.goTo s (s.after s.pc)) ∧ Accessed s false e ∧ e.addr = true ∧
      e.st.w15 = s.w15 ∧ SameMemory s e.st := by
  have hacc : Accessed s false
      (s.eff.map fun u => { u with result := Config.faultyRead s.draws, draws := s.draws + 1 }) :=
    (accessed_eff s).map _ ⟨_, _, _, _, _, _, _, _, rfl⟩ rfl rfl rfl
  refine ⟨_, ?_, hacc.setAddr true, rfl, rfl, fun _ => rfl⟩
  simp only [exec, execMacFetch, h]
  rfl

theorem macFetch_crossing {s : State} {space : MacSpace} {ea : Word} (h : macCrossing s.dev space ea = true)
    (hp : HardTrapPends s) : ∃ t, exec (.macFetch space ea) s = .next t ∧ AddressErrorOnly s t := by
  obtain ⟨e, hexec, hacc, haddr, hw15, hmem⟩ := exec_macFetch_crossing h
  exact ⟨_, hexec, (hacc.goTo _ fun _ => hp).addressErrorOnly haddr hw15 hmem⟩

/-! ## Accesses of the SFRs -/

/-- A word access of a register is the 16-bit write (R99, R150). -/
theorem write_word_sfr_eff {s : State} {ea : Word} {r : Sfr} (v : Word) (e : Eff) (hdev : e.st.dev = s.dev)
    (ha : e.addr = false) (hodd : ea.getLsbD 0 = false) (hd : dataImplemented s.dev ea = true)
    (hr : sfrAt s.dev (wordBase ea) = some r) : e.write .word ea v = e.sfrUpdate r 0xFFFF#16 v := by
  rw [wordBase_of_even ea hodd] at hr
  exact write_sfr_word ea v e r hodd ha (by rwa [hdev]) (by rwa [hdev])

/-- A byte access of a register is a write of the field of that byte (R99, R157; the byte order is log 29). -/
theorem write_byte_sfr_eff {s : State} {ea : Word} {r : Sfr} (v : Word) (e : Eff) (hdev : e.st.dev = s.dev)
    (ha : e.addr = false) (hd : dataImplemented s.dev ea = true) (hr : sfrAt s.dev (wordBase ea) = some r) :
    e.write .byte ea v =
      if ea.getLsbD 0 then e.sfrUpdate r (fieldMask 15 8) (v <<< 8)
      else e.sfrUpdate r (fieldMask 7 0) (v <<< 0) := by
  have hhigh : fieldMask 15 8 = 0xFF00#16 := by decide
  have hlow : fieldMask 7 0 = 0x00FF#16 := by decide
  rw [← hdev] at hd hr
  simp [Eff.write, Eff.store, misaligned_byte, ha, hd, hr, hhigh, hlow]

/-- A word read of a register by its address hands its value to the instruction (R99, R151). -/
theorem access_read_word_sfr {s : State} {ea : Word} {r : Sfr} (hodd : ea.getLsbD 0 = false)
    (hd : dataImplemented s.dev ea = true) (hr : sfrAt s.dev (wordBase ea) = some r) :
    s.eff.access .word ea .read = State.eff { s with result := s.sfrValue r, draws := s.draws + 1 } := by
  have hf : s.readFaults .word ea = false := readFaults_of_aligned hodd hd
  rw [wordBase_of_even ea hodd] at hr
  unfold Eff.access
  rw [read_ok .word ea s.eff hf, State.eff_st, load_word_sfr hr]
  rfl

theorem dataAccess_read_sfr {s : State} {ea : Word} {r : Sfr} (hodd : ea.getLsbD 0 = false)
    (hd : dataImplemented s.dev ea = true) (hr : sfrAt s.dev (wordBase ea) = some r) :
    exec (.dataAccess .word ea .read) s = exec (.sfrRead r) s := by
  rw [exec_dataAccess, access_read_word_sfr hodd hd hr]
  rfl

end Sys2Proof.Machine

namespace Sys2Proof.Proofs

open Sys2Proof.Machine

/-- Settles O41: the store is `putWord` or `putByte`, the read is of the same bytes, and the instruction ends with the
tick. -/
theorem dataAccessCompletes : Obligations.DataAccessCompletes := by
  intro s ea v hd hr
  refine ⟨fun hodd => ?_, ?_, ?_⟩
  · have hr' : sfrAt s.dev ea.toNat = none := wordBase_of_even ea hodd ▸ hr
    have hf : s.readFaults .word ea = false := readFaults_of_aligned hodd hd
    obtain ⟨t, hexec, hpc, hresult, hquiet⟩ := dataAccess_read_ok hf
    rw [load_word_ram hr'] at hresult
    refine ⟨?_, ⟨t, hexec, hpc, hresult, hquiet⟩, ?_, ⟨t, hexec, hpc, hresult, hquiet⟩⟩
    · obtain ⟨hacc, haddr, hw15, hword, hmem⟩ := (accessed_eff s).write_word ea v rfl hodd ⟨hd, hr'⟩
      have hend := hacc.goTo_ok (s.after s.pc) haddr
      obtain ⟨hpc, hrest⟩ := hend.stored haddr hw15 hmem
      exact ⟨_, rfl, hpc, (hend.wordAt _).trans hword, hrest⟩
    · obtain ⟨hread, hread_addr, hread_w15, hread_mem, -⟩ := (accessed_eff s).access_read .word ea
      rw [hf] at hread_addr
      obtain ⟨hacc, haddr, hw15, hword, hmem⟩ := hread.write_word ea v hread_addr hodd ⟨hd, hr'⟩
      have hend := hacc.goTo_ok (s.after s.pc) haddr
      obtain ⟨hpc, hrest⟩ := hend.stored haddr (hw15.trans hread_w15) fun b hb => (hmem b hb).trans (hread_mem b)
      exact ⟨_, exec_bitIndirect_write .., hpc, (hend.wordAt _).trans hword, hrest⟩
  · obtain ⟨hacc, haddr, hw15, hbyte, hmem⟩ := (accessed_eff s).write_byte ea v rfl hd hr
    have hend := hacc.goTo_ok (s.after s.pc) haddr
    obtain ⟨hpc, hrest⟩ := hend.stored haddr hw15 hmem
    exact ⟨_, rfl, hpc, (hend.memory _).trans hbyte, hrest⟩
  · obtain ⟨t, hexec, hpc, hresult, hquiet⟩ := dataAccess_read_ok (readFaults_of_aligned (misaligned_byte ea) hd)
    exact ⟨t, hexec, hpc, by rw [hresult, load_byte_ram hr], hquiet⟩

/-- Settles O42: a bad access notes the address error before it stores, and a store to a hole does nothing. -/
theorem badDataAddressesTrap : Obligations.BadDataAddressesTrap := by
  intro s ea v op size trapped
  exact ⟨fun hodd hp => ⟨dataAccess_bad (.inl hodd) hp, bitIndirect_bad op (.inl hodd) hp⟩,
    fun hd hp => ⟨dataAccess_bad (.inr ⟨rfl, hd⟩) hp, bitIndirect_bad op (.inr hd) hp⟩,
    fun hd hal => dataAccess_hole v hal hd⟩

/-- Settles O43: a fetch of its own space is a word read, one of the other space counts as unimplemented. -/
theorem macFetchKeepsToItsSpace : Obligations.MacFetchKeepsToItsSpace := by
  intro s space ea
  refine ⟨fun hown hodd hd => ?_, fun hbad hp => ?_⟩
  · obtain ⟨t, hexec, hpc, hresult, hquiet⟩ := dataAccess_read_ok (readFaults_of_aligned (size := .word) hodd hd)
    exact ⟨t, (exec_macFetch_own hown).trans hexec, hpc, fun hr => hresult.trans (load_word_ram hr),
      fun r hr => hresult.trans (load_word_sfr hr), hquiet⟩
  · have hfetch : ∃ t, exec (.macFetch space ea) s = .next t ∧ AddressErrorOnly s t := by
      cases hcross : macCrossing s.dev space ea with
      | true => exact macFetch_crossing hcross hp
      | false =>
        rw [exec_macFetch_own hcross]
        rw [hcross] at hbad
        exact dataAccess_bad ((hbad.resolve_left Bool.false_ne_true).imp id fun hd => ⟨rfl, hd⟩) hp
    obtain ⟨t, hexec, htrap, hmem, hw15, hpc, hquiet⟩ := hfetch
    exact ⟨t, hexec, hpc, htrap, hmem, hw15, hquiet⟩

/-- Settles O51: the address selects the register, and the access goes on as the event of that register does. -/
theorem sfrsStandInDataSpace : Obligations.SfrsStandInDataSpace := by
  intro s r ea v hd hr
  refine ⟨fun hodd => ⟨?_, dataAccess_read_sfr hodd hd hr, dataAccess_read_sfr hodd hd hr, ?_⟩, fun _ => ?_, ?_⟩
  · have he : s.eff.access .word ea (.write v) = s.eff.sfrUpdate r 0xFFFF#16 v :=
      write_word_sfr_eff v s.eff rfl rfl hodd hd hr
    rw [exec_dataAccess, he]
    rfl
  · rw [exec_bitIndirect_write, access_read_word_sfr hodd hd hr,
      write_word_sfr_eff (s := s) v _ rfl rfl hodd hd hr]
    rfl
  · have he : s.eff.access .byte ea (.write v) = _ := write_byte_sfr_eff v s.eff rfl rfl hd hr
    rw [exec_dataAccess, he]
    split <;> rfl
  · obtain ⟨t, hexec, -, hresult, hquiet⟩ := dataAccess_read_ok (readFaults_of_aligned (misaligned_byte ea) hd)
    exact ⟨t, hexec, hquiet, by rw [hresult, load_byte_sfr hr]⟩

end Sys2Proof.Proofs
end

section
/-! PROOFS. Accesses through W15 (spec/20_memory.md R95 to R100, spec/60_exceptions.md R176, R177): inside the limits
of the stack, outside them, at bad addresses, and at the address of a register. -/

namespace Sys2Proof.Machine

/-! ## An access through W15 that writes no register -/

theorem exec_stackAccess (mode : StackMode) (size : Size) (op : DataOp) (s : State) :
    exec (.stackAccess mode size op) s =
      .next ((((s.eff.stackCheck (stackExact s.w15 mode)).access size (stackEa s.w15 mode) op).map
        fun t => { t with w15 := stackPointerAfter s.w15 mode }).goTo s (s.after s.pc)) := rfl

/-- What every access through W15 leaves that writes no register: W15 and `pc` have moved, and the two traps were
raised where `stk` and `addr` say so. -/
structure StackAccessed (mode : StackMode) (stk addr : Bool) (s t : State) : Prop where
  pc : t.pc = s.after s.pc
  w15 : t.w15 = stackPointerAfter s.w15 mode
  quietButTraps : QuietButTraps s.cycles s t
  raised : Raised stk addr s t

theorem StackAccessed.quietButMemory {mode : StackMode} {s t : State} (h : StackAccessed mode false false s t) :
    QuietButMemory s.cycles s t := h.quietButTraps.quietButMemory h.raised

/-- The end of an access, from what the access itself did. -/
theorem stackAccess_end {s : State} {mode : StackMode} {size : Size} {op : DataOp} {stk addr : Bool} {e : Eff}
    (he : (s.eff.stackCheck (stackExact s.w15 mode)).access size (stackEa s.w15 mode) op = e) (hacc : Accessed s stk e)
    (ha : e.addr = addr) (hp : addr = true → HardTrapPends s) :
    ∃ t, exec (.stackAccess mode size op) s = .next t ∧ StackAccessed mode stk addr s t ∧
      t.result = e.st.result ∧ SameMemory e.st t := by
  subst ha
  have hend := (hacc.setW15 (stackPointerAfter s.w15 mode)).goTo (s.after s.pc) hp
  exact ⟨_, by rw [exec_stackAccess, he], ⟨hend.pc, hend.w15, hend.quietButTraps, hend.raised⟩, hend.result,
    hend.memory⟩

section
variable {s : State} {mode : StackMode} {stk : Bool} (hf : s.stackFaults (stackExact s.w15 mode) = stk)
include hf

theorem accessed_stackCheck : Accessed s stk (s.eff.stackCheck (stackExact s.w15 mode)) := by
  have h := (accessed_eff s).stackCheck (stackExact s.w15 mode)
  rwa [Bool.false_or, hf] at h

theorem stackAccess_word_store (v : Word) (hodd : (stackEa s.w15 mode).getLsbD 0 = false)
    (hr : PlainRam s (stackEa s.w15 mode)) :
    ∃ t, exec (.stackAccess mode .word (.write v)) s = .next t ∧ StackAccessed mode stk false s t ∧
      t.wordAt (stackEa s.w15 mode).toNat = v ∧ SameMemoryBut (stackEa s.w15 mode).toNat 2 s t := by
  obtain ⟨hcheck_addr, -, hcheck_mem⟩ := stackCheck_keeps s.eff (stackExact s.w15 mode)
  obtain ⟨hacc, haddr, -, hword, hmem⟩ := (accessed_stackCheck hf).write_word _ v hcheck_addr hodd hr
  obtain ⟨t, hexec, hdone, -, hsame⟩ :=
    stackAccess_end (op := .write v) rfl hacc haddr nofun
  exact ⟨t, hexec, hdone, (wordAt_of_sameMemory hsame _).trans hword,
    fun b hb => ((hsame b).trans (hmem b hb)).trans (hcheck_mem b)⟩

theorem stackAccess_byte_store (v : Word) (hd : dataImplemented s.dev (stackEa s.w15 mode) = true)
    (hr : sfrAt s.dev (wordBase (stackEa s.w15 mode)) = none) :
    ∃ t, exec (.stackAccess mode .byte (.write v)) s = .next t ∧ StackAccessed mode stk false s t ∧
      t.byteAt (stackEa s.w15 mode).toNat = v.extractLsb' 0 8 ∧ SameMemoryBut (stackEa s.w15 mode).toNat 1 s t := by
  obtain ⟨hcheck_addr, -, hcheck_mem⟩ := stackCheck_keeps s.eff (stackExact s.w15 mode)
  obtain ⟨hacc, haddr, -, hbyte, hmem⟩ := (accessed_stackCheck hf).write_byte _ v hcheck_addr hd hr
  obtain ⟨t, hexec, hdone, -, hsame⟩ :=
    stackAccess_end (op := .write v) rfl hacc haddr nofun
  exact ⟨t, hexec, hdone, (hsame _).trans hbyte, fun b hb => ((hsame b).trans (hmem b hb)).trans (hcheck_mem b)⟩

/-- A store to unimplemented data space does nothing but move W15 (U15; log 27). -/
theorem stackAccess_hole {size : Size} (v : Word) (hd : dataImplemented s.dev (stackEa s.w15 mode) = false)
    (hal : misaligned size (stackEa s.w15 mode) = false) :
    ∃ t, exec (.stackAccess mode size (.write v)) s = .next t ∧ StackAccessed mode stk false s t ∧
      SameMemory s t := by
  obtain ⟨hcheck_addr, -, hcheck_mem⟩ := stackCheck_keeps s.eff (stackExact s.w15 mode)
  have hacc := accessed_stackCheck hf
  obtain ⟨t, hexec, hdone, -, hsame⟩ :=
    stackAccess_end (op := .write v) (hacc.write_hole size _ v hcheck_addr hal hd) hacc hcheck_addr nofun
  exact ⟨t, hexec, hdone, fun b => (hsame b).trans (hcheck_mem b)⟩

/-- A read returns what stands at the address when the check has been made (log 24). -/
theorem stackAccess_read {size : Size} (hal : misaligned size (stackEa s.w15 mode) = false)
    (hd : dataImplemented s.dev (stackEa s.w15 mode) = true) :
    ∃ t, exec (.stackAccess mode size .read) s = .next t ∧ StackAccessed mode stk false s t ∧ SameMemory s t ∧
      t.result = (s.eff.stackCheck (stackExact s.w15 mode)).st.load size (stackEa s.w15 mode) := by
  obtain ⟨hcheck_addr, -, hcheck_mem⟩ := stackCheck_keeps s.eff (stackExact s.w15 mode)
  have hok : s.readFaults size (stackEa s.w15 mode) = false := readFaults_of_aligned hal hd
  obtain ⟨hacc, haddr, -, hmem, hresult⟩ := (accessed_stackCheck hf).access_read size (stackEa s.w15 mode)
  rw [hok, hcheck_addr] at haddr
  obtain ⟨t, hexec, hdone, hres, hsame⟩ := stackAccess_end rfl hacc haddr nofun
  exact ⟨t, hexec, hdone, fun b => ((hsame b).trans (hmem b)).trans (hcheck_mem b), hres.trans (hresult hok)⟩

/-- An access that cannot be made raises the address error and stores nothing; W15 still moves (R97, R98, R100;
log 24). -/
theorem stackAccess_bad {size : Size} {op : DataOp}
    (hbad : misaligned size (stackEa s.w15 mode) = true ∨
      (op = .read ∧ dataImplemented s.dev (stackEa s.w15 mode) = false)) (hp : HardTrapPends s) :
    ∃ t, exec (.stackAccess mode size op) s = .next t ∧ StackAccessed mode stk true s t ∧ SameMemory s t := by
  obtain ⟨-, -, hcheck_mem⟩ := stackCheck_keeps s.eff (stackExact s.w15 mode)
  obtain ⟨hacc, haddr, -, hmem⟩ := (accessed_stackCheck hf).access_bad size (stackEa s.w15 mode) op hbad
  obtain ⟨t, hexec, hdone, -, hsame⟩ := stackAccess_end rfl hacc haddr fun _ => hp
  exact ⟨t, hexec, hdone, fun b => ((hsame b).trans (hmem b)).trans (hcheck_mem b)⟩

/-- A check changes neither memory nor the device, so a read of memory returns what stood there. -/
theorem stackAccess_read_ram {size : Size} (hal : misaligned size (stackEa s.w15 mode) = false)
    (hd : dataImplemented s.dev (stackEa s.w15 mode) = true)
    (hr : sfrAt s.dev (wordBase (stackEa s.w15 mode)) = none) :
    ∃ t, exec (.stackAccess mode size .read) s = .next t ∧ StackAccessed mode stk false s t ∧ SameMemory s t ∧
      (size = .word → t.result = s.wordAt (stackEa s.w15 mode).toNat) ∧
      (size = .byte → t.result.extractLsb' 0 8 = s.byteAt (stackEa s.w15 mode).toNat) := by
  obtain ⟨-, -, hcheck_mem⟩ := stackCheck_keeps s.eff (stackExact s.w15 mode)
  obtain ⟨t, hexec, hdone, hmem, hresult⟩ := stackAccess_read hf hal hd
  rw [← (accessed_stackCheck hf).only.dev] at hr
  refine ⟨t, hexec, hdone, hmem, ?_, ?_⟩
  · rintro rfl
    rw [wordBase_of_even _ hal] at hr
    rw [hresult, load_word_ram hr]
    exact wordAt_of_sameMemory hcheck_mem _
  · rintro rfl
    rw [hresult, load_byte_ram hr]
    exact hcheck_mem _

end

/-- Inside the limits of the stack, and not past 0xFFFF, no check fails (R176, R177). -/
theorem stackFaults_inside {s : State} {mode : StackMode} (h : ¬ OutsideStack s (stackEa s.w15 mode))
    (hle : stackExact s.w15 mode ≤ 0xFFFF) : s.stackFaults (stackExact s.w15 mode) = false := by
  rw [Bool.eq_false_iff]
  intro hc
  obtain hc | hc := (stackFaults_iff _ _).1 hc
  · exact h hc
  · omega

theorem not_outsideStack_iff (s : State) (a : Word) :
    ¬ OutsideStack s a ↔ 0x0800 ≤ a.toNat ∧ (s.splimWritten = true → a.toNat ≤ s.splim.toNat) := by
  unfold OutsideStack
  rw [not_or, not_and, Nat.not_lt, Nat.not_lt]

theorem StackOk.not_outside {s : State} {a : Word} (h : StackOk s a) : ¬ OutsideStack s a := by
  obtain ⟨-, -, hlow, hhigh⟩ := h
  exact (not_outsideStack_iff s a).2 ⟨hlow, hhigh⟩

/-! ## An access through W15 at a register -/

/-- A software write of a register does not ask for W15. -/
theorem sfrUpdate_setW15 (r : Sfr) (sel v : Word) (e : Eff) (a : Word) :
    (e.sfrUpdate r sel v).map (fun u => { u with w15 := a }) =
      (e.map fun u => { u with w15 := a }).sfrUpdate r sel v := by
  cases r with
  | intcon1 =>
    cases h : e.st.dev.swSetTrapFlagTraps <;>
      simp only [Eff.sfrUpdate, Eff.sfrBits, Eff.writeIntcon1, Eff.map, h, if_true, if_false,
        Bool.false_eq_true] <;> rfl
  | rcon | osccon =>
    simp only [Eff.sfrUpdate, Eff.sfrBits, Eff.map]
    split <;> rfl
  | _ => rfl

/-- An access of a register is a write of the bits that it reaches (R96, R99, R157; log 29). -/
theorem write_sfr_field {s : State} {size : Size} {ea : Word} {hi lo : Fin 16} {r : Sfr} (v : Word) (e : Eff)
    (hreach : ReachesBits size ea hi lo) (hdev : e.st.dev = s.dev) (ha : e.addr = false)
    (hd : dataImplemented s.dev ea = true) (hr : sfrAt s.dev (wordBase ea) = some r) :
    e.write size ea v = e.sfrUpdate r (fieldMask hi.val lo.val) (v <<< lo.val) := by
  have hword : fieldMask 15 0 = 0xFFFF#16 := by decide
  obtain ⟨rfl, hodd, rfl, rfl⟩ | ⟨rfl, hodd, rfl, rfl⟩ | ⟨rfl, hodd, rfl, rfl⟩ := hreach
  · rw [write_word_sfr_eff v e hdev ha hodd hd hr, ← hword]
    exact congrArg (e.sfrUpdate r _) (BitVec.shiftLeft_zero v).symm
  · rw [write_byte_sfr_eff v e hdev ha hd hr, if_pos hodd]
    rfl
  · rw [write_byte_sfr_eff v e hdev ha hd hr, hodd]
    rfl

theorem ReachesBits.aligned {size : Size} {ea : Word} {hi lo : Fin 16} (h : ReachesBits size ea hi lo) :
    misaligned size ea = false := by
  obtain ⟨rfl, hodd, -⟩ | ⟨rfl, -⟩ | ⟨rfl, -⟩ := h
  · exact hodd
  · rfl
  · rfl

theorem ReachesBits.le {size : Size} {ea : Word} {hi lo : Fin 16} (h : ReachesBits size ea hi lo) : lo ≤ hi := by
  obtain ⟨-, -, rfl, rfl⟩ | ⟨-, -, rfl, rfl⟩ | ⟨-, -, rfl, rfl⟩ := h <;> decide

/-- A store through W15 at a register writes it, in the state that the check has left and with W15 moved. -/
theorem stackAccess_write_sfr {s : State} {mode : StackMode} {size : Size} {hi lo : Fin 16} {r : Sfr} (v : Word)
    (hreach : ReachesBits size (stackEa s.w15 mode) hi lo)
    (hd : dataImplemented s.dev (stackEa s.w15 mode) = true)
    (hr : sfrAt s.dev (wordBase (stackEa s.w15 mode)) = some r) :
    exec (.stackAccess mode size (.write v)) s =
      .next ((((s.eff.stackCheck (stackExact s.w15 mode)).map
        fun t => { t with w15 := stackPointerAfter s.w15 mode }).sfrUpdate r (fieldMask hi.val lo.val)
          (v <<< lo.val)).goTo s (s.after s.pc)) := by
  obtain ⟨hcheck_addr, -, -⟩ := stackCheck_keeps s.eff (stackExact s.w15 mode)
  have hdev := (accessed_stackCheck (s := s) (mode := mode) rfl).only.dev
  have he : (s.eff.stackCheck (stackExact s.w15 mode)).access size (stackEa s.w15 mode) (.write v) = _ :=
    write_sfr_field v _ hreach hdev hcheck_addr hd hr
  rw [exec_stackAccess, he, sfrUpdate_setW15]

end Sys2Proof.Machine

namespace Sys2Proof.Proofs

open Sys2Proof.Machine

/-- Settles O33: no check fails, so the access is made at the address of its mode, and W15 moves. -/
theorem stackAccessCompletes : Obligations.StackAccessCompletes := by
  intro s mode v hle
  refine ⟨fun hok => ?_, fun hd hlow hr hhigh => ?_, fun size hd hal hin => ?_,
    fun r size hi lo hd hr hreach hin => ?_⟩
  · have hf := stackFaults_inside hok.not_outside hle
    obtain ⟨hodd, hram, -⟩ := hok
    obtain ⟨t, hexec, hdone, hword, hmem⟩ := stackAccess_word_store hf v hodd hram
    obtain ⟨t', hexec', hdone', hmem', hresult', -⟩ :=
      stackAccess_read_ram (size := .word) hf hodd hram.1 ((wordBase_of_even _ hodd).symm ▸ hram.2)
    exact ⟨⟨t, hexec, hdone.pc, hword, hmem, hdone.w15, hdone.quietButMemory⟩,
      ⟨t', hexec', hdone'.pc, hresult' rfl, hmem', hdone'.w15, hdone'.quietButMemory⟩⟩
  · have hf := stackFaults_inside ((not_outsideStack_iff s _).2 ⟨hlow, hhigh⟩) hle
    obtain ⟨t, hexec, hdone, hbyte, hmem⟩ := stackAccess_byte_store hf v hd hr
    obtain ⟨t', hexec', hdone', hmem', -, hresult'⟩ := stackAccess_read_ram hf (misaligned_byte _) hd hr
    exact ⟨⟨t, hexec, hdone.pc, hbyte, hmem, hdone.w15, hdone.quietButMemory⟩,
      ⟨t', hexec', hdone'.pc, hresult' rfl, hmem', hdone'.w15, hdone'.quietButMemory⟩⟩
  · obtain ⟨t, hexec, hdone, hmem⟩ := stackAccess_hole (stackFaults_inside hin hle) v hd hal
    exact ⟨t, hexec, hdone.pc, hmem, hdone.w15, hdone.quietButMemory⟩
  · have hcheck : s.eff.stackCheck (stackExact s.w15 mode) = s.eff :=
      stackCheck_ok s.eff _ (stackFaults_inside hin hle)
    refine ⟨?_, ?_⟩
    · rw [stackAccess_write_sfr v hreach hd hr, hcheck]
      rfl
    · rintro rfl
      rw [exec_stackAccess, hcheck, access_read_word_sfr hreach.aligned hd hr]
      cases r <;> rfl

end Sys2Proof.Proofs
end

section
/-! PROOFS. Accesses through W15 outside the limits of the stack (spec/60_exceptions.md R176, R177), at registers too:
the write or the read is made in the state with the stack error raised (spec/40_interrupt_control_instructions.md
R150, R157; logs 24, 29). -/

namespace Sys2Proof.Machine

/-! ## The state with the stack error raised -/

/-- W15 has moved as the mode says, and the stack error is raised (R176). -/
def State.overran (mode : StackMode) (s : State) : State :=
  State.raiseSoft .stkErr { s with w15 := stackPointerAfter s.w15 mode }

/-- The effect of a check that fails, with W15 moved (R176). -/
def State.overranEff (mode : StackMode) (s : State) : Eff := { (s.overran mode).eff with stk := true }

section
variable (mode : StackMode) (s : State)

theorem raised_overran : Raised true false s (s.overran mode) :=
  raised_stkErr { s with w15 := stackPointerAfter s.w15 mode }

theorem onlyAccessed_overran : OnlyAccessed s (s.overran mode) := ⟨_, _, _, _, _, _, _, _, rfl⟩

theorem nstdis_overran : (s.overran mode).nstdis = s.nstdis := getLsbD_setBit_ne _ _ _ _ (by decide)

/-- The access of each bit is that before the stack error (R9, R25). -/
theorem tableAccess_overran (r : Sfr) : tableAccess (s.overran mode) r = tableAccess s r := by
  cases r with
  | sr => exact congrArg (fun n => some (srAccess n)) (nstdis_overran mode s)
  | _ => rfl

theorem tableAccess_ne {s : State} {r : Sfr} {acc : Nat → Access} (h : tableAccess s r = some acc) :
    r ≠ .intcon1 ∧ r ≠ .disicnt ∧ r ≠ .splim ∧ r ≠ .rcon ∧ r ≠ .osccon := by
  refine ⟨?_, ?_, ?_, ?_, ?_⟩ <;> rintro rfl <;> cases h

/-- The registers but `r`, from before the stack error (R40). -/
theorem otherSfrsSameButTraps_of_overran {c : Nat} {r : Sfr} {t : State}
    (h : OtherSfrsSame c r (s.overran mode) t) : OtherSfrsSameButTraps c r s t := by
  obtain ⟨⟨hothers, hregs⟩, -⟩ := h
  exact ⟨fun q hq h1 h2 hd hr ho =>
    (hothers q hq h1 h2 hd hr ho).trans ((onlyAccessed_overran mode s).sfrValue q h1 hr ho), hregs⟩

end

/-- A failing check, and then W15 as the mode leaves it. -/
theorem stackCheck_overran {s : State} {mode : StackMode} (hf : s.stackFaults (stackExact s.w15 mode) = true) :
    ((s.eff.stackCheck (stackExact s.w15 mode)).map fun t => { t with w15 := stackPointerAfter s.w15 mode }) =
      s.overranEff mode := by
  rw [stackCheck_faults s.eff _ hf]
  rfl

/-! ## A store at a register outside the limits -/

/-- The end of an instruction asks only for the hard traps of the state it began in. -/
theorem settle_congr {pre pre' : State} (h1 : pre'.trapPending .oscFail = pre.trapPending .oscFail)
    (h2 : pre'.cpuIpl = pre.cpuIpl) (e : Eff) : e.settle pre' = e.settle pre := by
  rw [settle_eq_flagged, settle_eq_flagged, State.hardConflict, State.hardConflict, h1, h2]

/-- That the stack error was raised counts for a write of INTCON1 alone, and there for a write of 0 to STKERR alone
(R150, D20; log 24). -/
theorem sfrUpdate_stk (r : Sfr) (sel v : Word) (s : State)
    (h : r = .intcon1 → (s.intcon1Written sel v).getLsbD 2 = true) :
    ({ s.eff with stk := true } : Eff).sfrUpdate r sel v = { s.eff.sfrUpdate r sel v with stk := true } := by
  cases r with
  | intcon1 =>
    have hnew : ({ s.eff with stk := true } : Eff).intcon1New sel v = s.eff.intcon1New sel v := by
      simp [Eff.intcon1New, h rfl]
    simp only [Eff.sfrUpdate, Eff.sfrBits, Eff.writeIntcon1, hnew]
    split <;> rfl
  | rcon | osccon =>
    simp only [Eff.sfrUpdate, Eff.sfrBits, Eff.map]
  | _ => rfl

section
variable {s : State} {mode : StackMode} {size : Size} {hi lo : Fin 16} {r : Sfr}
  (hf : s.stackFaults (stackExact s.w15 mode) = true) (hreach : ReachesBits size (stackEa s.w15 mode) hi lo)
  (hd : dataImplemented s.dev (stackEa s.w15 mode) = true)
  (hr : sfrAt s.dev (wordBase (stackEa s.w15 mode)) = some r) (v : Word)
include hf hreach hd hr

theorem exec_overran_write :
    exec (.stackAccess mode size (.write v)) s =
      .next (((s.overranEff mode).sfrUpdate r (fieldMask hi.val lo.val) (v <<< lo.val)).goTo s (s.after s.pc)) := by
  rw [stackAccess_write_sfr v hreach hd hr, stackCheck_overran hf]

/-- A store at a register is the field write of the bits it reaches, in the state with the stack error raised (R99,
R157). -/
theorem overran_write_eq_fieldWrite (h : r ≠ .intcon1 ∨ 2 < lo.val ∨ v.getLsbD 2 = true) :
    exec (.stackAccess mode size (.write v)) s = exec (.sfrFieldWrite r hi lo v) (s.overran mode) := by
  have hstk : (s.overran mode).intcon1.getLsbD 2 = true := by
    rw [((raised_overran mode s).1 2).1]
    simp [accessFlag]
  have hkept : r = .intcon1 →
      ((s.overran mode).intcon1Written (fieldMask hi.val lo.val) (v <<< lo.val)).getLsbD 2 = true := by
    intro hr1
    rw [getLsbD_intcon1Written _ _ _ 2 (by omega) (by omega), getLsbD_fieldMask hi lo hreach.le]
    split
    · next hsel =>
      have hlo : lo.val = 0 := by
        obtain ⟨-, -, -, rfl⟩ | ⟨-, -, -, rfl⟩ | ⟨-, -, -, rfl⟩ := hreach
        · rfl
        · simp at hsel
        · rfl
      obtain h | h | h := h
      · exact absurd hr1 h
      · omega
      · rw [hlo, BitVec.shiftLeft_zero, h]
    · exact hstk
  rw [exec_overran_write hf hreach hd hr, State.overranEff, sfrUpdate_stk _ _ _ _ hkept]
  exact congrArg Host.Outcome.next
    (settle_congr (pre := s.overran mode) (pre' := s) (raised_overran mode s).oscFail_pending.symm rfl _)

/-- A store at a register of the tables, bit by bit and with all that it leaves alone (R40, R96, R150). -/
theorem overran_write_table {acc : Nat → Access} (h : tableAccess s r = some acc) :
    ∃ t, exec (.stackAccess mode size (.write v)) s = .next t ∧ TrapRaised .stkErr [] s t ∧
      t.w15 = stackPointerAfter s.w15 mode ∧ t.pc = s.after s.pc ∧
      (∀ b, b < 16 → ¬ (r = .intcon2 ∧ b = 14) →
        (t.sfrValue r).getLsbD b =
          if lo.val ≤ b ∧ b ≤ hi.val then (acc b).written ((s.sfrValue r).getLsbD b) (v.getLsbD (b - lo.val))
          else (s.sfrValue r).getLsbD b) ∧
      OtherSfrsSameButTraps s.cycles r s t ∧ PrioritiesSeen s t ∧ SameMemory s t ∧ SameWorking s t ∧
      SameAccs s t ∧ SamePower s t ∧ SameParameters s t := by
  have hacc : tableAccess (s.overranEff mode).st r = some acc := (tableAccess_overran mode s r).trans h
  obtain ⟨h1, -, -, hrc, ho⟩ := tableAccess_ne h
  have hothers := goTo_sfrUpdate_others hacc (fieldMask hi.val lo.val) (v <<< lo.val) rfl rfl rfl s (s.after s.pc)
  obtain ⟨hpc, hw15, hw, haccs, hmem, hpower, hparams⟩ :=
    goTo_sfrUpdate_keeps hacc (fieldMask hi.val lo.val) (v <<< lo.val) rfl rfl rfl s (s.after s.pc)
  obtain ⟨hintcon1, hinert, hskid⟩ := hothers.2
  have hraised := (raised_overran mode s).trans (raised_of_same hintcon1 hinert hskid)
  refine ⟨_, exec_overran_write hf hreach hd hr v, hraised.stkErr, hw15, hpc, fun b hb h14 => ?_,
    otherSfrsSameButTraps_of_overran mode s hothers,
    goTo_sfrUpdate_prioritiesSeen hacc _ _ rfl rfl rfl s _, hmem, hw, haccs, hpower, hparams⟩
  rw [goTo_sfrUpdate_bit hacc _ _ rfl rfl rfl s _ b hb h14, getLsbD_fieldMask hi lo hreach.le,
    show (s.overranEff mode).st.sfrValue r = s.sfrValue r from (onlyAccessed_overran mode s).sfrValue r h1 hrc ho]
  by_cases hfield : lo.val ≤ b ∧ b ≤ hi.val
  · rw [if_pos hfield, if_pos (decide_eq_true hfield), getLsbD_shiftLeft_field v lo.val b hfield.1 hb]
  · rw [if_neg hfield, if_neg (by simpa using hfield)]

end

/-! ## A write of INTCON1 that asks for no hard trap -/

/-- No hard trap flag is turned from 0 to 1. -/
def AsksNoHardTrap (s : State) (sel v : Word) : Prop :=
  ∀ b, b = 1 ∨ b = 3 → sel.getLsbD b = true → v.getLsbD b = true → s.intcon1.getLsbD b = true

theorem AsksNoHardTrap.trapFlagsSet {s : State} {sel v : Word} (h : AsksNoHardTrap s sel v) (b : Nat)
    (hb : b = 1 ∨ b = 3) : (s.trapFlagsSet sel v).getLsbD b = false := by
  have hb16 : 1 ≤ b ∧ b < 16 := by omega
  rw [getLsbD_trapFlagsSet, getLsbD_intcon1Written sel v s b hb16.1 hb16.2]
  cases hold : s.intcon1.getLsbD b with
  | true => simp
  | false =>
    split
    · next hsel =>
      have hv : v.getLsbD b = false :=
        Bool.eq_false_iff.2 fun hv => Bool.false_ne_true (hold.symm.trans (h b hb hsel hv))
      rw [hv]
      rfl
    · rfl

/-- A write of INTCON1 that asks for no hard trap changes INTCON1 with its marks and the skid alone: each bit it
selects is as written, but for STKERR where the instruction itself raised the stack error (R150, D20). -/
theorem sfrUpdate_intcon1_soft (sel v : Word) (e : Eff) (h : AsksNoHardTrap e.st sel v) :
    let e' := e.sfrUpdate .intcon1 sel v
    e'.addr = e.addr ∧ e'.swAddr = e.swAddr ∧ e'.swOsc = e.swOsc ∧ OnlyAccessed e.st e'.st ∧
    e'.st.w15 = e.st.w15 ∧ SameMemory e.st e'.st ∧
    ∀ b, 1 ≤ b → b < 16 → b ≠ 2 →
      e'.st.intcon1.getLsbD b = if sel.getLsbD b then v.getLsbD b else e.st.intcon1.getLsbD b := by
  have h1 := h.trapFlagsSet 1 (.inl rfl)
  have h3 := h.trapFlagsSet 3 (.inr rfl)
  have hnew (b : Nat) (hb1 : 1 ≤ b) (hb : b < 16) (h2 : b ≠ 2) : (e.intcon1New sel v).getLsbD b =
      if sel.getLsbD b then v.getLsbD b else e.st.intcon1.getLsbD b := by
    rw [← getLsbD_intcon1Written sel v e.st b hb1 hb]
    unfold Eff.intcon1New
    dsimp only
    split
    · exact getLsbD_setBit_ne _ _ _ _ h2
    · rfl
  cases hdev : e.st.dev.swSetTrapFlagTraps
  · simp only [Eff.sfrUpdate, Eff.sfrBits, Eff.writeIntcon1, hdev, Bool.false_eq_true, if_false]
    exact ⟨rfl, rfl, rfl, ⟨_, _, _, _, _, _, _, _, rfl⟩, rfl, fun _ => rfl, hnew⟩
  · have hmask : ∀ b : Fin 16, (0x000A#16).getLsbD b.val = true → b.val = 1 ∨ b.val = 3 := by decide
    simp only [Eff.sfrUpdate, Eff.sfrBits, Eff.writeIntcon1, hdev, if_true, h1, h3, Bool.or_false]
    refine ⟨rfl, rfl, rfl, ⟨_, _, _, _, _, _, _, _, rfl⟩, rfl, fun _ => rfl, fun b hb1 hb h2 => ?_⟩
    have hhard : (e.st.trapFlagsSet sel v &&& 0x000A#16).getLsbD b = false := by
      rw [BitVec.getLsbD_and, Bool.and_eq_false_imp]
      intro hset
      rw [Bool.eq_false_iff]
      intro hm
      rw [h.trapFlagsSet b (hmask ⟨b, hb⟩ hm)] at hset
      cases hset
    refine Eq.trans ?_ (hnew b hb1 hb h2)
    change (e.intcon1New sel v &&& ~~~(e.st.trapFlagsSet sel v &&& 0x000A#16)).getLsbD b = _
    rw [getLsbD_and_not, hhard, Bool.not_false, Bool.and_true]

/-- A store at INTCON1 outside the limits that asks for no hard trap (R29, R96, R150; log 24). -/
theorem overran_write_intcon1 {s : State} {mode : StackMode} {size : Size} {hi lo : Fin 16}
    (hf : s.stackFaults (stackExact s.w15 mode) = true) (hreach : ReachesBits size (stackEa s.w15 mode) hi lo)
    (hd : dataImplemented s.dev (stackEa s.w15 mode) = true)
    (hr : sfrAt s.dev (wordBase (stackEa s.w15 mode)) = some .intcon1) (v : Word) (new : Nat → Bool)
    (hnew : ∀ b, 1 ≤ b → b < 16 →
      new b = if lo.val ≤ b ∧ b ≤ hi.val then v.getLsbD (b - lo.val) else s.intcon1.getLsbD b)
    (hsoft : ∀ b, b = 1 ∨ b = 3 → new b = true → s.intcon1.getLsbD b = true) :
    ∃ t, exec (.stackAccess mode size (.write v)) s = .next t ∧ t.w15 = stackPointerAfter s.w15 mode ∧
      t.pc = s.after s.pc ∧ (∀ b, 1 ≤ b → b < 16 → b ≠ 2 → t.intcon1.getLsbD b = new b) ∧ SameMemory s t ∧
      QuietButTraps s.cycles s t := by
  have hold (b : Nat) (h2 : b ≠ 2) : (s.overran mode).intcon1.getLsbD b = s.intcon1.getLsbD b := by
    rw [((raised_overran mode s).1 b).1]
    simp [accessFlag, h2]
  have hwritten (b : Nat) (hb1 : 1 ≤ b) (hb : b < 16) (h2 : b ≠ 2) :
      (if (fieldMask hi.val lo.val).getLsbD b then (v <<< lo.val).getLsbD b
        else (s.overran mode).intcon1.getLsbD b) = new b := by
    rw [hnew b hb1 hb, getLsbD_fieldMask hi lo hreach.le, hold b h2]
    by_cases hfield : lo.val ≤ b ∧ b ≤ hi.val
    · rw [if_pos hfield, if_pos (decide_eq_true hfield), getLsbD_shiftLeft_field v lo.val b hfield.1 hb]
    · rw [if_neg hfield, if_neg (by simpa using hfield)]
  have hasks : AsksNoHardTrap (s.overranEff mode).st (fieldMask hi.val lo.val) (v <<< lo.val) := by
    intro b hb hsel hv
    have hb16 : 1 ≤ b ∧ b < 16 ∧ b ≠ 2 := by omega
    obtain ⟨hb1, hb16, h2⟩ := hb16
    have hw := hwritten b hb1 hb16 h2
    rw [if_pos hsel, hv] at hw
    exact (hold b h2).trans (hsoft b hb hw.symm)
  obtain ⟨haddr, hsw, hosc, honly, hw15, hmem, hbits⟩ := sfrUpdate_intcon1_soft _ _ (s.overranEff mode) hasks
  refine ⟨_, exec_overran_write hf hreach hd hr v, ?_⟩
  rw [goTo_quiet _ _ _ haddr hsw hosc]
  exact ⟨hw15, rfl, fun b hb1 hb h2 => (hbits b hb1 hb h2).trans (hwritten b hb1 hb h2), fun a => hmem a,
    ((onlyAccessed_overran mode s).trans honly).quietButTraps _ _ _⟩

/-! ## A read outside the limits -/

/-- A read at a register returns its bits in the state with the stack error raised (R96, R99; logs 24, 29). -/
theorem overran_read_sfr {s : State} {mode : StackMode} {size : Size} {hi lo : Fin 16} {r : Sfr}
    (hf : s.stackFaults (stackExact s.w15 mode) = true) (hreach : ReachesBits size (stackEa s.w15 mode) hi lo)
    (hd : dataImplemented s.dev (stackEa s.w15 mode) = true)
    (hr : sfrAt s.dev (wordBase (stackEa s.w15 mode)) = some r) :
    ∃ t, exec (.stackAccess mode size .read) s = .next t ∧ StackAccessed mode true false s t ∧ SameMemory s t ∧
      (size = .word → t.result = (s.overran mode).sfrValue r) ∧
      (size = .byte → t.result.extractLsb' 0 8 = ((s.overran mode).sfrValue r).extractLsb' lo.val 8) := by
  obtain ⟨t, hexec, hdone, hmem, hresult⟩ := stackAccess_read hf hreach.aligned hd
  rw [stackCheck_faults s.eff _ hf] at hresult
  have hvalue : (State.raiseSoft .stkErr s).sfrValue r = (s.overran mode).sfrValue r := by cases r <;> rfl
  have hr' : sfrAt (State.raiseSoft .stkErr s).dev (wordBase (stackEa s.w15 mode)) = some r := hr
  refine ⟨t, hexec, hdone, hmem, ?_, ?_⟩
  · rintro rfl
    rw [wordBase_of_even _ hreach.aligned] at hr'
    exact (hresult.trans (load_word_sfr hr')).trans hvalue
  · rintro rfl
    have hlo : (if (stackEa s.w15 mode).getLsbD 0 then 8 else 0) = lo.val := by
      obtain ⟨hs, -⟩ | ⟨-, hodd, -, rfl⟩ | ⟨-, hodd, -, rfl⟩ := hreach
      · cases hs
      · rw [if_pos hodd]; rfl
      · rw [hodd]; rfl
    rw [hresult, ← hvalue, ← hlo]
    exact load_byte_sfr hr'

end Sys2Proof.Machine

namespace Sys2Proof.Proofs

open Sys2Proof.Machine

/-- Settles O34: the check fails, and the access goes on in the state with the stack error raised, at memory, at a
hole, at a bad address, or at a register. -/
theorem stackLimitsRaiseStackError : Obligations.StackLimitsRaiseStackError := by
  intro s mode v ea hout raised moved trapped
  have hf : s.stackFaults (stackExact s.w15 mode) = true := (stackFaults_iff _ _).2 hout
  have hdone {t : State} (h : StackAccessed mode true false s t) : trapped t :=
    ⟨h.raised.stkErr, ⟨h.w15, h.pc⟩, h.quietButTraps⟩
  refine ⟨fun hodd hram => ?_, fun hd hr => ?_, fun size hd hal => ?_, fun size op hbad hp => ?_,
    fun r size hi lo hd hr hreach => ⟨fun acc hacc => ?_, overran_write_eq_fieldWrite hf hreach hd hr v,
      fun hr1 hsoft => ?_, ?_⟩⟩
  · obtain ⟨t, hexec, h, hword, hmem⟩ := stackAccess_word_store hf v hodd hram
    obtain ⟨t', hexec', h', hmem', hresult', -⟩ :=
      stackAccess_read_ram (size := .word) hf hodd hram.1 ((wordBase_of_even _ hodd).symm ▸ hram.2)
    exact ⟨⟨t, hexec, hdone h, hword, hmem⟩, ⟨t', hexec', hdone h', hresult' rfl, hmem'⟩⟩
  · obtain ⟨t, hexec, h, hbyte, hmem⟩ := stackAccess_byte_store hf v hd hr
    obtain ⟨t', hexec', h', hmem', -, hresult'⟩ := stackAccess_read_ram hf (misaligned_byte _) hd hr
    exact ⟨⟨t, hexec, hdone h, hbyte, hmem⟩, ⟨t', hexec', hdone h', hresult' rfl, hmem'⟩⟩
  · obtain ⟨t, hexec, h, hmem⟩ := stackAccess_hole hf v hd hal
    exact ⟨t, hexec, hdone h, hmem⟩
  · have hbad' : misaligned size ea = true ∨ (op = .read ∧ dataImplemented s.dev ea = false) :=
      hbad.imp_left fun ⟨hw, hodd⟩ => by rw [hw]; exact hodd
    obtain ⟨t, hexec, h, hmem⟩ := stackAccess_bad hf hbad' hp
    exact ⟨t, hexec, h.raised.stkErr, h.raised.addrErr_pending, ⟨h.w15, h.pc⟩, hmem, h.quietButTraps⟩
  · obtain ⟨t, hexec, htrap, hw15, hpc, hbits, hrest⟩ := overran_write_table hf hreach hd hr v hacc
    refine ⟨t, hexec, htrap, ⟨hw15, hpc⟩, fun b hb h14 => ?_, hrest⟩
    rw [hbits b hb h14]
    split
    · next hfield => exact congrArg (Access.written _ _) (if_pos hfield).symm
    · rfl
  · subst hr1
    have hnew (b : Nat) (hb1 : 1 ≤ b) (hb : b < 16) : (s.sfrValue .intcon1).getLsbD b = s.intcon1.getLsbD b := by
      have hmask : ∀ b : Fin 16, 1 ≤ b.val → (0xFFFE#16).getLsbD b.val = true := by decide
      rw [State.sfrValue, BitVec.getLsbD_and, hmask ⟨b, hb⟩ hb1, Bool.and_true]
    obtain ⟨t, hexec, hw15, hpc, hrest⟩ := overran_write_intcon1 hf hreach hd hr v
      (fun b => if lo.val ≤ b ∧ b ≤ hi.val then v.getLsbD (b - lo.val) else (s.sfrValue .intcon1).getLsbD b)
      (fun b hb1 hb => by rw [hnew b hb1 hb]) hsoft
    exact ⟨t, hexec, ⟨hw15, hpc⟩, hrest⟩
  · obtain ⟨t, hexec, h, hmem, hword, hbyte⟩ := overran_read_sfr hf hreach hd hr
    refine ⟨t, hexec, hdone h, hmem, hword, hbyte, fun acc hacc => ?_, ?_⟩
    · obtain ⟨h1, -, -, hrc, ho⟩ := tableAccess_ne hacc
      exact (onlyAccessed_overran mode s).sfrValue r h1 hrc ho
    · rintro rfl
      exact (raised_overran mode s).sfrValue_intcon1

end Sys2Proof.Proofs
end

section
/-! PROOFS. PUSH, POP, RETURN and RETFIE at memory, at holes and at bad addresses, inside the limits of the stack and
outside them (spec/20_memory.md R95 to R100, spec/40_interrupt_control_instructions.md R145, R149, R154, R159,
spec/60_exceptions.md R176, R177, R182). -/

namespace Sys2Proof.Machine

/-! ## One push and one pop -/

/-- The check of an access at an address that has been cut to 16 bits (R176, R177). -/
theorem stackFaults_toNat (s : State) (a : Word) : s.stackFaults a.toNat = true ↔ OutsideStack s a := by
  rw [stackFaults_iff, BitVec.ofInt_natCast, BitVec.ofNat_toNat, BitVec.setWidth_eq]
  refine or_iff_left ?_
  have := a.isLt
  omega

theorem stackFaults_toNat_inside {s : State} {a : Word} (h : ¬ OutsideStack s a) : s.stackFaults a.toNat = false :=
  Bool.eq_false_iff.2 fun hc => h ((stackFaults_toNat s a).1 hc)

/-- The check of a pop is that of its address, cut to 16 bits: a pop wraps at 0x0000 with no error of its own
(log 24). -/
theorem stackFaults_pop (s : State) (w : Word) : s.stackFaults ((w.toNat : Int) - 2) = s.stackFaults (w - 2).toNat := by
  rw [Bool.eq_iff_iff, stackFaults_toNat, stackFaults_iff, popAddr]
  refine or_iff_left ?_
  have := w.isLt
  omega

section
variable {s : State} {stk : Bool} {e : Eff} (h : Accessed s stk e)
include h

/-- Everything a word write can do where no register stands: the store, or nothing where the address or the instruction
so far do not allow it (R97, R100, U15). -/
theorem Accessed.write_word_any (ea v : Word)
    (hreg : e.addr = false → ea.getLsbD 0 = false → dataImplemented s.dev ea = true → sfrAt s.dev ea.toNat = none) :
    let e' := e.write .word ea v
    Accessed s stk e' ∧ e'.addr = (e.addr || ea.getLsbD 0) ∧ e'.st.w15 = e.st.w15 ∧
    (e'.addr = false → PlainRam s ea → e'.st.wordAt ea.toNat = v ∧ SameMemoryBut ea.toNat 2 e.st e'.st) ∧
    (e'.addr = true ∨ dataImplemented s.dev ea = false → SameMemory e.st e'.st) := by
  by_cases hbad : ea.getLsbD 0 = true ∨ e.addr = true
  · rw [write_stores_nothing .word ea v e hbad]
    refine ⟨h.setAddr true, ?_, rfl, nofun, fun _ _ => rfl⟩
    rw [Bool.or_comm, eq_comm, Bool.or_eq_true]
    exact hbad
  · obtain ⟨hodd, ha⟩ : ea.getLsbD 0 = false ∧ e.addr = false := by simpa using hbad
    cases hd : dataImplemented s.dev ea with
    | false =>
      rw [h.write_hole .word ea v ha hodd hd, hodd]
      exact ⟨h, (Bool.or_false _).symm, rfl,
        fun _ hram => absurd (hd.symm.trans hram.1) Bool.false_ne_true, fun _ _ => rfl⟩
    | true =>
      obtain ⟨hacc, haddr, hw15, hword, hmem⟩ := h.write_word ea v ha hodd ⟨hd, hreg ha hodd hd⟩
      refine ⟨hacc, by rw [haddr, ha, hodd]; rfl, hw15, fun _ _ => ⟨hword, hmem⟩, fun hc => ?_⟩
      rw [haddr] at hc
      exact absurd hc (by simp)

/-- A push where no register stands: the check, the store where it can be made, W15 (R95, R97, R100). -/
theorem Accessed.push (v : Word)
    (hreg : e.addr = false → e.st.w15.getLsbD 0 = false → dataImplemented s.dev e.st.w15 = true →
      sfrAt s.dev e.st.w15.toNat = none) :
    let e' := e.push v
    Accessed s (stk || s.stackFaults e.st.w15.toNat) e' ∧ e'.addr = (e.addr || e.st.w15.getLsbD 0) ∧
    e'.st.w15 = e.st.w15 + 2 ∧
    (e'.addr = false → PlainRam s e.st.w15 →
      e'.st.wordAt e.st.w15.toNat = v ∧ SameMemoryBut e.st.w15.toNat 2 e.st e'.st) ∧
    (e'.addr = true ∨ dataImplemented s.dev e.st.w15 = false → SameMemory e.st e'.st) := by
  obtain ⟨hcheck_addr, -, hcheck_mem⟩ := stackCheck_keeps e e.st.w15.toNat
  obtain ⟨hacc, haddr, -, hstored, hnot⟩ := (h.stackCheck e.st.w15.toNat).write_word_any e.st.w15 v fun ha =>
    hreg (hcheck_addr.symm.trans ha)
  rw [hcheck_addr] at haddr
  exact ⟨hacc.setW15 _, haddr, rfl,
    fun hok hram => (hstored hok hram).imp_right fun hmem b hb => (hmem b hb).trans (hcheck_mem b),
    fun hbad b => (hnot hbad b).trans (hcheck_mem b)⟩

/-- A pop moves W15, and reads at the new W15 in the state that the check has left (R95, log 24). -/
theorem Accessed.pop :
    let a := e.st.w15 - 2
    Accessed s (stk || s.stackFaults a.toNat) e.pop.2 ∧ e.pop.2.addr = (e.addr || s.readFaults .word a) ∧
    e.pop.2.st.w15 = a ∧ SameMemory e.st e.pop.2.st ∧
    ∃ u, e.pop.1 = u.readValue .word a ∧ OnlyAccessed s u ∧ Raised (stk || s.stackFaults a.toNat) false s u ∧
      SameMemory e.st u := by
  have hw := h.setW15 (e.st.w15 - 2)
  have hcheck := hw.stackCheck ((e.st.w15.toNat : Int) - 2)
  rw [stackFaults_pop] at hcheck
  obtain ⟨hcheck_addr, hcheck_w15, hcheck_mem⟩ :=
    stackCheck_keeps (e.map fun u => { u with w15 := e.st.w15 - 2 }) ((e.st.w15.toNat : Int) - 2)
  have hpop : e.pop =
      ((e.map fun u => { u with w15 := e.st.w15 - 2 }).stackCheck ((e.st.w15.toNat : Int) - 2)).read .word
        (e.st.w15 - 2) := rfl
  dsimp only
  rw [hpop]
  refine ⟨hcheck.read .word _, ?_, hcheck_w15, hcheck_mem, _, rfl, hcheck.only, hcheck.raised, hcheck_mem⟩
  exact congrArg₂ (· || ·) hcheck_addr (hcheck.only.readFaults .word _)

end

/-- A pop reads what `PopReads` says where it is no bad read (R96, R99; log 24). -/
theorem readValue_of_popReads {s u : State} {stk : Bool} {a w : Word} (honly : OnlyAccessed s u)
    (hraised : Raised stk false s u) (hmem : SameMemory s u) (hgood : ¬ BadRead s a)
    (hstk : OutsideStack s a → stk = true) (h : PopReads s a w) : u.readValue .word a = w := by
  have hok : u.readFaults .word a = false := by
    rw [honly.readFaults, Bool.eq_false_iff, Ne, readFaults_word]
    exact hgood
  rw [State.readValue, hok]
  have hdev := honly.dev
  obtain ⟨⟨-, hr⟩, rfl⟩ | ⟨⟨-, hr⟩, hout, rfl⟩ | ⟨q, ⟨-, hr⟩, h1, hrc, ho, rfl⟩ := h
  · rw [← hdev] at hr
    exact (load_word_ram hr).trans (wordAt_of_sameMemory hmem _)
  · rw [← hdev] at hr
    rw [hstk hout] at hraised
    exact (load_word_sfr hr).trans hraised.sfrValue_intcon1
  · rw [← hdev] at hr
    exact (load_word_sfr hr).trans (honly.sfrValue q h1 hrc ho)

/-! ## PUSH and POP -/

/-- File addresses are even (R125). -/
theorem fileAddr_even (f : BitVec 15) : (fileAddr f).getLsbD 0 = false := by
  change (f ++ 0#1).getLsbD 0 = false
  rw [BitVec.getLsbD_append, if_pos Nat.zero_lt_one, BitVec.getLsbD_zero]

theorem readFaults_fileAddr (s : State) (f : BitVec 15) :
    s.readFaults .word (fileAddr f) = !dataImplemented s.dev (fileAddr f) := by
  rw [State.readFaults, misaligned_word, fileAddr_even, Bool.false_or]

/-- The effect of a PUSH: the read at `f`, then the push (R149; log 24). -/
def State.pushFEff (f : BitVec 15) (s : State) : Eff :=
  (s.eff.read .word (fileAddr f)).2.push (s.readValue .word (fileAddr f))

theorem exec_pushF (f : BitVec 15) (s : State) :
    exec (.pushF f) s = .next ((s.pushFEff f).goTo s (s.pc + 2)) := rfl

/-- PUSH where no register stands at W15 (R95, R149, R176). -/
theorem pushF_accessed {s : State} {f : BitVec 15}
    (hreg : dataImplemented s.dev (fileAddr f) = true → s.w15.getLsbD 0 = false →
      dataImplemented s.dev s.w15 = true → sfrAt s.dev s.w15.toNat = none) :
    let e := s.pushFEff f
    Accessed s (s.stackFaults s.w15.toNat) e ∧
    e.addr = (!dataImplemented s.dev (fileAddr f) || s.w15.getLsbD 0) ∧ e.st.w15 = s.w15 + 2 ∧
    (e.addr = false → PlainRam s s.w15 →
      e.st.wordAt s.w15.toNat = s.load .word (fileAddr f) ∧ SameMemoryBut s.w15.toNat 2 s e.st) ∧
    (e.addr = true ∨ dataImplemented s.dev s.w15 = false → SameMemory s e.st) := by
  have hread_addr : (s.eff.read .word (fileAddr f)).2.addr = !dataImplemented s.dev (fileAddr f) := by
    rw [← readFaults_fileAddr]
    exact Bool.false_or _
  obtain ⟨hacc, haddr, hw15, hstored, hnot⟩ :=
    ((accessed_eff s).read .word (fileAddr f)).push (s.readValue .word (fileAddr f)) fun ha hodd hd =>
      hreg (by simpa [hread_addr] using ha) hodd hd
  rw [Bool.false_or] at hacc
  rw [hread_addr] at haddr
  refine ⟨hacc, haddr, hw15, fun hok hram => ?_, hnot⟩
  obtain ⟨hword, hmem⟩ := hstored hok hram
  have hd : dataImplemented s.dev (fileAddr f) = true := by
    have h0 := haddr.symm.trans hok
    rw [Bool.or_eq_false_iff] at h0
    simpa using h0.1
  have hvalue : s.readValue .word (fileAddr f) = s.load .word (fileAddr f) := by
    rw [State.readValue, readFaults_fileAddr, hd]
    rfl
  exact ⟨hword.trans hvalue, hmem⟩

theorem pushF_end {s : State} {f : BitVec 15} {stk addr : Bool} (hstk : s.stackFaults s.w15.toNat = stk)
    (haddr : (!dataImplemented s.dev (fileAddr f) || s.w15.getLsbD 0) = addr)
    (hreg : dataImplemented s.dev (fileAddr f) = true → s.w15.getLsbD 0 = false →
      dataImplemented s.dev s.w15 = true → sfrAt s.dev s.w15.toNat = none)
    (hp : addr = true → HardTrapPends s) :
    ∃ t, exec (.pushF f) s = .next t ∧ t.pc = s.pc + 2 ∧ t.w15 = s.w15 + 2 ∧ QuietButTraps s.cycles s t ∧
      Raised stk addr s t ∧
      (addr = false → PlainRam s s.w15 →
        t.wordAt s.w15.toNat = s.load .word (fileAddr f) ∧ SameMemoryBut s.w15.toNat 2 s t) ∧
      (addr = true ∨ dataImplemented s.dev s.w15 = false → SameMemory s t) := by
  obtain ⟨hacc, heff_addr, hw15, hstored, hnot⟩ := pushF_accessed hreg
  rw [hstk] at hacc
  have ha := heff_addr.trans haddr
  have hend := hacc.goTo (s.pc + 2) fun hc => hp (ha.symm.trans hc)
  have hraised := hend.raised
  rw [ha] at hraised
  refine ⟨_, exec_pushF f s, hend.pc, hend.w15.trans hw15, hend.quietButTraps, hraised, fun hok hram => ?_,
    fun hbad => hend.sameMemory (hnot (hbad.imp_left ha.trans))⟩
  obtain ⟨hword, hmem⟩ := hstored (ha.trans hok) hram
  exact ⟨(hend.wordAt _).trans hword, hend.sameMemoryBut hmem⟩

/-- The effect of a POP: the pop, then the write at `f` (R154). -/
def State.popFEff (f : BitVec 15) (s : State) : Eff := s.eff.pop.2.write .word (fileAddr f) s.eff.pop.1

theorem exec_popF (f : BitVec 15) (s : State) :
    exec (.popF f) s = .next ((s.popFEff f).goTo s (s.pc + 2)) := rfl

/-- POP where no register stands at `f`, or where the pop is a bad read (R95, R154, R176). -/
theorem popF_accessed {s : State} {f : BitVec 15}
    (hreg : s.readFaults .word (s.w15 - 2) = false → dataImplemented s.dev (fileAddr f) = true →
      sfrAt s.dev (fileAddr f).toNat = none) :
    let e := s.popFEff f
    Accessed s (s.stackFaults (s.w15 - 2).toNat) e ∧ e.addr = s.readFaults .word (s.w15 - 2) ∧
    e.st.w15 = s.w15 - 2 ∧
    (e.addr = false → PlainRam s (fileAddr f) →
      e.st.wordAt (fileAddr f).toNat = s.eff.pop.1 ∧ SameMemoryBut (fileAddr f).toNat 2 s e.st) ∧
    (e.addr = true ∨ dataImplemented s.dev (fileAddr f) = false → SameMemory s e.st) := by
  obtain ⟨hpop, hpop_addr, hpop_w15, hpop_mem, -⟩ := (accessed_eff s).pop
  rw [State.eff_addr, Bool.false_or] at hpop_addr
  rw [Bool.false_or] at hpop
  obtain ⟨hacc, haddr, hw15, hstored, hnot⟩ := hpop.write_word_any (fileAddr f) s.eff.pop.1 fun hok _ hd =>
    hreg (hpop_addr.symm.trans hok) hd
  rw [hpop_addr, fileAddr_even, Bool.or_false] at haddr
  exact ⟨hacc, haddr, hw15.trans hpop_w15,
    fun hok hram => (hstored hok hram).imp_right fun hmem b hb => (hmem b hb).trans (hpop_mem b),
    fun hbad b => (hnot hbad b).trans (hpop_mem b)⟩

theorem popF_end {s : State} {f : BitVec 15} {stk addr : Bool} (hstk : s.stackFaults (s.w15 - 2).toNat = stk)
    (haddr : s.readFaults .word (s.w15 - 2) = addr)
    (hreg : addr = false → dataImplemented s.dev (fileAddr f) = true → sfrAt s.dev (fileAddr f).toNat = none)
    (hp : addr = true → HardTrapPends s) :
    ∃ t, exec (.popF f) s = .next t ∧ t.pc = s.pc + 2 ∧ t.w15 = s.w15 - 2 ∧ QuietButTraps s.cycles s t ∧
      Raised stk addr s t ∧
      (addr = false → PlainRam s (fileAddr f) →
        t.wordAt (fileAddr f).toNat = s.eff.pop.1 ∧ SameMemoryBut (fileAddr f).toNat 2 s t) ∧
      (addr = true ∨ dataImplemented s.dev (fileAddr f) = false → SameMemory s t) := by
  obtain ⟨hacc, heff_addr, hw15, hstored, hnot⟩ := popF_accessed fun hok => hreg (haddr.symm.trans hok)
  rw [hstk] at hacc
  have ha := heff_addr.trans haddr
  have hend := hacc.goTo (s.pc + 2) fun hc => hp (ha.symm.trans hc)
  have hraised := hend.raised
  rw [ha] at hraised
  refine ⟨_, exec_popF f s, hend.pc, hend.w15.trans hw15, hend.quietButTraps, hraised, fun hok hram => ?_,
    fun hbad => hend.sameMemory (hnot (hbad.imp_left ha.trans))⟩
  obtain ⟨hword, hmem⟩ := hstored (ha.trans hok) hram
  exact ⟨(hend.wordAt _).trans hword, hend.sameMemoryBut hmem⟩

end Sys2Proof.Machine

namespace Sys2Proof.Proofs

open Sys2Proof.Machine

/-- Settles O30: the word at `f` is read, then pushed, at memory or at a hole. -/
theorem pushStoresAtW15 : Obligations.PushStoresAtW15 := by
  intro s f
  refine ⟨fun hok hd => ?_, fun hok hd hp => ?_, fun hodd hhole hin hd => ?_⟩
  · have hin := hok.not_outside
    obtain ⟨hodd, hram, -⟩ := hok
    have haddr : (!dataImplemented s.dev (fileAddr f) || s.w15.getLsbD 0) = false := by
      rw [hodd, show dataImplemented s.dev (fileAddr f) = true from hd]; rfl
    obtain ⟨t, hexec, hpc, hw15, hquiet, hraised, hstored, -⟩ :=
      pushF_end (stackFaults_toNat_inside hin) haddr (fun _ _ _ => hram.2) nofun
    obtain ⟨hword, hmem⟩ := hstored rfl hram
    exact ⟨t, hexec, hpc, hw15, fun r hr => hword.trans (load_word_sfr hr), fun hr => hword.trans (load_word_ram hr),
      hmem, hquiet.quietButMemory hraised⟩
  · have haddr : (!dataImplemented s.dev (fileAddr f) || s.w15.getLsbD 0) = true := by
      rw [show dataImplemented s.dev (fileAddr f) = false from hd]; rfl
    obtain ⟨t, hexec, hpc, hw15, hquiet, hraised, -, hmem⟩ :=
      pushF_end (stackFaults_toNat_inside hok.not_outside) haddr (fun _ _ _ => hok.2.1.2) fun _ => hp
    exact ⟨t, hexec, hpc, hw15, hraised.addrErr, hmem (.inl rfl), hquiet⟩
  · have haddr : (!dataImplemented s.dev (fileAddr f) || s.w15.getLsbD 0) = false := by
      rw [hodd, show dataImplemented s.dev (fileAddr f) = true from hd]; rfl
    obtain ⟨t, hexec, hpc, hw15, hquiet, hraised, -, hmem⟩ :=
      pushF_end (stackFaults_toNat_inside hin) haddr
        (fun _ _ hd' => absurd (hhole.symm.trans hd') Bool.false_ne_true) nofun
    exact ⟨t, hexec, hpc, hw15, hmem (.inr hhole), hquiet.quietButMemory hraised⟩

/-- Settles O31: the word is popped, then stored at `f`, at memory or at a hole. -/
theorem popStoresAtFile : Obligations.PopStoresAtFile := by
  intro s f hok
  have hstk := stackFaults_toNat_inside hok.not_outside
  have hvalue : s.eff.pop.1 = s.wordAt (s.w15 - 2).toNat := congrArg Prod.fst (pop_ok s.eff hok)
  have hread : s.readFaults .word (s.w15 - 2) = false := readFaults_of_aligned hok.1 hok.2.1.1
  refine ⟨fun hfile => ?_, fun hhole => ?_⟩
  · obtain ⟨t, hexec, hpc, hw15, hquiet, hraised, hstored, -⟩ := popF_end hstk hread (fun _ _ => hfile.2) nofun
    obtain ⟨hword, hmem⟩ := hstored rfl hfile
    exact ⟨t, hexec, hpc, hw15, hword.trans hvalue, hmem, hquiet.quietButMemory hraised⟩
  · obtain ⟨t, hexec, hpc, hw15, hquiet, hraised, -, hmem⟩ :=
      popF_end hstk hread (fun _ hd => absurd (hhole.symm.trans hd) Bool.false_ne_true) nofun
    exact ⟨t, hexec, hpc, hw15, hmem (.inr hhole), hquiet.quietButMemory hraised⟩

end Sys2Proof.Proofs
end

section
/-! PROOFS. RETURN and RETFIE outside the limits of the stack or at bad addresses
(spec/40_interrupt_control_instructions.md R145, spec/60_exceptions.md R176, R177, R182, R210 to R214; logs 12,
24), and the bad addresses of every instruction that goes through W15. -/

namespace Sys2Proof.Machine

/-! ## The two pops -/

/-- The two pops of a return: each makes its check and notes its bad read; W15 moves by 4 (R145; log 24). -/
theorem popFrame_accessed (s : State) :
    let e := s.eff.popFrame.2
    Accessed s (s.stackFaults (s.w15 - 2).toNat || s.stackFaults (s.w15 - 4).toNat) e ∧
    e.addr = (s.readFaults .word (s.w15 - 2) || s.readFaults .word (s.w15 - 4)) ∧
    e.st.w15 = s.w15 - 4 ∧ SameMemory s e.st ∧
    ∀ w1 w2, ¬ BadRead s (s.w15 - 2) → ¬ BadRead s (s.w15 - 4) → PopReads s (s.w15 - 4) w1 →
      PopReads s (s.w15 - 2) w2 → s.eff.popFrame.1 = unframe s.dev w1 w2 := by
  obtain ⟨hacc, haddr, hw15, hmem, u, hvalue, honly, hraised, hmem_u⟩ := (accessed_eff s).pop
  obtain ⟨hacc', haddr', hw15', hmem', u', hvalue', honly', hraised', hmem_u'⟩ := hacc.pop
  have h4 : s.eff.pop.2.st.w15 - 2 = s.w15 - 4 := by
    rw [hw15, State.eff_st]
    bv_omega
  rw [h4] at hacc' haddr' hw15' hvalue' hraised'
  rw [haddr] at haddr'
  simp only [State.eff_st, State.eff_addr, Bool.false_or] at hacc' haddr' hraised hraised' hvalue
  refine ⟨hacc', haddr', hw15', fun b => (hmem' b).trans (hmem b), fun w1 w2 hgood2 hgood4 h1 h2 => ?_⟩
  have hfirst : s.eff.pop.1 = w2 := hvalue.trans
    (readValue_of_popReads honly hraised hmem_u hgood2 (fun h => (stackFaults_toNat s _).2 h) h2)
  have hsecond : s.eff.pop.2.pop.1 = w1 := by
    refine hvalue'.trans (readValue_of_popReads honly' hraised' (fun b => (hmem_u' b).trans (hmem b)) hgood4 ?_ h1)
    intro h
    rw [(stackFaults_toNat s _).2 h, Bool.or_true]
  have hunframe : s.eff.popFrame.1 = unframe s.dev s.eff.pop.2.pop.1 s.eff.pop.1 := rfl
  rw [hunframe, hfirst, hsecond]

/-! ## RETURN -/

theorem exec_ret (s : State) : exec .ret s = .next (s.eff.popFrame.2.goTo s s.eff.popFrame.1.1) := rfl

theorem ret_end {s : State} {stk addr : Bool}
    (hstk : (s.stackFaults (s.w15 - 2).toNat || s.stackFaults (s.w15 - 4).toNat) = stk)
    (haddr : (s.readFaults .word (s.w15 - 2) || s.readFaults .word (s.w15 - 4)) = addr)
    (hp : addr = true → HardTrapPends s) :
    ∃ t, exec .ret s = .next t ∧ t.pc = s.eff.popFrame.1.1 ∧ t.w15 = s.w15 - 4 ∧ SameMemory s t ∧
      QuietButTraps s.cycles s t ∧ Raised stk addr s t := by
  obtain ⟨hacc, hpop_addr, hw15, hmem, -⟩ := popFrame_accessed s
  have ha := hpop_addr.trans haddr
  have hend := hacc.goTo s.eff.popFrame.1.1 fun hc => hp (ha.symm.trans hc)
  have hraised := hend.raised
  rw [hstk, ha] at hraised
  exact ⟨_, exec_ret s, hend.pc, hend.w15.trans hw15, hend.sameMemory hmem, hend.quietButTraps, hraised⟩

/-! ## RETFIE -/

/-- SR[7:0] and IPL3 are taken from the frame (R145). -/
def State.restored (f : PAddr × Byte × Bool) (s : State) : State :=
  { s with
    ipl := f.2.1.extractLsb' 5 3
    flags := f.2.1.extractLsb' 0 5
    corcon := setBit s.corcon 3 f.2.2 }

/-- What a RETFIE has done when its hard traps are judged. -/
def State.retfieEff (s : State) : Eff := s.eff.popFrame.2.map (State.restored s.eff.popFrame.1)

theorem exec_retfie (s : State) :
    exec .retfie s =
      .next (s.retfieEff.finish (s.judge s.retfieEff.st) s.eff.popFrame.1.1 3 s.late) := rfl

/-- Restoring and popping change different registers. -/
theorem Accessed.restored {s : State} {stk : Bool} {e : Eff} (h : Accessed s stk e) (f : PAddr × Byte × Bool) :
    Accessed (s.restored f) stk (e.map (State.restored f)) := by
  obtain ⟨⟨_, _, _, _, _, _, _, _, hst⟩, hraised, hsw, hosc⟩ := h
  refine ⟨?_, hraised, hsw, hosc⟩
  rw [Eff.map_st, hst]
  exact ⟨_, _, _, _, _, _, _, _, rfl⟩

theorem srl_restored (f : PAddr × Byte × Bool) (s : State) : (s.restored f).srl = f.2.1 := by
  change f.2.1.extractLsb' 5 3 ++ f.2.1.extractLsb' 0 5 = f.2.1
  exact (BitVec.extractLsb'_append_extractLsb'_eq_extractLsb' rfl).trans (extractLsb'_self _)

/-- What a RETFIE keeps, whatever its pops met: nothing changes but SR[7:0], IPL3, the trap flags, W15, `pc` and the
tick of 3 cycles (R145, R292). -/
structure Returned (stk addr : Bool) (s t : State) : Prop where
  raised : Raised stk addr s t
  w15 : t.w15 = s.w15 - 4
  memory : SameMemory s t
  working : SameWorking s t
  accs : SameAccs s t
  sources : SameSources s t
  parameters : SameParameters s t
  ticked : Ticked 3 s t

theorem Returned.halted {stk addr : Bool} {s t : State} (h : Returned stk addr s t) :
    Returned stk addr s { t.bump with power := .halt } where
  raised := h.raised
  w15 := h.w15
  memory := h.memory
  working := h.working
  accs := h.accs
  sources := h.sources
  parameters := h.parameters
  ticked := h.ticked

theorem cpuIpl_halted (t : State) : ({ t.bump with power := .halt } : State).cpuIpl = t.cpuIpl := rfl

section
variable {s : State} {stk addr : Bool}
  (hstk : (s.stackFaults (s.w15 - 2).toNat || s.stackFaults (s.w15 - 4).toNat) = stk)
  (haddr : (s.readFaults .word (s.w15 - 2) || s.readFaults .word (s.w15 - 4)) = addr)
include hstk haddr

/-- The flags of a RETFIE's traps, before they are judged. -/
theorem retfie_flagged :
    s.retfieEff.addr = addr ∧ s.retfieEff.swOsc = false ∧
    AccessEnd (s.restored s.eff.popFrame.1) stk s.retfieEff s.eff.popFrame.1.1 3
      (s.retfieEff.advance s.eff.popFrame.1.1 3 s.late).flagged ∧
    Returned stk addr s (s.retfieEff.advance s.eff.popFrame.1.1 3 s.late).flagged := by
  obtain ⟨hacc, hpop_addr, hw15, hmem, -⟩ := popFrame_accessed s
  rw [hstk] at hacc
  have hrestored := hacc.restored s.eff.popFrame.1
  have hend := hrestored.flagged s.eff.popFrame.1.1 3 s.late
  have ha : s.retfieEff.addr = addr := hpop_addr.trans haddr
  have hraised := hend.raised
  obtain ⟨hw, -, haccs, -, hsources, -, hparams, htick⟩ := hend.quietButTraps
  rw [show (s.eff.popFrame.2.map (State.restored s.eff.popFrame.1)).addr = addr from ha] at hraised
  exact ⟨ha, hrestored.swOsc, hend,
    ⟨hraised, hend.w15.trans hw15, hend.sameMemory hmem, hw, haccs, hsources, hparams, htick⟩⟩

/-- A RETFIE whose pops are no bad reads (R145, R176, R177). -/
theorem retfie_good (ha : addr = false) :
    ∃ t, exec .retfie s = .next t ∧ Returned stk false s t ∧ t.pc = s.eff.popFrame.1.1 ∧
      t.srl = s.eff.popFrame.1.2.1 ∧ t.ipl3 = s.eff.popFrame.1.2.2 ∧ t.srh = s.srh ∧
      (∀ j, j ≠ 3 → t.corcon.getLsbD j = s.corcon.getLsbD j) ∧ t.inttreg = s.inttreg ∧ t.splim = s.splim ∧
      t.splimWritten = s.splimWritten ∧ t.trapr = s.trapr ∧ t.cf = s.cf ∧ SamePower s t := by
  obtain ⟨heff_addr, hosc, hend, hreturned⟩ := retfie_flagged hstk haddr
  rw [ha] at heff_addr hreturned
  have hsw : s.retfieEff.swAddr = false := ((popFrame_accessed s).1).swAddr
  obtain ⟨-, ⟨hsrh, hipl, hflags⟩, -, ⟨hcorcon, hinttreg, hsplim, hwritten, htrapr, hcf⟩, -, hpower, -⟩ :=
    hend.quietButTraps
  have hfinish := finish_eq_flagged (s.judge s.retfieEff.st) s.eff.popFrame.1.1 3 s.late s.retfieEff
    (fun hc => absurd (heff_addr.symm.trans hc) Bool.false_ne_true) hsw hosc
  refine ⟨_, exec_retfie s, ?_⟩
  rw [hfinish]
  refine ⟨hreturned, hend.pc, ?_, ?_, hsrh, fun j hj => ?_, hinttreg, hsplim, hwritten, htrapr, hcf, hpower⟩
  · rw [State.srl, hipl, hflags]
    exact srl_restored s.eff.popFrame.1 s
  · rw [State.ipl3, hcorcon]
    exact getLsbD_setBit_self _ _ _ (by omega)
  · rw [hcorcon]
    exact getLsbD_setBit_ne _ _ _ _ hj

/-- A RETFIE with a bad pop: the address error is judged against the priority that it restores (R210, R212, R214;
log 12). -/
theorem retfie_bad (ha : addr = true) (hp : HardTrapPends s) :
    ∃ t, exec .retfie s = .next t ∧
      (ConflictReset s t ∨
        (Returned stk true s t ∧ ((t.cpuIpl < 13 ∧ SamePower s t) ∨ (t.cpuIpl = 13 ∧ t.power = .halt)))) := by
  obtain ⟨heff_addr, hosc, hend, hreturned⟩ := retfie_flagged hstk haddr
  rw [ha] at heff_addr hreturned
  obtain ⟨hacc, -⟩ := popFrame_accessed s
  have hsw : s.retfieEff.swAddr = false := hacc.swAddr
  obtain ⟨hosc_s, hlt⟩ := hp
  have hjudge : s.judge s.retfieEff.st = s.retfieEff.st := by
    have h14 : ¬ 14 ≤ s.cpuIpl := by omega
    have h13 : ¬ 13 ≤ s.cpuIpl := by omega
    simp [State.judge, State.hardConflict, hosc_s, h14, h13]
  have hosc_post : s.retfieEff.st.trapPending .oscFail = false := hacc.raised.oscFail_pending.trans hosc_s
  have hparams : SameParameters s s.retfieEff.st := hacc.only.parameters
  have hipl : (s.retfieEff.advance s.eff.popFrame.1.1 3 s.late).flagged.cpuIpl = s.retfieEff.st.cpuIpl := by
    rw [flagged_eq]
    rfl
  obtain ⟨-, -, -, -, -, hpower, -⟩ := hend.quietButTraps
  refine ⟨_, exec_retfie s, ?_⟩
  rw [hjudge]
  obtain h | h | h := lt_trichotomy s.retfieEff.st.cpuIpl 13
  · rw [finish_eq_flagged _ _ _ _ _ (fun _ => ⟨hosc_post, h⟩) hsw hosc]
    exact .inr ⟨hreturned, .inl ⟨hipl.trans_lt h, hpower⟩⟩
  · refine (finish_sameLevel _ _ 3 s.late _ heff_addr hosc hosc_post h s hparams).imp_right fun ht => ?_
    rw [ht]
    exact ⟨hreturned.halted, .inr ⟨(cpuIpl_halted _).trans (hipl.trans h), rfl⟩⟩
  · have hconflict : s.retfieEff.st.hardConflict = true := by
      rw [State.hardConflict, decide_eq_true (show 14 ≤ _ from h), Bool.or_true]
    exact .inl (finish_conflict _ _ 3 s.late _ heff_addr hconflict s hparams)

end

/-! ## The limits and the bad reads of both pops -/

theorem stackFaults_pops_inside {s : State} (h2 : ¬ OutsideStack s (s.w15 - 2)) (h4 : ¬ OutsideStack s (s.w15 - 4)) :
    (s.stackFaults (s.w15 - 2).toNat || s.stackFaults (s.w15 - 4).toNat) = false := by
  rw [stackFaults_toNat_inside h2, stackFaults_toNat_inside h4]
  rfl

theorem stackFaults_pops_outside {s : State} (h : OutsideStack s (s.w15 - 2) ∨ OutsideStack s (s.w15 - 4)) :
    (s.stackFaults (s.w15 - 2).toNat || s.stackFaults (s.w15 - 4).toNat) = true := by
  rw [Bool.or_eq_true, stackFaults_toNat, stackFaults_toNat]
  exact h

theorem readFaults_pops_bad {s : State} (h : BadRead s (s.w15 - 2) ∨ BadRead s (s.w15 - 4)) :
    (s.readFaults .word (s.w15 - 2) || s.readFaults .word (s.w15 - 4)) = true := by
  rw [Bool.or_eq_true, readFaults_word, readFaults_word]
  exact h

theorem readFaults_pops_good {s : State} (h2 : ¬ BadRead s (s.w15 - 2)) (h4 : ¬ BadRead s (s.w15 - 4)) :
    (s.readFaults .word (s.w15 - 2) || s.readFaults .word (s.w15 - 4)) = false := by
  rw [Bool.or_eq_false_iff, Bool.eq_false_iff, Bool.eq_false_iff, Ne, Ne, readFaults_word, readFaults_word]
  exact ⟨h2, h4⟩

end Sys2Proof.Machine

namespace Sys2Proof.Proofs

open Sys2Proof.Machine

/-- Settles O20: the pops raise what their addresses ask for, and the return goes on with what they read. -/
theorem returnOutsideStackRaisesStackError : Obligations.ReturnOutsideStackRaisesStackError := by
  intro s hout
  have hstk := stackFaults_pops_outside hout
  obtain ⟨-, -, -, -, hreads⟩ := popFrame_accessed s
  refine ⟨fun hgood2 hgood4 => ⟨?_, ?_⟩, fun hbad hp => ⟨?_, ?_⟩⟩
  · obtain ⟨t, hexec, hret, hpc, hsrl, hipl3, hsrh, hcorcon, hinttreg, hsplim, hwritten, htrapr, hcf, hpower⟩ :=
      retfie_good hstk (readFaults_pops_good hgood2 hgood4) rfl
    refine ⟨t, hexec, hret.raised.stkErr, hret.w15, hret.memory, fun w1 w2 h1 h2 => ?_, hsrh, hcorcon, hinttreg,
      hsplim, hwritten, htrapr, hcf, hret.working, hret.accs, hret.sources, hpower, hret.parameters, hret.ticked⟩
    rw [← hreads w1 w2 hgood2 hgood4 h1 h2]
    exact ⟨hpc, hsrl, hipl3⟩
  · obtain ⟨t, hexec, hpc, hw15, hmem, hquiet, hraised⟩ := ret_end hstk (readFaults_pops_good hgood2 hgood4) nofun
    refine ⟨t, hexec, hraised.stkErr, hw15, hmem, fun w1 w2 h1 h2 => ?_, hquiet⟩
    rw [hpc, hreads w1 w2 hgood2 hgood4 h1 h2]
  · obtain ⟨t, hexec, -, hw15, hmem, hquiet, hraised⟩ := ret_end hstk (readFaults_pops_bad hbad) fun _ => hp
    exact ⟨t, hexec, ⟨hraised.stkErr, hraised.addrErr_pending, hw15, hmem⟩, hquiet⟩
  · obtain ⟨t, hexec, hend⟩ := retfie_bad hstk (readFaults_pops_bad hbad) rfl hp
    refine ⟨t, hexec, hend.imp_right fun ⟨hret, hlevel⟩ => ?_⟩
    exact ⟨⟨hret.raised.stkErr, hret.raised.addrErr_pending, hret.w15, hret.memory⟩, hret.working, hret.accs,
      hret.sources, hret.parameters, hret.ticked, hlevel⟩

/-- Settles O36: inside the limits the address error comes alone; each instruction notes it before it stores, and still
moves W15. -/
theorem badStackAddressesTrap : Obligations.BadStackAddressesTrap := by
  intro s f hp trapped
  refine ⟨?_, fun hodd hin => ?_, fun hbad hin => ?_, fun hbad hin2 hin4 => ⟨?_, ?_⟩⟩
  · intro mode size op ea hbad hin hle
    have hbad' : misaligned size ea = true ∨ (op = .read ∧ dataImplemented s.dev ea = false) :=
      hbad.imp_left fun ⟨hw, hodd⟩ => by rw [hw]; exact hodd
    obtain ⟨t, hexec, h, hmem⟩ := stackAccess_bad (stackFaults_inside hin hle) hbad' hp
    exact ⟨t, hexec, ⟨h.raised.addrErr, hmem⟩, h.pc, h.w15, h.quietButTraps⟩
  · have haddr : (!dataImplemented s.dev (fileAddr f) || s.w15.getLsbD 0) = true := by rw [hodd, Bool.or_true]
    obtain ⟨t, hexec, hpc, hw15, hquiet, hraised, -, hmem⟩ := pushF_end (stackFaults_toNat_inside hin) haddr
      (fun _ heven => absurd (heven.symm.trans hodd) Bool.false_ne_true) fun _ => hp
    exact ⟨t, hexec, ⟨hraised.addrErr, hmem (.inl rfl)⟩, hpc, hw15, hquiet⟩
  · obtain ⟨t, hexec, hpc, hw15, hquiet, hraised, -, hmem⟩ :=
      popF_end (f := f) (stackFaults_toNat_inside hin) ((readFaults_word _ _).2 hbad) nofun fun _ => hp
    exact ⟨t, hexec, ⟨hraised.addrErr, hmem (.inl rfl)⟩, hpc, hw15, hquiet⟩
  · obtain ⟨t, hexec, -, hw15, hmem, hquiet, hraised⟩ :=
      ret_end (stackFaults_pops_inside hin2 hin4) (readFaults_pops_bad hbad) fun _ => hp
    exact ⟨t, hexec, ⟨hraised.addrErr, hmem⟩, hw15, hquiet⟩
  · obtain ⟨t, hexec, hend⟩ := retfie_bad (stackFaults_pops_inside hin2 hin4) (readFaults_pops_bad hbad) rfl hp
    refine ⟨t, hexec, hend.imp_right fun ⟨hret, hlevel⟩ => ?_⟩
    exact ⟨⟨hret.raised.addrErr, hret.memory⟩, hret.w15, hret.working, hret.accs, hret.sources, hret.parameters,
      hret.ticked, hlevel⟩

end Sys2Proof.Proofs
end

section
/-! PROOFS. The trap conditions of an `Other` event (spec/41_trap_raising_instructions.md R158, R170 to R172, R186,
R187): the flags that they set, one after the other, and what the event leaves alone. -/

namespace Sys2Proof.Machine

/-! ## The flags of one condition -/

/-- From `s` to `t` only the trap flags have changed, and the skid of soft traps with its draw: the bits `flags` are
set, the bits `marks` lose their mark. -/
def OnlyFlags (flags marks : Nat → Bool) (s t : State) : Prop :=
  FlagsSet flags marks s t ∧ ∃ intcon1 inert skid draws,
    t = { s with intcon1 := intcon1, inert := inert, softSkid := skid, draws := draws }

theorem OnlyFlags.trans {f m f' m' : Nat → Bool} {s t u : State} (h : OnlyFlags f m s t) (h' : OnlyFlags f' m' t u) :
    OnlyFlags (fun j => f j || f' j) (fun j => m j || m' j) s u := by
  obtain ⟨hflags, _, _, _, _, rfl⟩ := h
  obtain ⟨hflags', _, _, _, _, rfl⟩ := h'
  exact ⟨hflags.trans hflags', _, _, _, _, rfl⟩

theorem onlyFlags_refl (s : State) : OnlyFlags (fun _ => false) (fun _ => false) s s :=
  ⟨fun _ => ⟨(Bool.or_false _).symm, (Bool.and_true _).symm⟩, _, _, _, _, rfl⟩

/-- A condition that is met raises its trap, one that is not changes nothing. -/
theorem OnlyFlags.ite {f m : Nat → Bool} {s t : State} (h : OnlyFlags f m s t) (c : Bool) :
    OnlyFlags (fun j => c && f j) (fun j => c && m j) s (if c then t else s) := by
  cases c with
  | true => exact h
  | false => exact onlyFlags_refl s

theorem onlyFlags_raiseSoft (k : TrapKind) (s : State) :
    OnlyFlags (· == k.flagBit) (· == k.flagBit) s (s.raiseSoft k) :=
  ⟨flagsSet_setTrapFlag k s, _, _, _, _, rfl⟩

/-- A sub-cause of the math error sets its own bit and MATHERR (R170, R206). -/
theorem onlyFlags_raiseMath (bit : Nat) (hbit : bit < 16) (s : State) :
    OnlyFlags (fun j => j == bit || j == 4) (· == 4) s (s.raiseMath bit) := by
  have hsub : OnlyFlags (· == bit) (fun _ => false) s { s with intcon1 := setBit s.intcon1 bit true } := by
    refine ⟨fun j => ⟨?_, (Bool.and_true _).symm⟩, _, _, _, _, rfl⟩
    by_cases hj : j = bit
    · subst hj
      simp [getLsbD_setBit_self _ _ _ hbit]
    · simp [getLsbD_setBit_ne _ _ _ _ hj, hj]
  exact hsub.trans (onlyFlags_raiseSoft .mathErr _)

/-- An overflow sets its flag where its enable allows the trap (R172). -/
theorem onlyFlags_raiseOverflow (acc : Acc) (s : State) (enabled : Bool)
    (h : s.intcon1.getLsbD (overflowEnableBit acc) = enabled) :
    OnlyFlags (fun j => enabled && (j == overflowErrBit acc || j == 4)) (fun j => enabled && j == 4) s
      (s.raiseOverflow acc) := by
  subst h
  exact (onlyFlags_raiseMath _ (by cases acc <;> decide) s).ite _

theorem onlyFlags_raiseFarOverflow (acc : Acc) (s : State) (enabled : Bool) (h : s.intcon1.getLsbD 8 = enabled) :
    OnlyFlags (fun j => enabled && (j == farOverflowErrBit acc || j == 4)) (fun j => enabled && j == 4) s
      (s.raiseFarOverflow acc) := by
  subst h
  exact (onlyFlags_raiseMath _ (by cases acc <;> decide) s).ite _

/-! ## The flags of all conditions -/

/-- The overflows of a condition set that raise their traps, with SFTAC's and the divide's: each with its sub-cause
flag (R170 to R172). -/
def State.mathCauses (s : State) (c : TrapConds) : List (Nat × Bool) :=
  [(14, s.overflows .a c.ovA && s.intcon1.getLsbD 10), (13, s.overflows .b c.ovB && s.intcon1.getLsbD 9),
   (12, s.overflowsFar .a c.covA && s.intcon1.getLsbD 8), (11, s.overflowsFar .b c.covB && s.intcon1.getLsbD 8),
   (7, c.shift), (6, c.div0)]

/-- The math error is raised. -/
def State.mathRaised (s : State) (c : TrapConds) : Bool := (s.mathCauses c).any Prod.snd

/-- The flags that the soft traps of a condition set set. -/
def State.condFlag (s : State) (c : TrapConds) (j : Nat) : Bool :=
  ((s.mathCauses c).any fun p => j == p.1 && p.2) || (j == 2 && c.stack) || (j == 4 && s.mathRaised c)

/-- The conditions, one after the other: no flag that one of them sets is an enable of a later one. -/
theorem onlyFlags_raiseConds (c : TrapConds) (e : Eff) :
    OnlyFlags (e.st.condFlag c) (fun j => (j == 4 && e.st.mathRaised c) || (j == 2 && c.stack)) e.st
      (e.raiseConds c).st := by
  have hovA := (onlyFlags_raiseOverflow .a e.st _ rfl).ite (e.st.overflows .a c.ovA)
  have hovB := hovA.trans ((onlyFlags_raiseOverflow .b _ (e.st.intcon1.getLsbD 9)
    (by simpa [overflowErrBit, overflowEnableBit] using (hovA.1 9).1)).ite (e.st.overflows .b c.ovB))
  have hfarA := hovB.trans ((onlyFlags_raiseFarOverflow .a _ (e.st.intcon1.getLsbD 8)
    (by simpa [overflowErrBit] using (hovB.1 8).1)).ite (e.st.overflowsFar .a c.covA))
  have hfarB := hfarA.trans ((onlyFlags_raiseFarOverflow .b _ (e.st.intcon1.getLsbD 8)
    (by simpa [overflowErrBit, farOverflowErrBit] using (hfarA.1 8).1)).ite (e.st.overflowsFar .b c.covB))
  have hshift := hfarB.trans ((onlyFlags_raiseMath 7 (by omega) _).ite c.shift)
  have hdiv := hshift.trans ((onlyFlags_raiseMath 6 (by omega) _).ite c.div0)
  have hall := hdiv.trans ((onlyFlags_raiseSoft .stkErr _).ite c.stack)
  obtain ⟨hflags, hrest⟩ := hall
  refine ⟨fun j => ?_, hrest⟩
  obtain ⟨hf, hm⟩ := hflags j
  refine ⟨hf.trans (congrArg (e.st.intcon1.getLsbD j || ·) ?_), hm.trans (congrArg (e.st.inert.getLsbD j && !·) ?_)⟩
  · simp only [State.condFlag, State.mathRaised, State.mathCauses, overflowEnableBit, overflowErrBit,
      farOverflowErrBit, TrapKind.flagBit, List.any_cons, List.any_nil, Bool.or_false, Bool.and_or_distrib_left]
    ac_rfl
  · simp only [State.mathRaised, State.mathCauses, overflowEnableBit, TrapKind.flagBit, List.any_cons, List.any_nil,
      Bool.or_false, Bool.and_or_distrib_left]
    ac_rfl

/-! ## The whole event -/

/-- The flags of all traps of a condition set, and the marks that they take away. -/
def State.otherFlag (s : State) (c : TrapConds) (j : Nat) : Bool := s.condFlag c j || accessFlag false c.addr j

def State.otherMark (s : State) (c : TrapConds) (j : Nat) : Bool :=
  ((j == 4 && s.mathRaised c) || (j == 2 && c.stack)) || accessFlag false c.addr j

/-- The flag of a trap that is raised is a request (R208). -/
theorem otherMark_flagBit (s : State) (c : TrapConds) (k : TrapKind) :
    s.otherMark c k.flagBit = s.otherFlag c k.flagBit := by
  cases k <;> simp [State.otherMark, State.otherFlag, State.condFlag, State.mathCauses, TrapKind.flagBit]

/-- The traps that a condition set raises (R170, R187). -/
theorem otherFlag_flagBit (s : State) (c : TrapConds) :
    s.otherFlag c TrapKind.mathErr.flagBit = s.mathRaised c ∧ s.otherFlag c TrapKind.stkErr.flagBit = c.stack ∧
    s.otherFlag c TrapKind.addrErr.flagBit = c.addr := by
  simp [State.otherFlag, State.condFlag, State.mathCauses, TrapKind.flagBit, accessFlag]

/-- What an `Other` event may change of a state, but for the trap flags and the tick (R140); memory only where no
address error inhibits it (R100). -/
def OnlyDrawn (inhibit : Bool) (s u : State) : Prop :=
  (∃ w w15 srh flags accA accB mem memEpoch intcon1 inert skid dataWrite draws, u = { s with
    w := w, w15 := w15, srh := srh, flags := flags, accA := accA, accB := accB, mem := mem, memEpoch := memEpoch,
    intcon1 := intcon1, inert := inert, softSkid := skid, dataWrite := dataWrite, draws := draws }) ∧
  (inhibit = true → SameMemory s u)

theorem onlyDrawn_drawOther (inhibit : Bool) (s : State) : OnlyDrawn inhibit s (s.drawOther inhibit) := by
  refine ⟨⟨_, _, _, _, _, _, _, _, _, _, _, _, _, rfl⟩, ?_⟩
  rintro rfl
  exact fun _ => rfl

theorem OnlyDrawn.flags {inhibit : Bool} {f m : Nat → Bool} {s t u : State} (h : OnlyDrawn inhibit s t)
    (h' : OnlyFlags f m t u) : OnlyDrawn inhibit s u := by
  obtain ⟨⟨_, _, _, _, _, _, _, _, _, _, _, _, _, rfl⟩, hmem⟩ := h
  obtain ⟨-, _, _, _, _, rfl⟩ := h'
  exact ⟨⟨_, _, _, _, _, _, _, _, _, _, _, _, _, rfl⟩, hmem⟩

/-- The registers that control exceptions, the sources, the power mode and the parameters are kept, with the tick at
the end (R140, R142). -/
theorem OnlyDrawn.advance {inhibit : Bool} {s u : State} (h : OnlyDrawn inhibit s u) (next : PAddr) (c : Nat)
    (late : Bool) :
    let t := ({ u with pc := next, lateEntry := late } : State).tick c
    (inhibit = true → SameMemory s t) ∧ t.ipl = s.ipl ∧ SameSpecial s t ∧ SameSources s t ∧ SamePower s t ∧
    SameParameters s t ∧ Ticked c s t ∧ t.lateEntry = late ∧ t.pc = next := by
  obtain ⟨⟨_, _, _, _, _, _, _, _, _, _, _, _, _, rfl⟩, hmem⟩ := h
  exact ⟨hmem, rfl, ⟨rfl, rfl, rfl, rfl, rfl, rfl⟩, ⟨rfl, rfl, rfl, rfl⟩, ⟨rfl, rfl⟩, ⟨rfl, rfl, rfl, rfl⟩,
    ticked_tick c { s with pc := next, lateEntry := late }, rfl, rfl⟩

/-- An `Other` event to the end of its instruction: the flags of its conditions, and what it leaves alone (R140,
R158). -/
theorem otherEvent_end (s : State) (c : TrapConds) (hp : c.addr = true → HardTrapPends s) (next : PAddr)
    (late : Bool) :
    let t := (s.eff.otherEvent c).finish s next s.cycles late
    FlagsSet (s.otherFlag c) (s.otherMark c) s t ∧ (c.addr = true → SameMemory s t) ∧ t.ipl = s.ipl ∧
    SameSpecial s t ∧ SameSources s t ∧ SamePower s t ∧ SameParameters s t ∧ Ticked s.cycles s t ∧
    t.lateEntry = late ∧ t.pc = next := by
  have hconds := onlyFlags_raiseConds c (s.eff.map (State.drawOther c.addr))
  have hdrawn : OnlyDrawn c.addr s (s.eff.otherEvent c).st := (onlyDrawn_drawOther c.addr s).flags hconds
  have haddr : (s.eff.otherEvent c).addr = c.addr := Bool.false_or _
  have hfinish := finish_eq_flagged s next s.cycles late (s.eff.otherEvent c) (fun ha => hp (haddr.symm.trans ha))
    rfl rfl
  have hflags : FlagsSet (s.condFlag c) (fun j => (j == 4 && s.mathRaised c) || (j == 2 && c.stack)) s
      (s.eff.otherEvent c).st := hconds.1
  have hsw : (s.eff.otherEvent c).swAddr = false := rfl
  have hosc : (s.eff.otherEvent c).swOsc = false := rfl
  generalize s.eff.otherEvent c = e at hflags hdrawn haddr hfinish hsw hosc ⊢
  have hhard : FlagsSet (accessFlag false c.addr) (accessFlag false c.addr) e.st
      (e.advance next s.cycles late).flagged := by
    have h := flagsSet_flagged (e.advance next s.cycles late)
    rwa [hardFlag_advance e hsw hosc, haddr] at h
  have hmarked : OnlyDrawn c.addr s { e.st with
      intcon1 := (e.advance next s.cycles late).flagged.intcon1
      inert := (e.advance next s.cycles late).flagged.inert } := by
    obtain ⟨⟨_, _, _, _, _, _, _, _, _, _, _, _, _, hst⟩, hmem⟩ := hdrawn
    exact ⟨by rw [hst]; exact ⟨_, _, _, _, _, _, _, _, _, _, _, _, _, rfl⟩, hmem⟩
  dsimp only
  rw [hfinish]
  refine ⟨hflags.trans hhard, ?_⟩
  rw [flagged_eq]
  exact hmarked.advance next s.cycles late

/-- The instructions that are `Other` events: where they go on, and of which kind they are (R158, R186; logs 18,
34). -/
theorem exec_other_form (s : State) (c : TrapConds) (i : Instr) (skip : Bool)
    (h : i = .other c ∨ i = .movdPsv c ∨ i = .btscPsv c skip ∨ i = .btssPsv c skip) :
    ∃ next, exec i s = .next ((s.eff.otherEvent c).finish s next s.cycles (PsvAccess i || s.late)) ∧
      (i = .other c ∨ i = .movdPsv c → next = s.after s.pc) ∧
      (i = .btscPsv c skip ∨ i = .btssPsv c skip → next = if skip then s.after (s.after s.pc) else s.after s.pc) := by
  obtain rfl | rfl | rfl | rfl := h
  · exact ⟨_, rfl, fun _ => rfl, by simp⟩
  · exact ⟨_, rfl, fun _ => rfl, by simp⟩
  · exact ⟨_, rfl, by simp, fun _ => rfl⟩
  · exact ⟨_, rfl, by simp, fun _ => rfl⟩

end Sys2Proof.Machine
namespace Sys2Proof.Proofs

open Sys2Proof.Machine

/-- Settles O45: the conditions set their flags one after the other, and none of them touches the enable of another. -/
theorem otherRaisesItsConditions : Obligations.OtherRaisesItsConditions := by
  intro s c i skip hp hform satA satB wide ovA ovB covA covB math
  obtain ⟨next, hexec, hnext, hskip⟩ := exec_other_form s c i skip hform
  obtain ⟨hflags, hmem, hipl, hspecial, hsources, hpower, hparams, htick, hlate, hpc⟩ :=
    otherEvent_end s c hp next (PsvAccess i || s.late)
  have hmath : s.mathRaised c = math := by
    simp only [State.mathRaised, State.mathCauses, List.any_cons, List.any_nil, Bool.or_false]
    simp only [math, Bool.or_assoc]
    rfl
  obtain ⟨hmath_flag, hstk_flag, haddr_flag⟩ := otherFlag_flagBit s c
  refine ⟨_, hexec, fun j => ?_, ?_, ?_, ?_, hmem, hipl, hspecial, hsources, hpower, hparams, htick, hlate,
    fun h => hpc.trans (hnext h), fun h => hpc.trans (hskip h)⟩
  · rw [(hflags j).1, State.otherFlag, State.condFlag, hmath]
    simp only [State.mathCauses, List.any_cons, List.any_nil, Bool.or_false, accessFlag, Bool.false_and, Bool.false_or]
    change (_ || ((((j == 14 && ovA) || ((j == 13 && ovB) || ((j == 12 && covA) || ((j == 11 && covB) ||
      ((j == 7 && c.shift) || (j == 6 && c.div0)))))) || _ || _) || _)) = _
    ac_rfl
  · rw [hflags.trapPending .mathErr (otherMark_flagBit s c _), hmath_flag, hmath]
  · rw [hflags.trapPending .stkErr (otherMark_flagBit s c _), hstk_flag]
  · rw [hflags.trapPending .addrErr (otherMark_flagBit s c _), haddr_flag]

end Sys2Proof.Proofs
end

section
/-! PROOFS. An address error of any cause while a hard trap is pending or executing (spec/60_exceptions.md R212, R214,
R270; logs 11, 12): every instruction that meets one ends with it noted and nothing stored. -/

namespace Sys2Proof.Machine

/-! ## An effect that has met an address error -/

/-- The effect `e` of `s` has met an address error: nothing was stored, software asked for no oscillator failure, and
INTCON1 has only gained flags, none at all where `only` says so. -/
structure MetAddressError (only : Prop) (s : State) (e : Eff) : Prop where
  addr : e.addr = true
  swOsc : e.swOsc = false
  parameters : SameParameters s e.st
  memory : SameMemory s e.st
  flags : ∀ j, s.intcon1.getLsbD j = true → e.st.intcon1.getLsbD j = true
  noFlag : only → e.st.intcon1 = s.intcon1

theorem Accessed.metAddressError {s : State} {stk : Bool} {e : Eff} (h : Accessed s stk e) (ha : e.addr = true)
    (hm : SameMemory s e.st) {only : Prop} (hs : only → stk = false) : MetAddressError only s e where
  addr := ha
  swOsc := h.swOsc
  parameters := h.only.parameters
  memory := hm
  flags := fun j hj => by rw [(h.raised.1 j).1, hj, Bool.true_or]
  noFlag := fun ho => by
    have hraised := h.raised
    rw [hs ho] at hraised
    exact hraised.sameTraps.1

/-- Where the address error comes at its own level and the device halts (R214). -/
def HaltedByAddressError (only : Prop) (s t : State) : Prop :=
  (t.power = .halt ∧ SameParameters s t ∧ SameMemory s t ∧ t.trapPending .addrErr = true ∧
    ∀ j, s.intcon1.getLsbD j = true → t.intcon1.getLsbD j = true) ∧
  (only → TrapRaised .addrErr [] s t)

theorem MetAddressError.halted {only : Prop} {s : State} {e : Eff} (h : MetAddressError only s e) (next : PAddr)
    (c : Nat) (late : Bool) :
    HaltedByAddressError only s { (e.advance next c late).flagged.bump with power := .halt } := by
  have hflags := flagsSet_flagged (e.advance next c late)
  have hmarked := flagged_eq (e.advance next c late)
  have hhard (j : Nat) : (e.advance next c late).hardFlag j = (j == 3) := by
    simp [Eff.advance, Eff.hardFlag, h.addr, h.swOsc]
  generalize (e.advance next c late).flagged = u at hflags hmarked ⊢
  have hpending : u.trapPending .addrErr = true := by
    rw [hflags.trapPending .addrErr rfl, hhard]
    rfl
  have hbit (j : Nat) : u.intcon1.getLsbD j = (e.st.intcon1.getLsbD j || j == 3) := by
    rw [(hflags j).1, hhard]
    rfl
  refine ⟨⟨rfl, ?_, ?_, hpending, fun j hj => ?_⟩, fun ho => ⟨hpending, fun j hj => ?_⟩⟩
  · rw [hmarked]
    exact h.parameters
  · rw [hmarked]
    exact h.memory
  · exact (hbit j).trans (by rw [h.flags j hj, Bool.true_or])
  · have hj3 : j ≠ 3 := hj
    refine (hbit j).trans ?_
    rw [h.noFlag ho, beq_false_of_ne hj3, Bool.or_false]
    rfl

/-! ## Every instruction that meets one -/

/-- The priority or the flags of the state before make a hard trap of this instruction conflict, or come at its own
level (R212, R214). -/
def HardTrapActive (s : State) : Prop := s.trapPending .oscFail = true ∨ 13 ≤ s.cpuIpl

theorem judge_of_active {s : State} (h : HardTrapActive s) (post : State) : s.judge post = s := by
  unfold State.judge State.hardConflict
  obtain h | h := h <;> simp [h]

/-- Where an instruction ends that has met an address error: it is judged against the state before it. -/
def EndsInAddressError (i : Instr) (s : State) : Prop :=
  ∃ e next c late, exec i s = .next (e.finish s next c late) ∧ MetAddressError (OnlyAddressError i = true) s e

theorem endsInAddressError_other (s : State) (c : TrapConds) (hc : c.addr = true) (only : Prop) (hnot : ¬ only) :
    MetAddressError only s (s.eff.otherEvent c) := by
  obtain ⟨hflags, _, _, _, _, hst⟩ := onlyFlags_raiseConds c (s.eff.map (State.drawOther c.addr))
  have hdrawn := (onlyDrawn_drawOther c.addr s).flags
    (onlyFlags_raiseConds c (s.eff.map (State.drawOther c.addr)))
  refine ⟨(Bool.false_or _).trans hc, rfl, ?_, hdrawn.2 hc, fun j hj => ?_, fun h => absurd h hnot⟩
  · obtain ⟨⟨_, _, _, _, _, _, _, _, _, _, _, _, _, hu⟩, -⟩ := hdrawn
    have hst' : (s.eff.otherEvent c).st = _ := hu
    rw [hst']
    exact ⟨rfl, rfl, rfl, rfl⟩
  · refine (hflags j).1.trans ?_
    change (s.intcon1.getLsbD j || _) = true
    rw [hj, Bool.true_or]

theorem braTarget_eq (pc : PAddr) (n : BitVec 16) : braTarget pc n = pc + 2 + BitVec.ofInt 24 (2 * n.toInt) := by
  have hdouble : n.signExtend 24 <<< 1 = BitVec.ofInt 24 (2 * n.toInt) := by
    rw [BitVec.shiftLeft_eq_mul_twoPow, BitVec.ofInt_mul, BitVec.mul_comm]
    rfl
  rw [braTarget, hdouble]
  rfl

/-- A jump to an unimplemented address notes the address error, and does nothing else (R180). -/
theorem metAddressError_jump {only : Prop} {s : State} {target : PAddr} (h : progImplemented s.dev target = false) :
    MetAddressError only s { s.eff with addr := s.eff.addr || !progImplemented s.dev target } where
  addr := by rw [h]; rfl
  swOsc := rfl
  parameters := ⟨rfl, rfl, rfl, rfl⟩
  memory := fun _ => rfl
  flags := fun _ hj => hj
  noFlag := fun _ => rfl

/-- Every cause of an address error (R97, R98, R158, R178 to R180): the instruction ends with it noted and nothing
stored. -/
theorem endsInAddressError (s : State) (i : Instr) (h : MeetsAddressError s i) (hactive : HardTrapActive s) :
    EndsInAddressError i s := by
  cases i with
  | dataAccess size ea op =>
    have hbad : misaligned size ea = true ∨ (op = .read ∧ dataImplemented s.dev ea = false) :=
      h.imp_left fun ⟨hw, hodd⟩ => by rw [hw]; exact hodd
    obtain ⟨hacc, haddr, -, hmem⟩ := (accessed_eff s).access_bad size ea op hbad
    exact ⟨_, _, _, _, rfl, hacc.metAddressError haddr hmem fun _ => rfl⟩
  | stackAccess mode size op =>
    have hbad : misaligned size (stackEa s.w15 mode) = true ∨
        (op = .read ∧ dataImplemented s.dev (stackEa s.w15 mode) = false) :=
      h.imp_left fun ⟨hw, hodd⟩ => by rw [hw]; exact hodd
    obtain ⟨-, -, hcheck_mem⟩ := stackCheck_keeps s.eff (stackExact s.w15 mode)
    obtain ⟨hacc, haddr, -, hmem⟩ := (accessed_stackCheck rfl).access_bad size (stackEa s.w15 mode) op hbad
    exact ⟨_, _, _, _, exec_stackAccess .., (hacc.setW15 (stackPointerAfter s.w15 mode)).metAddressError haddr
      (fun b => (hmem b).trans (hcheck_mem b)) nofun⟩
  | bitIndirect ea op =>
    have hread : misaligned .word ea = true ∨ (DataOp.read = .read ∧ dataImplemented s.dev ea = false) :=
      h.imp id fun hd => ⟨rfl, hd⟩
    obtain ⟨hacc, haddr, -, hmem⟩ := (accessed_eff s).access_bad .word ea .read hread
    cases op with
    | read => exact ⟨_, _, _, _, rfl, hacc.metAddressError haddr hmem fun _ => rfl⟩
    | write v =>
      have he := write_stores_nothing .word ea v _ (.inr haddr)
      refine ⟨_, _, _, _, by rw [exec_bitIndirect_write, he]; rfl, ?_⟩
      exact (hacc.setAddr true).metAddressError rfl hmem fun _ => rfl
  | macFetch space ea =>
    cases hcross : macCrossing s.dev space ea with
    | true =>
      obtain ⟨e, hexec, hacc, haddr, -, hmem⟩ := exec_macFetch_crossing hcross
      exact ⟨_, _, _, _, hexec, hacc.metAddressError haddr hmem fun _ => rfl⟩
    | false =>
      have hread : misaligned .word ea = true ∨ (DataOp.read = .read ∧ dataImplemented s.dev ea = false) := by
        obtain hc | hbad := h
        · exact absurd (hcross.symm.trans hc) Bool.false_ne_true
        · exact hbad.imp id fun hd => ⟨rfl, hd⟩
      obtain ⟨hacc, haddr, -, hmem⟩ := (accessed_eff s).access_bad .word ea .read hread
      exact ⟨_, _, _, _, exec_macFetch_own hcross, hacc.metAddressError haddr hmem fun _ => rfl⟩
  | pushF f =>
    have hbad : (!dataImplemented s.dev (fileAddr f) || s.w15.getLsbD 0) = true := by
      obtain hodd | hf := h
      · rw [hodd, Bool.or_true]
      · rw [fileAddr, hf]
        rfl
    have hreg (hf : dataImplemented s.dev (fileAddr f) = true) (hodd : s.w15.getLsbD 0 = false) : False := by
      rw [hf, hodd] at hbad
      exact absurd hbad (by decide)
    obtain ⟨hacc, haddr, -, -, hmem⟩ := pushF_accessed (s := s) (f := f) fun hf hodd => (hreg hf hodd).elim
    have ha := haddr.trans hbad
    exact ⟨_, _, _, _, exec_pushF f s, hacc.metAddressError ha (hmem (.inl ha)) nofun⟩
  | popF f =>
    have hbad : s.readFaults .word (s.w15 - 2) = true := (readFaults_word s _).mpr h
    obtain ⟨hacc, haddr, -, -, hmem⟩ :=
      popF_accessed (s := s) (f := f) fun hok => absurd (hok.symm.trans hbad) Bool.false_ne_true
    have ha := haddr.trans hbad
    exact ⟨_, _, _, _, exec_popF f s, hacc.metAddressError ha (hmem (.inl ha)) nofun⟩
  | ret =>
    obtain ⟨hacc, haddr, -, hmem, -⟩ := popFrame_accessed s
    exact ⟨_, _, _, _, exec_ret s, hacc.metAddressError (haddr.trans (readFaults_pops_bad h)) hmem nofun⟩
  | retfie =>
    obtain ⟨hacc, haddr, -, hmem, -⟩ := popFrame_accessed s
    have hmet : MetAddressError (OnlyAddressError .retfie = true) s s.eff.popFrame.2 :=
      hacc.metAddressError (haddr.trans (readFaults_pops_bad h)) hmem nofun
    refine ⟨s.retfieEff, s.eff.popFrame.1.1, 3, s.late, ?_,
      ⟨hmet.addr, hmet.swOsc, hmet.parameters, hmet.memory, hmet.flags, nofun⟩⟩
    rw [exec_retfie, judge_of_active hactive]
  | gotoWord1 lo hi => exact ⟨_, _, _, _, rfl, metAddressError_jump h⟩
  | bra n => exact ⟨_, _, _, _, rfl, metAddressError_jump ((braTarget_eq s.pc n).symm ▸ h)⟩
  | other c => exact ⟨_, _, _, _, rfl, endsInAddressError_other s c h _ nofun⟩
  | movdPsv c => exact ⟨_, _, _, _, rfl, endsInAddressError_other s c h _ nofun⟩
  | btscPsv c skip => exact ⟨_, _, _, _, rfl, endsInAddressError_other s c h _ nofun⟩
  | btssPsv c skip => exact ⟨_, _, _, _, rfl, endsInAddressError_other s c h _ nofun⟩
  | _ => exact absurd h id

/-! ## How such an instruction or step ends -/

theorem hardConflict_of_active {s : State} (h : s.trapPending .oscFail = true ∨ 14 ≤ s.cpuIpl) :
    s.hardConflict = true := by
  unfold State.hardConflict
  obtain h | h := h <;> simp [h]

section
variable {only : Prop} {s u : State} {e : Eff}

theorem MetAddressError.finish_conflict (h : MetAddressError only s e) (next : PAddr) (c : Nat) (late : Bool)
    (hc : u.hardConflict = true) : ConflictReset s (e.finish u next c late) :=
  Machine.finish_conflict u next c late e h.addr hc s h.parameters

theorem MetAddressError.finish_sameLevel (h : MetAddressError only s e) (next : PAddr) (c : Nat) (late : Bool)
    (hosc : u.trapPending .oscFail = false) (h13 : u.cpuIpl = 13) :
    ConflictReset s (e.finish u next c late) ∨ HaltedByAddressError only s (e.finish u next c late) := by
  refine (Machine.finish_sameLevel u next c late e h.addr h.swOsc hosc h13 s h.parameters).imp_right fun heq => ?_
  rw [heq]
  exact h.halted next c late

end

theorem ConflictReset.endSkid {s t : State} (h : ConflictReset s t) (skid : Bool) :
    ConflictReset s (t.endSkid skid) := by
  cases skid <;> exact h

theorem HaltedByAddressError.endSkid {only : Prop} {s t : State} (h : HaltedByAddressError only s t) (skid : Bool) :
    HaltedByAddressError only s (t.endSkid skid) := by
  cases skid <;> exact h

/-! ## A step at an unimplemented program address (R181) -/

theorem executeNowhere_turns (s : State) : (executeNowhere s).turns = s.turns :=
  settle_induction (P := fun t => t.turns = s.turns) _ _ rfl (fun _ _ _ h => h) (fun _ h => h) (fun _ h => h)
    (fun _ h => h)

theorem metAddressError_nowhere (only : Prop) (s : State) (left : List Turn) :
    let u := { s with turns := left }.atBoundary
    MetAddressError only s { u.bump.eff with addr := true } where
  addr := rfl
  swOsc := rfl
  parameters := ⟨rfl, rfl, rfl, rfl⟩
  memory := fun _ => rfl
  flags := fun _ hj => hj
  noFlag := fun _ => rfl

theorem bestOf_congr {s u : State} (h : ∀ r, s.priority r = u.priority r) (l : List Request) :
    s.bestOf l = u.bestOf l := by
  induction l with
  | nil => rfl
  | cons r l ih => simp only [State.bestOf, ih, h]

theorem taken_setTurns (s : State) (left : List Turn) : { s with turns := left }.taken = s.taken := by
  have hpriority (r : Request) : { s with turns := left }.priority r = s.priority r := by cases r <;> rfl
  unfold State.taken State.best
  rw [bestOf_congr hpriority]
  simp only [hpriority]
  rfl

theorem endSkid_turns (skid : Bool) (s : State) : (s.endSkid skid).turns = s.turns := by
  cases skid <;> rfl

theorem step_nowhere {s : State} {left : List Turn} (h : CpuTurn s left) (hrun : s.power = .run)
    (hnone : s.taken = none) (hpc : progImplemented s.dev s.pc = false) :
    step s = .next ((executeNowhere { s with turns := left }.atBoundary).endSkid s.softSkid) := by
  have hnone' : { s with turns := left }.taken = none := (taken_setTurns s left).trans hnone
  have hpc' : progImplemented { s with turns := left }.dev { s with turns := left }.pc = false := hpc
  rw [step_boundary s left h hrun]
  simp only [boundary, hnone', hpc', Bool.false_eq_true, if_false, endSkidResult]

end Sys2Proof.Machine

namespace Sys2Proof.Proofs

open Sys2Proof.Machine

/-- Settles O23: whatever its cause, an address error ends in `finish`, which judges it against the state before. -/
theorem hardTrapConflictResets : Obligations.HardTrapConflictResets := by
  unfold Obligations.HardTrapConflictResets
  intro s
  refine ⟨fun i hi => ⟨fun hactive => ?_, fun hosc h13 => ?_⟩,
    fun left hturn hrun hnone hpc => ⟨fun hactive => ?_, fun hosc h13 => ?_⟩⟩
  · obtain ⟨e, next, c, late, hexec, hmet⟩ :=
      endsInAddressError s i hi (hactive.imp_right fun h => by omega)
    exact ⟨_, hexec, hmet.finish_conflict next c late (hardConflict_of_active hactive)⟩
  · obtain ⟨e, next, c, late, hexec, hmet⟩ := endsInAddressError s i hi (.inr h13.ge)
    exact ⟨_, hexec, hmet.finish_sameLevel next c late hosc h13⟩
  · refine ⟨_, step_nowhere hturn hrun hnone hpc, ?_, ?_⟩
    · exact (endSkid_turns ..).trans (executeNowhere_turns _)
    · exact ((metAddressError_nowhere True s left).finish_conflict _ _ _ (hardConflict_of_active hactive)).endSkid _
  · refine ⟨_, step_nowhere hturn hrun hnone hpc, ?_, ?_⟩
    · exact (endSkid_turns ..).trans (executeNowhere_turns _)
    · refine ((metAddressError_nowhere True s left).finish_sameLevel _ _ _ hosc h13).imp
        (·.endSkid _) fun h => ?_
      obtain ⟨hhalted, hraised⟩ := h.endSkid s.softSkid
      exact ⟨hhalted, hraised trivial⟩

end Sys2Proof.Proofs
end

section
/-! PROOFS. What an exception entry raises, whatever its pushes met (spec/60_exceptions.md R224 to R230). -/

namespace Sys2Proof.Machine

/-! ## The state after the vectoring -/

/-- What follows the pushes, which have led from `s` to `u`, at the entry of `r` (R224). -/
def State.vectored (r : Request) (s u : State) : State := (u.vectorTo r (s.priority r) s.entryCycles).bump

/-- An entry is its pushes, the vectoring, and the judgement of an address error against the priority that the entry
has set (R230). -/
theorem takeException_eq (r : Request) (s : State) :
    takeException r s = (({ s with race := [] } : State).pushFrame.map (s.vectored r)).settle
      (s.vectored r ({ s with race := [] } : State).pushFrame.st) := rfl

/-- The vectoring writes SR.IPL, CORCON, INTTREG, `pc` and the power mode, and the tick INTCON2 and DISICNT. -/
theorem vectored_eq (r : Request) (s u : State) :
    ∃ pc ipl corcon inttreg intcon2 disicnt draws, s.vectored r u = { u with
      pc := pc, ipl := ipl, corcon := corcon, inttreg := inttreg, intcon2 := intcon2, disicnt := disicnt,
      draws := draws, power := .run, lateEntry := false } := by
  cases r <;> exact ⟨_, _, _, _, _, _, _, rfl⟩

theorem vectored_w15 (r : Request) (s u : State) : (s.vectored r u).w15 = u.w15 :=
  State.vectorTo_w15 r (s.priority r) s.entryCycles u

theorem ticked_vectored (r : Request) (s u : State) : Ticked s.entryCycles u (s.vectored r u) :=
  ticked_vectorTo r (s.priority r) s.entryCycles u

/-- `s` with INTCON1 and CORCON as the pushes that led to `u` have left them. -/
def State.withTrapRegs (s u : State) : State := { s with intcon1 := u.intcon1, corcon := u.corcon }

/-- The priority is the one that the boundary used; NSTDIS and CORCON count as the pushes left them (R226, R227). -/
theorem entered_vectored (r : Request) (s u : State) : Entered r (s.withTrapRegs u) (s.vectored r u) := by
  have h := entered_vectorTo r (s.withTrapRegs u) u s.entryCycles rfl rfl
  cases r <;> exact h

theorem vectored_altivt (r : Request) (s u : State) : (s.vectored r u).altivt = u.altivt :=
  (ticked_vectored r s u).2.1 15 (by decide)

/-- Only the entry of a trap changes CORCON, and there IPL3 alone (R226). -/
theorem vectored_corcon (r : Request) (s u : State) (j : Nat) (hj : j ≠ 3) :
    (s.vectored r u).corcon.getLsbD j = u.corcon.getLsbD j := by
  obtain ⟨hirq, htrap⟩ := entered_vectored r s u
  cases r with
  | irq n => exact congrArg (·.getLsbD j) (hirq n rfl).2.1
  | trap k => exact (htrap k rfl).2.2.1 j hj

/-- An interrupt is taken in no trap handler (R220). -/
theorem ipl3_of_taken_irq {s : State} {n : Nat} (h : s.taken = some (.irq n)) : s.ipl3 = false := by
  have hlt := (taken_candidate s _ h).2
  have hp : s.priority (.irq n) < 8 := (s.seenField n).isLt
  unfold State.cpuIpl at hlt
  cases h3 : s.ipl3 with
  | false => rfl
  | true =>
    rw [h3, if_pos rfl] at hlt
    omega

/-! ## The parts of the statement -/

/-- The priority, INTTREG, `pc`, Run and W15 of an entry of `r`, with ALTIVT and NSTDIS as they are after the pushes. -/
def EntryRaised (r : Request) (s t : State) : Prop :=
  t.power = .run ∧ t.w15 = s.w15 + 4 ∧
  t.pc = s.progRead24 ((if t.altivt then 0x104 else 0x004) + 2 * r.vector) ∧
  (∀ n, r = .irq n →
    t.cpuIpl = (if t.nstdis then 7 else (s.seenField n).toNat) ∧
    t.inttreg.extractLsb' 8 4 = 0#1 ++ s.seenField n ∧ t.inttreg.extractLsb' 0 7 = BitVec.ofNat 7 n) ∧
  (∀ k, r = .trap k →
    t.cpuIpl = k.priority ∧ t.inttreg.extractLsb' 8 4 = BitVec.ofNat 4 k.priority)

/-- What no entry touches. -/
def EntryKept (s t : State) : Prop :=
  SameWorking s t ∧ SameAccs s t ∧ SameParameters s t ∧ t.pins = s.pins ∧ t.lateEntry = false

/-- The entry of `r` where its pushes wrote no register. -/
def EntryCompleted (r : Request) (s t : State) : Prop :=
  EntryRaised r s t ∧ EntryKept s t ∧ Entered r s t ∧ t.altivt = s.altivt ∧ t.nstdis = s.nstdis ∧ t.srh = s.srh ∧
  t.flags = s.flags ∧ SameSources { s with race := [] } t ∧ t.splim = s.splim ∧
  t.splimWritten = s.splimWritten ∧ t.trapr = s.trapr ∧ t.cf = s.cf ∧ (Ticked 4 s t ∨ Ticked 5 s t)

theorem entryRaised_vectored {r : Request} {s u : State} (hparams : SameParameters s u) (hw15 : u.w15 = s.w15 + 4)
    (hipl3 : ∀ n, r = .irq n → u.ipl3 = false) : EntryRaised r s (s.vectored r u) := by
  obtain ⟨hirq, htrap⟩ := entered_vectored r s u
  obtain ⟨hprog, -⟩ := hparams
  have hnstdis : (s.vectored r u).nstdis = u.nstdis := by
    obtain ⟨_, _, _, _, _, _, _, h⟩ := vectored_eq r s u
    rw [h]
    rfl
  refine ⟨State.vectorTo_power r (s.priority r) s.entryCycles u, (vectored_w15 r s u).trans hw15,
    ?_, fun n hr => ?_, fun k hr => ?_⟩
  · rw [vectored_altivt, State.vectored, State.bump_pc, State.vectorTo_pc, State.progRead24, hprog]
    rfl
  · obtain ⟨hipl, hcorcon, hinttreg⟩ := hirq n hr
    refine ⟨?_, hinttreg⟩
    have h3 : (s.vectored r u).ipl3 = false := (ipl3_congr hcorcon).trans (hipl3 n hr)
    rw [State.cpuIpl, h3, hipl, hnstdis]
    change 0 + (if u.nstdis then 7#3 else s.seenField n).toNat = _
    split <;> simp
  · obtain ⟨hcpu, -, -, hinttreg⟩ := htrap k hr
    exact ⟨hcpu, hinttreg⟩

/-- An entry in which nothing but memory, W15 and the flags of INTCON1 changed before the vectoring. -/
theorem entryCompleted_vectored {r : Request} {s u : State} {stk : Bool}
    (honly : OnlyAccessed { s with race := [] } u) (hraised : Raised stk false { s with race := [] } u)
    (hw15 : u.w15 = s.w15 + 4) (ht : s.taken = some r) : EntryCompleted r s (s.vectored r u) := by
  have hnstdis : u.nstdis = s.nstdis := by
    refine (hraised.1 15).1.trans ?_
    simp [accessFlag]
    rfl
  have hticked : Ticked s.entryCycles s (s.vectored r u) := by
    have h := ticked_vectored r s u
    obtain ⟨_, _, _, _, _, _, _, _, rfl⟩ := honly
    exact h
  have htick : Ticked 4 s (s.vectored r u) ∨ Ticked 5 s (s.vectored r u) := by
    obtain h | h := s.entryCycles_eq_or <;> rw [h] at hticked
    · exact .inl hticked
    · exact .inr hticked
  have hcorcon : u.corcon = s.corcon := by
    obtain ⟨_, _, _, _, _, _, _, _, rfl⟩ := honly
    rfl
  have hentered : Entered r s (s.vectored r u) := entered_vectorTo r s u s.entryCycles hnstdis hcorcon
  have hentry : EntryRaised r s (s.vectored r u) := by
    refine entryRaised_vectored ?_ hw15 fun n hr => (ipl3_congr hcorcon).trans (ipl3_of_taken_irq (hr ▸ ht))
    obtain ⟨_, _, _, _, _, _, _, _, rfl⟩ := honly
    exact ⟨rfl, rfl, rfl, rfl⟩
  have haltivt : (s.vectored r u).altivt = s.altivt := hticked.2.1 15 (by decide)
  obtain ⟨_, _, _, _, _, _, _, hvec⟩ := vectored_eq r s u
  rw [hvec] at hentry hentered htick haltivt ⊢
  refine ⟨hentry, ?_, hentered, haltivt, hnstdis, ?_⟩
  · obtain ⟨_, _, _, _, _, _, _, _, rfl⟩ := honly
    exact ⟨rfl, ⟨rfl, rfl⟩, ⟨rfl, rfl, rfl, rfl⟩, rfl, rfl⟩
  · obtain ⟨_, _, _, _, _, _, _, _, rfl⟩ := honly
    exact ⟨rfl, rfl, ⟨rfl, rfl, rfl, rfl⟩, rfl, rfl, rfl, rfl, htick⟩

theorem setTrapFlag_nstdis (k : TrapKind) (t : State) : (t.setTrapFlag k).nstdis = t.nstdis :=
  getLsbD_setBit_ne _ _ _ _ (by cases k <;> decide)

/-- The flag of the address error changes nothing of an entry (R204, R230). -/
theorem EntryCompleted.setTrapFlag {r : Request} {s t : State} (h : EntryCompleted r s t) :
    EntryCompleted r s (t.setTrapFlag .addrErr) := by
  obtain ⟨⟨hpower, hw15, hpc, hirq, htrap⟩, hkept, hentered, haltivt, hnstdis, hrest⟩ := h
  refine ⟨⟨hpower, hw15, hpc, fun n hr => ?_, htrap⟩, hkept, hentered, haltivt,
    (setTrapFlag_nstdis _ t).trans hnstdis, hrest⟩
  rw [setTrapFlag_nstdis]
  exact hirq n hr

end Sys2Proof.Machine
end

section
/-! PROOFS. What one push can do at an even address: a store at memory, a software write of a register, or nothing
(spec/20_memory.md R95 to R99, spec/40_interrupt_control_instructions.md R150, spec/60_exceptions.md R176). -/

namespace Sys2Proof.Machine

/-! ## What stays of the registers that were not written -/

/-- Register `q` is as it was with its hidden bits, but for the stack error, which was raised where `stk` says so, and
for INTCON2.DISI, which follows DISICNT. -/
def SameHeld (stk : Bool) (s u : State) : Sfr → Prop
  | .sr => (u.srh, u.ipl, u.flags) = (s.srh, s.ipl, s.flags)
  | .corcon => u.corcon = s.corcon
  | .intcon1 => Raised stk false s u
  | .intcon2 => setBit u.intcon2 14 false = setBit s.intcon2 14 false
  | .inttreg => u.inttreg = s.inttreg
  | .ifs i => u.ifs[i] = s.ifs[i]
  | .iec i => u.iec[i] = s.iec[i]
  | .ipc i => u.ipc[i] = s.ipc[i]
  | .disicnt => u.disicnt = s.disicnt
  | .splim => (u.splim, u.splimWritten) = (s.splim, s.splimWritten)
  | .rcon => u.trapr = s.trapr
  | .osccon => u.cf = s.cf

/-- From `s` to `u` no register was written but those in `hit`, and nothing of what no register and no store reaches
changed. -/
structure OnlyWrites (hit : Sfr → Prop) (stk : Bool) (s u : State) : Prop where
  working : SameWorking s u
  accs : SameAccs s u
  parameters : SameParameters s u
  pins : u.pins = s.pins
  ipl3 : s.ipl3 = false → u.ipl3 = false
  held : ∀ q, ¬ hit q → SameHeld stk s u q

theorem SameHeld.trans {stk stk' : Bool} {s t u : State} {q : Sfr} (h : SameHeld stk s t q)
    (h' : SameHeld stk' t u q) : SameHeld (stk || stk') s u q := by
  cases q with
  | intcon1 =>
    have := Raised.trans h h'
    rwa [Bool.or_false] at this
  | _ => exact Eq.trans h' h

theorem OnlyWrites.trans {hit hit' : Sfr → Prop} {stk stk' : Bool} {s t u : State} (h : OnlyWrites hit stk s t)
    (h' : OnlyWrites hit' stk' t u) : OnlyWrites (fun q => hit q ∨ hit' q) (stk || stk') s u where
  working := h'.working.trans h.working
  accs := ⟨h'.accs.1.trans h.accs.1, h'.accs.2.trans h.accs.2⟩
  parameters := h.parameters.trans h'.parameters
  pins := h'.pins.trans h.pins
  ipl3 := fun h3 => h'.ipl3 (h.ipl3 h3)
  held := fun q hq => (h.held q fun hc => hq (.inl hc)).trans (h'.held q fun hc => hq (.inr hc))

theorem OnlyWrites.mono {hit hit' : Sfr → Prop} {stk : Bool} {s u : State} (h : OnlyWrites hit stk s u)
    (hsub : ∀ q, hit q → hit' q) : OnlyWrites hit' stk s u :=
  ⟨h.working, h.accs, h.parameters, h.pins, h.ipl3, fun q hq => h.held q fun hc => hq (hsub q hc)⟩

/-- Accesses that write no register. -/
theorem OnlyAccessed.onlyWrites {stk : Bool} {s u : State} (h : OnlyAccessed s u) (hr : Raised stk false s u)
    (hit : Sfr → Prop) : OnlyWrites hit stk s u := by
  obtain ⟨_, _, _, _, _, _, _, _, rfl⟩ := h
  refine ⟨rfl, ⟨rfl, rfl⟩, ⟨rfl, rfl, rfl, rfl⟩, rfl, id, fun q _ => ?_⟩
  cases q with
  | intcon1 => exact hr
  | _ => rfl

theorem SameHeld.intcon2 {stk : Bool} {s u : State} (h : SameHeld stk s u .intcon2) (j : Nat) (hj : j ≠ 14) :
    u.intcon2.getLsbD j = s.intcon2.getLsbD j := by
  rw [← getLsbD_setBit_ne u.intcon2 14 j false hj, ← getLsbD_setBit_ne s.intcon2 14 j false hj]
  exact congrArg (·.getLsbD j) h

/-- The value of a register that was not written. -/
theorem SameHeld.sfrValue {stk : Bool} {s u : State} {q : Sfr} (h : SameHeld stk s u q) (hdev : u.dev = s.dev)
    (h1 : q ≠ .intcon1) (h2 : q ≠ .intcon2) (hr : q ≠ .rcon) (ho : q ≠ .osccon) : u.sfrValue q = s.sfrValue q := by
  cases q with
  | sr => exact congrArg (fun parts => parts.1 ++ parts.2.1 ++ parts.2.2) h
  | intcon1 => exact absurd rfl h1
  | intcon2 => exact absurd rfl h2
  | rcon => exact absurd rfl hr
  | osccon => exact absurd rfl ho
  | corcon => exact congrArg (· &&& 0x0FFF#16) h
  | inttreg => exact congrArg (· &&& 0x0F7F#16) h
  | ifs i => exact congrArg₂ (· &&& flagMask · i.val) h hdev
  | iec i => exact congrArg₂ (· &&& flagMask · i.val) h hdev
  | ipc i => exact congrArg₂ (· &&& prioMask · i.val) h hdev
  | disicnt => exact congrArg (0#2 ++ ·) h
  | splim => exact congrArg Prod.fst h

/-- The bits of a register of the tables that was not written. -/
theorem SameHeld.getLsbD_sfrValue {stk : Bool} {s u : State} {q : Sfr} (h : SameHeld stk s u q)
    (hdev : u.dev = s.dev) {w : State} {acc : Nat → Access} (hacc : tableAccess w q = some acc) {j : Nat}
    (hj : ¬ EntryWrites q j) : (u.sfrValue q).getLsbD j = (s.sfrValue q).getLsbD j := by
  obtain ⟨h1, -, -, hr, ho⟩ := tableAccess_ne hacc
  by_cases h2 : q = .intcon2
  · subst h2
    have h14 : j ≠ 14 := fun hc => hj (.inr (.inr (.inr ⟨rfl, hc⟩)))
    simp only [State.sfrValue, BitVec.getLsbD_and, h.intcon2 j h14]
  · rw [h.sfrValue hdev h1 h2 hr ho]

/-! ## A software write of a whole register -/

theorem vector_set_ne {n : Nat} (bank : Vector Word n) {i j : Fin n} (h : j ≠ i) (w : Word) :
    (bank.set i w)[j] = bank[j] :=
  Vector.getElem_set_ne i.isLt j.isLt fun hc => h (Fin.ext hc.symm)

theorem setBit_setBit (w : Word) (i : Nat) (b b' : Bool) : setBit (setBit w i b) i b' = setBit w i b' := by
  apply BitVec.eq_of_getLsbD_eq
  intro j hj
  by_cases h : j = i
  · subst h
    rw [getLsbD_setBit_self _ _ _ hj, getLsbD_setBit_self _ _ _ hj]
  · rw [getLsbD_setBit_ne _ _ _ _ h, getLsbD_setBit_ne _ _ _ _ h, getLsbD_setBit_ne _ _ _ _ h]

/-- Only a write of INTCON1 changes a trap flag or its mark. -/
theorem sfrUpdate_raises_nothing (r : Sfr) (hr : r ≠ .intcon1) (sel v : Word) (e : Eff) :
    Raised false false e.st (e.sfrUpdate r sel v).st := by
  cases r with
  | intcon1 => exact absurd rfl hr
  | rcon | osccon =>
    simp only [Eff.sfrUpdate, Eff.sfrBits, Eff.map_st]
    split <;> exact raised_of_same rfl rfl rfl
  | _ => exact raised_of_same rfl rfl rfl

/-- A write of one register leaves the others as they were (R40). -/
theorem sfrUpdate_held (r q : Sfr) (hq : q ≠ r) (sel v : Word) (e : Eff) :
    SameHeld false e.st (e.sfrUpdate r sel v).st q := by
  by_cases h1 : q = .intcon1
  · subst h1
    exact sfrUpdate_raises_nothing r (Ne.symm hq) sel v e
  cases r with
  | ifs i =>
    cases q with
    | ifs j => exact vector_set_ne _ (fun h => hq (congrArg _ h)) _
    | intcon1 => exact absurd rfl h1
    | _ => rfl
  | iec i =>
    cases q with
    | iec j => exact vector_set_ne _ (fun h => hq (congrArg _ h)) _
    | intcon1 => exact absurd rfl h1
    | _ => rfl
  | ipc i =>
    cases q with
    | ipc j => exact vector_set_ne _ (fun h => hq (congrArg _ h)) _
    | intcon1 => exact absurd rfl h1
    | _ => rfl
  | disicnt =>
    cases q with
    | disicnt => exact absurd rfl hq
    | intcon1 => exact absurd rfl h1
    | intcon2 =>
      simp only [SameHeld, Eff.sfrUpdate, Eff.sfrBits, Eff.map_st, State.wroteData_intcon2, State.writeDisicnt_intcon2]
      split
      · exact setBit_setBit _ _ _ _
      · rfl
    | _ => rfl
  | intcon1 =>
    simp only [Eff.sfrUpdate, Eff.sfrBits, Eff.writeIntcon1]
    split <;> cases q <;> first | exact absurd rfl h1 | rfl
  | rcon | osccon =>
    simp only [Eff.sfrUpdate, Eff.sfrBits, Eff.map_st]
    split <;> cases q <;> first | exact absurd rfl hq | exact absurd rfl h1 | rfl
  | sr | corcon | intcon2 | inttreg | splim =>
    cases q <;> first | exact absurd rfl hq | exact absurd rfl h1 | rfl

theorem sfrUpdate_onlyWrites (r : Sfr) (sel v : Word) (e : Eff) :
    OnlyWrites (· = r) false e.st (e.sfrUpdate r sel v).st := by
  have hbase : SameWorking e.st (e.sfrUpdate r sel v).st ∧ SameAccs e.st (e.sfrUpdate r sel v).st ∧
      (e.sfrUpdate r sel v).st.pins = e.st.pins := by
    cases r with
    | intcon1 =>
      simp only [Eff.sfrUpdate, Eff.sfrBits, Eff.writeIntcon1]
      split <;> exact ⟨rfl, ⟨rfl, rfl⟩, rfl⟩
    | rcon | osccon =>
      simp only [Eff.sfrUpdate, Eff.sfrBits, Eff.map_st]
      split <;> exact ⟨rfl, ⟨rfl, rfl⟩, rfl⟩
    | _ => exact ⟨rfl, ⟨rfl, rfl⟩, rfl⟩
  obtain ⟨hworking, haccs, hpins⟩ := hbase
  refine ⟨hworking, haccs, sfrUpdate_parameters r sel v e, hpins, fun h3 => ?_,
    fun q hq => sfrUpdate_held r q hq sel v e⟩
  exact Bool.eq_false_iff.2 fun hc => Bool.false_ne_true (h3.symm.trans ((RegWrite.sfr r sel v e).ipl3 hc))

/-- Registers are no memory (R96, R99). -/
theorem sfrUpdate_memory (r : Sfr) (sel v : Word) (e : Eff) : SameMemory e.st (e.sfrUpdate r sel v).st := by
  cases r with
  | intcon1 =>
    simp only [Eff.sfrUpdate, Eff.sfrBits, Eff.writeIntcon1]
    split <;> exact fun _ => rfl
  | rcon | osccon =>
    simp only [Eff.sfrUpdate, Eff.sfrBits, Eff.map_st]
    split <;> exact fun _ => rfl
  | _ => exact fun _ => rfl

/-- No trap of the effect is left to be judged. -/
def Clean (e : Eff) : Prop := e.addr = false ∧ e.swAddr = false ∧ e.swOsc = false

/-- Only a write of INTCON1 can ask for a hard trap (R29, R150). -/
theorem sfrUpdate_clean {r : Sfr} {sel v : Word} {e : Eff} (h : Clean e)
    (h1 : r = .intcon1 → AsksNoHardTrap e.st sel v) : Clean (e.sfrUpdate r sel v) := by
  cases r with
  | intcon1 =>
    obtain ⟨haddr, hsw, hosc, -⟩ := sfrUpdate_intcon1_soft sel v e (h1 rfl)
    obtain ⟨ha, hs, ho⟩ := h
    exact ⟨haddr.trans ha, hsw.trans hs, hosc.trans ho⟩
  | _ => exact h

/-- What a push of `v` wrote to the register `q`, but for the bits that the entry writes itself. -/
structure Wrote (q : Sfr) (v : Word) (s u : State) : Prop where
  table : ∀ acc j, tableAccess s q = some acc → j < 16 → ¬ EntryWrites q j →
    (u.sfrValue q).getLsbD j = (acc j).written ((s.sfrValue q).getLsbD j) (v.getLsbD j)
  intcon1 : q = .intcon1 → ∀ j, 1 ≤ j → j < 16 → j ≠ 2 → u.intcon1.getLsbD j = v.getLsbD j
  splim : q = .splim → u.splim = v ∧ u.splimWritten = true
  disicnt : q = .disicnt → u.disicnt = v.extractLsb' 0 14

theorem getLsbD_allOnes16 {b : Nat} (h : b < 16) : (0xFFFF#16).getLsbD b = true := by
  have hall : ∀ b : Fin 16, (0xFFFF#16).getLsbD b.val = true := by decide
  exact hall ⟨b, h⟩

/-- A write of all bits, where each can be written, stores the value. -/
theorem accessWrite_all {n : Nat} (old v : BitVec n) :
    accessWrite old v (BitVec.allOnes n) (BitVec.allOnes n) 0#n = v := by
  apply BitVec.eq_of_getLsbD_eq
  intro i hi
  rw [getLsbD_accessWrite]
  simp [hi]

theorem sfrUpdate_wrote (q : Sfr) (v : Word) (e : Eff) (h1 : q = .intcon1 → AsksNoHardTrap e.st 0xFFFF#16 v) :
    Wrote q v e.st (e.sfrUpdate q 0xFFFF#16 v).st where
  table := fun acc j hacc hj _ => by rw [sfrUpdate_bit q acc _ v e hacc j hj, if_pos (getLsbD_allOnes16 hj)]
  intcon1 := by
    rintro rfl j hj1 hj h2
    obtain ⟨-, -, -, -, -, -, hbits⟩ := sfrUpdate_intcon1_soft 0xFFFF#16 v e (h1 rfl)
    rw [hbits j hj1 hj h2, if_pos (getLsbD_allOnes16 hj)]
  splim := by
    rintro rfl
    exact ⟨accessWrite_all _ v, Bool.or_true _⟩
  disicnt := by
    rintro rfl
    exact accessWrite_all _ (v.extractLsb' 0 14)

/-- The access of the bits that an entry does not write itself is the same before and after other writes (R25). -/
theorem tableAccess_of_same {s u : State} {q : Sfr} {acc : Nat → Access} (hdev : u.dev = s.dev)
    (h : tableAccess s q = some acc) :
    ∃ acc', tableAccess u q = some acc' ∧ ∀ j, j < 16 → ¬ EntryWrites q j → acc' j = acc j := by
  have hsr : ∀ (n n' : Bool) (j : Fin 16), ¬ (5 ≤ j.val ∧ j.val ≤ 7) → srAccess n j = srAccess n' j := by decide
  cases q with
  | sr =>
    cases h
    exact ⟨_, rfl, fun j hj hentry => hsr _ _ ⟨j, hj⟩ fun hc => hentry (.inl ⟨rfl, hc⟩)⟩
  | ifs i | iec i | ipc i =>
    cases h
    exact ⟨_, rfl, fun _ _ _ => by rw [hdev]⟩
  | _ => exact ⟨acc, h, fun _ _ _ => rfl⟩

/-- Other writes before do not change what a push writes. -/
theorem Wrote.after {hit : Sfr → Prop} {stk : Bool} {q : Sfr} {v : Word} {s s' u : State} (h : Wrote q v s' u)
    (hbefore : OnlyWrites hit stk s s') (hq : ¬ hit q) : Wrote q v s u where
  table := fun acc j hacc hj hentry => by
    obtain ⟨-, -, -, hdev⟩ := hbefore.parameters
    obtain ⟨acc', hacc', hsame⟩ := tableAccess_of_same hdev hacc
    rw [h.table acc' j hacc' hj hentry, hsame j hj hentry, (hbefore.held q hq).getLsbD_sfrValue hdev hacc hentry]
  intcon1 := h.intcon1
  splim := h.splim
  disicnt := h.disicnt

/-- What a push wrote stays through other writes. -/
theorem Wrote.before {hit : Sfr → Prop} {stk : Bool} {q : Sfr} {v : Word} {s u u' : State} (h : Wrote q v s u)
    (hafter : OnlyWrites hit stk u u') (hq : ¬ hit q) : Wrote q v s u' where
  table := fun acc j hacc hj hentry => by
    obtain ⟨-, -, -, hdev⟩ := hafter.parameters
    rw [(hafter.held q hq).getLsbD_sfrValue hdev hacc hentry, h.table acc j hacc hj hentry]
  intcon1 := by
    rintro rfl j hj1 hj h2
    have hraised : Raised stk false u u' := hafter.held _ hq
    rw [(hraised.1 j).1, h.intcon1 rfl j hj1 hj h2]
    simp [accessFlag, h2]
  splim := by
    rintro rfl
    obtain ⟨hsplim, hwritten⟩ := Prod.mk.inj (hafter.held _ hq)
    obtain ⟨hv, ht⟩ := h.splim rfl
    exact ⟨hsplim.trans hv, hwritten.trans ht⟩
  disicnt := by
    rintro rfl
    exact Eq.trans (hafter.held _ hq) (h.disicnt rfl)

/-! ## The priorities that the next boundary uses -/

theorem OnlyAccessed.prioritiesSeen {s t u : State} (h : OnlyAccessed s t) (hu : PrioritiesSeen t u) :
    PrioritiesSeen s u := by
  obtain ⟨_, _, _, _, _, _, _, _, rfl⟩ := h
  exact hu

theorem PrioritiesSeen.onlyAccessed {s t u : State} (h : PrioritiesSeen s t) (hu : OnlyAccessed t u) :
    PrioritiesSeen s u := by
  obtain ⟨_, _, _, _, _, _, _, _, rfl⟩ := hu
  exact h

theorem prioritiesSeen_of_race {s u : State} (h : u.race = s.race) : PrioritiesSeen s u := fun hs n =>
  .inl (seenField_of_race_nil u (h.trans hs) n)

theorem sfrUpdate_priorities (q : Sfr) (sel v : Word) (e : Eff) : PrioritiesSeen e.st (e.sfrUpdate q sel v).st := by
  cases q with
  | ipc i => exact prioritiesSeen_writeIpc i sel v e.st
  | intcon1 =>
    simp only [Eff.sfrUpdate, Eff.sfrBits, Eff.writeIntcon1]
    split <;> exact prioritiesSeen_of_race rfl
  | rcon | osccon =>
    simp only [Eff.sfrUpdate, Eff.sfrBits, Eff.map_st]
    split <;> exact prioritiesSeen_of_race rfl
  | _ => exact prioritiesSeen_of_race rfl

/-! ## The push -/

/-- What the push of `v` at `a` did to memory: its two bytes where no register stands there, and nothing else. -/
def PushStored (s : State) (a v : Word) (u u' : State) : Prop :=
  (PlainRam s a → u'.wordAt a.toNat = v) ∧
  ∀ x, (PlainRam s a → x ≠ a.toNat ∧ x ≠ a.toNat + 1) → u'.byteAt x = u.byteAt x

/-- A push of `v` at `a` that met no address error has led from `s` to `u`, with the stack error where `stk` says so. -/
structure PushedAt (a v : Word) (stk : Bool) (s u : State) : Prop where
  w15 : u.w15 = a + 2
  writes : OnlyWrites (StandsAt s a) stk s u
  stored : PushStored s a v s u
  wrote : ∀ q, StandsAt s a q → Wrote q v s u
  priorities : PrioritiesSeen s u
  accessed : (∀ q, ¬ StandsAt s a q) → OnlyAccessed s u

theorem standsAt_congr {s u : State} (h : u.dev = s.dev) (a : Word) (q : Sfr) : StandsAt u a q ↔ StandsAt s a q := by
  rw [StandsAt, StandsAt, h]

/-- A push onto a register: the check, and then the write of all its bits (R99, R150, R176). -/
theorem push_register {v : Word} {e : Eff} (h : Clean e) {q : Sfr} (heven : e.st.w15.getLsbD 0 = false)
    (hq : StandsAt e.st e.st.w15 q) (hsoft : q = .intcon1 → SetsNoHardFlag e.st v) :
    Clean (e.push v) ∧ PushedAt e.st.w15 v (e.st.stackFaults e.st.w15.toNat) e.st (e.push v).st := by
  obtain ⟨ha, hs, ho⟩ := h
  obtain ⟨hd, hr⟩ := hq
  have hbase : Accessed e.st false e := ⟨⟨_, _, _, _, _, _, _, _, rfl⟩, raised_of_same rfl rfl rfl, hs, ho⟩
  have hcheck := hbase.stackCheck e.st.w15.toNat
  rw [Bool.false_or] at hcheck
  obtain ⟨hcheck_addr, -, hcheck_mem⟩ := stackCheck_keeps e e.st.w15.toNat
  have hpush : e.push v = ((e.stackCheck e.st.w15.toNat).sfrUpdate q 0xFFFF#16 v).map
      fun u => { u with w15 := e.st.w15 + 2 } := by
    rw [← write_sfr_word e.st.w15 v _ q heven (hcheck_addr.trans ha) (by rwa [hcheck.only.dev])
      (by rwa [hcheck.only.dev])]
    rfl
  rw [hpush]
  generalize e.stackCheck e.st.w15.toNat = x at hcheck hcheck_addr hcheck_mem
  have hasks : q = .intcon1 → AsksNoHardTrap x.st 0xFFFF#16 v := by
    rintro hq b hb - hv
    have h2 : b ≠ 2 := by omega
    rw [(hcheck.raised.1 b).1, hsoft hq b hb hv, Bool.true_or]
  have hmoved (u : State) : OnlyAccessed u { u with w15 := e.st.w15 + 2 } := ⟨_, _, _, _, _, _, _, _, rfl⟩
  have hchecked := hcheck.only.onlyWrites hcheck.raised (· = q)
  have hafter (u : State) : OnlyWrites (fun _ => False) false u { u with w15 := e.st.w15 + 2 } :=
    (hmoved u).onlyWrites (raised_of_same rfl rfl rfl) _
  have honly (p : Sfr) (hp : StandsAt e.st e.st.w15 p) : p = q := Option.some.inj (hp.2.symm.trans hr)
  have hclean : Clean x := ⟨hcheck_addr.trans ha, hcheck.swAddr, hcheck.swOsc⟩
  refine ⟨sfrUpdate_clean hclean hasks, rfl, ?_, ⟨fun hram => ?_, fun b _ => ?_⟩, fun p hp => ?_, ?_,
    fun hnone => absurd ⟨hd, hr⟩ (hnone q)⟩
  · have hall := (hchecked.trans (sfrUpdate_onlyWrites q 0xFFFF#16 v x)).trans (hafter _)
    rw [Bool.or_false, Bool.or_false] at hall
    refine hall.mono fun p hp => ?_
    obtain (rfl | rfl) | hf := hp
    · exact ⟨hd, hr⟩
    · exact ⟨hd, hr⟩
    · exact hf.elim
  · exact absurd (hr.symm.trans hram.2) (by simp)
  · exact (sfrUpdate_memory q 0xFFFF#16 v x b).trans (hcheck_mem b)
  · obtain rfl := honly p hp
    exact ((sfrUpdate_wrote p v x hasks).after (hcheck.only.onlyWrites hcheck.raised fun _ => False) id).before
      (hafter _) id
  · exact hcheck.only.prioritiesSeen ((sfrUpdate_priorities q 0xFFFF#16 v x).onlyAccessed (hmoved _))

/-- A push at an even address where no register stands: the check, and the store where there is memory (R96, R176). -/
theorem push_plain {v : Word} {e : Eff} (h : Clean e) (heven : e.st.w15.getLsbD 0 = false)
    (hnone : ∀ q, ¬ StandsAt e.st e.st.w15 q) :
    Clean (e.push v) ∧ PushedAt e.st.w15 v (e.st.stackFaults e.st.w15.toNat) e.st (e.push v).st := by
  obtain ⟨ha, hs, ho⟩ := h
  have hbase : Accessed e.st false e := ⟨⟨_, _, _, _, _, _, _, _, rfl⟩, raised_of_same rfl rfl rfl, hs, ho⟩
  have hreg (hd : dataImplemented e.st.dev e.st.w15 = true) : sfrAt e.st.dev e.st.w15.toNat = none :=
    Option.eq_none_iff_forall_ne_some.2 fun q hq => hnone q ⟨hd, hq⟩
  obtain ⟨hacc, haddr, hw15, hstored, hnot⟩ := hbase.push v fun _ _ hd => hreg hd
  rw [Bool.false_or] at hacc
  have hok : (e.push v).addr = false := by rw [haddr, ha, heven]; rfl
  refine ⟨⟨hok, hacc.swAddr, hacc.swOsc⟩, hw15, hacc.only.onlyWrites hacc.raised _,
    ⟨fun hram => (hstored hok hram).1, fun x hx => ?_⟩, fun q hq => absurd hq (hnone q),
    hacc.only.prioritiesSeen (prioritiesSeen_of_race rfl), fun _ => hacc.only⟩
  by_cases hd : dataImplemented e.st.dev e.st.w15 = true
  · obtain ⟨-, hmem⟩ := hstored hok ⟨hd, hreg hd⟩
    obtain ⟨h1, h2⟩ := hx ⟨hd, hreg hd⟩
    exact hmem x (by omega)
  · exact hnot (.inr (Bool.eq_false_iff.2 hd)) x

/-- Every push at an even address that asks for no hard trap. -/
theorem push_even {v : Word} {e : Eff} (h : Clean e) (heven : e.st.w15.getLsbD 0 = false)
    (hsoft : StandsAt e.st e.st.w15 .intcon1 → SetsNoHardFlag e.st v) :
    Clean (e.push v) ∧ PushedAt e.st.w15 v (e.st.stackFaults e.st.w15.toNat) e.st (e.push v).st := by
  by_cases hreg : ∃ q, StandsAt e.st e.st.w15 q
  · obtain ⟨q, hq⟩ := hreg
    exact push_register h heven hq fun h1 => hsoft (h1 ▸ hq)
  · exact push_plain h heven fun q hq => hreg ⟨q, hq⟩

end Sys2Proof.Machine
end

section
/-! PROOFS. The entry of an exception whose pushes meet registers, holes, the limits of the stack or an odd W15
(spec/60_exceptions.md R176, R177, R212, R214, R224 to R230). -/

namespace Sys2Proof.Machine

/-! ## What the vectoring leaves of the pushes -/

section
variable (r : Request) (s u : State)

theorem vectored_memory : SameMemory u (s.vectored r u) := by
  obtain ⟨_, _, _, _, _, _, _, h⟩ := vectored_eq r s u
  rw [h]
  exact fun _ => rfl

theorem vectored_raises_nothing : Raised false false u (s.vectored r u) := by
  obtain ⟨_, _, _, _, _, _, _, h⟩ := vectored_eq r s u
  rw [h]
  exact raised_of_same rfl rfl rfl

theorem vectored_intcon1 : (s.vectored r u).intcon1 = u.intcon1 :=
  State.vectorTo_intcon1 r (s.priority r) s.entryCycles u

theorem vectored_sameStatus : (s.vectored r u).srh = u.srh ∧ (s.vectored r u).flags = u.flags := by
  obtain ⟨_, _, _, _, _, _, _, h⟩ := vectored_eq r s u
  rw [h]
  exact ⟨rfl, rfl⟩

/-- A register that neither the entry nor its tick writes. -/
theorem vectored_sfrValue (q : Sfr)
    (hq : ¬ q ∈ ([.sr, .corcon, .inttreg, .intcon1, .intcon2, .disicnt, .rcon, .osccon] : List Sfr)) :
    (s.vectored r u).sfrValue q = u.sfrValue q := by
  obtain ⟨_, _, _, _, _, _, _, h⟩ := vectored_eq r s u
  rw [h]
  cases q with
  | ifs i | iec i | ipc i | splim => rfl
  | _ => simp at hq

/-- A bit that neither the entry nor its tick writes (R142, R226, R227). -/
theorem vectored_getLsbD_sfrValue {w : State} {q : Sfr} {acc : Nat → Access} (hacc : tableAccess w q = some acc)
    {j : Nat} (hj : ¬ EntryWrites q j) :
    ((s.vectored r u).sfrValue q).getLsbD j = (u.sfrValue q).getLsbD j := by
  cases q with
  | sr =>
    obtain ⟨hsrh, hflags⟩ := vectored_sameStatus r s u
    simp only [State.sfrValue, getLsbD_sr, hsrh, hflags]
    have hmid : ¬ (5 ≤ j ∧ j ≤ 7) := fun h => hj (.inl ⟨rfl, h⟩)
    split
    · rfl
    · rw [if_neg (by omega), if_neg (by omega)]
  | corcon =>
    have h3 : j ≠ 3 := fun h => hj (.inr (.inl ⟨rfl, h⟩))
    simp only [State.sfrValue, BitVec.getLsbD_and, vectored_corcon r s u j h3]
  | intcon2 =>
    have h14 : j ≠ 14 := fun h => hj (.inr (.inr (.inr ⟨rfl, h⟩)))
    simp only [State.sfrValue, BitVec.getLsbD_and, (ticked_vectored r s u).2.1 j h14]
  | inttreg => exact absurd (.inr (.inr (.inl rfl))) hj
  | ifs i | iec i | ipc i => rw [vectored_sfrValue r s u _ (by simp)]
  | intcon1 | disicnt | splim | rcon | osccon => cases hacc

theorem vectored_prioritiesSeen {w : State} (h : PrioritiesSeen w u) : PrioritiesSeen w (s.vectored r u) := by
  obtain ⟨_, _, _, _, _, _, _, hvec⟩ := vectored_eq r s u
  rw [hvec]
  exact h

/-- The registers that are neither in SR nor in CORCON, with their hidden bits. -/
theorem vectored_hidden : (s.vectored r u).splim = u.splim ∧ (s.vectored r u).splimWritten = u.splimWritten ∧
    (s.vectored r u).trapr = u.trapr ∧ (s.vectored r u).cf = u.cf := by
  obtain ⟨_, _, _, _, _, _, _, h⟩ := vectored_eq r s u
  rw [h]
  exact ⟨rfl, rfl, rfl, rfl⟩

end

/-! ## The two pushes -/

/-- The state in which the pushes begin: the race of a rewritten priority with this boundary is over (R68, R229). -/
def State.entering (s : State) : State := { s with race := [] }

/-- The effect of the first push (R225). -/
def State.firstPush (s : State) : Eff := s.entering.eff.push (frame s.dev s.pc s.srl s.ipl3).1

theorem pushFrame_eq (s : State) :
    s.entering.pushFrame = s.firstPush.push (frame s.dev s.pc s.srl s.ipl3).2 := rfl

theorem getLsbD_add_two {w : Word} (h : w.getLsbD 0 = false) : (w + 2).getLsbD 0 = false := by
  have h0 : w.toNat.testBit 0 = false := h
  change (w + 2).toNat.testBit 0 = false
  rw [Nat.testBit_zero, decide_eq_false_iff_not] at h0 ⊢
  rw [BitVec.toNat_add]
  change ¬ (w.toNat + 2) % 65536 % 2 = 1
  omega

/-- The pushes at an even W15, that ask for no hard trap. -/
theorem pushFrame_even {s : State} (heven : s.w15.getLsbD 0 = false)
    (hfirst : StandsAt s s.w15 .intcon1 → SetsNoHardFlag s (frame s.dev s.pc s.srl s.ipl3).1)
    (hsecond : StandsAt s (s.w15 + 2) .intcon1 →
      ¬ StandsAt s s.w15 .intcon1 ∧ SetsNoHardFlag s (frame s.dev s.pc s.srl s.ipl3).2) :
    Clean s.entering.pushFrame ∧
    PushedAt s.w15 (frame s.dev s.pc s.srl s.ipl3).1 (s.stackFaults s.w15.toNat) s.entering s.firstPush.st ∧
    PushedAt (s.w15 + 2) (frame s.dev s.pc s.srl s.ipl3).2 (s.firstPush.st.stackFaults (s.w15 + 2).toNat)
      s.firstPush.st s.entering.pushFrame.st := by
  obtain ⟨hclean, hpushed⟩ := push_even (v := (frame s.dev s.pc s.srl s.ipl3).1) (e := s.entering.eff)
    ⟨rfl, rfl, rfl⟩ heven hfirst
  change Clean s.firstPush at hclean
  change PushedAt s.w15 _ _ s.entering s.firstPush.st at hpushed
  rw [pushFrame_eq]
  have hw15 := hpushed.w15
  obtain ⟨-, -, -, hdev⟩ := hpushed.writes.parameters
  have heven' : s.firstPush.st.w15.getLsbD 0 = false := by
    rw [hw15]
    exact getLsbD_add_two heven
  have hsoft : StandsAt s.firstPush.st s.firstPush.st.w15 .intcon1 →
      SetsNoHardFlag s.firstPush.st (frame s.dev s.pc s.srl s.ipl3).2 := by
    rw [hw15, standsAt_congr hdev]
    intro hb j hj hv
    obtain ⟨ha, hset⟩ := hsecond hb
    have hraised : Raised _ false s.entering s.firstPush.st := hpushed.writes.held .intcon1 ha
    rw [(hraised.1 j).1]
    exact Bool.or_eq_true_iff.2 (.inl (hset j hj hv))
  obtain ⟨hclean', hpushed'⟩ := push_even hclean heven' hsoft
  rw [hw15] at hpushed'
  exact ⟨hclean', hpushed, hpushed'⟩

/-- The pushes at an odd W15: nothing is stored, the checks and W15 alone (R97, R100, R176). -/
theorem pushFrame_odd {s : State} (hodd : s.w15.getLsbD 0 = true) :
    Accessed s.entering (s.stackFaults s.w15.toNat || s.stackFaults (s.w15 + 2).toNat) s.entering.pushFrame ∧
    s.entering.pushFrame.addr = true ∧ s.entering.pushFrame.st.w15 = s.w15 + 4 ∧
    SameMemory s s.entering.pushFrame.st := by
  obtain ⟨hacc, haddr, hw15, -, hmem⟩ :=
    (accessed_eff s.entering).push (frame s.dev s.pc s.srl s.ipl3).1 fun _ heven =>
      absurd (hodd.symm.trans heven) (by decide)
  have ha : s.firstPush.addr = true := haddr.trans ((Bool.or_eq_true_iff).2 (.inr hodd))
  obtain ⟨hacc', haddr', hw15', -, hmem'⟩ :=
    Accessed.push (e := s.firstPush) hacc (frame s.dev s.pc s.srl s.ipl3).2 fun hc =>
      absurd (ha.symm.trans hc) (by decide)
  have hw : s.firstPush.st.w15 = s.w15 + 2 := hw15
  have ha' : s.entering.pushFrame.addr = true := haddr'.trans (by rw [ha, Bool.true_or])
  rw [hw] at hacc' hw15'
  rw [Bool.false_or] at hacc'
  refine ⟨hacc', ha', hw15'.trans (by rw [BitVec.add_assoc]; rfl), fun x => ?_⟩
  exact (hmem' (.inl ha') x).trans (hmem (.inl ha) x)

/-- Two even addresses are different words (R96). -/
theorem even_apart {a : Word} (h : a.getLsbD 0 = false) :
    a.toNat ≠ (a + 2).toNat ∧ a.toNat ≠ (a + 2).toNat + 1 ∧ a.toNat + 1 ≠ (a + 2).toNat := by
  have h0 : a.toNat.testBit 0 = false := h
  rw [Nat.testBit_zero, decide_eq_false_iff_not] at h0
  rw [BitVec.toNat_add]
  change a.toNat ≠ (a.toNat + 2) % 65536 ∧ a.toNat ≠ (a.toNat + 2) % 65536 + 1 ∧ a.toNat + 1 ≠ (a.toNat + 2) % 65536
  have := a.isLt
  omega

/-- Where there is memory the words `v` and `w` of a frame at `a` stand in `u`, and no other byte has changed from `s`
to `u`. -/
def FrameStored (s : State) (a v w : Word) (u : State) : Prop :=
  (PlainRam s a → u.wordAt a.toNat = v) ∧ (PlainRam s (a + 2) → u.wordAt (a + 2).toNat = w) ∧
  ∀ x, (PlainRam s a → x ≠ a.toNat ∧ x ≠ a.toNat + 1) →
    (PlainRam s (a + 2) → x ≠ (a + 2).toNat ∧ x ≠ (a + 2).toNat + 1) → u.byteAt x = s.byteAt x

theorem FrameStored.sameMemory {s u t : State} {a v w : Word} (h : FrameStored s a v w u) (hm : SameMemory u t) :
    FrameStored s a v w t := by
  obtain ⟨hfirst, hsecond, hrest⟩ := h
  refine ⟨fun hram => ?_, fun hram => ?_, fun x hx hx' => (hm x).trans (hrest x hx hx')⟩
  · rw [wordAt_of_sameMemory hm]
    exact hfirst hram
  · rw [wordAt_of_sameMemory hm]
    exact hsecond hram

/-- The word at `o` of a frame whose other word, at `d`, went to no memory. -/
theorem FrameStored.other {s u : State} {a v₁ v₂ d o v w : Word} (h : FrameStored s a v₁ v₂ u)
    (hcase : (d = a ∧ o = a + 2 ∧ v = v₁ ∧ w = v₂) ∨ (d = a + 2 ∧ o = a ∧ v = v₂ ∧ w = v₁)) (hd : ¬ PlainRam s d) :
    (PlainRam s o → u.wordAt o.toNat = w) ∧
    ∀ x, (PlainRam s o → x ≠ o.toNat ∧ x ≠ o.toNat + 1) → u.byteAt x = s.byteAt x := by
  obtain ⟨hfirst, hsecond, hrest⟩ := h
  obtain ⟨rfl, rfl, rfl, rfl⟩ | ⟨rfl, rfl, rfl, rfl⟩ := hcase
  · exact ⟨hsecond, fun x hx => hrest x (fun hram => absurd hram hd) hx⟩
  · exact ⟨hfirst, fun x hx => hrest x hx fun hram => absurd hram hd⟩

/-- What two pushes stored: each word stays where there is memory, and nothing else changed. -/
theorem two_pushes_stored {s u u' : State} {a v w : Word} (heven : a.getLsbD 0 = false)
    (h : PushStored s a v s u) (h' : PushStored s (a + 2) w u u') :
    FrameStored s a v w u' := by
  obtain ⟨hword, hrest⟩ := h
  obtain ⟨hword', hrest'⟩ := h'
  obtain ⟨h1, h2, h3⟩ := even_apart heven
  refine ⟨fun hram => ?_, hword', fun x hx hx' => (hrest' x hx').trans (hrest x hx)⟩
  rw [← hword hram, State.wordAt, State.wordAt, hrest' _ fun _ => ⟨h1, h2⟩, hrest' _ fun _ => ⟨h3, by omega⟩]

theorem PushedAt.w15_second {s u : State} {a v : Word} {stk : Bool} (h : PushedAt (a + 2) v stk s u) : u.w15 = a + 4 :=
  h.w15.trans (by rw [BitVec.add_assoc]; rfl)

section
variable {s u₁ u₂ : State} {a v₁ v₂ : Word} {stk₁ stk₂ : Bool} (h₁ : PushedAt a v₁ stk₁ s u₁)
  (h₂ : PushedAt (a + 2) v₂ stk₂ u₁ u₂)
include h₁ h₂

theorem two_pushes_writes :
    OnlyWrites (fun p => StandsAt s a p ∨ StandsAt s (a + 2) p) (stk₁ || stk₂) s u₂ := by
  obtain ⟨-, -, -, hdev⟩ := h₁.writes.parameters
  exact (h₁.writes.trans h₂.writes).mono fun p => Or.imp_right (standsAt_congr hdev _ p).1

theorem two_pushes_memory (heven : a.getLsbD 0 = false) :
    FrameStored s a v₁ v₂ u₂ := by
  obtain ⟨-, -, -, hdev⟩ := h₁.writes.parameters
  have h := h₂.stored
  rw [PushStored, PlainRam, hdev] at h
  exact two_pushes_stored heven h₁.stored h

/-- Two pushes of which the one, of `v` at `d`, wrote the register `q`, and the other, at `o`, did not. -/
theorem two_pushes_wrote {d o v w : Word} {q : Sfr}
    (hcase : (d = a ∧ o = a + 2 ∧ v = v₁ ∧ w = v₂) ∨ (d = a + 2 ∧ o = a ∧ v = v₂ ∧ w = v₁))
    (hd : StandsAt s d q) (ho : ¬ StandsAt s o q) :
    Wrote q v s u₂ ∧ (sfrAt s.dev o.toNat = none → PrioritiesSeen s u₂) := by
  obtain ⟨-, -, -, hdev⟩ := h₁.writes.parameters
  obtain ⟨rfl, rfl, rfl, rfl⟩ | ⟨rfl, rfl, rfl, rfl⟩ := hcase
  · refine ⟨(h₁.wrote q hd).before h₂.writes (mt (standsAt_congr hdev _ q).1 ho), fun hnone => ?_⟩
    refine h₁.priorities.onlyAccessed (h₂.accessed fun p hp => ?_)
    have hp' := ((standsAt_congr hdev _ p).1 hp).2
    exact absurd (hp'.symm.trans hnone) (by simp)
  · refine ⟨(h₂.wrote q ((standsAt_congr hdev _ q).2 hd)).after h₁.writes ho, fun hnone => ?_⟩
    refine (h₁.accessed fun p hp => ?_).prioritiesSeen h₂.priorities
    exact absurd (hp.2.symm.trans hnone) (by simp)

end

/-! ## The statement's cases -/

theorem EntryRaised.cpuIpl_lt {r : Request} {s t : State} (h : EntryRaised r s t) (hp : s.priority r < 13) :
    t.cpuIpl < 13 := by
  obtain ⟨-, -, -, hirq, htrap⟩ := h
  cases r with
  | irq n =>
    rw [(hirq n rfl).1]
    have := (s.seenField n).isLt
    split <;> omega
  | trap k =>
    rw [(htrap k rfl).1]
    exact hp

section
variable {s : State} {r : Request} (ht : s.taken = some r)
include ht

/-- No register and an even W15: the frame is stored where there is memory, and the entry completes. -/
theorem entry_plain (heven : s.w15.getLsbD 0 = false) (ha : ∀ q, ¬ StandsAt s s.w15 q)
    (hb : ∀ q, ¬ StandsAt s (s.w15 + 2) q) :
    let t := takeException r s
    EntryCompleted r s t ∧ Raised (s.stackFaults s.w15.toNat || s.stackFaults (s.w15 + 2).toNat) false s t ∧
    FrameStored s s.w15 (frame s.dev s.pc s.srl s.ipl3).1 (frame s.dev s.pc s.srl s.ipl3).2 t := by
  obtain ⟨⟨haddr, hsw, hosc⟩, h₁, h₂⟩ :=
    pushFrame_even heven (fun h => absurd h (ha _)) fun h => absurd h (hb _)
  obtain ⟨-, -, -, hdev⟩ := h₁.writes.parameters
  have honly₁ : OnlyAccessed s.entering s.firstPush.st := h₁.accessed ha
  have honly := honly₁.trans (h₂.accessed fun q hq => hb q ((standsAt_congr hdev _ q).1 hq))
  have hraised : Raised _ false s.entering s.entering.pushFrame.st :=
    (two_pushes_writes h₁ h₂).held .intcon1 fun h => h.elim (ha _) (hb _)
  rw [honly₁.stackFaults] at hraised
  have hraised' := hraised.trans (vectored_raises_nothing r s s.entering.pushFrame.st)
  rw [Bool.or_false] at hraised'
  have heq : takeException r s = s.vectored r s.entering.pushFrame.st := by
    rw [takeException_eq]
    exact settle_quiet _ _ haddr hsw hosc
  have hmem := two_pushes_memory h₁ h₂ heven
  rw [heq]
  exact ⟨entryCompleted_vectored honly hraised (h₂.w15_second) ht, hraised',
    hmem.sameMemory (vectored_memory r s _)⟩

/-- An odd W15: the address error is judged against the priority that the entry has set (R97, R230). -/
theorem entry_odd (hodd : s.w15.getLsbD 0 = true) :
    ∃ e : Eff, takeException r s = e.settle e.st ∧ e.addr = true ∧ e.swOsc = false ∧ EntryCompleted r s e.st ∧
      Raised (s.stackFaults s.w15.toNat || s.stackFaults (s.w15 + 2).toNat) false s e.st ∧ SameMemory s e.st := by
  obtain ⟨hacc, haddr, hw15, hmem⟩ := pushFrame_odd hodd
  have hraised := hacc.raised.trans (vectored_raises_nothing r s s.entering.pushFrame.st)
  rw [Bool.or_false] at hraised
  exact ⟨s.entering.pushFrame.map (s.vectored r), takeException_eq r s, haddr, hacc.swOsc,
    entryCompleted_vectored hacc.only hacc.raised hw15 ht, hraised,
    fun x => (vectored_memory r s _ x).trans (hmem x)⟩

/-- The address error of an odd W15 stays pending below a hard trap (R204, R210, R230). -/
theorem entry_odd_pends (hodd : s.w15.getLsbD 0 = true) (hosc : s.trapPending .oscFail = false)
    (hlt : s.priority r < 13) :
    let t := takeException r s
    t.trapPending .addrErr = true ∧
    ((s.stackFaults s.w15.toNat || s.stackFaults (s.w15 + 2).toNat) = true → t.trapPending .stkErr = true) ∧
    EntryCompleted r s t ∧ SameMemory s t := by
  obtain ⟨e, heq, haddr, hsw, hcompleted, hraised, hmem⟩ := entry_odd ht hodd
  have hpends : HardTrapPends e.st := ⟨hraised.oscFail_pending.trans hosc, hcompleted.1.cpuIpl_lt hlt⟩
  rw [heq, settle_pends e.st e haddr hsw hpends]
  refine ⟨setTrapFlag_pending _ _, fun hstk => ?_, hcompleted.setTrapFlag, fun x => hmem x⟩
  rw [hstk] at hraised
  exact (setTrapFlag_pending_ne _ _ _ (by decide)).trans hraised.stkErr_pending

/-- It conflicts with a pending oscillator failure trap (R212). -/
theorem entry_odd_conflicts (hodd : s.w15.getLsbD 0 = true) (hosc : s.trapPending .oscFail = true) :
    ConflictReset s (takeException r s) := by
  obtain ⟨e, heq, haddr, -, ⟨-, ⟨-, -, hparams, -⟩, -⟩, hraised, -⟩ := entry_odd ht hodd
  rw [heq]
  refine settle_conflict e.st e (by rw [haddr, Bool.true_or]) ?_ s hparams
  rw [State.hardConflict, hraised.oscFail_pending, hosc, Bool.true_or]

/-- It comes at its own level at the entry of the address error trap (R214). -/
theorem entry_odd_sameLevel (hodd : s.w15.getLsbD 0 = true) (hosc : s.trapPending .oscFail = false)
    (hr : r = .trap .addrErr) :
    ConflictReset s (takeException r s) ∨
      ((takeException r s).power = .halt ∧ (takeException r s).trapPending .addrErr = true ∧
        Entered r s (takeException r s) ∧ (takeException r s).w15 = s.w15 + 4 ∧ SameMemory s (takeException r s)) := by
  obtain ⟨e, heq, haddr, hsw, hcompleted, hraised, hmem⟩ := entry_odd ht hodd
  obtain ⟨⟨-, hw15, -⟩, ⟨-, -, hparams, -⟩, hentered, -⟩ := hcompleted
  have h13 : e.st.cpuIpl = 13 := (hentered.2 _ hr).1
  have hconflict : e.st.hardConflict = false := by
    rw [State.hardConflict, hraised.oscFail_pending, hosc, h13]
    rfl
  rw [heq]
  refine (settle_sameLevel e.st e (by rw [haddr, Bool.true_or]) hsw hconflict h13 s hparams).imp_right fun h => ?_
  rw [h]
  exact ⟨rfl, setTrapFlag_pending .addrErr e.st, hentered, hw15, fun x => hmem x⟩

end

/-- No register that a push can hit is among what an entry keeps. -/
theorem entryKept_vectored {hit : Sfr → Prop} {stk : Bool} {s u : State} (r : Request)
    (h : OnlyWrites hit stk s.entering u) : EntryKept s (s.vectored r u) := by
  obtain ⟨hworking, haccs, hparams, hpins, -, -⟩ := h
  obtain ⟨_, _, _, _, _, _, _, hvec⟩ := vectored_eq r s u
  rw [hvec]
  exact ⟨hworking, haccs, hparams, hpins, rfl⟩

/-- The register that a push wrote, at the end of the entry (R142, R226). -/
theorem Wrote.vectored {q : Sfr} {v : Word} {s u : State} (h : Wrote q v s.entering u) (r : Request) :
    let t := s.vectored r u
    (∀ acc j, tableAccess s q = some acc → j < 16 → ¬ EntryWrites q j →
      (t.sfrValue q).getLsbD j = (acc j).written ((s.sfrValue q).getLsbD j) (v.getLsbD j)) ∧
    (q = .intcon1 → ∀ j, 1 ≤ j → j < 16 → j ≠ 2 → t.intcon1.getLsbD j = v.getLsbD j) ∧
    (q = .splim → t.splim = v ∧ t.splimWritten = true) ∧
    (q = .disicnt → t.disicnt.toNat = (v.extractLsb' 0 14).toNat - 4 ∨
      t.disicnt.toNat = (v.extractLsb' 0 14).toNat - 5) := by
  obtain ⟨hsplim, hwritten, -, -⟩ := vectored_hidden r s u
  obtain ⟨hcount, -⟩ := ticked_vectored r s u
  refine ⟨fun acc j hacc hj hentry => ?_, fun h1 j hj1 hj h2 => ?_, fun hs => ?_, fun hdis => ?_⟩
  · rw [vectored_getLsbD_sfrValue r s u hacc hentry]
    exact h.table acc j hacc hj hentry
  · exact (congrArg (·.getLsbD j) (vectored_intcon1 r s u)).trans (h.intcon1 h1 j hj1 hj h2)
  · obtain ⟨hv, hset⟩ := h.splim hs
    exact ⟨hsplim.trans hv, hwritten.trans hset⟩
  · rw [hcount, h.disicnt hdis]
    obtain h | h := s.entryCycles_eq_or <;> rw [h]
    · exact .inl rfl
    · exact .inr rfl

/-- The registers that no push hit, at the end of the entry (R142, R226, R227). -/
theorem OnlyWrites.vectored {hit : Sfr → Prop} {stk : Bool} {s u : State} (h : OnlyWrites hit stk s.entering u)
    (r : Request) :
    let t := s.vectored r u
    (∀ p, ¬ hit p → ¬ p ∈ ([.sr, .corcon, .inttreg, .intcon1, .intcon2, .disicnt, .rcon, .osccon] : List Sfr) →
      t.sfrValue p = s.sfrValue p) ∧
    (¬ hit .sr → t.srh = s.srh ∧ t.flags = s.flags) ∧
    (¬ hit .corcon → ∀ j, j ≠ 3 → t.corcon.getLsbD j = s.corcon.getLsbD j) ∧
    (¬ hit .intcon2 → ∀ j, j ≠ 14 → t.intcon2.getLsbD j = s.intcon2.getLsbD j) ∧
    (¬ hit .splim → t.splimWritten = s.splimWritten) ∧ (¬ hit .rcon → t.trapr = s.trapr) ∧
    (¬ hit .osccon → t.cf = s.cf) := by
  obtain ⟨-, -, -, hdev⟩ := h.parameters
  obtain ⟨-, hwritten, htrapr, hcf⟩ := vectored_hidden r s u
  obtain ⟨hsrh, hflags⟩ := vectored_sameStatus r s u
  obtain ⟨-, hticked, -⟩ := ticked_vectored r s u
  refine ⟨fun p hp hlist => ?_, fun hnot => ?_, fun hnot j hj => ?_, fun hnot j hj => ?_,
    fun hnot => hwritten.trans (Prod.mk.inj (h.held .splim hnot)).2, fun hnot => htrapr.trans (h.held .rcon hnot),
    fun hnot => hcf.trans (h.held .osccon hnot)⟩
  · have hne (p' : Sfr)
        (h' : p' ∈ ([.sr, .corcon, .inttreg, .intcon1, .intcon2, .disicnt, .rcon, .osccon] : List Sfr)) : p ≠ p' :=
      fun hc => hlist (hc ▸ h')
    rw [vectored_sfrValue r s u p hlist]
    exact (h.held p hp).sfrValue hdev (hne _ (by simp)) (hne _ (by simp)) (hne _ (by simp)) (hne _ (by simp))
  · obtain ⟨hsrh', hrest⟩ := Prod.mk.inj (h.held .sr hnot)
    exact ⟨hsrh.trans hsrh', hflags.trans (Prod.mk.inj hrest).2⟩
  · have hcorcon : u.corcon = s.corcon := h.held .corcon hnot
    rw [vectored_corcon r s u j hj, hcorcon]
  · rw [hticked j hj]
    exact SameHeld.intcon2 (h.held .intcon2 hnot) j hj

/-- No register stands where there is memory or nothing. -/
theorem not_standsAt {s : State} {a : Word} (h : PlainRam s a ∨ dataImplemented s.dev a = false) (q : Sfr) :
    ¬ StandsAt s a q := by
  rintro ⟨hd, hq⟩
  obtain ⟨-, hr⟩ | hno := h
  · exact absurd (hq.symm.trans hr) (by simp)
  · exact absurd (hd.symm.trans hno) (by decide)

/-- Only one register stands at an address. -/
theorem standsAt_unique {s : State} {a : Word} {p q : Sfr} (hp : StandsAt s a p) (hq : StandsAt s a q) : p = q :=
  Option.some.inj (hp.2.symm.trans hq.2)

/-- The state of the pushes of an entry that puts the word `v` at the register `q` and `w` at `o`, and asks for no hard
trap. -/
theorem entry_onto_register {s : State} (r : Request) (heven : s.w15.getLsbD 0 = false)
    {d o v w : Word} {q : Sfr}
    (hcase : (d = s.w15 ∧ o = s.w15 + 2 ∧ v = (frame s.dev s.pc s.srl s.ipl3).1 ∧
        w = (frame s.dev s.pc s.srl s.ipl3).2) ∨
      (d = s.w15 + 2 ∧ o = s.w15 ∧ v = (frame s.dev s.pc s.srl s.ipl3).2 ∧ w = (frame s.dev s.pc s.srl s.ipl3).1))
    (hd : StandsAt s d q) (ho : ¬ StandsAt s o q) (hsoft : q = .intcon1 → SetsNoHardFlag s v)
    (hsoft' : StandsAt s o .intcon1 → SetsNoHardFlag s w) :
    ∃ u stk, takeException r s = s.vectored r u ∧ u.w15 = s.w15 + 4 ∧
      OnlyWrites (fun p => StandsAt s s.w15 p ∨ StandsAt s (s.w15 + 2) p) stk s.entering u ∧
      (d.toNat < 0x0800 → stk = true) ∧ Wrote q v s.entering u ∧
      (sfrAt s.dev o.toNat = none → PrioritiesSeen s.entering u) ∧
      (PlainRam s o → u.wordAt o.toNat = w) ∧
      ∀ x, (PlainRam s o → x ≠ o.toNat ∧ x ≠ o.toNat + 1) → u.byteAt x = s.byteAt x := by
  have hfirst : StandsAt s s.w15 .intcon1 → SetsNoHardFlag s (frame s.dev s.pc s.srl s.ipl3).1 := by
    intro h1
    obtain ⟨rfl, -, rfl, -⟩ | ⟨-, rfl, -, rfl⟩ := hcase
    · exact hsoft (standsAt_unique hd h1)
    · exact hsoft' h1
  have hsecond : StandsAt s (s.w15 + 2) .intcon1 →
      ¬ StandsAt s s.w15 .intcon1 ∧ SetsNoHardFlag s (frame s.dev s.pc s.srl s.ipl3).2 := by
    intro h1
    obtain ⟨rfl, rfl, -, rfl⟩ | ⟨rfl, rfl, rfl, -⟩ := hcase
    · exact ⟨fun h => ho (standsAt_unique h hd ▸ h1), hsoft' h1⟩
    · obtain rfl := standsAt_unique hd h1
      exact ⟨ho, hsoft rfl⟩
  obtain ⟨⟨haddr, hsw, hosc⟩, h₁, h₂⟩ := pushFrame_even heven hfirst hsecond
  obtain ⟨hwrote, hpriorities⟩ := two_pushes_wrote h₁ h₂ hcase hd ho
  have hstored := (two_pushes_memory h₁ h₂ heven).other hcase fun hram => absurd (hd.2.symm.trans hram.2) (by simp)
  have hwrites := two_pushes_writes h₁ h₂
  refine ⟨s.entering.pushFrame.st, _, ?_, h₂.w15_second, hwrites, fun hlow => ?_, hwrote,
    hpriorities, hstored⟩
  · rw [takeException_eq]
    exact settle_quiet _ _ haddr hsw hosc
  · rw [Bool.or_eq_true]
    obtain ⟨rfl, -⟩ | ⟨rfl, -⟩ := hcase
    · exact .inl ((stackFaults_toNat _ _).2 (.inl hlow))
    · exact .inr ((stackFaults_toNat _ _).2 (.inl hlow))

end Sys2Proof.Machine

namespace Sys2Proof.Proofs

open Sys2Proof.Machine

/-- Settles O16: with an even W15 each push is a store, nothing, or a software write of a register, and the vectoring
follows; with an odd one the entry completes and its address error is judged against the new priority. -/
theorem entryFaultsAreRaised : Obligations.EntryFaultsAreRaised := by
  intro s r ht t f a b outside kept raised entered
  have hout : outside → (s.stackFaults s.w15.toNat || s.stackFaults (s.w15 + 2).toNat) = true := fun h =>
    Bool.or_eq_true_iff.2 (h.imp (stackFaults_toNat s _).2 (stackFaults_toNat s _).2)
  have hin (h : ¬ outside) : (s.stackFaults s.w15.toNat || s.stackFaults (s.w15 + 2).toNat) = false :=
    Bool.or_eq_false_iff.2 ⟨stackFaults_toNat_inside fun hc => h (.inl hc),
      stackFaults_toNat_inside fun hc => h (.inr hc)⟩
  refine ⟨fun heven ha hb => ?_, fun d o v w q heven hcase hd ho hsoft hsoft' => ?_, fun hodd hosc hlt => ?_,
    fun hodd hosc => ?_, fun hodd hosc hr => ?_⟩
  · obtain ⟨hcompleted, hraised, hstored⟩ := entry_plain ht heven (not_standsAt ha) (not_standsAt hb)
    refine ⟨hcompleted, fun h => ?_, fun h => ?_, hstored⟩
    · rw [hout h] at hraised
      exact hraised.stkErr
    · rw [hin h] at hraised
      exact hraised.sameTraps
  · obtain ⟨u, stk, heq, hw15, hwrites, hlow, hwrote, hpriorities, hword, hrest⟩ :=
      entry_onto_register r heven hcase hd ho hsoft hsoft'
    have hmem := vectored_memory r s u
    have hipl3 (n : Nat) (hr : r = .irq n) : u.ipl3 = false := hwrites.ipl3 (ipl3_of_taken_irq (s := s) (hr ▸ ht))
    obtain ⟨htable, hintcon1, hsplim, hdisicnt⟩ := hwrote.vectored r
    change t = s.vectored r u at heq
    clear_value t
    subst heq
    refine ⟨entryRaised_vectored hwrites.parameters hw15 hipl3, entryKept_vectored r hwrites, htable, hintcon1, hsplim,
      hdisicnt, fun hd hnot => ?_, fun hram => ?_, fun x hx => (hmem x).trans (hrest x hx), ?_⟩
    · have hraised : Raised stk false s u := hwrites.held .intcon1 hnot
      rw [hlow hd] at hraised
      exact (hraised.trans (vectored_raises_nothing r s u)).stkErr
    · rw [wordAt_of_sameMemory hmem]
      exact hword hram
    · obtain ⟨hvalues, hsr, hcorcon, hintcon2, hwritten, htrapr, hcf⟩ := hwrites.vectored r
      exact ⟨hvalues, hsr, hcorcon, hintcon2, hwritten, htrapr, hcf, fun hnone =>
        vectored_prioritiesSeen r s u (hpriorities hnone)⟩
  · obtain ⟨haddr, hstk, hcompleted, hmem⟩ := entry_odd_pends ht hodd hosc hlt
    exact ⟨haddr, fun h => hstk (hout h), hcompleted, hmem⟩
  · exact entry_odd_conflicts ht hodd hosc
  · exact entry_odd_sameLevel ht hodd hosc hr

end Sys2Proof.Proofs
end

section
/-! PROOFS. The decoder and the encoder (spec/30_encoding.md R125, R126): what decoding does, one equation for each
opcode byte, and the obligations that say what it accepts. -/

namespace Sys2Proof

/-! ## Two bit vectors side by side -/

theorem append_eq_append_iff {m n : Nat} {a c : BitVec m} {b d : BitVec n} : a ++ b = c ++ d ↔ a = c ∧ b = d := by
  refine ⟨fun h => ⟨?_, ?_⟩, fun ⟨ha, hb⟩ => ha ▸ hb ▸ rfl⟩
  · simpa only [BitVec.extractLsb'_append_eq_left] using congrArg (BitVec.extractLsb' n m) h
  · simpa only [BitVec.extractLsb'_append_eq_right] using congrArg (BitVec.extractLsb' 0 n) h

/-- A bit vector matches under a mask where both its parts do. -/
theorem append_and_eq_iff {m n : Nat} {a mask c : BitVec m} {b mask' c' : BitVec n} :
    (a ++ b) &&& (mask ++ mask') = c ++ c' ↔ a &&& mask = c ∧ b &&& mask' = c' := by
  rw [BitVec.and_append, append_eq_append_iff]

theorem exists_eq_append (m n : Nat) (w : BitVec (m + n)) : ∃ (a : BitVec m) (b : BitVec n), w = a ++ b :=
  ⟨_, _, BitVec.extractLsb'_append_extractLsb'.symm⟩

/-! ## The parts of a program word: the opcode byte and the sixteen bits under it (R125) -/

theorem exists_opcode_append (w : PWord) : ∃ (op : BitVec 8) (low : Word), w = op ++ low := exists_eq_append 8 16 w

theorem extractLsb'_opcode (op : BitVec 8) (low : Word) : BitVec.extractLsb' 16 8 (op ++ low : PWord) = op :=
  BitVec.extractLsb'_append_eq_left

theorem extractLsb'_under_opcode (op : BitVec 8) (low : Word) {j k : Nat} (h : j + k ≤ 16) :
    BitVec.extractLsb' j k (op ++ low : PWord) = BitVec.extractLsb' j k low :=
  BitVec.extractLsb'_append_eq_of_add_le h

theorem getLsbD_under_opcode (op : BitVec 8) (low : Word) : (op ++ low : PWord).getLsbD 0 = low.getLsbD 0 := by
  rw [BitVec.getLsbD_append, if_pos (by decide)]

/-- The sixteen bits under the opcode byte of DISI and REPEAT: the literal, and 0 in the two bits above it. -/
def literalOperand (k : BitVec 14) : Word := 0#2 ++ k

theorem literalOperand_high (k : BitVec 14) : (literalOperand k).extractLsb' 14 2 = 0#2 :=
  BitVec.extractLsb'_append_eq_left

theorem literalOperand_low (k : BitVec 14) : (literalOperand k).extractLsb' 0 14 = k :=
  BitVec.extractLsb'_append_eq_right

theorem eq_literalOperand {low : Word} (h : low.extractLsb' 14 2 = 0#2) :
    low = literalOperand (low.extractLsb' 0 14) := by
  obtain ⟨two, k, rfl⟩ := exists_eq_append 2 14 low
  obtain rfl : two = 0#2 := BitVec.extractLsb'_append_eq_left.symm.trans h
  exact congrArg literalOperand (literalOperand_low k).symm

theorem fileAddr_low (f : BitVec 15) : (Machine.fileAddr f).getLsbD 0 = false := by
  rw [Machine.fileAddr, BitVec.getLsbD_append, if_pos (by decide), BitVec.getLsbD_zero]

theorem fileAddr_high (f : BitVec 15) : (Machine.fileAddr f).extractLsb' 1 15 = f :=
  BitVec.extractLsb'_append_eq_left

theorem getLsbD_file_append (f : BitVec 15) (b : BitVec 1) : (f ++ b : Word).getLsbD 0 = b.getLsbD 0 := by
  rw [BitVec.getLsbD_append, if_pos (by decide)]

theorem eq_fileAddr {low : Word} (h : low.getLsbD 0 = false) : low = Machine.fileAddr (low.extractLsb' 1 15) := by
  obtain ⟨f, b, rfl⟩ := exists_eq_append 15 1 low
  obtain rfl | rfl := BitVec.eq_zero_or_eq_one b
  · exact congrArg Machine.fileAddr (fileAddr_high f).symm
  · rw [getLsbD_file_append] at h
    cases h

theorem decodeGotoWord2_eq_some_iff {w : PWord} {hi : BitVec 7} : decodeGotoWord2 w = some hi ↔ w = 0#17 ++ hi := by
  obtain ⟨a, b, rfl⟩ := exists_eq_append 17 7 w
  unfold decodeGotoWord2
  rw [BitVec.extractLsb'_append_eq_left, BitVec.extractLsb'_append_eq_right, append_eq_append_iff]
  simp

/-! ## What the encoder answers, the bits under the opcode byte together (R125) -/

theorem encode_nop : encode .nop = some [0x00#8 ++ 0x0000#16] := rfl

theorem encode_retfie : encode .retfie = some [0x06#8 ++ 0x4000#16] := rfl

theorem encode_ret : encode .ret = some [0x06#8 ++ 0x0000#16] := rfl

theorem encode_reset : encode .reset = some [0xFE#8 ++ 0x0000#16] := rfl

/-- The sixteen bits under the opcode byte of PWRSAV. -/
def modeOperand : PowerMode → Word
  | .sleep => 0x4000#16
  | .idle => 0x4001#16

theorem encode_pwrsav (m : PowerMode) : encode (.pwrsav m) = some [0xFE#8 ++ modeOperand m] := by cases m <;> rfl

theorem encode_disi (k : BitVec 14) : encode (.disi k) = some [0xFC#8 ++ literalOperand k] :=
  congrArg (fun w => some [w]) BitVec.append_assoc

theorem encode_repeatLit (k : BitVec 14) : encode (.repeatLit k) = some [0x09#8 ++ literalOperand k] :=
  congrArg (fun w => some [w]) BitVec.append_assoc

theorem encode_gotoWord1 (lo : BitVec 15) (hi : BitVec 7) :
    encode (.gotoWord1 lo hi) = some [0x04#8 ++ Machine.fileAddr lo, 0#17 ++ hi] :=
  congrArg (fun w => some [w, 0#17 ++ hi]) BitVec.append_assoc

theorem encode_pushF (f : BitVec 15) : encode (.pushF f) = some [0xF8#8 ++ Machine.fileAddr f] :=
  congrArg (fun w => some [w]) BitVec.append_assoc

theorem encode_popF (f : BitVec 15) : encode (.popF f) = some [0xF9#8 ++ Machine.fileAddr f] :=
  congrArg (fun w => some [w]) BitVec.append_assoc

/-- Every instruction that has an encoding is well formed. -/
theorem wf_of_encode {i : Instr} {ws : List PWord} (h : encode i = some ws) : i.wf = true := by
  cases i with
  | dataAccess size ea op => cases h
  | stackAccess mode size op => cases h
  | sfrWrite r v => cases h
  | sfrRead r => cases h
  | sfrBitClear r b => cases h
  | sfrBitSet r b => cases h
  | sfrFieldWrite r hi lo v => cases h
  | _ => rfl

/-! ## What the decoder answers, opcode byte by opcode byte (R125) -/

/-- The opcode bytes of the encoding table. -/
def opcodes : List (BitVec 8) := [0x00#8, 0x06#8, 0xFE#8, 0xFC#8, 0x09#8, 0x04#8, 0x37#8, 0xF8#8, 0xF9#8]

theorem mem_opcodes_iff {op : BitVec 8} : op ∈ opcodes ↔
    op = 0x00#8 ∨ op = 0x06#8 ∨ op = 0xFE#8 ∨ op = 0xFC#8 ∨ op = 0x09#8 ∨ op = 0x04#8 ∨ op = 0x37#8 ∨ op = 0xF8#8 ∨
      op = 0xF9#8 := by
  simp [opcodes]

section
variable (low : Word) (rest : List PWord)

theorem decode_opcode_nop : decode ((0x00#8 ++ low) :: rest) = .ok (.nop, rest) := by
  simp [decode, extractLsb'_opcode]

theorem decode_opcode_return : decode ((0x06#8 ++ low) :: rest) =
    if low = 0x4000#16 then .ok (.retfie, rest) else if low = 0x0000#16 then .ok (.ret, rest)
    else .error .unallocated := by
  simp [decode, extractLsb'_opcode, extractLsb'_under_opcode]

theorem decode_opcode_reset : decode ((0xFE#8 ++ low) :: rest) =
    if low = 0x0000#16 then .ok (.reset, rest) else if low = 0x4000#16 then .ok (.pwrsav .sleep, rest)
    else if low = 0x4001#16 then .ok (.pwrsav .idle, rest) else .error .unallocated := by
  simp [decode, extractLsb'_opcode, extractLsb'_under_opcode]

theorem decode_opcode_disi : decode ((0xFC#8 ++ low) :: rest) =
    if low.extractLsb' 14 2 = 0#2 then .ok (.disi (low.extractLsb' 0 14), rest) else .error .unallocated := by
  simp [decode, extractLsb'_opcode, extractLsb'_under_opcode]

theorem decode_opcode_repeat : decode ((0x09#8 ++ low) :: rest) =
    if low.extractLsb' 14 2 = 0#2 then .ok (.repeatLit (low.extractLsb' 0 14), rest) else .error .unallocated := by
  simp [decode, extractLsb'_opcode, extractLsb'_under_opcode]

theorem decode_opcode_bra : decode ((0x37#8 ++ low) :: rest) = .ok (.bra low, rest) := by
  simp [decode, extractLsb'_opcode, extractLsb'_under_opcode]

theorem decode_opcode_push : decode ((0xF8#8 ++ low) :: rest) =
    if low.getLsbD 0 then .error .unallocated else .ok (.pushF (low.extractLsb' 1 15), rest) := by
  simp [decode, extractLsb'_opcode, extractLsb'_under_opcode, getLsbD_under_opcode, -BitVec.getLsbD_eq_getElem]

theorem decode_opcode_pop : decode ((0xF9#8 ++ low) :: rest) =
    if low.getLsbD 0 then .error .unallocated else .ok (.popF (low.extractLsb' 1 15), rest) := by
  simp [decode, extractLsb'_opcode, extractLsb'_under_opcode, getLsbD_under_opcode, -BitVec.getLsbD_eq_getElem]

theorem decode_opcode_goto_odd (h : low.getLsbD 0 = true) :
    decode ((0x04#8 ++ low) :: rest) = .error .unallocated := by
  simp [decode, extractLsb'_opcode, getLsbD_under_opcode, h, -BitVec.getLsbD_eq_getElem]

theorem decode_opcode_goto_alone (h : low.getLsbD 0 = false) : decode [0x04#8 ++ low] = .error .noSecondWord := by
  simp [decode, extractLsb'_opcode, getLsbD_under_opcode, h, -BitVec.getLsbD_eq_getElem]

theorem decode_opcode_goto {w : PWord} {hi : BitVec 7} (h : low.getLsbD 0 = false) (hw : decodeGotoWord2 w = some hi) :
    decode ((0x04#8 ++ low) :: w :: rest) = .ok (.gotoWord1 (low.extractLsb' 1 15) hi, rest) := by
  simp [decode, extractLsb'_opcode, extractLsb'_under_opcode, getLsbD_under_opcode, h, hw, -BitVec.getLsbD_eq_getElem]

theorem decode_opcode_goto_bad {w : PWord} (h : low.getLsbD 0 = false) (hw : decodeGotoWord2 w = none) :
    decode ((0x04#8 ++ low) :: w :: rest) = .error .badSecondWord := by
  simp [decode, extractLsb'_opcode, getLsbD_under_opcode, h, hw, -BitVec.getLsbD_eq_getElem]

theorem decode_opcode_none {op : BitVec 8} (h : op ∉ opcodes) :
    decode ((op ++ low) :: rest) = .error .unallocated := by
  simp only [mem_opcodes_iff, not_or] at h
  simp [decode, extractLsb'_opcode, h]

end

/-! ## From an encoding to the instruction -/

section
variable (rest : List PWord)

theorem decode_pwrsav (m : PowerMode) : decode ((0xFE#8 ++ modeOperand m) :: rest) = .ok (.pwrsav m, rest) := by
  rw [decode_opcode_reset]
  cases m <;> rfl

theorem decode_disi (k : BitVec 14) : decode ((0xFC#8 ++ literalOperand k) :: rest) = .ok (.disi k, rest) := by
  rw [decode_opcode_disi, if_pos (literalOperand_high k), literalOperand_low]

theorem decode_repeatLit (k : BitVec 14) :
    decode ((0x09#8 ++ literalOperand k) :: rest) = .ok (.repeatLit k, rest) := by
  rw [decode_opcode_repeat, if_pos (literalOperand_high k), literalOperand_low]

theorem decode_gotoWord1 (lo : BitVec 15) (hi : BitVec 7) :
    decode ((0x04#8 ++ Machine.fileAddr lo) :: (0#17 ++ hi) :: rest) = .ok (.gotoWord1 lo hi, rest) := by
  rw [decode_opcode_goto _ _ (fileAddr_low lo) (decodeGotoWord2_eq_some_iff.2 rfl), fileAddr_high]

theorem decode_pushF (f : BitVec 15) : decode ((0xF8#8 ++ Machine.fileAddr f) :: rest) = .ok (.pushF f, rest) := by
  rw [decode_opcode_push, fileAddr_low, fileAddr_high]
  rfl

theorem decode_popF (f : BitVec 15) : decode ((0xF9#8 ++ Machine.fileAddr f) :: rest) = .ok (.popF f, rest) := by
  rw [decode_opcode_pop, fileAddr_low, fileAddr_high]
  rfl

/-- GOTO's second word lies in the row of NOP (R125; log 8). -/
theorem decode_gotoWord2 (hi : BitVec 7) : decode ((0#17 ++ hi) :: rest) = .ok (.nop, rest) := by
  have happend : (0#17 ++ hi : PWord) = 0x00#8 ++ (0#9 ++ hi : Word) := BitVec.append_assoc (x₁ := 0#8) (x₂ := 0#9)
  rw [happend, decode_opcode_nop]

end

/-- Decoding gives an encoded instruction back, whatever words follow it (R125). -/
theorem decode_encode {i : Instr} {ws : List PWord} (rest : List PWord) (hi : ∀ hi, i ≠ .gotoWord2 hi)
    (h : encode i = some ws) : decode (ws ++ rest) = .ok (i, rest) := by
  have row {es : List PWord} (he : encode i = some es) (hd : decode (es ++ rest) = .ok (i, rest)) :
      decode (ws ++ rest) = .ok (i, rest) := Option.some.inj (he.symm.trans h) ▸ hd
  cases i with
  | nop => exact row encode_nop (decode_opcode_nop _ rest)
  | retfie => exact row encode_retfie (decode_opcode_return _ rest)
  | ret => exact row encode_ret (decode_opcode_return _ rest)
  | reset => exact row encode_reset (decode_opcode_reset _ rest)
  | pwrsav m => exact row (encode_pwrsav m) (decode_pwrsav rest m)
  | disi k => exact row (encode_disi k) (decode_disi rest k)
  | repeatLit k => exact row (encode_repeatLit k) (decode_repeatLit rest k)
  | gotoWord1 lo t => exact row (encode_gotoWord1 lo t) (decode_gotoWord1 rest lo t)
  | gotoWord2 t => exact absurd rfl (hi t)
  | bra n => exact row rfl (decode_opcode_bra n rest)
  | pushF f => exact row (encode_pushF f) (decode_pushF rest f)
  | popF f => exact row (encode_popF f) (decode_popF rest f)
  | _ => cases h

/-! ## From words that decode to the encoding -/

/-- The words `ws` are an instruction other than NOP as it is encoded, then the words `rest`. -/
def EncodedAs (ws : List PWord) (i : Instr) (rest : List PWord) : Prop :=
  i ≠ .nop ∧ ∃ es, encode i = some es ∧ ws = es ++ rest

theorem encodedAs_one_word {op : BitVec 8} {low low' : Word} {rest : List PWord} {i : Instr} (hi : i ≠ .nop)
    (he : encode i = some [op ++ low']) (hlow : low = low') : EncodedAs ((op ++ low) :: rest) i rest :=
  ⟨hi, _, he, hlow ▸ rfl⟩

/-- Words that begin with GOTO's opcode byte and decode are a GOTO as it is encoded (R125). -/
theorem encodedAs_of_decode_goto {low : Word} {tail rest : List PWord} {i : Instr}
    (h : decode ((0x04#8 ++ low) :: tail) = .ok (i, rest)) : EncodedAs ((0x04#8 ++ low) :: tail) i rest := by
  cases hodd : low.getLsbD 0 with
  | true =>
    rw [decode_opcode_goto_odd low tail hodd] at h
    cases h
  | false =>
    cases tail with
    | nil =>
      rw [decode_opcode_goto_alone low hodd] at h
      cases h
    | cons w tail =>
      cases hw : decodeGotoWord2 w with
      | none =>
        rw [decode_opcode_goto_bad low tail hodd hw] at h
        cases h
      | some hi =>
        rw [decode_opcode_goto low tail hodd hw] at h
        cases h
        refine ⟨nofun, _, encode_gotoWord1 _ hi, ?_⟩
        rw [← eq_fileAddr hodd, ← decodeGotoWord2_eq_some_iff.1 hw]
        rfl

/-- Words that decode are the encoding of what they decode to, but for the bits under NOP's opcode byte (R125). -/
theorem encodedAs_of_decode {op : BitVec 8} {low : Word} {tail rest : List PWord} {i : Instr}
    (h : decode ((op ++ low) :: tail) = .ok (i, rest)) :
    (op = 0x00#8 ∧ i = .nop ∧ tail = rest) ∨ EncodedAs ((op ++ low) :: tail) i rest := by
  by_cases hmem : op ∈ opcodes
  swap
  · rw [decode_opcode_none low tail hmem] at h
    cases h
  rcases mem_opcodes_iff.1 hmem with rfl | rfl | rfl | rfl | rfl | rfl | rfl | rfl | rfl
  · rw [decode_opcode_nop] at h
    cases h
    exact .inl ⟨rfl, rfl, rfl⟩
  · rw [decode_opcode_return] at h
    split_ifs at h with hretfie hret <;> cases h
    · exact .inr (encodedAs_one_word nofun encode_retfie hretfie)
    · exact .inr (encodedAs_one_word nofun encode_ret hret)
  · rw [decode_opcode_reset] at h
    split_ifs at h with hreset hsleep hidle <;> cases h
    · exact .inr (encodedAs_one_word nofun encode_reset hreset)
    · exact .inr (encodedAs_one_word nofun (encode_pwrsav .sleep) hsleep)
    · exact .inr (encodedAs_one_word nofun (encode_pwrsav .idle) hidle)
  · rw [decode_opcode_disi] at h
    split_ifs at h with hzero
    cases h
    exact .inr (encodedAs_one_word nofun (encode_disi _) (eq_literalOperand hzero))
  · rw [decode_opcode_repeat] at h
    split_ifs at h with hzero
    cases h
    exact .inr (encodedAs_one_word nofun (encode_repeatLit _) (eq_literalOperand hzero))
  · exact .inr (encodedAs_of_decode_goto h)
  · rw [decode_opcode_bra] at h
    cases h
    exact .inr (encodedAs_one_word nofun rfl rfl)
  · rw [decode_opcode_push] at h
    split_ifs at h with hodd
    cases h
    exact .inr (encodedAs_one_word nofun (encode_pushF _) (eq_fileAddr (Bool.eq_false_of_not_eq_true hodd)))
  · rw [decode_opcode_pop] at h
    split_ifs at h with hodd
    cases h
    exact .inr (encodedAs_one_word nofun (encode_popF _) (eq_fileAddr (Bool.eq_false_of_not_eq_true hodd)))

/-! ## The rows of the encoding table (R125) -/

theorem and_all_ones {n : Nat} {mask : BitVec n} (h : mask = BitVec.allOnes n) (w : BitVec n) : w &&& mask = w :=
  h ▸ BitVec.and_allOnes

theorem and_literal_mask_iff {low : Word} : low &&& 0xC000#16 = 0x0000#16 ↔ low.extractLsb' 14 2 = 0#2 := by
  obtain ⟨two, k, rfl⟩ := exists_eq_append 2 14 low
  refine (append_and_eq_iff (mask := 3#2) (c := 0#2) (mask' := 0#14) (c' := 0#14)).trans ?_
  rw [BitVec.extractLsb'_append_eq_left, and_all_ones (mask := 3#2) rfl, BitVec.and_zero, and_iff_left rfl]

theorem and_file_mask_iff {low : Word} : low &&& 0x0001#16 = 0x0000#16 ↔ low.getLsbD 0 = false := by
  obtain ⟨f, b, rfl⟩ := exists_eq_append 15 1 low
  refine (append_and_eq_iff (mask := 0#15) (c := 0#15) (mask' := 1#1) (c' := 0#1)).trans ?_
  rw [getLsbD_file_append, BitVec.and_zero, and_iff_right rfl]
  obtain rfl | rfl := BitVec.eq_zero_or_eq_one b <;> decide

theorem and_mode_mask_iff {low : Word} : low &&& 0xFFFE#16 = 0x4000#16 ↔ low = 0x4000#16 ∨ low = 0x4001#16 := by
  obtain ⟨f, b, rfl⟩ := exists_eq_append 15 1 low
  refine (append_and_eq_iff (mask := 0x7FFF#15) (c := 0x2000#15) (mask' := 0#1) (c' := 0#1)).trans ?_
  rw [and_all_ones (mask := 0x7FFF#15) rfl, BitVec.and_zero, and_iff_left rfl]
  have hzero : f ++ b = 0x4000#16 ↔ f = 0x2000#15 ∧ b = 0#1 := append_eq_append_iff (c := 0x2000#15) (d := 0#1)
  have hone : f ++ b = 0x4001#16 ↔ f = 0x2000#15 ∧ b = 1#1 := append_eq_append_iff (c := 0x2000#15) (d := 1#1)
  rw [hzero, hone, ← and_or_left, and_iff_left (BitVec.eq_zero_or_eq_one b)]

/-- What the rows of the encoding table allow under each opcode byte (R125). -/
def InTable (op : BitVec 8) (low : Word) : Prop :=
  op = 0x00#8 ∨ op = 0x37#8 ∨
  (op = 0x06#8 ∧ (low = 0x4000#16 ∨ low = 0x0000#16)) ∨
  (op = 0xFE#8 ∧ (low = 0x0000#16 ∨ low = 0x4000#16 ∨ low = 0x4001#16)) ∨
  ((op = 0xFC#8 ∨ op = 0x09#8) ∧ low.extractLsb' 14 2 = 0#2) ∨
  ((op = 0x04#8 ∨ op = 0xF8#8 ∨ op = 0xF9#8) ∧ low.getLsbD 0 = false)

/-- GOTO's second word adds nothing: its row lies in NOP's (log 8). -/
theorem matches_no_row_iff (op : BitVec 8) (low : Word) :
    (∀ r ∈ encodingRows, (op ++ low : PWord) &&& r.2 ≠ r.1) ↔ ¬ InTable op low := by
  have row (mask c : BitVec 8) (mask' c' : Word) :
      (op ++ low : PWord) &&& (mask ++ mask') = c ++ c' ↔ op &&& mask = c ∧ low &&& mask' = c' := append_and_eq_iff
  have hrows : encodingRows =
      [(0x00#8 ++ 0x0000#16, 0xFF#8 ++ 0x0000#16), (0x06#8 ++ 0x4000#16, 0xFF#8 ++ 0xFFFF#16),
       (0x06#8 ++ 0x0000#16, 0xFF#8 ++ 0xFFFF#16), (0xFE#8 ++ 0x0000#16, 0xFF#8 ++ 0xFFFF#16),
       (0xFE#8 ++ 0x4000#16, 0xFF#8 ++ 0xFFFE#16), (0xFC#8 ++ 0x0000#16, 0xFF#8 ++ 0xC000#16),
       (0x09#8 ++ 0x0000#16, 0xFF#8 ++ 0xC000#16), (0x04#8 ++ 0x0000#16, 0xFF#8 ++ 0x0001#16),
       (0x00#8 ++ 0x0000#16, 0xFF#8 ++ 0xFF80#16), (0x37#8 ++ 0x0000#16, 0xFF#8 ++ 0x0000#16),
       (0xF8#8 ++ 0x0000#16, 0xFF#8 ++ 0x0001#16), (0xF9#8 ++ 0x0000#16, 0xFF#8 ++ 0x0001#16)] := by decide
  have hop : op &&& 0xFF#8 = op := and_all_ones rfl op
  have hlow : low &&& 0xFFFF#16 = low := and_all_ones rfl low
  rw [hrows]
  simp only [List.forall_mem_cons, List.not_mem_nil, false_imp_iff, implies_true, ne_eq, row, hop, hlow,
    BitVec.and_zero, and_literal_mask_iff, and_file_mask_iff, and_mode_mask_iff, InTable]
  grind

theorem decode_goto_unallocated_iff (low : Word) (rest : List PWord) :
    decode ((0x04#8 ++ low) :: rest) = .error .unallocated ↔ low.getLsbD 0 = true := by
  cases hodd : low.getLsbD 0 with
  | true => simp [decode_opcode_goto_odd low rest hodd]
  | false =>
    cases rest with
    | nil => simp [decode_opcode_goto_alone low hodd]
    | cons w rest =>
      cases hw : decodeGotoWord2 w with
      | none => simp [decode_opcode_goto_bad low rest hodd hw]
      | some hi => simp [decode_opcode_goto low rest hodd hw]

/-- The decoder gives a word a meaning, or calls a GOTO incomplete, exactly in the rows of the table (R125, R126). -/
theorem decode_unallocated_iff (op : BitVec 8) (low : Word) (rest : List PWord) :
    decode ((op ++ low) :: rest) = .error .unallocated ↔ ¬ InTable op low := by
  by_cases hmem : op ∈ opcodes
  · rcases mem_opcodes_iff.1 hmem with rfl | rfl | rfl | rfl | rfl | rfl | rfl | rfl | rfl
    · simp [decode_opcode_nop, InTable]
    · rw [decode_opcode_return]
      split_ifs <;> simp [InTable, *]
    · rw [decode_opcode_reset]
      split_ifs <;> simp [InTable, *]
    · rw [decode_opcode_disi]
      split_ifs <;> simp [InTable, *]
    · rw [decode_opcode_repeat]
      split_ifs <;> simp [InTable, *]
    · rw [decode_goto_unallocated_iff]
      simp [InTable]
    · simp [decode_opcode_bra, InTable]
    · rw [decode_opcode_push]
      split_ifs <;> simp_all [InTable]
    · rw [decode_opcode_pop]
      split_ifs <;> simp_all [InTable]
  · rw [decode_opcode_none low rest hmem]
    simp_all [mem_opcodes_iff, InTable]

end Sys2Proof

namespace Sys2Proof.Proofs

open Sys2Proof Sys2Proof.Machine

/-- Settles O1: the words of each row decode by the equation of its opcode byte. -/
theorem decodeEncodeRoundTrip : Obligations.DecodeEncodeRoundTrip :=
  fun _ _ rest _ hi h => decode_encode rest hi h

/-- Settles O2: under each opcode byte what the decoder reads is all there is, but under NOP's. -/
theorem encodeDecodeExact : Obligations.EncodeDecodeExact := by
  intro ws rest i h
  cases ws with
  | nil => cases h
  | cons w tail =>
    obtain ⟨op, low, rfl⟩ := exists_opcode_append w
    obtain ⟨rfl, rfl, rfl⟩ | ⟨hi, es, hes, hws⟩ := encodedAs_of_decode h
    · exact ⟨rfl, .inl ⟨rfl, _, rfl, extractLsb'_opcode _ low⟩⟩
    · exact ⟨wf_of_encode hes, .inr ⟨hi, es, hes, hws⟩⟩

/-- Settles O3: the decoder and the rows of the table allow the same bits under each opcode byte. -/
theorem unallocatedWordsAreRejected : Obligations.UnallocatedWordsAreRejected := by
  intro w rest
  obtain ⟨op, low, rfl⟩ := exists_opcode_append w
  exact (decode_unallocated_iff op low rest).trans (matches_no_row_iff op low).symm

/-- Settles O4: the decoder evaluates to the instruction on each word. -/
theorem tableWordsDecode : Obligations.TableWordsDecode := by
  unfold Obligations.TableWordsDecode
  decide

/-- Settles O5: the word lies in NOP's row, and both meanings are an instruction that does nothing and goes on. -/
theorem gotoSecondWordIsNop : Obligations.GotoSecondWordIsNop := by
  intro hi rest s
  have hend := (accessed_eff s).goTo_ok (s.pc + 2) rfl
  exact ⟨decode_gotoWord2 rest hi, _, rfl, rfl, hend.pc, hend.quiet rfl rfl fun _ => rfl⟩

end Sys2Proof.Proofs
end

section
/-! PROOFS. No instruction takes a turn of the environment (spec/60_exceptions.md R216), and the turn of the running CPU
at which no exception is taken is its instruction (spec/40_interrupt_control_instructions.md R140 c). -/

namespace Sys2Proof.Machine

/-! ## What an instruction is made of leaves the turns -/

section
variable (e : Eff)

@[simp] theorem sfrUpdate_turns (r : Sfr) (sel v : Word) : (e.sfrUpdate r sel v).st.turns = e.st.turns := by
  cases r with
  | intcon1 => simp only [Eff.sfrUpdate, Eff.sfrBits, Eff.writeIntcon1]; split <;> rfl
  | rcon => simp only [Eff.sfrUpdate, Eff.sfrBits, Eff.map_st]; split <;> rfl
  | osccon => simp only [Eff.sfrUpdate, Eff.sfrBits, Eff.map_st]; split <;> rfl
  | _ => rfl

@[simp] theorem store_turns (size : Size) (ea v : Word) : (e.store size ea v).st.turns = e.st.turns := by
  unfold Eff.store
  split
  · cases size with
    | word =>
      dsimp only
      split <;> simp
    | byte =>
      dsimp only
      split
      · split_ifs <;> simp
      · simp
  · rfl

@[simp] theorem write_turns (size : Size) (ea v : Word) : (e.write size ea v).st.turns = e.st.turns := by
  unfold Eff.write
  split_ifs <;> simp

@[simp] theorem read_turns (size : Size) (ea : Word) : (e.read size ea).2.st.turns = e.st.turns := rfl

@[simp] theorem access_turns (size : Size) (ea : Word) (op : DataOp) :
    (e.access size ea op).st.turns = e.st.turns := by
  cases op with
  | read => rfl
  | write v => exact write_turns e size ea v

@[simp] theorem stackCheck_turns (exact : Int) : (e.stackCheck exact).st.turns = e.st.turns := by
  unfold Eff.stackCheck
  split_ifs <;> rfl

@[simp] theorem push_turns (v : Word) : (e.push v).st.turns = e.st.turns := by simp [Eff.push]

@[simp] theorem pop_turns : e.pop.2.st.turns = e.st.turns := by simp [Eff.pop]

@[simp] theorem popFrame_turns : e.popFrame.2.st.turns = e.st.turns := by simp [Eff.popFrame]

@[simp] theorem raiseOverflow_turns (acc : Acc) (s : State) : (s.raiseOverflow acc).turns = s.turns := by
  unfold State.raiseOverflow
  split_ifs <;> rfl

@[simp] theorem raiseFarOverflow_turns (acc : Acc) (s : State) : (s.raiseFarOverflow acc).turns = s.turns := by
  unfold State.raiseFarOverflow
  split_ifs <;> rfl

@[simp] theorem drawAcc_turns (acc : Acc) (s : State) : (s.drawAcc acc).turns = s.turns := by cases acc <;> rfl

@[simp] theorem raiseConds_turns (c : TrapConds) : (e.raiseConds c).st.turns = e.st.turns := by
  simp only [Eff.raiseConds, apply_ite State.turns, State.raiseSoft_turns, State.raiseMath_turns, raiseOverflow_turns,
    raiseFarOverflow_turns, ite_self]

@[simp] theorem otherEvent_turns (c : TrapConds) : (e.otherEvent c).st.turns = e.st.turns := by simp [Eff.otherEvent]

@[simp] theorem divide_turns (d : Int) : (e.divide d).st.turns = e.st.turns := by
  unfold Eff.divide
  dsimp only
  split_ifs <;> rfl

@[simp] theorem settle_turns (pre : State) : (e.settle pre).turns = e.st.turns :=
  settle_induction (P := fun t => t.turns = e.st.turns) pre e rfl (fun _ _ _ h => h) (fun _ h => h) (fun _ h => h)
    (fun _ h => h)

@[simp] theorem finish_turns (pre : State) (next : PAddr) (c : Nat) (late : Bool) :
    (e.finish pre next c late).turns = e.st.turns := settle_turns _ pre

@[simp] theorem goTo_turns (pre : State) (next : PAddr) : (e.goTo pre next).turns = e.st.turns :=
  finish_turns e pre next _ _

@[simp] theorem jump_turns (pre : State) (target : PAddr) : (e.jump pre target).turns = e.st.turns :=
  goTo_turns _ pre target

end

@[simp] theorem wakeIfRequested_turns (s : State) : s.wakeIfRequested.turns = s.turns := by
  unfold State.wakeIfRequested State.wake
  split_ifs
  · split <;> rfl
  · rfl

/-! ## Every instruction -/

/-- No instruction takes or adds a turn (R216). -/
theorem exec_turns (i : Instr) (s t : State) (h : exec i s = .next t) : t.turns = s.turns := by
  cases i with
  | repeatLit k =>
    simp only [exec, execRepeatLit] at h
    split at h <;> (cases h; simp)
  | macFetch space ea =>
    simp only [exec, execMacFetch] at h
    split at h <;> (cases h; simp)
  | bitIndirect ea op => cases h; cases op <;> simp
  | sftac acc n => cases h; simp [apply_ite State.turns]
  | accOp acc ov31 ov39 => cases h; simp [apply_ite State.turns]
  | retfie => cases h; simp [returnFromException]
  | reset => cases h; rfl
  | disi k => cases h; rfl
  | _ => cases h; simp

/-! ## The turn -/

/-- An instruction that stands at `pc` runs at the turn of the running CPU at which no exception is taken (R140 c). -/
theorem step_instr {s : State} {left : List Turn} {i : Instr} (hturn : CpuTurn s left) (hat : AtInstruction s)
    (hfetch : s.fetch = .instr i) :
    ∃ t, exec i { s with race := [], dataWrite := false, turns := left } = .next t ∧ t.turns = left ∧
      step s = .next (t.endSkid s.softSkid) := by
  obtain ⟨hrun, hnone, hpc⟩ := hat
  obtain ⟨t, ht⟩ := exec_next i { s with turns := left }.atBoundary
  refine ⟨t, ht, exec_turns i _ t ht, ?_⟩
  rw [step_boundary s left hturn hrun]
  exact boundary_instr _ i t ((taken_setTurns s left).trans hnone) hpc hfetch ht

theorem fetch_event {s : State} {ev : ProgEvent} (h : memFind s.events (wordAddr s.pc) = some ev) :
    s.fetch = .instr ev.instr := by
  simp only [State.fetch, h]

theorem fetch_word {s : State} {w : PWord} {rest : List PWord} {i : Instr}
    (hevent : memFind s.events (wordAddr s.pc) = none) (hw : memFind s.prog (wordAddr s.pc) = some w)
    (h : decode (w :: (memFind s.prog (wordAddr s.pc + 2)).toList) = .ok (i, rest)) : s.fetch = .instr i := by
  simp only [State.fetch, hevent, hw, h]

end Sys2Proof.Machine

namespace Sys2Proof.Proofs

open Sys2Proof Sys2Proof.Machine

/-- Settles O6: what is fetched at `pc` is the instruction, and no instruction takes a turn. -/
theorem stepRunsDecodedInstruction : Obligations.StepRunsDecodedInstruction := by
  intro s left hturn hat
  exact ⟨fun w rest i hevent hw h => step_instr hturn hat (fetch_word hevent hw h),
    fun ev hev => step_instr hturn hat (fetch_event hev)⟩

end Sys2Proof.Proofs
end

section
/-! PROOFS. The turn of the CPU (spec/40_interrupt_control_instructions.md R140, R245, spec/60_exceptions.md R181, R216,
R220): an exception that is taken, an unimplemented `pc`, and the modes in which no instruction runs. -/

namespace Sys2Proof.Machine

/-! ## A taken exception -/

/-- An entry takes and adds no turn (R216). -/
theorem takeException_turns (r : Request) (s : State) : (takeException r s).turns = s.turns := by
  simp [takeException, State.pushFrame]

/-- The turn at which an exception is taken is its entry (R140 b, R209, R220). -/
theorem step_exception {s : State} {left : List Turn} {r : Request} (hturn : CpuTurn s left) (hrun : s.power = .run)
    (hr : s.taken = some r) :
    step s = .next ((takeException r { s with dataWrite := false, turns := left }).endSkid s.softSkid) := by
  rw [step_boundary s left hturn hrun, boundary_exception _ r ((taken_setTurns s left).trans hr)]

/-! ## An unimplemented program address -/

/-- After the boundary `soft_skid` is 0 where the step raised no soft trap (R209). -/
theorem endSkid_softSkid {s t : State} (h : t.softSkid = s.softSkid) : (t.endSkid s.softSkid).softSkid = false := by
  unfold State.endSkid
  split
  · rfl
  · next hskid => exact h.trans (Bool.eq_false_iff.2 hskid)

/-- The end of the skid changes `soft_skid` only (R209). -/
theorem endSkid_eq (skid : Bool) (s : State) :
    s.endSkid skid = { s with softSkid := (s.endSkid skid).softSkid } := by
  cases skid <;> rfl

/-- A step at an unimplemented program address notes the address error, and goes on with the tick (R181). -/
theorem executeNowhere_end {s : State} (hp : HardTrapPends s) :
    AccessEnd s false { s.bump.eff with addr := true } (Config.strayPc s.draws) s.cycles (executeNowhere s) :=
  (((accessed_eff s).map State.bump ⟨_, _, _, _, _, _, _, _, rfl⟩ rfl rfl rfl).setAddr true).finish s _ _ false
    fun _ => hp

/-! ## The CPU asleep or halted -/

theorem requests_iff (s : State) (n : Nat) :
    s.requests n = true ↔ hasSource s.dev n = true ∧ s.ifsBit n = true ∧ s.iecBit n = true := by
  simp only [State.requests, Bool.and_eq_true, and_assoc]

theorem cpuStep_asleep {s : State} (h : s.power = .sleep ∨ s.power = .idle) :
    cpuStep s = .next s.wakeIfRequested := by
  obtain h | h := h <;> simp only [cpuStep, h]

theorem cpuStep_halted {s : State} (h : s.power = .halt) : cpuStep s = .next s := by
  simp only [cpuStep, h]

/-- A source with an enabled request of priority 1 or more (R215, R218). -/
def State.Requested (s : State) : Prop :=
  ∃ n, n < 118 ∧ hasSource s.dev n = true ∧ s.ifsBit n = true ∧ s.iecBit n = true ∧ s.ipcField n ≠ 0

theorem wakeCondition_iff_requested (s : State) : s.wakeCondition = true ↔ s.Requested := by
  simp only [wakeCondition_iff, State.Requested, requests_iff, and_assoc]

/-- A CPU asleep that a source requests runs again, and nothing else changes (R245). -/
theorem cpuStep_wakes {s : State} (h : s.power = .sleep ∨ s.power = .idle) (hr : s.Requested) :
    cpuStep s = .next { s with power := .run } := by
  rw [cpuStep_asleep h, State.wakeIfRequested, if_pos ((wakeCondition_iff_requested s).2 hr)]
  obtain h | h := h <;> simp only [State.wake, h]

/-- A CPU asleep that no source requests does nothing (R140 a). -/
theorem cpuStep_sleeps {s : State} (h : s.power = .sleep ∨ s.power = .idle) (hr : ¬ s.Requested) :
    cpuStep s = .next s := by
  rw [cpuStep_asleep h, State.wakeIfRequested, if_neg (mt (wakeCondition_iff_requested s).1 hr)]

end Sys2Proof.Machine

namespace Sys2Proof.Proofs

open Sys2Proof.Machine

/-- Settles O7: the boundary enters what arbitration selects, and no part of an entry takes a turn. -/
theorem stepTakesException : Obligations.StepTakesException := by
  intro s r left hturn hrun hr
  exact ⟨takeException_turns r _, step_exception hturn hrun hr⟩

/-- Settles O8: the step notes an address error that no hard trap conflicts with, and `soft_skid` ends after it. -/
theorem stepAtUnimplementedAddress : Obligations.StepAtUnimplementedAddress := by
  intro s left hturn hrun hnone hpc hp
  have hend := executeNowhere_end (s := { s with turns := left }.atBoundary) hp
  have hskid := endSkid_softSkid (s := s) (hend.raised.2 rfl)
  have hturns : (executeNowhere { s with turns := left }.atBoundary).turns = left := executeNowhere_turns _
  refine ⟨_, step_nowhere hturn hrun hnone hpc, ?_⟩
  rw [endSkid_eq] at hskid ⊢
  exact ⟨hend.raised.addrErr, hend.w15, hskid, fun a => hend.memory a, hturns, hend.quietButTraps⟩

/-- Settles O9: asleep the step is the wake-up rule alone, halted it is nothing. -/
theorem sleepingCpuOnlyWakes : Obligations.SleepingCpuOnlyWakes := by
  intro s left hturn
  have hstep := step_cpu s left hturn
  refine ⟨fun hasleep => ?_, fun hhalt => hstep.trans (cpuStep_halted hhalt)⟩
  refine ⟨fun hr => hstep.trans (cpuStep_wakes hasleep hr), fun hquiet => hstep.trans (cpuStep_sleeps hasleep ?_)⟩
  rintro ⟨n, hn, hsource, hflag, henable, hpriority⟩
  exact hpriority (hquiet n hn hsource hflag henable)

end Sys2Proof.Proofs
end

section
/-! PROOFS. RETFIE with a good stack (spec/40_interrupt_control_instructions.md R145, spec/60_exceptions.md R233), and
the RESET instruction (R146, R270). -/

namespace Sys2Proof.Machine

/-! ## The pops of a good stack -/

/-- A good stack address can be read (R97, R98). -/
theorem StackOk.not_badRead {s : State} {a : Word} (h : StackOk s a) : ¬ BadRead s a := by
  obtain ⟨heven, ⟨himpl, -⟩, -⟩ := h
  rintro (hodd | hhole)
  · exact Bool.false_ne_true (heven.symm.trans hodd)
  · exact Bool.false_ne_true (hhole.symm.trans himpl)

/-! ## The priorities after a reset -/

/-- Every implemented priority field holds 4 after a reset (R41, R69). -/
theorem deviceReset_ipcField (cause : ResetCause) (s : State) (n : Nat) (hn : n < 80) :
    (deviceReset cause s).ipcField n = if hasSource s.dev n then 4 else 0 := by
  have hfour : ∀ k : Fin 4, ∀ b : Fin 3, (0x4444#16).getLsbD (4 * k.val + b.val) = (4#3).getLsbD b.val := by decide
  have hfield : (deviceReset cause s).ipcField n = (prioReset s.dev (n / 4)).extractLsb' (4 * (n % 4)) 3 := by
    have hword : n / 4 < 20 := by omega
    change (((Vector.ofFn fun i : Fin 20 => prioReset s.dev i.val)[n / 4]?).getD 0).extractLsb' _ 3 = _
    rw [Vector.getElem?_eq_getElem hword, Vector.getElem_ofFn]
    rfl
  rw [hfield]
  apply BitVec.eq_of_getLsbD_eq
  intro b hb
  have hnibble : (4 * (n % 4) + b) % 4 ≠ 3 := by omega
  have hirq : 4 * (n / 4) + (4 * (n % 4) + b) / 4 = n := by omega
  rw [BitVec.getLsbD_extractLsb', prioReset, BitVec.getLsbD_and, getLsbD_prioMask, hirq, decide_eq_true hb,
    decide_eq_true (by omega : 4 * (n % 4) + b < 16), decide_eq_true hnibble,
    show (0x4444#16).getLsbD _ = _ from hfour ⟨n % 4, by omega⟩ ⟨b, hb⟩]
  cases hasSource s.dev n <;> simp

end Sys2Proof.Machine

namespace Sys2Proof.Proofs

open Sys2Proof.Machine

/-- Settles O17: both pops of a good stack read memory and raise nothing, so RETFIE restores what `Unframe` gives. -/
theorem retfieRestoresFromStack : Obligations.RetfieRestoresFromStack := by
  intro s h2 h4 w1 w2 f
  have hwords : s.eff.popFrame.1 = f := congrArg Prod.fst (popFrame_ok s h2 h4)
  obtain ⟨t, hexec, hret, hpc, hsrl, hipl3, hsrh, hcorcon, hinttreg, hsplim, hwritten, htrapr, hcf, hpower⟩ :=
    retfie_good (stackFaults_pops_inside h2.not_outside h4.not_outside)
      (readFaults_pops_good h2.not_badRead h4.not_badRead) rfl
  rw [hwords] at hpc hsrl hipl3
  exact ⟨fun hu => unframe_family s.dev hu w1 w2, t, hexec, hpc, hsrl, hipl3, hret.w15, hsrh, hcorcon, hinttreg, hsplim,
    hwritten, htrapr, hcf, hret.working, hret.accs, hret.raised.sameTraps, hret.sources, hpower, hret.parameters,
    hret.memory, hret.ticked⟩

/-- Settles O22: RESET is the reset of the device, whatever the state before. -/
theorem resetInstructionResets : Obligations.ResetInstructionResets := by
  intro s
  have hsr : State.reset.sr = 0x0000 := by decide
  exact ⟨deviceReset .software s, rfl, rfl, rfl, hsr, rfl, rfl, rfl, rfl, reset_flags_enables,
    deviceReset_ipcField .software s, rfl, rfl, rfl, rfl, ⟨rfl, rfl, rfl, rfl⟩, rfl, rfl⟩

end Sys2Proof.Proofs
end

section
/-! PROOFS. The instructions that control interrupts (spec/40_interrupt_control_instructions.md R141 to R158): NOP, DISI,
PWRSAV, the writes of DISICNT and SPLIM, the OR to SRL, and the instructions that the source does not name. -/

namespace Sys2Proof.Machine

/-! ## The end of an instruction that met no hard trap -/

/-- The end of an instruction that went on to `next` from the registers of `u`. -/
def State.endedAt (next : PAddr) (c : Nat) (late : Bool) (u : State) : State :=
  ({ u with pc := next, lateEntry := late } : State).tick c

theorem ticked_endedAt (next : PAddr) (c : Nat) (late : Bool) (u : State) : Ticked c u (u.endedAt next c late) :=
  ticked_tick c { u with pc := next, lateEntry := late }

/-- An update of the state alone asks for no hard trap. -/
theorem finish_map (f : State → State) (s : State) (next : PAddr) (c : Nat) (late : Bool) :
    (s.eff.map f).finish s next c late = (f s).endedAt next c late := settle_quiet s _ rfl rfl rfl

theorem goTo_map (f : State → State) (s : State) (next : PAddr) :
    (s.eff.map f).goTo s next = (f s).endedAt next s.cycles s.late := finish_map f s next s.cycles s.late

/-! ## PWRSAV -/

/-- The state that PWRSAV leaves before the wake-up rule (R148). -/
def State.asleep (m : PowerMode) (s : State) : State :=
  { s.endedAt (s.pc + 2) s.cycles s.late with power := powerOf m }

theorem exec_pwrsav (m : PowerMode) (s : State) : exec (.pwrsav m) s = .next (s.asleep m).wakeIfRequested := by
  have hend : s.eff.goTo s (s.pc + 2) = s.endedAt (s.pc + 2) s.cycles s.late := goTo_map id s (s.pc + 2)
  change Host.Outcome.next ({ s.eff.goTo s (s.pc + 2) with power := powerOf m } : State).wakeIfRequested = _
  rw [hend]
  rfl

theorem powerOf_asleep (m : PowerMode) : powerOf m = .sleep ∨ powerOf m = .idle := by
  cases m
  · exact .inl rfl
  · exact .inr rfl

/-! ## DISICNT -/

/-- A write of DISICNT to the end of its instruction: the count is stored before the tick, and no value starts a DISI
period (R142, R144). -/
theorem writeDisicnt_end (v : BitVec 14) (next : PAddr) (c : Nat) (late : Bool) (s : State) :
    let t := (s.writeDisicnt v).wroteData.endedAt next c late
    t.disicnt.toNat = v.toNat - c ∧ (t.disi = true ↔ s.disi = true ∧ c < v.toNat) ∧
    ∀ j, j ≠ 14 → t.intcon2.getLsbD j = s.intcon2.getLsbD j := by
  obtain ⟨hcount, hbits, hdisi⟩ := ticked_endedAt next c late (s.writeDisicnt v).wroteData
  refine ⟨hcount, ?_, fun j hj => ?_⟩
  · have hwritten : (s.writeDisicnt v).wroteData.disi = if v = 0 then false else s.disi := by
      rw [State.disi, State.wroteData_intcon2, State.writeDisicnt_intcon2]
      split
      · exact getLsbD_setBit_self _ _ _ (by omega)
      · rfl
    rw [hdisi, State.wroteData_disicnt, State.writeDisicnt_disicnt, hwritten]
    split
    · next h0 => simp [h0]
    · exact .rfl
  · rw [hbits j hj, State.wroteData_intcon2, State.writeDisicnt_intcon2]
    split
    · exact getLsbD_setBit_ne _ _ _ _ hj
    · rfl

theorem exec_disicntWrite (op : CountOp) (s : State) :
    exec (.disicntWrite op) s =
      .next ((s.writeDisicnt (countOperand s op)).wroteData.endedAt (s.after s.pc) s.cycles s.late) :=
  congrArg Host.Outcome.next (goTo_map (fun t => (t.writeDisicnt (countOperand s op)).wroteData) s (s.after s.pc))

/-! ## SPLIM and the special bits -/

/-- From `s` to `u` only SPLIM with its hidden bit, RCON.TRAPR, OSCCON.CF, and what the model itself keeps of an access
have changed. -/
def OnlyLatched (s u : State) : Prop :=
  ∃ splim written trapr cf result dataWrite draws, u = { s with
    splim := splim, splimWritten := written, trapr := trapr, cf := cf, result := result, dataWrite := dataWrite,
    draws := draws }

/-- What an instruction keeps that changes only those registers. -/
structure KeptByLatch (s t : State) : Prop where
  w15 : t.w15 = s.w15
  memory : SameMemory s t
  working : SameWorking s t
  status : SameStatus s t
  accs : SameAccs s t
  traps : SameTraps s t
  sources : SameSources s t
  power : SamePower s t
  parameters : SameParameters s t
  corcon : t.corcon = s.corcon
  inttreg : t.inttreg = s.inttreg

theorem OnlyLatched.endedAt {s u : State} (h : OnlyLatched s u) (next : PAddr) (c : Nat) (late : Bool) :
    KeptByLatch s (u.endedAt next c late) ∧ Ticked c s (u.endedAt next c late) := by
  obtain ⟨_, _, _, _, _, _, _, rfl⟩ := h
  exact ⟨⟨rfl, fun _ => rfl, rfl, ⟨rfl, rfl, rfl⟩, ⟨rfl, rfl⟩, ⟨rfl, rfl, rfl⟩, ⟨rfl, rfl, rfl, rfl⟩, ⟨rfl, rfl⟩,
    ⟨rfl, rfl, rfl, rfl⟩, rfl, rfl⟩, ticked_endedAt next c late s⟩

/-- The state after `SplimWrite(v)`, before the end of its instruction (R156). -/
def State.limitedTo (v : Word) (s : State) : State := { s with splim := v, splimWritten := true, dataWrite := true }

theorem exec_splimWrite (v : Word) (s : State) :
    exec (.splimWrite v) s = .next ((s.limitedTo v).endedAt (s.after s.pc) s.cycles s.late) :=
  congrArg Host.Outcome.next (goTo_map (State.limitedTo v) s (s.after s.pc))

/-! ## The OR to SRL -/

theorem exec_orSrl (v : Byte) (s : State) :
    exec (.orSrl v) s = .next ((s.orSrlFlags v).endedAt (s.pc + 2) s.cycles s.late) :=
  congrArg Host.Outcome.next (goTo_map (State.orSrlFlags v) s (s.pc + 2))

/-- RA is not among the bits that the OR may change (R155). -/
theorem orSrlFlags_ra (v : Byte) (s : State) : (s.orSrlFlags v).flags.getLsbD 4 = s.flags.getLsbD 4 := by
  change (s.flags.extractLsb' 4 1 ++
    Config.orFlags s.draws (s.flags.extractLsb' 0 4 ||| v.extractLsb' 0 4) : BitVec (1 + 4)).getLsbD 4 = _
  rw [BitVec.getLsbD_append, if_neg (by omega), BitVec.getLsbD_extractLsb']
  rfl

/-- With all three bits set SR.IPL is 7, whatever IPL3 is (R24, R155). -/
theorem ipl_or_seven (ipl : BitVec 3) : ipl ||| (0xE0#8).extractLsb' 5 3 = 7#3 := by
  revert ipl
  decide

/-- At `cpu_ipl` 7 or more no interrupt is taken (R24, R218, R220). -/
theorem taken_ne_irq {s : State} (h : 7 ≤ s.cpuIpl) (n : Nat) : s.taken ≠ some (.irq n) := by
  intro ht
  have hlt : s.cpuIpl < (s.seenField n).toNat := (taken_candidate s _ ht).2
  have := (s.seenField n).isLt
  omega

/-! ## Instructions that the source does not name -/

/-- What such an instruction keeps where it meets no trap condition (R140, R158). -/
def KeptByOther (s t : State) : Prop := t.ipl = s.ipl ∧ SameExceptionState s t ∧ Ticked s.cycles s t

/-- Without conditions the event is its draws alone (R158). -/
theorem otherEvent_none (s : State) : s.eff.otherEvent {} = s.eff.map (State.drawOther false) := rfl

theorem otherEvent_none_kept (s : State) (next : PAddr) (late : Bool) :
    let t := (s.eff.otherEvent {}).finish s next s.cycles late
    KeptByOther s t ∧ t.lateEntry = late ∧ t.pc = next := by
  obtain ⟨-, hipl, hspecial, hsources, hpower, hparams, hticked, hlate, hpc⟩ :=
    (onlyDrawn_drawOther false s).advance next s.cycles late
  rw [otherEvent_none, finish_map]
  exact ⟨⟨hipl, ⟨hspecial, ⟨rfl, rfl, rfl⟩, hsources, hpower, hparams⟩, hticked⟩, hlate, hpc⟩

/-- A REPEAT that executes no divide is such an instruction (R158; log 19). -/
theorem exec_repeatLit_other {s : State} (k : BitVec 14) (h : s.repeatedDivide = none) :
    exec (.repeatLit k) s = .next ((s.eff.otherEvent {}).goTo s (s.pc + 2)) := by
  simp only [exec, execRepeatLit, h]

/-! ## The kind of the last instruction -/

/-- The kind of the instruction is in the state after it, or the device was reset (R293). -/
def LateOrReset (late : Bool) (t : State) : Prop :=
  t.lateEntry = late ∨ (t.lateEntry = false ∧ t.pc = 0 ∧ t.sr = 0 ∧ t.w15 = 0x0800)

theorem goTo_lateOrReset (s : State) (next : PAddr) (e : Eff) : LateOrReset s.late (e.goTo s next) :=
  finish_lateEntry s next s.cycles s.late e

theorem wakeIfRequested_lateEntry (s : State) : s.wakeIfRequested.lateEntry = s.lateEntry := by
  rw [wakeIfRequested_eq]

/-- Every instruction leaves its kind, unless it resets the device (R293). -/
theorem exec_lateOrReset (i : Instr) (s t : State) (h : exec i s = .next t) :
    LateOrReset (PsvAccess i || s.late) t := by
  cases i with
  | reset =>
    obtain rfl := Host.Outcome.next.inj h
    have hsr : State.reset.sr = 0 := by decide
    exact .inr ⟨rfl, rfl, hsr, rfl⟩
  | disi k =>
    obtain rfl := Host.Outcome.next.inj h
    exact .inl rfl
  | pwrsav m =>
    obtain rfl := Host.Outcome.next.inj ((exec_pwrsav m s).symm.trans h)
    exact .inl (wakeIfRequested_lateEntry _)
  | retfie =>
    obtain rfl := Host.Outcome.next.inj ((exec_retfie s).symm.trans h)
    exact finish_lateEntry _ _ 3 s.late _
  | movdPsv c | btscPsv c skip | btssPsv c skip =>
    obtain rfl := Host.Outcome.next.inj h
    exact finish_lateEntry s _ s.cycles true _
  | repeatLit k =>
    simp only [exec, execRepeatLit] at h
    split at h <;> (obtain rfl := Host.Outcome.next.inj h; exact goTo_lateOrReset s _ _)
  | macFetch space ea =>
    simp only [exec, execMacFetch] at h
    split at h <;> (obtain rfl := Host.Outcome.next.inj h; exact goTo_lateOrReset s _ _)
  | _ =>
    obtain rfl := Host.Outcome.next.inj h
    exact goTo_lateOrReset s _ _

end Sys2Proof.Machine

namespace Sys2Proof.Proofs

open Sys2Proof Sys2Proof.Machine

/-- Settles O24: nothing happens before the end of the instruction. -/
theorem nopOnlyAdvances : Obligations.NopOnlyAdvances := by
  intro s
  have hend := (accessed_eff s).goTo_ok (s.pc + 2) rfl
  exact ⟨_, rfl, hend.pc, hend.quiet rfl rfl fun _ => rfl⟩

/-- Settles O25: the load comes after the tick, and overwrites what the tick did to DISICNT and to INTCON2.DISI. -/
theorem disiLoadsTheCount : Obligations.DisiLoadsTheCount := by
  intro s k
  obtain ⟨-, hbits, -⟩ := ticked_endedAt (s.pc + 2) 1 s.late s
  refine ⟨_, rfl, rfl, rfl, ?_, fun j hj => (getLsbD_setBit_ne _ _ _ _ hj).trans (hbits j hj), rfl, fun _ => rfl, rfl,
    ⟨rfl, rfl, rfl⟩, ⟨rfl, rfl⟩, ⟨rfl, rfl, rfl, rfl, rfl, rfl⟩, ⟨rfl, rfl, rfl⟩, ⟨rfl, rfl, rfl, rfl⟩, ⟨rfl, rfl⟩,
    rfl, rfl, rfl, rfl⟩
  rw [State.disi, getLsbD_setBit_self _ _ _ (by omega), decide_eq_true_iff]

/-- Settles O26: PWRSAV ends like a NOP, asleep, and the wake-up rule changes the power mode alone. -/
theorem pwrsavSleeps : Obligations.PwrsavSleeps := by
  intro s m
  have hwoken : WokenByRequest (s.asleep m) (s.asleep m).wakeIfRequested := wokenByRequest_wakeIfRequested rfl
  simp only [WokenByRequest, wakeIfRequested_requests, wakeIfRequested_ipcField] at hwoken
  obtain ⟨hrun, hsleep, -⟩ := hwoken
  refine ⟨_, exec_pwrsav m s, ?_⟩
  rw [wakeIfRequested_eq]
  exact ⟨rfl, fun hr => hrun hr (powerOf_asleep m), fun hq => (hsleep hq).trans (by cases m <;> rfl), rfl, fun _ => rfl,
    rfl, ⟨rfl, rfl, rfl⟩, ⟨rfl, rfl⟩, ⟨rfl, rfl, rfl, rfl, rfl, rfl⟩, ⟨rfl, rfl, rfl⟩, ⟨rfl, rfl, rfl, rfl⟩, rfl,
    ⟨rfl, rfl, rfl, rfl⟩, ticked_endedAt (s.pc + 2) s.cycles s.late s⟩

/-- Settles O27: the two forms of the write differ in the count that they store. -/
theorem disicntWriteNeverStartsAPeriod : Obligations.DisicntWriteNeverStartsAPeriod := by
  intro s v
  obtain ⟨htcount, htdisi, htbits⟩ := writeDisicnt_end v (s.after s.pc) s.cycles s.late s
  obtain ⟨hucount, hudisi, hubits⟩ := writeDisicnt_end (s.disicnt + v) (s.after s.pc) s.cycles s.late s
  exact ⟨_, _, _, exec_disicntWrite (.write v) s, exec_disicntWrite (.add v) s, rfl, rfl, htcount, hucount, htdisi,
    hudisi, fun j hj => ⟨htbits j hj, hubits j hj⟩,
    rfl, rfl, fun _ => rfl, rfl, ⟨rfl, rfl, rfl⟩, ⟨rfl, rfl⟩,
    ⟨⟨rfl, rfl, rfl, rfl, rfl, rfl⟩, ⟨rfl, rfl, rfl⟩, ⟨rfl, rfl, rfl, rfl⟩, ⟨rfl, rfl⟩, rfl, rfl, rfl, rfl⟩,
    rfl, rfl, fun _ => rfl, rfl, ⟨rfl, rfl, rfl⟩, ⟨rfl, rfl⟩,
    ⟨rfl, rfl, rfl, rfl, rfl, rfl⟩, ⟨rfl, rfl, rfl⟩, ⟨rfl, rfl, rfl, rfl⟩, ⟨rfl, rfl⟩, rfl, rfl, rfl, rfl⟩

/-- Settles O28: the write sets the limit and its hidden bit, which is what the check asks for. -/
theorem splimWriteEnablesTheCheck : Obligations.SplimWriteEnablesTheCheck := by
  intro s v
  obtain ⟨hkept, hticked⟩ :=
    OnlyLatched.endedAt (u := s.limitedTo v) ⟨_, _, _, _, _, _, _, rfl⟩ (s.after s.pc) s.cycles s.late
  exact ⟨_, exec_splimWrite v s, rfl, rfl, rfl, hkept.w15, hkept.memory, hkept.working, hkept.status, hkept.accs,
    hkept.traps, hkept.sources, hkept.power, hkept.parameters, hkept.corcon, hkept.inttreg, rfl, rfl, hticked,
    fun exact hv => (stackFaults_iff _ exact).2 (.inl (.inr ⟨rfl, hv⟩))⟩

/-- Settles O29: the OR changes SRL alone, and with 0xE0 no interrupt exceeds the priority 7. -/
theorem orSrlRaisesPriority : Obligations.OrSrlRaisesPriority := by
  intro s v
  refine ⟨_, exec_orSrl v s, rfl, rfl, orSrlFlags_ra v s, rfl, ?_, rfl, fun _ => rfl, rfl, ⟨rfl, rfl⟩,
    ⟨⟨rfl, rfl, rfl, rfl, rfl, rfl⟩, ⟨rfl, rfl, rfl⟩, ⟨rfl, rfl, rfl, rfl⟩, ⟨rfl, rfl⟩, rfl, rfl, rfl, rfl⟩,
    ticked_endedAt (s.pc + 2) s.cycles s.late s⟩
  rintro rfl hnest
  have hipl : ((s.orSrlFlags 0xE0).endedAt (s.pc + 2) s.cycles s.late).ipl = 7#3 := by
    change (if s.nstdis then s.ipl else s.ipl ||| (0xE0#8).extractLsb' 5 3) = _
    rw [hnest]
    exact ipl_or_seven s.ipl
  have hseven : 7 ≤ ((s.orSrlFlags 0xE0).endedAt (s.pc + 2) s.cycles s.late).cpuIpl := by
    rw [State.cpuIpl, hipl]
    exact Nat.le_add_left _ _
  exact ⟨hseven, taken_ne_irq hseven⟩

/-- Settles O44: without a trap condition the event is its draws, which reach no control state; and every instruction
ends with its kind noted. -/
theorem otherKeepsControlState : Obligations.OtherKeepsControlState := by
  intro s skip k kept
  obtain ⟨hother, -, hother_pc⟩ := otherEvent_none_kept s (s.after s.pc) s.late
  obtain ⟨hmovd, hmovd_late, hmovd_pc⟩ := otherEvent_none_kept s (s.after s.pc) true
  obtain ⟨hskip, hskip_late, hskip_pc⟩ := otherEvent_none_kept s (s.afterSkip skip) true
  obtain ⟨hrepeat, -, hrepeat_pc⟩ := otherEvent_none_kept s (s.pc + 2) s.late
  exact ⟨⟨_, rfl, hother, hother_pc⟩, ⟨_, rfl, hmovd, hmovd_late, hmovd_pc⟩, ⟨_, rfl, hskip, hskip_late, hskip_pc⟩,
    ⟨_, rfl, hskip, hskip_late, hskip_pc⟩,
    fun h => ⟨_, exec_repeatLit_other k h, hrepeat, hrepeat_pc⟩, fun i t h => exec_lateOrReset i s t h⟩

end Sys2Proof.Proofs
end

section
/-! PROOFS. Reads of the special function registers (spec/40_interrupt_control_instructions.md R151), the four forms of a
software write (R150, R152, R153, R157), and the registers that no table of bits describes (R36, R37, R144, R156). -/

namespace Sys2Proof.Machine

/-! ## Unimplemented bits -/

/-- A bit that the masks of a register do not implement reads as 0 (R99). -/
theorem getLsbD_of_maskAccess_unimplemented {wmask cmask impl : Word} {b : Nat} (w : Word)
    (h : maskAccess wmask cmask impl b = .unimplemented) : (w &&& impl).getLsbD b = false := by
  have himpl : impl.getLsbD b = false := by
    unfold maskAccess at h
    split_ifs at h with hw hc hi
    exact Bool.eq_false_iff.2 hi
  rw [BitVec.getLsbD_and, himpl, Bool.and_false]

/-- Every bit of SR is implemented (R23). -/
theorem srAccess_ne_unimplemented (n : Bool) {b : Nat} (hb : b < 16) : srAccess n b ≠ .unimplemented := by
  have hall : ∀ (n : Bool) (b : Fin 16), srAccess n b.val ≠ .unimplemented := by decide
  exact hall n ⟨b, hb⟩

/-- Unimplemented bits of a register of the tables read as 0 (R99, R151). -/
theorem sfrValue_unimplemented {s : State} {r : Sfr} {acc : Nat → Access} (h : tableAccess s r = some acc) (b : Nat)
    (hb : acc b = .unimplemented) : (s.sfrValue r).getLsbD b = false := by
  by_cases h16 : b < 16
  swap
  · exact BitVec.getLsbD_of_ge _ _ (Nat.le_of_not_lt h16)
  obtain ⟨-, hcorcon, hintcon2, hinttreg⟩ := tables_are_masks
  cases r with
  | sr =>
    cases h
    exact absurd hb (srAccess_ne_unimplemented _ h16)
  | corcon =>
    cases h
    exact getLsbD_of_maskAccess_unimplemented _ ((hcorcon ⟨b, h16⟩).symm.trans hb)
  | intcon2 =>
    cases h
    exact getLsbD_of_maskAccess_unimplemented _ ((hintcon2 ⟨b, h16⟩).symm.trans hb)
  | inttreg =>
    cases h
    exact getLsbD_of_maskAccess_unimplemented _ ((hinttreg ⟨b, h16⟩).symm.trans hb)
  | ifs i | iec i =>
    cases h
    exact getLsbD_of_maskAccess_unimplemented _ ((flagAccess_eq s.dev i.val b h16).symm.trans hb)
  | ipc i =>
    cases h
    exact getLsbD_of_maskAccess_unimplemented _ ((prioAccess_eq s.dev i.val b h16).symm.trans hb)
  | intcon1 | disicnt | splim | rcon | osccon => cases h

/-- The state that a read of `r` leaves before the end of its instruction (R151). -/
def State.sfrRead (r : Sfr) (s : State) : State := { s with result := s.sfrValue r, draws := s.draws + 1 }

theorem exec_sfrRead (r : Sfr) (s : State) :
    exec (.sfrRead r) s = .next ((s.eff.map (State.sfrRead r)).goTo s (s.after s.pc)) := rfl

/-! ## Only the selected bits of the value count -/

/-- Two values agree on the bits that a write selects. -/
def AgreeOn {n : Nat} (sel v v' : BitVec n) : Prop := ∀ b, sel.getLsbD b = true → v.getLsbD b = v'.getLsbD b

theorem agreeOn_of_eq {n : Nat} {sel v v' : BitVec n} (h : v = v') : AgreeOn sel v v' := fun b _ =>
  congrArg (BitVec.getLsbD · b) h

theorem accessWrite_congr {n : Nat} {sel v v' : BitVec n} (h : AgreeOn sel v v') (old wmask cmask : BitVec n) :
    accessWrite old v sel wmask cmask = accessWrite old v' sel wmask cmask := by
  apply BitVec.eq_of_getLsbD_eq
  intro b _
  rw [getLsbD_accessWrite, getLsbD_accessWrite]
  cases hs : sel.getLsbD b with
  | false => simp
  | true => rw [h b hs]

theorem AgreeOn.extractLsb' {n : Nat} {sel v v' : BitVec n} (h : AgreeOn sel v v') (start len : Nat) :
    AgreeOn (sel.extractLsb' start len) (v.extractLsb' start len) (v'.extractLsb' start len) := by
  intro b hb
  rw [BitVec.getLsbD_extractLsb', Bool.and_eq_true] at hb
  rw [BitVec.getLsbD_extractLsb', BitVec.getLsbD_extractLsb', h _ hb.2]

theorem writeSr_congr {sel v v' : Word} (h : AgreeOn sel v v') (s : State) : s.writeSr sel v = s.writeSr sel v' := by
  simp only [State.writeSr, accessWrite_congr (h.extractLsb' _ _)]

theorem writeIpc_congr {sel v v' : Word} (h : AgreeOn sel v v') (i : Fin 20) (s : State) :
    s.writeIpc i sel v = s.writeIpc i sel v' := by
  simp only [State.writeIpc, accessWrite_congr h]

theorem writeIntcon1_congr {sel v v' : Word} (h : AgreeOn sel v v') (e : Eff) :
    e.writeIntcon1 sel v = e.writeIntcon1 sel v' := by
  have hwritten : e.st.intcon1Written sel v = e.st.intcon1Written sel v' := accessWrite_congr h _ _ _
  have hnew : e.intcon1New sel v = e.intcon1New sel v' := by simp only [Eff.intcon1New, hwritten]
  have hset : e.st.trapFlagsSet sel v = e.st.trapFlagsSet sel v' := by simp only [State.trapFlagsSet, hwritten]
  simp only [Eff.writeIntcon1, hnew, hset]

/-- A software write of a register asks only for the bits that it selects (R40, R150). -/
theorem sfrUpdate_congr {sel v v' : Word} (h : AgreeOn sel v v') (r : Sfr) (e : Eff) :
    e.sfrUpdate r sel v = e.sfrUpdate r sel v' := by
  unfold Eff.sfrUpdate
  congr 1
  cases r with
  | sr => exact congrArg (fun u => { e with st := u }) (writeSr_congr h e.st)
  | ipc i => exact congrArg (fun u => { e with st := u }) (writeIpc_congr h i e.st)
  | intcon1 => exact writeIntcon1_congr h e
  | corcon | intcon2 | ifs i | iec i | splim => simp only [Eff.sfrBits, accessWrite_congr h]
  | disicnt => simp only [Eff.sfrBits, accessWrite_congr (h.extractLsb' _ _)]
  | inttreg | rcon | osccon => rfl

/-! ## The forms of a software write -/

theorem exec_sfrWrite (r : Sfr) (v : Word) (s : State) :
    exec (.sfrWrite r v) s = .next ((s.eff.sfrUpdate r 0xFFFF#16 v).goTo s (s.after s.pc)) := rfl

theorem exec_sfrFieldWrite (r : Sfr) (hi lo : Fin 16) (v : Word) (s : State) :
    exec (.sfrFieldWrite r hi lo v) s =
      .next ((s.eff.sfrUpdate r (fieldMask hi.val lo.val) (v <<< lo.val)).goTo s (s.after s.pc)) := rfl

theorem fieldMask_full : fieldMask 15 0 = 0xFFFF#16 := by decide

/-- One bit is the field from it to itself (R152, R153, R157). -/
theorem bitMask_eq_fieldMask (b : Fin 16) : bitMask b = fieldMask b.val b.val := by
  apply BitVec.eq_of_getLsbD_eq
  intro j _
  rw [getLsbD_bitMask, getLsbD_fieldMask b b le_rfl, decide_eq_decide]
  omega

/-- A write of the bits of a field is the field write of each value that agrees with it on them (R157). -/
theorem sfrUpdate_eq_fieldWrite {hi lo : Fin 16} {sel w v : Word} (hsel : sel = fieldMask hi.val lo.val)
    (h : AgreeOn sel w (v <<< lo.val)) (r : Sfr) (s : State) :
    .next ((s.eff.sfrUpdate r sel w).goTo s (s.after s.pc)) = exec (.sfrFieldWrite r hi lo v) s := by
  rw [sfrUpdate_congr h, hsel]
  rfl

/-- The one selected bit is that of the field value 1 (R153). -/
theorem agreeOn_bitSet (b : Fin 16) : AgreeOn (bitMask b) 0xFFFF#16 (1#16 <<< b.val) := by
  intro j hj
  rw [getLsbD_bitMask, decide_eq_true_iff] at hj
  subst hj
  rw [getLsbD_allOnes16 b.isLt, getLsbD_oneBit, decide_eq_true ⟨rfl, b.isLt⟩]

/-- A register after a write of one of its fields, bit by bit (R157). -/
theorem field_selected {hi lo : Fin 16} (hle : lo ≤ hi) (v : Word) (old : Bool) {b : Nat} (hb : b < 16) :
    (if (fieldMask hi.val lo.val).getLsbD b then (v <<< lo.val).getLsbD b else old) =
      if lo.val ≤ b ∧ b ≤ hi.val then v.getLsbD (b - lo.val) else old := by
  simp only [getLsbD_fieldMask hi lo hle, decide_eq_true_eq]
  split
  · next hfield => exact getLsbD_shiftLeft_field v lo.val b hfield.1 hb
  · rfl

/-! ## The registers that no table of bits describes -/

/-- A write of the whole count is that of its 14 bits (R144; log 5). -/
theorem sfrUpdate_disicnt {s : State} {sel v : Word} {m : BitVec 14}
    (h : ∀ b, b < 14 → m.getLsbD b = if sel.getLsbD b then v.getLsbD b else s.disicnt.getLsbD b) :
    s.eff.sfrUpdate .disicnt sel v = s.eff.map fun t => (t.writeDisicnt m).wroteData := by
  have hcount : accessWrite s.disicnt (v.extractLsb' 0 14) (sel.extractLsb' 0 14) 0x3FFF#14 0#14 = m := by
    have hones : ∀ b : Fin 14, (0x3FFF#14).getLsbD b.val = true := by decide
    apply BitVec.eq_of_getLsbD_eq
    intro b hb
    rw [getLsbD_accessWrite, hones ⟨b, hb⟩, h b hb]
    simp [hb]
  change (s.eff.map fun _ => (s.writeDisicnt
    (accessWrite s.disicnt (v.extractLsb' 0 14) (sel.extractLsb' 0 14) 0x3FFF#14 0#14)).wroteData) = _
  rw [hcount]
  rfl

/-- A write of the whole of SPLIM enables the check (R156). -/
theorem sfrUpdate_splim_full (s : State) (v : Word) :
    s.eff.sfrUpdate .splim 0xFFFF#16 v = s.eff.map (State.limitedTo v) := by
  have hlimit : accessWrite s.splim v 0xFFFF#16 0xFFFF#16 0#16 = v := accessWrite_all s.splim v
  have hwritten : (s.splimWritten || (0xFFFF#16 : Word) == 0xFFFF#16) = true := Bool.or_true _
  simp only [Eff.sfrUpdate, Eff.sfrBits, Eff.map_map, State.eff]
  simp only [Eff.map, hlimit, hwritten]
  rfl

/-- Only the field of all bits is the whole register (R157). -/
theorem fieldMask_ne_full {hi lo : Fin 16} (hle : lo ≤ hi) (h : ¬ (hi = 15 ∧ lo = 0)) :
    fieldMask hi.val lo.val ≠ 0xFFFF#16 := by
  intro hfull
  have hbit (b : Nat) (hb : b < 16) : lo.val ≤ b ∧ b ≤ hi.val := by
    have hone := getLsbD_allOnes16 hb
    rwa [← hfull, getLsbD_fieldMask hi lo hle, decide_eq_true_iff] at hone
  have h0 := (hbit 0 (by omega)).1
  have h15 := (hbit 15 (by omega)).2
  exact h ⟨by omega, by omega⟩

/-- A write of a part of SPLIM stores the bits and leaves the hidden bit alone (log 22). -/
theorem sfrUpdate_splim_part (s : State) {sel : Word} (v : Word) (h : sel ≠ 0xFFFF#16) :
    ∃ u, s.eff.sfrUpdate .splim sel v = u.eff ∧ OnlyLatched s u ∧ u.splimWritten = s.splimWritten ∧
      u.trapr = s.trapr ∧ u.cf = s.cf ∧
      ∀ b, b < 16 → u.splim.getLsbD b = if sel.getLsbD b then v.getLsbD b else s.splim.getLsbD b := by
  refine ⟨_, rfl, ⟨_, _, _, _, _, _, _, rfl⟩, ?_, rfl, rfl, fun b hb => ?_⟩
  · change (s.splimWritten || sel == 0xFFFF#16) = _
    rw [beq_false_of_ne h, Bool.or_false]
  · change (accessWrite s.splim v sel 0xFFFF#16 0#16).getLsbD b = _
    rw [getLsbD_accessWrite, getLsbD_allOnes16 hb, BitVec.getLsbD_zero]
    simp

/-- A write of RCON or OSCCON leaves its one named bit free where it selects it, and does nothing else (R36, R37;
log 21). -/
theorem sfrUpdate_rcon_osccon (s : State) {r : Sfr} (hr : r = .rcon ∨ r = .osccon) (sel v : Word) :
    ∃ u, s.eff.sfrUpdate r sel v = u.eff ∧ OnlyLatched s u ∧ u.splim = s.splim ∧ u.splimWritten = s.splimWritten ∧
      (r = .osccon ∨ sel.getLsbD 15 = false → u.trapr = s.trapr) ∧
      (r = .rcon ∨ sel.getLsbD 3 = false → u.cf = s.cf) := by
  obtain rfl | rfl := hr
  · have heff : s.eff.sfrUpdate .rcon sel v = State.eff (State.wroteData
        (if sel.getLsbD 15 then { s with trapr := Config.traprWritten s.draws, draws := s.draws + 1 } else s)) := rfl
    refine ⟨_, heff, ?_⟩
    split
    · next h => exact ⟨⟨_, _, _, _, _, _, _, rfl⟩, rfl, rfl, by simp [h], fun _ => rfl⟩
    · exact ⟨⟨_, _, _, _, _, _, _, rfl⟩, rfl, rfl, fun _ => rfl, fun _ => rfl⟩
  · have heff : s.eff.sfrUpdate .osccon sel v = State.eff (State.wroteData
        (if sel.getLsbD 3 then { s with cf := Config.cfWritten s.draws, draws := s.draws + 1 } else s)) := rfl
    refine ⟨_, heff, ?_⟩
    split
    · next h => exact ⟨⟨_, _, _, _, _, _, _, rfl⟩, rfl, rfl, fun _ => rfl, by simp [h]⟩
    · exact ⟨⟨_, _, _, _, _, _, _, rfl⟩, rfl, rfl, fun _ => rfl, fun _ => rfl⟩

/-- A field write that is an update of those registers, to the end of its instruction. -/
theorem exec_fieldWrite_latched {s u : State} {r : Sfr} {hi lo : Fin 16} {v : Word}
    (h : s.eff.sfrUpdate r (fieldMask hi.val lo.val) (v <<< lo.val) = u.eff) :
    exec (.sfrFieldWrite r hi lo v) s = .next (u.endedAt (s.after s.pc) s.cycles s.late) := by
  rw [exec_sfrFieldWrite, h]
  exact congrArg Host.Outcome.next (goTo_quiet s _ u.eff rfl rfl rfl)

end Sys2Proof.Machine

namespace Sys2Proof.Proofs

open Sys2Proof Sys2Proof.Machine

/-- Settles O46: the value goes to the instruction, and nothing else happens before its end. -/
theorem sfrReadHasNoSideEffect : Obligations.SfrReadHasNoSideEffect := by
  intro s r
  have hacc : Accessed s false (s.eff.map (State.sfrRead r)) :=
    (accessed_eff s).map _ ⟨_, _, _, _, _, _, _, _, rfl⟩ rfl rfl rfl
  have hend := hacc.goTo_ok (s.after s.pc) rfl
  have hresult : ((s.eff.map (State.sfrRead r)).goTo s (s.after s.pc)).result = s.sfrValue r := hend.result
  refine ⟨_, exec_sfrRead r s, hresult, ?_, ?_, ?_, ?_, hend.pc, hend.quiet rfl rfl fun _ => rfl⟩ <;> rw [hresult]
  · exact fun acc b h hb => sfrValue_unimplemented h b hb
  · rintro rfl
    exact BitVec.getLsbD_and.trans (Bool.and_false _)
  · rintro rfl
    exact getLsbD_setBit_self _ _ _ (by omega)
  · rintro rfl
    exact getLsbD_setBit_self _ _ _ (by omega)

/-- Settles O50: each form selects the bits of its field, and on them it writes the same value. -/
theorem sfrWriteFormsAgree : Obligations.SfrWriteFormsAgree := by
  intro s r b v
  exact ⟨sfrUpdate_eq_fieldWrite fieldMask_full.symm (agreeOn_of_eq (BitVec.shiftLeft_zero v).symm) r s,
    sfrUpdate_eq_fieldWrite (bitMask_eq_fieldMask b) (agreeOn_of_eq (BitVec.zero_shiftLeft b.val).symm) r s,
    sfrUpdate_eq_fieldWrite (bitMask_eq_fieldMask b) (agreeOn_bitSet b) r s⟩

/-- Settles O52: each of the writes changes one register, whose new value is said bit by bit, and the instruction ends
with the tick. -/
theorem writesOfTheOtherRegisters : Obligations.WritesOfTheOtherRegisters := by
  intro s hi lo v hle _
  refine ⟨?_, ?_, fun m hm => ?_, fun hpart => ?_, fun r hr => ?_⟩
  · rw [exec_sfrWrite, sfrUpdate_disicnt (m := v.extractLsb' 0 14) fun b hb => ?_]
    · rfl
    · rw [if_pos (getLsbD_allOnes16 (by omega)), BitVec.getLsbD_extractLsb', decide_eq_true hb, Nat.zero_add,
        Bool.true_and]
  · rw [exec_sfrWrite, sfrUpdate_splim_full]
    rfl
  · rw [exec_sfrFieldWrite, sfrUpdate_disicnt (m := m) fun b hb => ?_]
    · rfl
    · rw [hm b hb, field_selected hle v _ (by omega)]
  · obtain ⟨u, heff, honly, hwritten, htrapr, hcf, hbits⟩ :=
      sfrUpdate_splim_part s (v <<< lo.val) (fieldMask_ne_full hle hpart)
    obtain ⟨hkept, hticked⟩ := honly.endedAt (s.after s.pc) s.cycles s.late
    exact ⟨_, exec_fieldWrite_latched heff, hwritten, fun b hb => (hbits b hb).trans (field_selected hle v _ hb), rfl,
      hkept.w15, hkept.memory, hkept.working, hkept.status, hkept.accs, hkept.traps, hkept.sources, hkept.power,
      hkept.parameters, hkept.corcon, hkept.inttreg, htrapr, hcf, hticked⟩
  · obtain ⟨u, heff, honly, hsplim, hwritten, htrapr, hcf⟩ :=
      sfrUpdate_rcon_osccon s hr (fieldMask hi.val lo.val) (v <<< lo.val)
    obtain ⟨hkept, hticked⟩ := honly.endedAt (s.after s.pc) s.cycles s.late
    have hselects (b : Nat) (hb : ¬ (lo.val ≤ b ∧ b ≤ hi.val)) : (fieldMask hi.val lo.val).getLsbD b = false :=
      (getLsbD_fieldMask hi lo hle b).trans (decide_eq_false hb)
    refine ⟨_, exec_fieldWrite_latched heff, rfl, hkept.w15, fun h => htrapr (h.imp_right fun h15 => ?_),
      fun h => hcf (h.imp_right fun h3 => ?_), hkept.memory, hkept.working, hkept.status, hkept.accs, hkept.corcon,
      hkept.inttreg, hsplim, hwritten, hkept.traps, hkept.sources, hkept.power, hkept.parameters, hticked⟩
    · exact hselects 15 (by omega)
    · exact hselects 3 (by omega)

end Sys2Proof.Proofs
end

section
/-! PROOFS. PUSH and POP outside the limits of the stack (spec/40_interrupt_control_instructions.md R149, R150, R154,
spec/60_exceptions.md R176, R177; log 24): at registers too, where the store is a software write in the state with the
stack error raised. -/

namespace Sys2Proof.Machine

/-! ## The state in which the store is made -/

/-- The effect of an instruction that has raised the stack error and nothing else, in the state `u` (R176). -/
def State.stkEff (u : State) : Eff := { u.eff with stk := true }

/-- From `s` to `u` an instruction has moved W15 to `w` and raised the stack error; it has stored nothing. -/
structure RaisedStack (w : Word) (s u : State) : Prop where
  only : OnlyAccessed s u
  raised : Raised true false s u
  memory : SameMemory s u
  w15 : u.w15 = w
  pc : u.pc = s.pc

/-- A PUSH that fails the check, before its store (R149, R176; log 24). -/
def State.pushOverran (s : State) : State :=
  State.raiseSoft .stkErr { s with w15 := s.w15 + 2, draws := s.draws + 1 }

/-- A POP that fails the check, before its store (R154, R176; log 24). -/
def State.popOverran (s : State) : State := (State.raiseSoft .stkErr { s with w15 := s.w15 - 2 }).bump

theorem raisedStack_pushOverran (s : State) : RaisedStack (s.w15 + 2) s s.pushOverran :=
  ⟨⟨_, _, _, _, _, _, _, _, rfl⟩, raised_stkErr { s with w15 := s.w15 + 2, draws := s.draws + 1 }, fun _ => rfl, rfl,
    rfl⟩

theorem raisedStack_popOverran (s : State) : RaisedStack (s.w15 - 2) s s.popOverran :=
  ⟨⟨_, _, _, _, _, _, _, _, rfl⟩, raised_stkErr { s with w15 := s.w15 - 2 }, fun _ => rfl, rfl, rfl⟩

/-! ## The store, where it is a software write of a register -/

/-- What PUSH stores at a register outside the limits is written there in the state after the check (R99, R149). -/
theorem pushF_outside_register {s : State} {f : BitVec 15} {q : Sfr} (hout : OutsideStack s s.w15)
    (heven : s.w15.getLsbD 0 = false) (ha : dataImplemented s.dev (fileAddr f) = true) (hq : StandsAt s s.w15 q) :
    exec (.pushF f) s = .next
      ((s.pushOverran.stkEff.sfrUpdate q 0xFFFF#16 (s.load .word (fileAddr f))).goTo s (s.pc + 2)) := by
  have hread : s.readFaults .word (fileAddr f) = false := readFaults_of_aligned (fileAddr_even f) ha
  obtain ⟨hd, hr⟩ := hq
  have hpush (v : Word) : s.bump.eff.push v = s.pushOverran.stkEff.sfrUpdate q 0xFFFF#16 v := by
    have hwrite := write_sfr_word s.w15 v (State.raiseSoft .stkErr s.bump).stkEff q heven rfl hd hr
    rw [push_outside v s.bump.eff hout]
    exact (congrArg (Eff.map fun u => { u with w15 := s.w15 + 2 }) hwrite).trans (sfrUpdate_setW15 q _ v _ _)
  rw [exec_pushF, State.pushFEff, State.readValue, hread, if_neg Bool.false_ne_true,
    read_ok .word (fileAddr f) s.eff hread]
  exact congrArg (fun e : Eff => Host.Outcome.next (e.goTo s (s.pc + 2))) (hpush _)

/-- The word that a POP reads, from the state after the check (R96, R176; log 24). -/
theorem pop_value {s : State} {v : Word} (hgood : ¬ BadRead s (s.w15 - 2)) (hv : PopReads s (s.w15 - 2) v) :
    s.eff.pop.1 = v := by
  obtain ⟨-, -, -, -, u, hvalue, honly, hraised, hmem⟩ := (accessed_eff s).pop
  exact hvalue.trans
    (readValue_of_popReads honly hraised hmem hgood (fun h => (stackFaults_toNat s _).2 h) hv)

/-- A pop at an even address that reads anything is no bad read (R97, R98). -/
theorem PopReads.not_badRead {s : State} {v : Word} (h : PopReads s (s.w15 - 2) v)
    (heven : s.w15.getLsbD 0 = false) : ¬ BadRead s (s.w15 - 2) := by
  have hd : dataImplemented s.dev (s.w15 - 2) = true := by
    obtain ⟨⟨hd, -⟩, -⟩ | ⟨⟨hd, -⟩, -⟩ | ⟨_, ⟨hd, -⟩, -⟩ := h <;> exact hd
  have heven' : (s.w15 - 2).getLsbD 0 = false := by
    have h0 : s.w15.toNat.testBit 0 = false := heven
    change (s.w15 - 2).toNat.testBit 0 = false
    rw [Nat.testBit_zero, decide_eq_false_iff_not] at h0 ⊢
    bv_omega
  rintro (hodd | hhole)
  · exact Bool.false_ne_true (heven'.symm.trans hodd)
  · exact Bool.false_ne_true (hhole.symm.trans hd)

/-- What POP pops outside the limits is written to the register at `f` in the state after the check (R99, R154). -/
theorem popF_outside_register {s : State} {f : BitVec 15} {r : Sfr} {v : Word} (hout : OutsideStack s (s.w15 - 2))
    (hgood : ¬ BadRead s (s.w15 - 2)) (hv : PopReads s (s.w15 - 2) v) (hr : StandsAt s (fileAddr f) r) :
    exec (.popF f) s =
      .next ((s.popOverran.stkEff.sfrUpdate r 0xFFFF#16 v).goTo s (s.pc + 2)) := by
  have hread : s.readFaults .word (s.w15 - 2) = false :=
    Bool.eq_false_iff.2 fun hc => hgood ((readFaults_word s _).1 hc)
  have hpop : s.eff.pop.2 = s.popOverran.stkEff := by
    rw [pop_outside _ hout, read_ok _ _ _ (by exact hread)]
    rfl
  rw [exec_popF, State.popFEff, pop_value hgood hv, hpop,
    write_sfr_word _ _ _ r (fileAddr_even f) rfl hr.1 hr.2]

/-! ## What such a write does -/

section
variable {w : Word} {s u : State} (hu : RaisedStack w s u) (r : Sfr) (v : Word) (next : PAddr)
include hu

theorem RaisedStack.tableAccess : tableAccess u r = tableAccess s r := by
  have hnstdis : u.nstdis = s.nstdis := by
    have h15 := (hu.raised.1 15).1
    rwa [accessFlag, show ((15 : Nat) == 2) = false from rfl, show ((15 : Nat) == 3) = false from rfl,
      Bool.and_false, Bool.and_false, Bool.or_self, Bool.or_false] at h15
  cases r with
  | sr => exact congrArg (fun n => some (srAccess n)) hnstdis
  | ifs i | iec i | ipc i =>
    simp only [Machine.tableAccess, hu.only.dev]
  | _ => rfl

/-- A write of a register of the tables, bit by bit and with all that it leaves alone (R40, R150). -/
theorem RaisedStack.write_table (h : ∃ acc, Machine.tableAccess s r = some acc) :
    let t := (u.stkEff.sfrUpdate r 0xFFFF#16 v).goTo s next
    (TrapRaised .stkErr [] s t ∧ t.pc = next ∧ t.w15 = w) ∧
    (∀ acc b, Machine.tableAccess s r = some acc → b < 16 → ¬ (r = .intcon2 ∧ b = 14) →
      (t.sfrValue r).getLsbD b = (acc b).written ((s.sfrValue r).getLsbD b) (v.getLsbD b)) ∧
    OtherSfrsSameButTraps s.cycles r s t ∧ PrioritiesSeen s t ∧ SameMemory s t ∧ SameWorking s t ∧ SameAccs s t ∧
    SamePower s t ∧ SameParameters s t := by
  obtain ⟨acc, h⟩ := h
  have hacc : Machine.tableAccess u.stkEff.st r = some acc := (hu.tableAccess r).trans h
  obtain ⟨h1, -, -, hrc, ho⟩ := tableAccess_ne h
  obtain ⟨hothers, hintcon1, hinert, hskid⟩ := goTo_sfrUpdate_others hacc 0xFFFF#16 v rfl rfl rfl s next
  obtain ⟨hpc, hw15, hw, haccs, hmem, hpower, hparams⟩ := goTo_sfrUpdate_keeps hacc 0xFFFF#16 v rfl rfl rfl s next
  have hbits := goTo_sfrUpdate_bit hacc 0xFFFF#16 v rfl rfl rfl s next
  have hseen := hu.only.prioritiesSeen (goTo_sfrUpdate_prioritiesSeen hacc 0xFFFF#16 v rfl rfl rfl s next)
  have hvalue : u.sfrValue r = s.sfrValue r := hu.only.sfrValue r h1 hrc ho
  obtain ⟨hsfrs, hregs⟩ := hothers
  have hraised := hu.raised.trans (raised_of_same hintcon1 hinert hskid)
  refine ⟨⟨hraised.stkErr, hpc, hw15.trans hu.w15⟩, fun acc' b hacc' hb h14 => ?_,
    ⟨fun q hq hq1 hq2 hd hqr hqo => ?_, ?_⟩, hseen, fun a => (hmem a).trans (hu.memory a), ?_⟩
  · obtain rfl := Option.some.inj (hacc'.symm.trans h)
    rw [hbits b hb h14, if_pos (getLsbD_allOnes16 hb)]
    exact congrArg (fun x : Word => (acc' b).written (x.getLsbD b) _) hvalue
  · exact (hsfrs q hq hq1 hq2 hd hqr hqo).trans (hu.only.sfrValue q hq1 hqr hqo)
  all_goals
    obtain ⟨_, _, _, _, _, _, _, _, rfl⟩ := hu.only
  · exact hregs
  · exact ⟨hw, haccs, hpower, hparams⟩

/-- Every bit but STKERR is as before the stack error. -/
theorem RaisedStack.intcon1_getLsbD {b : Nat} (h2 : b ≠ 2) : u.intcon1.getLsbD b = s.intcon1.getLsbD b := by
  rw [(hu.raised.1 b).1]
  simp [accessFlag, h2]

/-- A write of 1 to STKERR leaves the stack error trap pending (R29, R150). -/
theorem RaisedStack.write_stkErr (hv : v.getLsbD 2 = true) :
    (u.stkEff.sfrUpdate .intcon1 0xFFFF#16 v).st.trapPending .stkErr = true := by
  have hnew : (u.intcon1Written 0xFFFF#16 v).getLsbD 2 = true := by
    rw [getLsbD_intcon1Written _ _ _ 2 (by decide) (by decide), if_pos (getLsbD_allOnes16 (by decide)), hv]
  obtain ⟨hflag, hmark⟩ := Bool.and_eq_true_iff.1 (show (u.intcon1.getLsbD 2 && !u.inert.getLsbD 2) = true from
    hu.raised.stkErr_pending)
  rw [Bool.not_eq_true'] at hmark
  have hset : (u.trapFlagsSet 0xFFFF#16 v).getLsbD 2 = false := by
    rw [getLsbD_trapFlagsSet, hflag, Bool.not_true, Bool.and_false, Bool.false_and]
  have hhard : (u.intcon1Eff 0xFFFF#16 v).hardFlag 2 = false := by
    rw [intcon1Eff_hardFlag, hset, Bool.and_false, Bool.false_and]
  obtain ⟨hnewFlag, hnewMark⟩ := getLsbD_intcon1Eff 0xFFFF#16 v u 2
  rw [hnew, hhard] at hnewFlag
  rw [hmark, hset] at hnewMark
  rw [State.stkEff, sfrUpdate_stk _ _ _ _ fun _ => hnew]
  change ((u.intcon1Eff 0xFFFF#16 v).st.intcon1.getLsbD 2 && !(u.intcon1Eff 0xFFFF#16 v).st.inert.getLsbD 2) = true
  rw [hnewFlag, hnewMark]
  simp

/-- A write of INTCON1 that asks for no hard trap (R29, R150; log 24). -/
theorem RaisedStack.write_intcon1 (hsoft : SetsNoHardFlag s v) :
    let t := (u.stkEff.sfrUpdate .intcon1 0xFFFF#16 v).goTo s next
    (t.pc = next ∧ t.w15 = w) ∧ (∀ b, 1 ≤ b → b < 16 → b ≠ 2 → t.intcon1.getLsbD b = v.getLsbD b) ∧
    (v.getLsbD 2 = true → t.trapPending .stkErr = true) ∧ SameMemory s t ∧ QuietButTraps s.cycles s t := by
  have hasks : AsksNoHardTrap u.stkEff.st 0xFFFF#16 v := fun b hb _ hv =>
    (hu.intcon1_getLsbD (by omega)).trans (hsoft b hb hv)
  obtain ⟨haddr, hsw, hosc, honly, hw15, hmem, hbits⟩ := sfrUpdate_intcon1_soft 0xFFFF#16 v u.stkEff hasks
  dsimp only
  rw [goTo_quiet _ _ _ haddr hsw hosc]
  exact ⟨⟨rfl, hw15.trans hu.w15⟩,
    fun b hb1 hb h2 => (hbits b hb1 hb h2).trans (if_pos (getLsbD_allOnes16 hb)),
    fun hv => hu.write_stkErr v hv, fun a => (hmem a).trans (hu.memory a), (hu.only.trans honly).quietButTraps _ _ _⟩

/-- Where the write leaves STKERR alone or 1, it is the write event in the state with the stack error raised
(R150). -/
theorem RaisedStack.write_eq_sfrWrite (h : r ≠ .intcon1 ∨ v.getLsbD 2 = true) (hone : s.wordsAt s.pc = 1) :
    (.next ((u.stkEff.sfrUpdate r 0xFFFF#16 v).goTo s (s.pc + 2)) : Host.Outcome State Fault Refusal) =
      exec (.sfrWrite r v) u := by
  have hkept : r = .intcon1 → (u.intcon1Written 0xFFFF#16 v).getLsbD 2 = true := fun hr => by
    rw [getLsbD_intcon1Written _ _ _ 2 (by decide) (by decide), if_pos (getLsbD_allOnes16 (by decide))]
    exact h.resolve_left (not_not_intro hr)
  have hosc := hu.raised.oscFail_pending
  rw [State.stkEff, sfrUpdate_stk _ _ _ _ hkept, ← after_of_one_word s hone]
  obtain ⟨_, _, _, _, _, _, _, _, rfl⟩ := hu.only
  exact congrArg Host.Outcome.next (settle_congr hosc.symm rfl _)

end

end Sys2Proof.Machine

namespace Sys2Proof.Proofs

open Sys2Proof Sys2Proof.Machine

/-- Settles O35: at memory, at a hole and at a bad address by the end of a PUSH or POP that fails the check; at a
register by the software write that it then is. -/
theorem pushAndPopCheckTheStack : Obligations.PushAndPopCheckTheStack := by
  intro s f a moved trapped both inMemory inRegister inIntcon1 setsNoFlag
  have hhard {v : Word} (h : setsNoFlag v) : SetsNoHardFlag s v := fun b hb =>
    h b (by omega) (by omega) (by omega)
  refine ⟨fun hout => ?push, fun hout => ?pop⟩
  case push =>
    have hstk := (stackFaults_toNat s s.w15).2 hout
    refine ⟨fun heven hfile => ?good, fun hbad hp => ?bad⟩
    case good =>
      have haddr : (!dataImplemented s.dev (fileAddr f) || s.w15.getLsbD 0) = false := by
        rw [heven, show dataImplemented s.dev (fileAddr f) = true from hfile]; rfl
      refine ⟨fun hram => ?memory, fun hhole => ?hole, fun q hd hq => ?register⟩
      case memory =>
        obtain ⟨t, hexec, hpc, hw15, hquiet, hraised, hstored, -⟩ := pushF_end hstk haddr (fun _ _ _ => hram.2) nofun
        obtain ⟨hword, hmem⟩ := hstored rfl hram
        exact ⟨t, hexec, ⟨hraised.stkErr, hpc, hw15⟩, hword, hmem, hquiet⟩
      case hole =>
        obtain ⟨t, hexec, hpc, hw15, hquiet, hraised, -, hmem⟩ :=
          pushF_end hstk haddr (fun _ _ hd => absurd (hhole.symm.trans hd) Bool.false_ne_true) nofun
        exact ⟨t, hexec, ⟨hraised.stkErr, hpc, hw15⟩, hmem (.inr hhole), hquiet⟩
      case register =>
        have hexec := pushF_outside_register hout heven hfile ⟨hd, hq⟩
        have hu := raisedStack_pushOverran s
        refine ⟨fun h => ⟨_, hexec, hu.write_table q _ _ h⟩, ?_,
          fun h hone => hexec.trans (hu.write_eq_sfrWrite q _ h hone)⟩
        rintro rfl hsoft
        exact ⟨_, hexec, hu.write_intcon1 _ _ (hhard hsoft)⟩
    case bad =>
      have haddr : (!dataImplemented s.dev (fileAddr f) || s.w15.getLsbD 0) = true := by
        obtain hodd | hfile := hbad
        · rw [hodd, Bool.or_true]
        · rw [show dataImplemented s.dev (fileAddr f) = false from hfile]; rfl
      have hreg (hd : dataImplemented s.dev (fileAddr f) = true) (heven : s.w15.getLsbD 0 = false)
          (_ : dataImplemented s.dev s.w15 = true) : sfrAt s.dev s.w15.toNat = none := by
        rw [hd, heven] at haddr
        cases haddr
      obtain ⟨t, hexec, hpc, hw15, hquiet, hraised, -, hmem⟩ := pushF_end hstk haddr hreg fun _ => hp
      exact ⟨t, hexec, hraised.stkErr, hraised.addrErr_pending, ⟨hpc, hw15⟩, hmem (.inl rfl), hquiet⟩
  case pop =>
    have hstk := (stackFaults_toNat s (s.w15 - 2)).2 hout
    refine ⟨fun v heven hv => ?good, fun hbad hp => ?bad⟩
    case good =>
      have hgood : ¬ BadRead s (s.w15 - 2) := hv.not_badRead heven
      have hread : s.readFaults .word (s.w15 - 2) = false :=
        Bool.eq_false_iff.2 fun hc => hgood ((readFaults_word s _).1 hc)
      have hvalue := pop_value hgood hv
      refine ⟨fun hram => ?memory, fun hhole => ?hole, fun r hd hr => ?register⟩
      case memory =>
        obtain ⟨t, hexec, hpc, hw15, hquiet, hraised, hstored, -⟩ := popF_end hstk hread (fun _ _ => hram.2) nofun
        obtain ⟨hword, hmem⟩ := hstored rfl hram
        exact ⟨t, hexec, ⟨hraised.stkErr, hpc, hw15⟩, hword.trans hvalue, hmem, hquiet⟩
      case hole =>
        obtain ⟨t, hexec, hpc, hw15, hquiet, hraised, -, hmem⟩ :=
          popF_end hstk hread (fun _ hd => absurd (hhole.symm.trans hd) Bool.false_ne_true) nofun
        exact ⟨t, hexec, ⟨hraised.stkErr, hpc, hw15⟩, hmem (.inr hhole), hquiet⟩
      case register =>
        have hexec := popF_outside_register hout hgood hv (f := f) ⟨hd, hr⟩
        have hu := raisedStack_popOverran s
        refine ⟨fun h => ⟨_, hexec, hu.write_table r v _ h⟩, ?_,
          fun h hone => hexec.trans (hu.write_eq_sfrWrite r v h hone)⟩
        rintro rfl hsoft
        exact ⟨_, hexec, hu.write_intcon1 v _ (hhard hsoft)⟩
    case bad =>
      obtain ⟨t, hexec, hpc, hw15, hquiet, hraised, -, hmem⟩ :=
        popF_end hstk ((readFaults_word s _).2 hbad) nofun fun _ => hp
      exact ⟨t, hexec, hraised.stkErr, hraised.addrErr_pending, ⟨hpc, hw15⟩, hmem (.inl rfl), hquiet⟩

end Sys2Proof.Proofs
end

section
/-! PROOFS. RETURN, GOTO and BRA (spec/41_trap_raising_instructions.md R180, R182 to R184). -/

namespace Sys2Proof.Machine

/-! ## Jumps -/

theorem exec_gotoWord1 (lo : BitVec 15) (hi : BitVec 7) (s : State) :
    exec (.gotoWord1 lo hi) s = .next (s.eff.jump s (0#1 ++ hi ++ lo ++ 0#1)) := rfl

theorem exec_bra (n : BitVec 16) (s : State) :
    exec (.bra n) s = .next (s.eff.jump s (s.pc + 2 + BitVec.ofInt 24 (2 * n.toInt))) := by
  rw [← braTarget_eq]
  rfl

section
variable {s : State} {target : PAddr}

/-- A jump to an implemented address moves `pc` alone (R183, R184). -/
theorem jump_implemented (h : progImplemented s.dev target = true) :
    (s.eff.jump s target).pc = target ∧ Quiet s.cycles s (s.eff.jump s target) := by
  have haddr : (s.eff.addr || !progImplemented s.dev target) = false := by
    rw [h]
    rfl
  have hend := ((accessed_eff s).setAddr (s.eff.addr || !progImplemented s.dev target)).goTo_ok target haddr
  exact ⟨hend.pc, hend.quiet haddr rfl fun _ => rfl⟩

/-- A jump to an unimplemented address raises the address error, at the target (R180, D4). -/
theorem jump_unimplemented (hp : HardTrapPends s) (h : progImplemented s.dev target = false) :
    let t := s.eff.jump s target
    t.pc = target ∧ TrapRaised .addrErr [] s t ∧ t.w15 = s.w15 ∧ SameMemory s t ∧ QuietButTraps s.cycles s t := by
  have haddr : (s.eff.addr || !progImplemented s.dev target) = true := by
    rw [h]
    rfl
  have hend := ((accessed_eff s).setAddr (s.eff.addr || !progImplemented s.dev target)).goTo target fun _ => hp
  have hraised : Raised false true s (s.eff.jump s target) := haddr ▸ hend.raised
  exact ⟨hend.pc, hraised.addrErr, hend.w15, hend.sameMemory fun _ => rfl, hend.quietButTraps⟩

end

end Sys2Proof.Machine

namespace Sys2Proof.Proofs

open Sys2Proof.Machine

/-- Settles O19: the pops of a good stack raise nothing, and of the frame RETURN uses the return address only. -/
theorem returnTakesPcFromStack : Obligations.ReturnTakesPcFromStack := by
  intro s h2 h4 w1 w2
  have hframe : s.eff.popFrame.1 = unframe s.dev w1 w2 := congrArg Prod.fst (popFrame_ok s h2 h4)
  obtain ⟨t, hexec, hpc, hw15, hmem, hquiet, hraised⟩ :=
    ret_end (stackFaults_pops_inside h2.not_outside h4.not_outside)
      (readFaults_pops_good h2.not_badRead h4.not_badRead) nofun
  rw [hframe] at hpc
  refine ⟨t, hexec, hpc, fun hfamily => ?_, hw15, hmem, hquiet.quietButMemory hraised⟩
  rw [hpc, unframe_family s.dev hfamily]

/-- Settles O40: GOTO and BRA are the same jump, to targets of their own. -/
theorem jumpsReachTheirTarget : Obligations.JumpsReachTheirTarget := by
  intro s lo hi n goto bra
  exact ⟨fun h => ⟨_, exec_gotoWord1 lo hi s, jump_implemented h⟩, fun h => ⟨_, exec_bra n s, jump_implemented h⟩,
    fun hp h => ⟨_, exec_gotoWord1 lo hi s, jump_unimplemented hp h⟩,
    fun hp h => ⟨_, exec_bra n s, jump_unimplemented hp h⟩⟩

end Sys2Proof.Proofs
end

section
/-! PROOFS. The causes of the math error (spec/41_trap_raising_instructions.md R171 to R175, R185,
spec/60_exceptions.md R206): SFTAC, the divide in a REPEAT loop, and the accumulator operations. -/

namespace Sys2Proof.Machine

/-! ## The math error -/

/-- A sub-cause and MATHERR are set, and the trap is pending (R170, R206). -/
theorem trapRaised_raiseMath (bit : Nat) (hbit : bit < 16) (s : State) :
    TrapRaised .mathErr [bit] s (s.raiseMath bit) := by
  obtain ⟨hflags, -⟩ := onlyFlags_raiseMath bit hbit s
  refine ⟨?_, fun j hj => ?_⟩
  · rw [hflags.trapPending .mathErr (by simp [TrapKind.flagBit])]
    simp [TrapKind.flagBit]
  · have hj4 : j ≠ 4 := hj
    rw [(hflags j).1, Bool.or_comm]
    simp [beq_eq_decide, hj4]

/-- The trap flags are among what an access may change. -/
theorem OnlyFlags.onlyAccessed {f m : Nat → Bool} {s u : State} (h : OnlyFlags f m s u) : OnlyAccessed s u := by
  obtain ⟨-, _, _, _, _, rfl⟩ := h
  exact ⟨_, _, _, _, _, _, _, _, rfl⟩

/-! ## SFTAC -/

theorem exec_sftac (acc : Acc) (n : ShiftCount) (s : State) :
    exec (.sftac acc n) s =
      .next ((if shiftOutOfRange (shiftCount s n) then s.raiseMath 7 else s.drawAcc acc).endedAt (s.pc + 2) s.cycles
        s.late) :=
  congrArg Host.Outcome.next
    (goTo_map (fun t => if shiftOutOfRange (shiftCount s n) then t.raiseMath 7 else t.drawAcc acc) s (s.pc + 2))

/-- The draw of an accumulator changes nothing else but the draws (R171, R174; log 18). -/
theorem drawAcc_eq (acc : Acc) (s : State) :
    ∃ accA accB, (acc = .a → accB = s.accB) ∧ (acc = .b → accA = s.accA) ∧
      s.drawAcc acc = { s with accA := accA, accB := accB, draws := s.draws + 1 } := by
  cases acc with
  | a => exact ⟨_, _, fun _ => rfl, nofun, rfl⟩
  | b => exact ⟨_, _, nofun, fun _ => rfl, rfl⟩

/-- A shift count raises the math error beyond 16 either way (R174). -/
theorem shiftOutOfRange_iff (n : Int) : shiftOutOfRange n = true ↔ 16 < n ∨ n < -16 := by
  simp [shiftOutOfRange]

/-! ## The divide -/

/-- What a divide leaves before the end of its instruction (R175). -/
def State.divided (d : Int) (s : State) : State := if d = 0 then s.drawDivide.raiseMath 6 else s.drawDivide

theorem divide_eq_map (d : Int) (s : State) : s.eff.divide d = s.eff.map (State.divided d) := by
  unfold Eff.divide State.divided
  split <;> rfl

theorem exec_repeatDiv (d : Int) (s : State) :
    exec (.repeatDiv d) s = .next ((s.divided d).endedAt (s.after s.pc) s.cycles s.late) := by
  rw [← goTo_map (State.divided d), ← divide_eq_map]
  rfl

/-- A REPEAT before a divide is the divide, and goes on past it (R185; log 19). -/
theorem exec_repeatLit_divide {s : State} {d : Int} (k : BitVec 14) (h : s.repeatedDivide = some d) :
    exec (.repeatLit k) s = .next ((s.divided d).endedAt (s.after (s.pc + 2)) s.cycles s.late) := by
  rw [← goTo_map (State.divided d), ← divide_eq_map]
  simp only [exec, execRepeatLit, h]

/-- A divide by zero raises the math error, any other divisor raises nothing; W0 to W14 and SR[4:0] are free. -/
def DivideEnd (s : State) (d : Int) (t : State) : Prop :=
  (d = 0 → TrapRaised .mathErr [6] s t) ∧ (d ≠ 0 → SameTraps s t) ∧
  t.srh = s.srh ∧ t.ipl = s.ipl ∧ SameAccs s t ∧ t.w15 = s.w15 ∧ SameMemory s t ∧
  SameSpecial s t ∧ SameSources s t ∧ SamePower s t ∧ SameParameters s t ∧ Ticked s.cycles s t

/-- A divide raises the math error exactly on a divisor of 0 (R175). -/
theorem divided_traps (d : Int) (s : State) :
    (d = 0 → TrapRaised .mathErr [6] s (s.divided d)) ∧ (d ≠ 0 → SameTraps s (s.divided d)) := by
  refine ⟨fun hzero => ?_, fun hne => ?_⟩
  · rw [State.divided, if_pos hzero]
    exact trapRaised_raiseMath 6 (by omega) s.drawDivide
  · rw [State.divided, if_neg hne]
    exact ⟨rfl, rfl, rfl⟩

/-- A divide changes W0 to W14, SR[4:0] and the trap flags (R175; log 19). -/
theorem divided_eq (d : Int) (s : State) :
    ∃ w flags intcon1 inert skid draws, s.divided d = { s with
      w := w, flags := flags, intcon1 := intcon1, inert := inert, softSkid := skid, draws := draws } := by
  unfold State.divided
  split <;> exact ⟨_, _, _, _, _, _, rfl⟩

theorem divideEnd_endedAt (s : State) (d : Int) (next : PAddr) :
    DivideEnd s d ((s.divided d).endedAt next s.cycles s.late) := by
  obtain ⟨hzero, hne⟩ := divided_traps d s
  obtain ⟨_, _, _, _, _, _, heq⟩ := divided_eq d s
  rw [heq] at hzero hne ⊢
  exact ⟨hzero, hne, rfl, rfl, ⟨rfl, rfl⟩, rfl, fun _ => rfl, ⟨rfl, rfl, rfl, rfl, rfl, rfl⟩, ⟨rfl, rfl, rfl, rfl⟩,
    ⟨rfl, rfl⟩, ⟨rfl, rfl, rfl, rfl⟩, ticked_endedAt next s.cycles s.late s⟩

/-! ## The accumulator operations -/

/-- The result of an accumulator operation and its overflow status, before its traps (R171, R173). -/
def State.accWritten (acc : Acc) (ov : Bool) (s : State) : State := (s.drawAcc acc).setOverflowStatus acc ov

/-- The traps of an overflow and of a catastrophic overflow, where they are enabled (R172). -/
def State.raiseOverflows (acc : Acc) (ov far : Bool) (s : State) : State :=
  let u := if ov then s.raiseOverflow acc else s
  if far then u.raiseFarOverflow acc else u

/-- The trap flags that an overflow and a catastrophic overflow set: each its own bit, and MATHERR with either
(R172). -/
def overflowFlag (acc : Acc) (ovf far : Bool) (j : Nat) : Bool :=
  (j == overflowErrBit acc && ovf) || (j == farOverflowErrBit acc && far) || (j == 4 && (ovf || far))

/-- MATHERR is neither of the sub-causes. -/
theorem overflowFlag_mathErr (acc : Acc) (ovf far : Bool) :
    overflowFlag acc ovf far TrapKind.mathErr.flagBit = (ovf || far) := by
  cases acc <;> simp [overflowFlag, overflowErrBit, farOverflowErrBit, TrapKind.flagBit]

/-- The overflow's flags are not the enable of the catastrophic overflow's trap, so both are judged by the enables
before (R172). -/
theorem onlyFlags_raiseOverflows (acc : Acc) (ov far : Bool) (s : State) :
    let ovf := ov && s.intcon1.getLsbD (overflowEnableBit acc)
    let covf := far && s.intcon1.getLsbD 8
    OnlyFlags (overflowFlag acc ovf covf) (fun j => j == 4 && (ovf || covf)) s (s.raiseOverflows acc ov far) := by
  intro ovf covf
  have hov := (onlyFlags_raiseOverflow acc s _ rfl).ite ov
  have henable : (if ov then s.raiseOverflow acc else s).intcon1.getLsbD 8 = s.intcon1.getLsbD 8 := by
    rw [(hov.1 8).1]
    cases acc <;> simp [overflowErrBit]
  obtain ⟨hflags, hrest⟩ := hov.trans ((onlyFlags_raiseFarOverflow acc _ _ henable).ite far)
  refine ⟨fun j => ?_, hrest⟩
  obtain ⟨hset, hmark⟩ := hflags j
  refine ⟨hset.trans (congrArg (s.intcon1.getLsbD j || ·) ?_), hmark.trans (congrArg (s.inert.getLsbD j && !·) ?_)⟩
  · simp only [overflowFlag, ovf, covf, Bool.and_or_distrib_left]
    ac_rfl
  · simp only [ovf, covf, Bool.and_or_distrib_left]
    ac_rfl

/-- An overflow that its enable does not let through, or that did not come, raises nothing (R172). -/
theorem raiseOverflow_none {acc : Acc} {ov : Bool} {s : State}
    (h : (ov && s.intcon1.getLsbD (overflowEnableBit acc)) = false) :
    (if ov then s.raiseOverflow acc else s) = s := by
  cases ov with
  | false => rfl
  | true =>
    rw [Bool.true_and] at h
    simp only [if_true, State.raiseOverflow, h, Bool.false_eq_true, if_false]

theorem raiseFarOverflow_none {acc : Acc} {far : Bool} {s : State} (h : (far && s.intcon1.getLsbD 8) = false) :
    (if far then s.raiseFarOverflow acc else s) = s := by
  cases far with
  | false => rfl
  | true =>
    rw [Bool.true_and] at h
    simp only [if_true, State.raiseFarOverflow, h, Bool.false_eq_true, if_false]

theorem raiseOverflows_none {acc : Acc} {ov far : Bool} {s : State}
    (h : (ov && s.intcon1.getLsbD (overflowEnableBit acc) || far && s.intcon1.getLsbD 8) = false) :
    s.raiseOverflows acc ov far = s := by
  obtain ⟨hov, hfar⟩ := Bool.or_eq_false_iff.1 h
  simp only [State.raiseOverflows, raiseOverflow_none hov, raiseFarOverflow_none hfar]

/-- The write of an accumulator with its status bit changes nothing else but the draws (R173; log 18). -/
theorem accWritten_eq (acc : Acc) (ov : Bool) (s : State) :
    ∃ accA accB, (acc = .a → accB = s.accB) ∧ (acc = .b → accA = s.accA) ∧
      s.accWritten acc ov = { s with
        accA := accA, accB := accB, srh := setBit s.srh (overflowStatusBit acc) ov, draws := s.draws + 1 } := by
  obtain ⟨accA, accB, hkeptB, hkeptA, hdrawn⟩ := drawAcc_eq acc s
  refine ⟨accA, accB, hkeptB, hkeptA, ?_⟩
  rw [State.accWritten, hdrawn]
  rfl

theorem accWritten_sameTraps (acc : Acc) (ov : Bool) (s : State) : SameTraps s (s.accWritten acc ov) := by
  obtain ⟨_, _, -, -, hwritten⟩ := accWritten_eq acc ov s
  rw [hwritten]
  exact ⟨rfl, rfl, rfl⟩

/-- An accumulator operation before the end of its instruction (R171 to R173). -/
def State.accOperated (acc : Acc) (ov far : Bool) (s : State) : State :=
  (s.accWritten acc ov).raiseOverflows acc ov far

theorem exec_accOp (acc : Acc) (ov31 ov39 : Bool) (s : State) :
    exec (.accOp acc ov31 ov39) s =
      .next ((s.accOperated acc (s.overflows acc ov31) (s.overflowsFar acc ov39)).endedAt (s.after s.pc) s.cycles
        s.late) :=
  congrArg Host.Outcome.next
    (goTo_map (State.accOperated acc (s.overflows acc ov31) (s.overflowsFar acc ov39)) s (s.after s.pc))

/-- The traps of an accumulator operation are enabled as the state before has it: its result changes no enable. -/
theorem accOperated_traps (acc : Acc) (ov far : Bool) (s : State) :
    let ovf := ov && s.intcon1.getLsbD (overflowEnableBit acc)
    let covf := far && s.intcon1.getLsbD 8
    let t := s.accOperated acc ov far
    FlagsSet (overflowFlag acc ovf covf) (fun j => j == 4 && (ovf || covf)) s t ∧
    ((ovf || covf) = false → SameTraps s t) := by
  intro ovf covf t
  obtain ⟨hintcon1, hinert, hskid⟩ := accWritten_sameTraps acc ov s
  obtain ⟨hflags, -⟩ := onlyFlags_raiseOverflows acc ov far (s.accWritten acc ov)
  simp only [FlagsSet, hintcon1, hinert] at hflags
  refine ⟨hflags, fun hnone => ?_⟩
  have hquiet : t = s.accWritten acc ov := raiseOverflows_none (by rwa [hintcon1])
  rw [hquiet]
  exact ⟨hintcon1, hinert, hskid⟩

/-- What an accumulator operation changes: its accumulator, its status bit, and the trap flags (R171 to R173;
log 18). -/
theorem accOperated_eq (acc : Acc) (ov far : Bool) (s : State) :
    ∃ accA accB intcon1 inert skid draws, (acc = .a → accB = s.accB) ∧ (acc = .b → accA = s.accA) ∧
      s.accOperated acc ov far = { s with
        accA := accA, accB := accB, srh := setBit s.srh (overflowStatusBit acc) ov, intcon1 := intcon1,
        inert := inert, softSkid := skid, draws := draws } := by
  obtain ⟨accA, accB, hkeptB, hkeptA, hwritten⟩ := accWritten_eq acc ov s
  obtain ⟨-, intcon1, inert, skid, draws, hraised⟩ := onlyFlags_raiseOverflows acc ov far (s.accWritten acc ov)
  refine ⟨accA, accB, intcon1, inert, skid, draws, hkeptB, hkeptA, hraised.trans ?_⟩
  rw [hwritten]

/-- The status bit of an accumulator lies in SR[15:8] (R173). -/
theorem overflowStatusBit_lt (acc : Acc) : overflowStatusBit acc < 8 := by cases acc <;> decide

end Sys2Proof.Machine

namespace Sys2Proof.Proofs

open Sys2Proof.Machine

/-- Settles O37: the count decides between the draw of the accumulator and the math error. -/
theorem sftacTrapsBeyondSixteen : Obligations.SftacTrapsBeyondSixteen := by
  intro s acc n
  refine ⟨fun hlow hhigh => ⟨_, exec_sftac acc n s, ?_⟩, fun hfar => ⟨_, exec_sftac acc n s, ?_⟩⟩
  · have hin : ¬ shiftOutOfRange (shiftCount s n) = true := by
      rw [shiftOutOfRange_iff]
      omega
    rw [if_neg hin]
    obtain ⟨_, _, hkeptB, hkeptA, hdrawn⟩ := drawAcc_eq acc s
    rw [hdrawn]
    exact ⟨rfl, hkeptB, hkeptA, rfl, fun _ => rfl, rfl, ⟨rfl, rfl, rfl⟩,
      ⟨⟨rfl, rfl, rfl, rfl, rfl, rfl⟩, ⟨rfl, rfl, rfl⟩, ⟨rfl, rfl, rfl, rfl⟩, ⟨rfl, rfl⟩, rfl, rfl, rfl, rfl⟩,
      ticked_endedAt (s.pc + 2) s.cycles s.late s⟩
  · rw [if_pos ((shiftOutOfRange_iff _).2 hfar)]
    exact ⟨rfl, trapRaised_raiseMath 7 (by omega) s, rfl, fun _ => rfl,
      (onlyFlags_raiseMath 7 (by omega) s).onlyAccessed.quietButTraps (s.pc + 2) s.late s.cycles⟩

/-- Settles O38: both events are the same divide, and go on to places of their own. -/
theorem divideByZeroTraps : Obligations.DivideByZeroTraps := by
  intro s d divided
  exact ⟨⟨_, exec_repeatDiv d s, rfl, divideEnd_endedAt s d _⟩,
    fun k h => ⟨_, exec_repeatLit_divide k h, rfl, divideEnd_endedAt s d _⟩⟩

/-- Settles O39: the status bit is written whether the trap is enabled or not, and the two traps set their flags one
after the other. -/
theorem accumulatorOverflowTraps : Obligations.AccumulatorOverflowTraps := by
  intro s acc ov31 ov39 sat ov ovf far
  have hsat : s.saturates acc = sat := by cases acc <;> rfl
  have hov : s.overflows acc ov31 = ov := by rw [State.overflows, hsat]
  have hfar : s.overflowsFar acc ov39 = (ov39 && !sat) := by rw [State.overflowsFar, hsat]
  have hexec := exec_accOp acc ov31 ov39 s
  rw [hov, hfar] at hexec
  obtain ⟨hflags, hnone⟩ := accOperated_traps acc ov (ov39 && !sat) s
  have hpending := hflags.trapPending .mathErr (overflowFlag_mathErr acc ovf far).symm
  rw [overflowFlag_mathErr] at hpending
  obtain ⟨_, _, _, _, _, _, hkeptB, hkeptA, heq⟩ := accOperated_eq acc ov (ov39 && !sat) s
  rw [heq] at hexec hflags hnone hpending
  exact ⟨_, hexec, rfl, getLsbD_setBit_self _ _ _ (overflowStatusBit_lt acc),
    fun j hj => getLsbD_setBit_ne _ _ _ _ hj, rfl, rfl,
    fun j => (hflags j).1.trans (by simp only [overflowFlag, Bool.or_assoc]; rfl),
    fun hraised => hpending.trans (by rw [hraised, Bool.true_or]), hnone, hkeptB, hkeptA, rfl, fun _ => rfl, rfl,
    ⟨rfl, rfl, rfl, rfl, rfl, rfl⟩, ⟨rfl, rfl, rfl, rfl⟩, ⟨rfl, rfl⟩, ⟨rfl, rfl, rfl, rfl⟩,
    ticked_endedAt (s.after s.pc) s.cycles s.late s⟩

end Sys2Proof.Proofs
end

section
/-! PROOFS. The candidates of a boundary (spec/60_exceptions.md R208, R215, R219, R221), and the traps among them, which
no code below their priority holds back (R202, R209, R210, R220). -/

namespace Sys2Proof.Machine

/-! ## The candidates -/

/-- The traps among the candidates (R219). -/
theorem trap_mem_candidates (s : State) (k : TrapKind) :
    Request.trap k ∈ s.candidates ↔ s.trapPending k = true ∧ (k.hard = true ∨ s.softSkid = false) := by
  have hall : k ∈ ([.oscFail, .addrErr, .stkErr, .mathErr, .dmaErr] : List TrapKind) := by cases k <;> decide
  simp [State.candidates, State.trapCandidate, -List.mem_cons, hall]

/-- A priority that DISI does not mask is 0 or 7 (R221). -/
theorem unmasked_iff (f : BitVec 3) :
    (decide (1 ≤ f.toNat) && decide (f.toNat ≤ 6)) = false ↔ f = 0 ∨ f = 7 := by
  revert f
  decide

theorem irqCandidate_iff (s : State) (n : Nat) :
    s.irqCandidate n = true ↔
      s.requests n = true ∧ (s.disi = true → s.seenField n = 0 ∨ s.seenField n = 7) := by
  rw [State.irqCandidate, Bool.and_eq_true, Bool.not_eq_true', Bool.and_assoc, Bool.and_eq_false_imp, unmasked_iff]

/-! ## The taken trap -/

/-- A candidate whose priority exceeds `cpu_ipl` is taken, unless one of at least its priority is (R219, R220). -/
theorem exists_taken {s : State} {r : Request} (hr : r ∈ s.candidates) (hlt : s.cpuIpl < s.priority r) :
    ∃ q, s.taken = some q ∧ s.priority r ≤ s.priority q := by
  cases hbest : s.best with
  | none => exact absurd (bestOf_none s _ hbest ▸ hr) List.not_mem_nil
  | some q =>
    have hmax : s.priority r ≤ s.priority q := bestOf_max s _ q hbest r hr
    exact ⟨q, (taken_eq_some_iff s q).2 ⟨hbest, by omega⟩, hmax⟩

/-- The lowest trap has priority 10 (R201). -/
theorem TrapKind.ten_le_priority (k : TrapKind) : 10 ≤ k.priority := by cases k <;> decide

/-- A trap is hard exactly from priority 13 on (R200, R201). -/
theorem TrapKind.hard_iff (k : TrapKind) : k.hard = true ↔ 13 ≤ k.priority := by cases k <;> decide

/-- A pending trap that exceeds `cpu_ipl` is taken, unless another trap of at least its priority is: no interrupt has
a priority above 7 (R202, R218, R220). -/
theorem exists_taken_trap {s : State} {k : TrapKind} (hk : Request.trap k ∈ s.candidates)
    (hlt : s.cpuIpl < k.priority) : ∃ q, s.taken = some (.trap q) ∧ k.priority ≤ q.priority := by
  obtain ⟨r, hr, hle⟩ := exists_taken hk hlt
  cases r with
  | trap q => exact ⟨q, hr, hle⟩
  | irq n =>
    have hle : k.priority ≤ (s.seenField n).toNat := hle
    have := (s.seenField n).isLt
    have := k.ten_le_priority
    omega

end Sys2Proof.Machine

namespace Sys2Proof.Proofs

open Sys2Proof.Machine

/-- Settles O10: the candidates are two filtered lists, of the traps and of the IRQ numbers, and DISI masks every
priority but 0 and 7. -/
theorem candidatesAreTheRequests : Obligations.CandidatesAreTheRequests := by
  refine fun s => ⟨trap_mem_candidates s, fun n => ?_, seenField_of_race_nil s⟩
  rw [irq_mem_candidates, irqCandidate_iff, requests_iff, and_assoc, and_assoc]

/-- Settles O13: every trap exceeds `cpu_ipl` 7, so a trap is taken. -/
theorem trapsCannotBeMasked : Obligations.TrapsCannotBeMasked := by
  intro s k hpending hopen hipl
  have := k.ten_le_priority
  exact exists_taken_trap ((trap_mem_candidates s k).2 ⟨hpending, hopen⟩) (by omega)

/-- Settles O14: a trap of at least a hard trap's priority is hard itself, and no soft trap is a candidate under
`soft_skid`. -/
theorem hardTrapHoldsTheProgram : Obligations.HardTrapHoldsTheProgram := by
  intro s k
  refine ⟨fun hhard hpending hipl => ?_, fun hskid htaken => ?_⟩
  · have hk13 := k.hard_iff.1 hhard
    obtain ⟨q, htaken, hle⟩ := exists_taken_trap ((trap_mem_candidates s k).2 ⟨hpending, .inl hhard⟩) (by omega)
    have hq : q.hard = true := q.hard_iff.2 (by omega)
    cases q with
    | oscFail => exact .inl htaken
    | addrErr => exact .inr htaken
    | stkErr | mathErr | dmaErr => cases hq
  · obtain ⟨-, hhard | hopen⟩ := (trap_mem_candidates s k).1 (taken_candidate s _ htaken).1
    · exact hhard
    · cases hskid.symm.trans hopen

end Sys2Proof.Proofs
end

section
/-! PROOFS. The return from an exception undoes its entry (spec/60_exceptions.md R225, R233,
spec/40_interrupt_control_instructions.md R145). -/

namespace Sys2Proof.Machine

/-! ## The views of SR -/

/-- The low byte of SR holds its two fields (R23). -/
theorem srl_eq_iff {s t : State} : t.srl = s.srl ↔ t.ipl = s.ipl ∧ t.flags = s.flags := append_eq_append_iff

/-! ## The stack after an entry -/

/-- A good stack address stays one where the device and the limits of the stack are the same. -/
theorem StackOk.congr {s t : State} {a : Word} (h : StackOk s a) (hdev : t.dev = s.dev) (hsplim : t.splim = s.splim)
    (hwritten : t.splimWritten = s.splimWritten) : StackOk t a := by
  unfold StackOk PlainRam at *
  rwa [hdev, hsplim, hwritten]

/-- RETFIE is the return from an exception (R145). -/
theorem exec_retfie_return (s : State) : exec .retfie s = .next (returnFromException s) := rfl

end Sys2Proof.Machine

namespace Sys2Proof.Proofs

open Sys2Proof.Machine

/-- Settles O18: the return reads the two words that the entry wrote, from which `Unframe` gives back what `Frame` was
given; no other register of the statement changes in either. -/
theorem returnUndoesEntry : Obligations.ReturnUndoesEntry := by
  intro s r h1 h2 hlaw t
  obtain ⟨hfirst, hsecond, hrest⟩ := takeException_ok_memory r h1 h2
  obtain ⟨hw, ⟨haccA, haccB⟩, -, ⟨hifs, hiec, hipc, hrace⟩, hparams, hsrh, -, hsplim, hwritten, -⟩ :=
    takeException_ok_keeps r h1 h2
  have ⟨_, _, _, hdev⟩ := hparams
  have hw15 : (takeException r s).w15 = s.w15 + 4 := by simp [takeException_ok s r h1 h2]
  have hpop1 : (takeException r s).w15 - 4 = s.w15 := by rw [hw15, BitVec.add_sub_cancel]
  have hpop2 : (takeException r s).w15 - 2 = s.w15 + 2 := by rw [hw15]; bv_omega
  have hunframe : unframe (takeException r s).dev ((takeException r s).wordAt ((takeException r s).w15 - 4).toNat)
      ((takeException r s).wordAt ((takeException r s).w15 - 2).toNat) = (s.pc, s.srl, s.ipl3) := by
    rw [hpop1, hpop2, toNat_add_two _ (w15_lt_of_room s h2), hfirst, hsecond, hdev]
    exact hlaw s.srl s.ipl3
  obtain ⟨-, t', hreturn, hpc, hsrl, hipl3, htw15, htsrh, -, -, -, -, -, -, htw, ⟨htaccA, htaccB⟩, -,
      ⟨htifs, htiec, htipc, htrace⟩, -, htparams, htmem, -⟩ :=
    retfieRestoresFromStack (takeException r s) (hpop2 ▸ h2.congr hdev hsplim hwritten)
      (hpop1 ▸ h1.congr hdev hsplim hwritten)
  obtain rfl : t = t' := by injection (exec_retfie_return _).symm.trans hreturn
  rw [hunframe] at hpc hsrl hipl3
  obtain ⟨hipl, hflags⟩ := srl_eq_iff.1 hsrl
  have hsr : t.sr = s.sr := by rw [State.sr, htsrh, hsrh, hipl, hflags]; rfl
  have hcpu : t.cpuIpl = s.cpuIpl := by rw [State.cpuIpl, hipl3, hipl]; rfl
  exact ⟨hpc, hsr, hipl3, hcpu, htw15.trans hpop1, htw.trans hw, ⟨htaccA.trans haccA, htaccB.trans haccB⟩,
    ⟨htifs.trans hifs, htiec.trans hiec, htipc.trans hipc, htrace.trans hrace⟩, hparams.trans htparams,
    fun b hb => (htmem b).trans (hrest b hb)⟩

end Sys2Proof.Proofs
end

section
/-! PROOFS. The events of the environment but those of peripherals (spec/60_exceptions.md R203, R207, R214, R216, R240,
R245, R270): pin changes, the hardware traps, and the external reset. -/

namespace Sys2Proof.Machine

/-! ## Pin changes -/

/-- An edge of the chosen polarity: the level changes, to the one that the polarity bit does not name (R30, R240). -/
theorem edge_eq (polarity old level : Bool) :
    ((!polarity && !old && level) || (polarity && old && !level)) = (old != level && level != polarity) := by
  revert polarity old level
  decide

/-- A pin change samples the pin, and sets the flag of INTk at an edge of the chosen polarity (R240). -/
theorem pinChange_eq (k : Fin 3) (level : Bool) (s : State) :
    s.pinChange k level =
      if s.pins[k] != level && level != s.edgePolarity k then
        ({ s with pins := s.pins.set k level } : State).setIfs (intIrq k)
      else { s with pins := s.pins.set k level } := by
  simp only [State.pinChange, edge_eq]

/-- A pin change changes the pins and the IFSx registers only (R240). -/
theorem pinChange_only (k : Fin 3) (level : Bool) (s : State) :
    s.pinChange k level = { s with pins := s.pins.set k level, ifs := (s.pinChange k level).ifs } := by
  rw [pinChange_eq]
  split
  · exact setIfs_eq _ _
  · rfl

/-- The flags after a pin change (R65, R240). -/
theorem ifsBit_pinChange (k : Fin 3) (level : Bool) (s : State) (m : Nat) (hm : m < 80) :
    (s.pinChange k level).ifsBit m =
      (s.ifsBit m || (hasSource s.dev m && m == intIrq k && s.pins[k] != level && level != s.edgePolarity k)) := by
  have hsource : (hasSource s.dev (intIrq k) && m == intIrq k) = (hasSource s.dev m && m == intIrq k) := by
    by_cases h : m = intIrq k
    · rw [h]
    · rw [beq_false_of_ne h, Bool.and_false, Bool.and_false]
  rw [pinChange_eq, Bool.and_assoc (_ && _)]
  split
  · next hedge =>
    rw [ifsBit_setIfs _ _ _ hm, hedge, Bool.and_true, ← hsource]
    rfl
  · next hedge =>
    rw [Bool.eq_false_iff.2 hedge, Bool.and_false, Bool.or_false]
    rfl

/-- The event of a pin changes the pins, the IFSx registers and the power mode only (R240, R245). -/
theorem envEvent_pinChange_eq (k : Fin 3) (level : Bool) (s : State) :
    envEvent (.pinChange k level) s =
      { s with
        pins := s.pins.set k level, ifs := (s.pinChange k level).ifs
        power := (envEvent (.pinChange k level) s).power } :=
  (wakeIfRequested_eq (s.pinChange k level)).trans
    (congrArg (fun u : State => { u with power := (s.pinChange k level).wakeIfRequested.power })
      (pinChange_only k level s))

/-! ## The end of Sleep and Idle -/

/-- Sleep and Idle end, Halt does not (R214, D30). -/
theorem wake_power (s : State) : s.wake.power = if s.power = .halt then .halt else .run := by
  unfold State.wake
  cases h : s.power <;> simp [h]

/-- The end of Sleep and Idle changes the power mode only. -/
theorem wake_eq (s : State) : s.wake = { s with power := if s.power = .halt then .halt else .run } := by
  rw [← wake_power s]
  unfold State.wake
  split <;> rfl

theorem wake_cf (s : State) : s.wake.cf = s.cf := by rw [wake_eq]

theorem TrapRaised.wake {k : TrapKind} {alsoSet : List Nat} {s t : State} (h : TrapRaised k alsoSet s t) :
    TrapRaised k alsoSet s t.wake := by
  rw [wake_eq]
  exact h

/-! ## The hardware traps -/

/-- The flag of a trap is set and pending, and no other bit of INTCON1 changes (R203, R204). -/
theorem trapRaised_setTrapFlag (k : TrapKind) (s : State) : TrapRaised k [] s (s.setTrapFlag k) := by
  refine ⟨setTrapFlag_pending k s, fun j hj => ?_⟩
  simpa using getLsbD_setBit_ne s.intcon1 _ _ true hj

/-- A soft trap sets the flag that a hard one would (R205 to R207). -/
theorem trapRaised_raiseSoft (k : TrapKind) (s : State) : TrapRaised k [] s (s.raiseSoft k) :=
  trapRaised_setTrapFlag k s

/-- The oscillator failure trap is pending, and OSCCON.CF is set (R203). -/
def State.oscFailed (s : State) : State := ({ s with cf := true } : State).setTrapFlag .oscFail

/-- An oscillator failure below its own level is pending (R203, R210). -/
theorem envEvent_oscFail_below {s : State} (h : s.cpuIpl < 14) : envEvent .oscFail s = s.oscFailed.wake := by
  have hlevel : decide (14 ≤ s.cpuIpl) = false := decide_eq_false (by omega)
  simp [envEvent, Eff.settle, State.eff, hlevel, State.oscFailed]

/-- An oscillator failure at its own level or above resets the device or halts it (R214; log 11). -/
theorem envEvent_oscFail_sameLevel {s : State} (h : 14 ≤ s.cpuIpl) :
    envEvent .oscFail s = s.oscFailed.sameLevel.wake := by
  simp [envEvent, Eff.settle, State.eff, h, State.oscFailed]

/-- A DMA collision that comes with a CPU data write raises the DMA error (R207). -/
theorem envEvent_dmaCollision_write {s : State} (h : s.dataWrite = true) :
    envEvent .dmaCollision s = (s.raiseSoft .dmaErr).wake := if_pos h

/-- A DMA collision without a CPU data write is no event (R216, log 28). -/
theorem envEvent_dmaCollision_quiet {s : State} (h : s.dataWrite = false) : envEvent .dmaCollision s = s :=
  if_neg (Bool.eq_false_iff.1 h)

/-- The two outcomes of the same-level case, neither of which a wake-up changes (R214). -/
theorem wake_sameLevel (s : State) :
    s.sameLevel.wake = deviceReset .trapConflict s.bump ∨ s.sameLevel.wake = { s.bump with power := .halt } := by
  unfold State.sameLevel
  split
  · exact .inl rfl
  · exact .inr rfl

end Sys2Proof.Machine

namespace Sys2Proof.Proofs

open Sys2Proof.Machine

/-- Settles O54: the pin is sampled, the edge decides about the flag, and the wake-up changes the power mode alone. -/
theorem pinEdgeSetsItsFlag : Obligations.PinEdgeSetsItsFlag := by
  intro s k level rest hturn
  have hkept : (({ s with turns := rest } : State).pinChange k level).power = s.power := by rw [pinChange_only]
  have hwoken : WokenByRequest s (envEvent (.pinChange k level) { s with turns := rest }) :=
    wokenByRequest_wakeIfRequested hkept
  have hflags := ifsBit_pinChange k level { s with turns := rest }
  have hpins (j : Fin 3) (hj : j ≠ k) : (s.pins.set k level)[j] = s.pins[j] :=
    Vector.getElem_set_ne _ _ fun h => hj (Fin.ext h.symm)
  refine ⟨_, step_env s _ rest hturn, ?_⟩
  rw [envEvent_pinChange_eq] at hwoken ⊢
  exact ⟨rfl, Vector.getElem_set_self _, hpins, hflags, rfl, rfl, rfl, rfl, rfl, hwoken, ⟨rfl, rfl, rfl⟩, rfl, rfl,
    ⟨rfl, rfl, rfl, rfl, rfl, rfl⟩, ⟨rfl, rfl, rfl⟩, rfl, ⟨rfl, rfl⟩, fun _ => rfl, ⟨rfl, rfl, rfl, rfl⟩⟩

/-- Settles O55: each event is one change of the flags and then the end of Sleep and Idle, or the reset of the
device. -/
theorem hardwareTrapsArePending : Obligations.HardwareTrapsArePending := by
  intro s ev rest hturn kept
  have hstep := step_env s ev rest hturn
  have hkept (intcon1 inert : Word) (skid cf : Bool) (draws : Nat) : kept (State.wake { s with
      intcon1 := intcon1, inert := inert, softSkid := skid, cf := cf, draws := draws, turns := rest }) := by
    rw [wake_eq]
    exact ⟨rfl, rfl, rfl, rfl, ⟨rfl, rfl, rfl⟩, rfl, ⟨rfl, rfl⟩, fun _ => rfl, ⟨rfl, rfl, rfl, rfl⟩,
      ⟨rfl, rfl, rfl, rfl⟩, rfl, rfl, rfl, rfl, rfl, rfl, rfl, rfl⟩
  refine ⟨?_, ?_, ?_, ?_, ?_⟩
  · rintro rfl hipl
    have hpends := envEvent_oscFail_below (s := { s with turns := rest }) hipl
    exact ⟨_, hstep.trans (congrArg _ hpends),
      (trapRaised_setTrapFlag .oscFail { s with cf := true, turns := rest }).wake, wake_cf _, hkept _ _ _ _ _⟩
  · rintro rfl hipl
    have hlevel := envEvent_oscFail_sameLevel (s := { s with turns := rest }) hipl
    obtain hreset | hhalt := wake_sameLevel ({ s with turns := rest } : State).oscFailed
    · exact ⟨_, hstep.trans (congrArg _ (hlevel.trans hreset)), rfl,
        .inl (conflictReset_of _ _ ⟨rfl, rfl, rfl, rfl⟩)⟩
    · exact ⟨_, hstep.trans (congrArg _ (hlevel.trans hhalt)), rfl,
        .inr ⟨rfl, trapRaised_setTrapFlag .oscFail s, rfl, rfl, fun _ => rfl⟩⟩
  · rintro rfl hwrite
    have hcollides := envEvent_dmaCollision_write (s := { s with turns := rest }) hwrite
    exact ⟨_, hstep.trans (congrArg _ hcollides), (trapRaised_raiseSoft .dmaErr { s with turns := rest }).wake,
      wake_cf _, hkept _ _ _ _ _⟩
  · rintro rfl hquiet
    exact hstep.trans (congrArg _ (envEvent_dmaCollision_quiet hquiet))
  · rintro rfl
    exact ⟨_, hstep, rfl, rfl, rfl, rfl, deviceReset_sr .external _, rfl, rfl, rfl, rfl, rfl, rfl, rfl,
      reset_flags_enables, deviceReset_ipcField .external _, ⟨rfl, rfl, rfl, rfl⟩⟩

end Sys2Proof.Proofs
end
